-- ==== Sys2Proof/Word.lean ====
section
/-! DEFINITION. The word types of BZ2DEC: bytes of the two streams and 32-bit registers. -/

namespace Sys2Proof

/-- A byte of the input or output stream (20_memory.md R47). -/
abbrev Byte := BitVec 8

/-- A 32-bit register: a CRC or a status register (10_state.md R19, R29). -/
abbrev Word := BitVec 32

end Sys2Proof
end

