-- ==== Sys2Proof/Config.lean ====
section
/-! DEFINITION. The two parameters a model of BZ2DEC takes (00_scope.md R8). They are constant for a run
(70_reset_and_hazards.md R219); State carries them because the step has no other argument (log entry 2). -/

namespace Sys2Proof

/-- The parameters of 00_scope.md R8. -/
structure Config where
  /-- `STRICT_BLOCK_MAGIC`: an unrecognised block magic is an error (41_framer.md R104, D9). -/
  strictBlockMagic : Bool
  /-- `RNUMS_TRUSTED`: randomised blocks are decoded with the table of 45_output.md R162 (D30). -/
  rnumsTrusted : Bool
  deriving DecidableEq, Repr

/-- The defaults of 00_scope.md R8: both `true`. -/
def Config.default : Config := { strictBlockMagic := true, rnumsTrusted := true }

end Sys2Proof
end

