-- ==== Sys2Proof/Syntax.lean ====
section
/-! DEFINITION. The instruction set: one constructor per row of spec/opcode_table.json, with the operands its rule
gives it; and the data an element's bits are read with (what stands next in the grammar, a Huffman table). -/

namespace Sys2Proof

/-- The errors of 60_exceptions.md R188, one per (code, reason) row; `Machine/Ops.lean` numbers them. -/
inductive StreamError where
  /-- `InvalidHeader(MAGIC)`: one of the first three bytes is not 'B' 'Z' 'h' (R99). -/
  | headerMagic
  /-- `InvalidHeader(LEVEL)`: the fourth byte is not '1'..'9' (R101). -/
  | headerLevel
  /-- `InvalidHeader(SHORT)`: the input ends inside the 4-byte header (R100). -/
  | headerShort
  /-- `InvalidBlockHeader`: the 48-bit magic is neither block nor end magic (R104). -/
  | blockMagic
  /-- `CrcMismatch(BLOCK)` (R170). -/
  | crcBlock
  /-- `CrcMismatch(COMBINED)` (R113). -/
  | crcCombined
  /-- `UnexpectedEndOfStream`: end of input inside a field after the header (R91). -/
  | endOfInput
  /-- `InternalConsistency(NO_SYMBOLS)` (R120). -/
  | noSymbols
  /-- `InternalConsistency(BAD_GROUPS)` (R124). -/
  | badGroups
  /-- `InternalConsistency(BAD_SELECTORS)` (R125). -/
  | badSelectors
  /-- `InternalConsistency(BAD_SELECTOR)` (R126). -/
  | badSelector
  /-- `InternalConsistency(BAD_LENGTH)` (R129). -/
  | badLength
  /-- `InternalConsistency(OVERSUBSCRIBED)` (R132). -/
  | oversubscribed
  /-- `InternalConsistency(SELECTOR_OVERRUN)` (R139). -/
  | selectorOverrun
  /-- `InternalConsistency(BAD_CODE)` (R140). -/
  | badCode
  /-- `InternalConsistency(BLOCK_OVERFLOW)` (R143). -/
  | blockOverflow
  /-- `InternalConsistency(BAD_ORIGPTR)` (R150). -/
  | badOrigPtr
  /-- `InternalConsistency(RLE_TRUNCATED)` (R167). -/
  | rleTruncated
  deriving DecidableEq, Repr

/-- One table of the Huffman table file (10_state.md R23), each file with the width and depth R23 gives. -/
structure HuffTable where
  len : Vector (BitVec 5) 258
  minLen : BitVec 5
  maxLen : BitVec 5
  count : Vector (BitVec 9) 21
  firstCode : Vector (BitVec 21) 21
  firstIdx : Vector (BitVec 9) 21
  perm : Vector (BitVec 9) 258
  deriving DecidableEq, Repr

/-- What stands next at a port or in the stream, and so how the next bits are read (30_encoding.md R64, R71, R76). -/
inductive Expect where
  /-- a command word at the host port (R72) -/
  | command
  /-- a 9-bit answer at the source port (R72) -/
  | sourceAnswer
  | shMagic
  | shLevel
  /-- a 48-bit magic: `BH_MAGIC` or `EOS_MAGIC` (R103) -/
  | blockMagic
  | bhCrc
  | bhRand
  | bhOrigptr
  | mapL1
  | mapL2
  | tbNgroups
  | tbNsel
  /-- a selector, under the limit `nGroups` (R126) -/
  | selector (limit : Nat)
  | tbLenStart
  /-- `TB_LEN_INC`, `TB_LEN_DEC` or `TB_LEN_STOP` (R129) -/
  | lencode
  /-- a Huffman symbol of table `t` in a block with `nInUse` byte values (R140, R141) -/
  | symbol (t : HuffTable) (nInUse : Nat)
  | trCrc
  | trPad
  deriving DecidableEq, Repr

/-- The instruction set: the 29 rows of spec/opcode_table.json. -/
inductive Instr where
  /-- `SH_MAGIC`, the signature 'B' 'Z' 'h' (R99) -/
  | shMagic
  /-- `SH_LEVEL`, the block-size digit: the whole byte read (R101) -/
  | shLevel (d : BitVec 8)
  /-- `BH_MAGIC` (R103) -/
  | bhMagic
  /-- `EOS_MAGIC` (R105) -/
  | eosMagic
  /-- `BH_CRC`, the stored block CRC (R106) -/
  | bhCrc (c : BitVec 32)
  /-- `BH_RAND`, the randomised flag (R107) -/
  | bhRand (r : BitVec 1)
  /-- `BH_ORIGPTR`, the origin pointer (R108) -/
  | bhOrigptr (p : BitVec 24)
  /-- `MAP_L1`, first level of the in-use bitmap (R117) -/
  | mapL1 (u : BitVec 16)
  /-- `MAP_L2`, second level of the in-use bitmap (R118) -/
  | mapL2 (v : BitVec 16)
  /-- `TB_NGROUPS` (R124) -/
  | tbNgroups (g : BitVec 3)
  /-- `TB_NSEL` (R125) -/
  | tbNsel (k : BitVec 15)
  /-- `TB_SELECTOR`, the count of 1-bits before the 0 (R126) -/
  | tbSelector (j : BitVec 3)
  /-- `TB_LEN_START` (R128) -/
  | tbLenStart (l : BitVec 5)
  /-- `TB_LEN_INC` (R129) -/
  | tbLenInc
  /-- `TB_LEN_DEC` (R129) -/
  | tbLenDec
  /-- `TB_LEN_STOP` (R130) -/
  | tbLenStop
  /-- `SYM_RUNA`, symbol 0 (R142) -/
  | symRuna
  /-- `SYM_RUNB`, symbol 1 (R142) -/
  | symRunb
  /-- `SYM_MTF`, symbol `n` with `2 ≤ n ≤ nInUse` (R146) -/
  | symMtf (n : BitVec 9)
  /-- `SYM_EOB`, symbol `nInUse + 1` (R148) -/
  | symEob
  /-- `TR_CRC`, the stored combined CRC (R113) -/
  | trCrc (c : BitVec 32)
  /-- `TR_PAD`, the pad bits (R114) -/
  | trPad (x : List Bool)
  /-- `CMD_OPEN` (R176) -/
  | cmdOpen
  /-- `CMD_READ` (R178) -/
  | cmdRead
  /-- `CMD_READ_BYTES`, the pseudo-command, with the buffer length (R181) -/
  | cmdReadBytes (n : Nat)
  /-- `CMD_CLOSE` (R182) -/
  | cmdClose
  /-- `CMD_STATUS`, with the register index (R184) -/
  | cmdStatus (i : BitVec 4)
  /-- `SRC_DATA`, the source's answer `DATA(b)` (R92) -/
  | srcData (b : BitVec 8)
  /-- `SRC_EOI`, the source's answer `EOI` (R92) -/
  | srcEoi
  deriving DecidableEq, Repr

end Sys2Proof
end

