-- ==== Sys2Proof/Machine/State.lean ====
section
/-! DEFINITION. The state of BZ2DEC: every register, register file and internal memory of 10_state.md and
20_memory.md, the two ports, and the temporaries of the rules' pseudocode that live from one step of the model to
the next; the reasons a step can stop; the state after reset (70_reset_and_hazards.md R206). -/

namespace Sys2Proof.Machine

/-! The phase register and the place inside a phase. -/

/-- Which element of the stream header is read next (41_framer.md R99, R101). -/
inductive HeaderPos where
  | magic
  | level
  deriving DecidableEq, Repr

/-- Which step of the table parse is next (41_framer.md R106 to R108, 42_tables.md R116). -/
inductive TablesPos where
  | crc
  | rand
  | origptr
  | mapL1
  | mapL2
  /-- build the in-use list and check it (R119, R120, R123) -/
  | alphabet
  | ngroups
  | nsel
  | selector
  /-- MTF-decode the selectors (R127) -/
  | selectorList
  | lenStart
  | lencode
  /-- build and check the decode table `tblIdx` (R131, R132) -/
  | build
  /-- start the symbol decoder (R134, 43_symbols.md R138) -/
  | symbolInit
  deriving DecidableEq, Repr

/-- Which part of a `BLOCK_SYMBOLS` action is next (43_symbols.md R136). -/
inductive SymbolsPos where
  /-- select the group's table (R139) -/
  | group
  /-- decode one symbol (R140) and apply it -/
  | code
  deriving DecidableEq, Repr

/-- The phase register (10_state.md R15), each phase with the model's place inside it (log entry 4). The reserved
values 11 to 15 are not values of the type. -/
inductive Phase where
  | closed
  | streamHeader (pos : HeaderPos)
  | blockHeader
  | blockTables (pos : TablesPos)
  | blockSymbols (pos : SymbolsPos)
  | blockSetup
  | blockOutput
  | blockEnd
  | streamTrailer
  | endOfStream
  | failed
  deriving DecidableEq, Repr

/-! Memories. -/

/-- The contents of an internal memory or of a list-valued store: the entries that have been written, by index
(20_memory.md R50). An index that is not listed is undefined (R55, log entry 1). -/
abbrev Mem (w : Nat) := List (Nat × BitVec w)

/-- The canonical form: indices strictly rising, and below the memory's depth. -/
abbrev Mem.wf {w : Nat} (depth : Nat) (m : Mem w) : Prop :=
  (m.map Prod.fst).Pairwise (· < ·) ∧ ∀ e ∈ m, e.1 < depth

/-- The memories and register files, by name, for the faults that name one. -/
inductive Store where
  | ll8
  | tt
  | selectorMtf
  | selector
  | unzftab
  | cftab
  | inUse
  | seqToUnseq
  | selPos
  | tables
  | len
  | huffman
  | perm
  | mtfSym
  | rnums
  deriving DecidableEq, Repr

/-! The ports. -/

/-- What the host and the platform issue, in order (46_host.md R186, 70_reset_and_hazards.md R206). -/
inductive PortEvent where
  /-- a command word at the host port, and the source handed over beside it (used by OPEN only) -/
  | command (word : BitVec 8) (handover : List (BitVec 8))
  /-- the host's pseudo-command READ_BYTES (46_host.md R181) -/
  | readBytes (n : Nat)
  /-- hardware reset, between commands (70_reset_and_hazards.md R206, R208) -/
  | reset
  deriving DecidableEq, Repr

/-- The command in progress, which still owes its answer. -/
inductive Job where
  | read
  /-- READ_BYTES with buffer length `n`, `k` bytes placed so far (46_host.md R181) -/
  | readBytes (n k : Nat)
  deriving DecidableEq, Repr

/-- The host port's tagged answers (30_encoding.md R72). -/
inductive Answer where
  | byte (b : BitVec 8)
  | endOfStream
  | error (code : BitVec 4) (reason : BitVec 8)
  | ack
  | value (v : BitVec 32)
  deriving DecidableEq, Repr

/-- What a READ_BYTES call returns (46_host.md R181). -/
inductive ReadBytesReturn where
  | count (k : Nat)
  | endOfStream
  | error (code : BitVec 4) (reason : BitVec 8)
  deriving DecidableEq, Repr

/-! Why a step can stop. -/

/-- Faults of the model (60_exceptions.md R204): none can happen under the rules from reset. Each is SAFE: the
model stops where the rules say nothing can be reached. -/
inductive Fault where
  /-- An index outside a memory's or a file's depth (20_memory.md R50). Raised by the accessors of Machine/Ops.lean
  and by the decoder on a Huffman table. Safe. -/
  | indexOutOfDepth (m : Store) (i : Nat)
  /-- A read of a memory entry that nothing has written (20_memory.md R55). Raised by `memRead`. Safe. -/
  | undefinedEntry (m : Store) (i : Nat)
  /-- `GetBits(n)` with `n` outside 1..24 (40_bitreader.md R91). Raised by `elementPass`. Safe. -/
  | getBitsWidth (n : Nat)
  /-- A decoded symbol number above EOB (43_symbols.md R140 says there is none). Raised by `elementPass`. Safe. -/
  | noSuchSymbol (s : Nat)
  /-- A `Fetch` with no source bound (70_reset_and_hazards.md R206: none until OPEN). Raised by `sourcePass`. Safe. -/
  | noSource
  deriving DecidableEq, Repr

/-- Refusals (30_encoding.md R75, 46_host.md R185): the model has no transition, and a run that meets one is outside
the model. Each is SAFE: nothing is claimed of such a run. -/
inductive Refusal where
  /-- An instruction that has no meaning yet; raised by no arm of this model. Safe. -/
  | notModelled (mnemonic : String)
  /-- A command word outside 30_encoding.md R72 (R75). Raised by `portPass`. Safe. -/
  | illegalCommand (word : BitVec 8)
  /-- `CMD_OPEN` when `phase ≠ CLOSED` (R185). Raised by `execCmdOpen`. Safe. -/
  | openWhileOpen
  /-- `CMD_READ` or READ_BYTES when `phase = CLOSED` (R185, R181). Raised by `execCmdRead`, `execCmdReadBytes` and
  `readPass`. Safe. -/
  | readWhileClosed
  /-- A command while an earlier one has no answer yet (R185). Raised by every command's meaning. Safe. -/
  | commandPending
  /-- The refusal mark is set: a block with `BH_RAND = 1` under `RNUMS_TRUSTED = false` (R8, R185). Raised by the
  step. Safe. -/
  | untrustedRandomised
  /-- A source word that is neither `DATA` nor `EOI`; R72 says the source never sends one. Raised by `sourcePass`.
  Safe. -/
  | illegalAnswer (word : BitVec 9)
  deriving DecidableEq, Repr

/-- The state of BZ2DEC and its ports. -/
structure State where
  /-- the parameters, which no step changes (00_scope.md R8, 70_reset_and_hazards.md R219) -/
  cfg : Config
  /-- 10_state.md R15 -/
  phase : Phase
  -- bit reader, 10_state.md R18
  bsBuff : BitVec 32
  bsLive : BitVec 5
  inCount : Nat
  -- stream level, 10_state.md R19
  blockSize100k : BitVec 4
  combinedCRC : BitVec 32
  storedCombinedCRC : BitVec 32
  blockCount : Nat
  outCount : Nat
  -- block header, 10_state.md R20
  storedBlockCRC : BitVec 32
  randomised : BitVec 1
  origPtr : BitVec 24
  blockCRC : BitVec 32
  -- alphabet, 10_state.md R21
  inUse16 : BitVec 16
  inUse : Vector Bool 256
  seqToUnseq : Vector (BitVec 8) 256
  nInUse : BitVec 9
  alphaSize : BitVec 9
  -- groups and selectors, 10_state.md R22
  nGroups : BitVec 3
  nSelectors : BitVec 15
  selPos : Vector (BitVec 3) 6
  -- Huffman table file, 10_state.md R23
  tables : Vector HuffTable 6
  -- MTF list, 10_state.md R24
  mtfSym : Vector (BitVec 8) 256
  -- symbol decoder, 10_state.md R25
  groupNo : BitVec 15
  groupPos : BitVec 6
  curTable : BitVec 3
  runS : BitVec 20
  runN : BitVec 20
  nblock : BitVec 20
  -- output stage, 10_state.md R26
  tPos : BitVec 20
  i2 : BitVec 20
  rleCount : BitVec 3
  rlePrev : BitVec 8
  repLeft : BitVec 8
  rNToGo : BitVec 10
  rTPos : BitVec 9
  -- errors, 10_state.md R27
  errCode : BitVec 4
  errReason : BitVec 8
  -- internal memories, 20_memory.md R51 to R54
  ll8 : Mem 8
  tt : Mem 20
  selectorMtf : Mem 3
  selector : Mem 3
  unzftab : Mem 20
  cftab : Mem 20
  -- temporaries of the pseudocode (log entry 4)
  /-- the bits of the element being read that are already consumed (40_bitreader.md R91, R93) -/
  part : List Bool
  /-- the running code length (42_tables.md R128, R129) -/
  curr : BitVec 5
  /-- `i` of 42_tables.md R118 -/
  mapRange : BitVec 4
  /-- `i` of 42_tables.md R126 -/
  selIdx : BitVec 15
  /-- `t` of 42_tables.md R128 to R132 -/
  tblIdx : BitVec 3
  /-- `s` of 42_tables.md R129 -/
  symIdx : BitVec 9
  -- the ports (46_host.md R185, R186, 70_reset_and_hazards.md R206)
  /-- the bytes of `IN` not yet delivered, or no source bound (20_memory.md R48) -/
  source : Option (List (BitVec 8))
  /-- the command in progress -/
  job : Option Job
  /-- the refusal mark of 46_host.md R185 -/
  refusalMark : Bool
  /-- the host port's answers so far, in order (70_reset_and_hazards.md R222) -/
  answers : List Answer
  -- the host's side (log entries 5 and 8)
  /-- what the host and the platform have still to issue, in order -/
  port : List PortEvent
  /-- the source handed over beside the command word now at the port -/
  handover : List (BitVec 8)
  /-- the buffer of READ_BYTES, in order -/
  rbBuf : List (BitVec 8)
  /-- what READ_BYTES calls have returned, in order -/
  rbReturns : List ReadBytesReturn
  deriving DecidableEq, Repr

/-- A Huffman table after reset: every file 0 (10_state.md R23). -/
def huffTableReset : HuffTable where
  len := Vector.replicate 258 0#5
  minLen := 0#5
  maxLen := 0#5
  count := Vector.replicate 21 0#9
  firstCode := Vector.replicate 21 0#21
  firstIdx := Vector.replicate 21 0#9
  perm := Vector.replicate 258 0#9

/-- The machine right after hardware reset (70_reset_and_hazards.md R206): `CLOSED`, every register and register
file 0, memories undefined, ports idle; the host has not issued anything yet. -/
def State.reset : State where
  cfg := Config.default
  phase := .closed
  bsBuff := 0#32
  bsLive := 0#5
  inCount := 0
  blockSize100k := 0#4
  combinedCRC := 0#32
  storedCombinedCRC := 0#32
  blockCount := 0
  outCount := 0
  storedBlockCRC := 0#32
  randomised := 0#1
  origPtr := 0#24
  blockCRC := 0#32
  inUse16 := 0#16
  inUse := Vector.replicate 256 false
  seqToUnseq := Vector.replicate 256 0#8
  nInUse := 0#9
  alphaSize := 0#9
  nGroups := 0#3
  nSelectors := 0#15
  selPos := Vector.replicate 6 0#3
  tables := Vector.replicate 6 huffTableReset
  mtfSym := Vector.replicate 256 0#8
  groupNo := 0#15
  groupPos := 0#6
  curTable := 0#3
  runS := 0#20
  runN := 0#20
  nblock := 0#20
  tPos := 0#20
  i2 := 0#20
  rleCount := 0#3
  rlePrev := 0#8
  repLeft := 0#8
  rNToGo := 0#10
  rTPos := 0#9
  errCode := 0#4
  errReason := 0#8
  ll8 := []
  tt := []
  selectorMtf := []
  selector := []
  unzftab := []
  cftab := []
  part := []
  curr := 0#5
  mapRange := 0#4
  selIdx := 0#15
  tblIdx := 0#3
  symIdx := 0#9
  source := none
  job := none
  refusalMark := false
  answers := []
  port := []
  handover := []
  rbBuf := []
  rbReturns := []

end Sys2Proof.Machine
end

