-- ==== Sys2Proof/Machine/Crc.lean ====
section
/-! DEFINITION. The CRC-32 step and the combined CRC (45_output.md R169 to R171). -/

namespace Sys2Proof.Machine

/-- `CRC_POLY` (00_scope.md R7, 93 G6). -/
def crcPoly : BitVec 32 := 0x04C11DB7#32

/-- One of the eight turns that make a table entry: most significant bit first (45_output.md R169). -/
def crcShift (x : BitVec 32) : BitVec 32 := if x.getLsbD 31 then (x <<< 1) ^^^ crcPoly else x <<< 1

/-- `CrcTable[i]` (45_output.md R169). -/
def crcTable (i : BitVec 8) : BitVec 32 :=
  crcShift (crcShift (crcShift (crcShift (crcShift (crcShift (crcShift (crcShift (i.zeroExtend 32 <<< 24))))))))

/-- `CrcByte(c, b) = ((c << 8) mod 2^32) ^ CrcTable[(c >> 24) ^ b]` (45_output.md R169). -/
def crcByte (c : BitVec 32) (b : BitVec 8) : BitVec 32 := (c <<< 8) ^^^ crcTable (c.extractLsb' 24 8 ^^^ b)

/-- The initial accumulator (41_framer.md R106). -/
def crcInit : BitVec 32 := 0xFFFFFFFF#32

/-- `computed = blockCRC ^ 0xFFFFFFFF` (45_output.md R169, R170). -/
def crcComputed (acc : BitVec 32) : BitVec 32 := acc ^^^ 0xFFFFFFFF#32

/-- `rotl32(v, 1)` (00_scope.md R9). -/
def rotl1 (v : BitVec 32) : BitVec 32 := (v <<< 1) ||| (v >>> 31)

/-- `rotl32(combinedCRC, 1) ^ computed` (45_output.md R171). -/
def crcCombine (combined computed : BitVec 32) : BitVec 32 := rotl1 combined ^^^ computed

end Sys2Proof.Machine
end

