-- ==== Sys2Proof/Decode.lean ====
section
/-! DEFINITION. The decoder, total on any bits: it reads one element, command word or source answer from a list of
bits in stream order, given what is expected next, and answers with the instruction and the bits after it, with the
number of bits `GetBits` must take next, with the stream error an illegal encoding raises (30_encoding.md R73), or
with a rejection by name. After it, the encoder, from the same tables (R65, R67, R72). -/

namespace Sys2Proof

/-- The low `n` bits of `v`, most significant first: the stream order of a field (20_memory.md R56). -/
def bitsOf : Nat → Nat → List Bool
  | 0, _ => []
  | n + 1, v => v.testBit n :: bitsOf n v

/-- The number a list of bits writes, first bit most significant (20_memory.md R56). -/
def valueOf (bits : List Bool) : Nat :=
  bits.foldl (fun a b => 2 * a + b.toNat) 0

/-- `SH_MAGIC`: `'B' 'Z' 'h'` (30_encoding.md R65). -/
def shMagicCode : Nat := 0x425A68
/-- `BH_MAGIC` (30_encoding.md R65). -/
def blockMagicCode : Nat := 0x314159265359
/-- `EOS_MAGIC` (30_encoding.md R65). -/
def endMagicCode : Nat := 0x177245385090

/-- Why bits are no instruction and raise no stream error either. -/
inductive Reject where
  /-- a host command word outside 30_encoding.md R72 (R75) -/
  | illegalCommand (w : BitVec 8)
  /-- a source word that is neither `DATA` nor `EOI` (R72: never sent) -/
  | illegalAnswer (w : BitVec 9)
  /-- a Huffman table read outside its depth (R50: never under the rules) -/
  | tableIndex (i : Nat)
  /-- a symbol number above EOB (R140: never under the rules) -/
  | noSuchSymbol (s : Nat)
  deriving DecidableEq, Repr

/-- What the decoder says of a list of bits. -/
inductive Verdict where
  /-- the element is not complete: the next `GetBits` of its rule takes `n` bits -/
  | need (n : Nat)
  /-- an instruction, and the bits after it -/
  | instr (i : Instr) (rest : List Bool)
  /-- an illegal stream encoding, found before any further bit is read (R73) -/
  | illegal (e : StreamError)
  /-- rejected by name -/
  | reject (r : Reject)
  deriving DecidableEq, Repr

/-- A fixed field of `total` bits that its rule reads `chunk` bits at a time (40_bitreader.md R91, R93). -/
def fixedField (chunk total : Nat) (bits : List Bool) (found : Nat → List Bool → Verdict) : Verdict :=
  if bits.length < total then .need (min chunk (total - bits.length))
  else found (valueOf (bits.take total)) (bits.drop total)

/-- `SH_MAGIC`, checked byte by byte (41_framer.md R99). -/
def decodeShMagic (bits : List Bool) : Verdict :=
  let pattern := bitsOf 24 shMagicCode
  if bits.take 24 != pattern.take bits.length then .illegal .headerMagic
  else if bits.length < 24 then .need (min 8 (24 - bits.length))
  else .instr .shMagic (bits.drop 24)

/-- The 48-bit magic, compared whole (41_framer.md R103, R105). -/
def decodeBlockMagic (bits : List Bool) : Verdict :=
  fixedField 24 48 bits fun m rest =>
    if m = blockMagicCode then .instr .bhMagic rest
    else if m = endMagicCode then .instr .eosMagic rest
    else .illegal .blockMagic

/-- `TB_SELECTOR` with `j` 1-bits read so far (42_tables.md R126). -/
def decodeSelector (limit : Nat) : Nat → List Bool → Verdict
  | _, [] => .need 1
  | j, false :: rest => .instr (.tbSelector (BitVec.ofNat 3 j)) rest
  | j, true :: rest => if limit ≤ j + 1 then .illegal .badSelector else decodeSelector limit (j + 1) rest

/-- One code of a `lencode` (42_tables.md R129, R130). -/
def decodeLencode : List Bool → Verdict
  | [] => .need 1
  | false :: rest => .instr .tbLenStop rest
  | [true] => .need 1
  | true :: false :: rest => .instr .tbLenInc rest
  | true :: true :: rest => .instr .tbLenDec rest

/-- What one turn of the loop of 43_symbols.md R140 finds for the `n` bits `v`. -/
inductive Probe where
  | hit (s : Nat)
  | miss
  /-- `n = maxLen` and no code matched -/
  | last
  /-- an index outside the table's depth: never under the rules -/
  | outside (i : Nat)
  deriving DecidableEq, Repr

/-- One turn of the loop of 43_symbols.md R140. -/
def probe (t : HuffTable) (n v : Nat) : Probe :=
  match t.count[n]?, t.firstCode[n]?, t.firstIdx[n]? with
  | some c, some f, some x =>
    if 0 < c.toNat ∧ f.toNat ≤ v ∧ v < f.toNat + c.toNat then
      match t.perm[x.toNat + v - f.toNat]? with
      | some s => .hit s.toNat
      | none => .outside (x.toNat + v - f.toNat)
    else if n = t.maxLen.toNat then .last
    else .miss
  | _, _, _ => .outside n

/-- The element of symbol number `s` (43_symbols.md R141). -/
def symbolVerdict (nInUse s : Nat) (rest : List Bool) : Verdict :=
  if s = 0 then .instr .symRuna rest
  else if s = 1 then .instr .symRunb rest
  else if s ≤ nInUse then .instr (.symMtf (BitVec.ofNat 9 s)) rest
  else if s = nInUse + 1 then .instr .symEob rest
  else .reject (.noSuchSymbol s)

/-- The loop of 43_symbols.md R140: `n` bits read so far, of value `v`; then the bits after them. -/
def decodeCode (t : HuffTable) (nInUse : Nat) : Nat → Nat → List Bool → Verdict
  | n, v, bits =>
    match probe t n v with
    | .hit s => symbolVerdict nInUse s bits
    | .last => .illegal .badCode
    | .outside i => .reject (.tableIndex i)
    | .miss =>
      match bits with
      | [] => .need 1
      | b :: rest => decodeCode t nInUse (n + 1) (2 * v + b.toNat) rest

/-- A Huffman symbol: `minLen` bits at once, then bit by bit (43_symbols.md R140). -/
def decodeSymbol (t : HuffTable) (nInUse : Nat) (bits : List Bool) : Verdict :=
  let n := t.minLen.toNat
  if bits.length < n ∨ n = 0 then .need (n - bits.length)
  else decodeCode t nInUse n (valueOf (bits.take n)) (bits.drop n)

/-- The host command words (30_encoding.md R72); every other word is illegal (R75). -/
def decodeCommand (w : BitVec 8) (rest : List Bool) : Verdict :=
  if w = 0x10#8 then .instr .cmdOpen rest
  else if w = 0x20#8 then .instr .cmdRead rest
  else if w = 0x30#8 then .instr .cmdClose rest
  else if w.extractLsb' 4 4 = 4#4 then .instr (.cmdStatus (w.extractLsb' 0 4)) rest
  else .reject (.illegalCommand w)

/-- The source's 9-bit answers (30_encoding.md R72). -/
def decodeAnswer (w : BitVec 9) (rest : List Bool) : Verdict :=
  if w.getLsbD 8 then .instr (.srcData (w.extractLsb' 0 8)) rest
  else if w = 0#9 then .instr .srcEoi rest
  else .reject (.illegalAnswer w)

/-- The decoder: the next instruction in `bits` when `e` is expected. -/
def decode (e : Expect) (bits : List Bool) : Verdict :=
  match e with
  | .command => fixedField 8 8 bits fun v rest => decodeCommand (BitVec.ofNat 8 v) rest
  | .sourceAnswer => fixedField 9 9 bits fun v rest => decodeAnswer (BitVec.ofNat 9 v) rest
  | .shMagic => decodeShMagic bits
  | .shLevel => fixedField 8 8 bits fun v rest => .instr (.shLevel (BitVec.ofNat 8 v)) rest
  | .blockMagic => decodeBlockMagic bits
  | .bhCrc => fixedField 16 32 bits fun v rest => .instr (.bhCrc (BitVec.ofNat 32 v)) rest
  | .bhRand => fixedField 1 1 bits fun v rest => .instr (.bhRand (BitVec.ofNat 1 v)) rest
  | .bhOrigptr => fixedField 24 24 bits fun v rest => .instr (.bhOrigptr (BitVec.ofNat 24 v)) rest
  | .mapL1 => fixedField 16 16 bits fun v rest => .instr (.mapL1 (BitVec.ofNat 16 v)) rest
  | .mapL2 => fixedField 16 16 bits fun v rest => .instr (.mapL2 (BitVec.ofNat 16 v)) rest
  | .tbNgroups => fixedField 3 3 bits fun v rest => .instr (.tbNgroups (BitVec.ofNat 3 v)) rest
  | .tbNsel => fixedField 15 15 bits fun v rest => .instr (.tbNsel (BitVec.ofNat 15 v)) rest
  | .selector limit => decodeSelector limit 0 bits
  | .tbLenStart => fixedField 5 5 bits fun v rest => .instr (.tbLenStart (BitVec.ofNat 5 v)) rest
  | .lencode => decodeLencode bits
  | .symbol t nInUse => decodeSymbol t nInUse bits
  | .trCrc => fixedField 16 32 bits fun v rest => .instr (.trCrc (BitVec.ofNat 32 v)) rest
  -- the pad is whatever bits remain (41_framer.md R114)
  | .trPad => .instr (.trPad bits) []

/-! The encoder. -/

/-- The canonical code of symbol `s` in table `t`: `firstCode[n] + r`, where `n` is its length and `r` its rank among
the symbols of that length (42_tables.md R131). -/
def encodeSymbol (t : HuffTable) (s : Nat) : Option (List Bool) :=
  match t.len[s]? with
  | none => none
  | some n =>
    match t.firstCode[n.toNat]? with
    | none => none
    | some f => some (bitsOf n.toNat (f.toNat + ((t.len.toList.take s).filter (fun m => m = n)).length))

/-- The bits of an instruction where `e` is expected; `none` where the instruction is not one of `e`'s. -/
def encode (e : Expect) (i : Instr) : Option (List Bool) :=
  match e, i with
  | .command, .cmdOpen => some (bitsOf 8 0x10)
  | .command, .cmdRead => some (bitsOf 8 0x20)
  | .command, .cmdClose => some (bitsOf 8 0x30)
  | .command, .cmdStatus i => some (bitsOf 8 (0x40 + i.toNat))
  | .sourceAnswer, .srcData b => some (bitsOf 9 (0x100 + b.toNat))
  | .sourceAnswer, .srcEoi => some (bitsOf 9 0)
  | .shMagic, .shMagic => some (bitsOf 24 shMagicCode)
  | .shLevel, .shLevel d => some (bitsOf 8 d.toNat)
  | .blockMagic, .bhMagic => some (bitsOf 48 blockMagicCode)
  | .blockMagic, .eosMagic => some (bitsOf 48 endMagicCode)
  | .bhCrc, .bhCrc c => some (bitsOf 32 c.toNat)
  | .bhRand, .bhRand r => some (bitsOf 1 r.toNat)
  | .bhOrigptr, .bhOrigptr p => some (bitsOf 24 p.toNat)
  | .mapL1, .mapL1 u => some (bitsOf 16 u.toNat)
  | .mapL2, .mapL2 v => some (bitsOf 16 v.toNat)
  | .tbNgroups, .tbNgroups g => some (bitsOf 3 g.toNat)
  | .tbNsel, .tbNsel k => some (bitsOf 15 k.toNat)
  | .selector limit, .tbSelector j =>
    if j.toNat < limit then some (List.replicate j.toNat true ++ [false]) else none
  | .tbLenStart, .tbLenStart l => some (bitsOf 5 l.toNat)
  | .lencode, .tbLenInc => some [true, false]
  | .lencode, .tbLenDec => some [true, true]
  | .lencode, .tbLenStop => some [false]
  | .symbol t _, .symRuna => encodeSymbol t 0
  | .symbol t _, .symRunb => encodeSymbol t 1
  | .symbol t nInUse, .symMtf n => if 2 ≤ n.toNat ∧ n.toNat ≤ nInUse then encodeSymbol t n.toNat else none
  | .symbol t nInUse, .symEob => encodeSymbol t (nInUse + 1)
  | .trCrc, .trCrc c => some (bitsOf 32 c.toNat)
  | .trPad, .trPad x => some x
  | _, _ => none

/-! The host's question about the opcode table (log entry 11): the table numbers an element's bits with bit 0 the
last bit of the stream, as `bitsOf` does, but does not say at which port or in which phase a word stands. -/

/-- Where a word of `nbits` bits stands. Rows of fixed bits come first: a byte is a host command or the level
digit, two bytes hold a 9-bit source answer or a bitmap word, and so on. -/
def tablePlace (nbits w : Nat) : Option Expect :=
  match nbits with
  | 1 => some .bhRand
  | 2 => some .lencode
  | 3 => some .tbNgroups
  | 5 => some .tbLenStart
  | 8 => if 0x31 ≤ w ∧ w ≤ 0x3F then some .shLevel else some .command
  | 9 => some .sourceAnswer
  | 15 => some .tbNsel
  | 16 => if w = 0 ∨ (0x100 ≤ w ∧ w ≤ 0x1FF) then some .sourceAnswer else some .mapL1
  | 24 => if w = shMagicCode then some .shMagic else some .bhOrigptr
  | 32 => some .bhCrc
  | 48 => some .blockMagic
  | _ => none

/-- The bits of such a word, in stream order. -/
def tableBits (nbits w : Nat) : List Bool :=
  match tablePlace nbits w with
  | some .sourceAnswer => bitsOf 9 w
  | _ => bitsOf nbits w

/-- The instruction the decoder reads from a row's bits. -/
def decodeTableWord (nbits w : Nat) : Option Instr :=
  match tablePlace nbits w with
  | none => none
  | some e =>
    match decode e (tableBits nbits w) with
    | .instr i _ => some i
    | _ => none

end Sys2Proof
end

