-- ==== Sys2Proof/Machine/Ops.lean ====
section
/-! DEFINITION. The named operations over memories, register files, the bit reader, errors and answers: the one place
where an index is checked (20_memory.md R50), an error is raised (60_exceptions.md R190), bits are taken
(40_bitreader.md R91) and an answer is given (46_host.md R178). -/

namespace Sys2Proof.Machine

/-! Constants of 00_scope.md R7. -/

/-- `BLOCK_UNIT` -/
def blockUnit : Nat := 100000
/-- `MAX_BLOCK`, the depth of `ll8` and `tt` (20_memory.md R51, R52) -/
def maxBlock : Nat := 900000
/-- `G_SIZE`, symbols per selector group -/
def groupSize : Nat := 50
/-- `MIN_GROUPS` -/
def minGroups : Nat := 2
/-- `MAX_GROUPS` -/
def maxGroups : Nat := 6
/-- `MIN_CODE_LEN` -/
def minCodeLen : Nat := 1
/-- `MAX_CODE_LEN` -/
def maxCodeLen : Nat := 20
/-- `MAX_SELECTORS`, the depth of `selectorMtf` and `selector` (20_memory.md R53) -/
def maxSelectors : Nat := 32767
/-- `READ_MAX`, the most bits of one `GetBits` -/
def readMax : Nat := 24
/-- The depth of `unzftab` (20_memory.md R54). -/
def countDepth : Nat := 256
/-- The depth of `cftab` (20_memory.md R54). -/
def cumulativeDepth : Nat := 257

/-- `BLOCK_LIMIT = 100000 × blockSize100k` (00_scope.md R7, 30_encoding.md R68). -/
def blockLimit (s : State) : Nat := blockUnit * s.blockSize100k.toNat

/-! Outcomes. -/

/-- A computation that can only meet a fault of the model, as an outcome of a step. -/
def finish (r : Except Fault State) : Host.Outcome State Fault Refusal :=
  match r with
  | .ok s => .next s
  | .error f => .fault f

/-! Memories (20_memory.md R50). -/

/-- The entry at index `i`, if something has written it. -/
def memGet {w : Nat} : Mem w → Nat → Option (BitVec w)
  | [], _ => none
  | e :: m, i => if e.1 = i then some e.2 else memGet m i

/-- Write entry `i`, keeping the indices rising. -/
def memSet {w : Nat} (i : Nat) (v : BitVec w) : Mem w → Mem w
  | [] => [(i, v)]
  | e :: m => if i < e.1 then (i, v) :: e :: m else if e.1 = i then (i, v) :: m else e :: memSet i v m

/-- Write the `k` entries from index `i` on, all with `v`, keeping the indices rising. -/
def memFill {w : Nat} (i k : Nat) (v : BitVec w) : Mem w → Mem w
  | [] => (List.range' i k).map (fun a => (a, v))
  | e :: m =>
    if e.1 < i then e :: memFill i k v m
    else (List.range' i k).map (fun a => (a, v)) ++ (e :: m).filter (fun x => decide (i + k ≤ x.1))

/-- A memory whose entries from index 0 on are `vs` and that holds nothing else: all entries of a memory written. -/
def memOfList {w : Nat} (vs : List (BitVec w)) : Mem w := vs.zipIdx.map (fun e => (e.2, e.1))

/-- `M[i]` (20_memory.md R50): an index outside the depth and an entry nothing has written are faults of the model. -/
def memRead {w : Nat} (name : Store) (depth : Nat) (m : Mem w) (i : Nat) : Except Fault (BitVec w) :=
  if i < depth then
    match memGet m i with
    | some v => .ok v
    | none => .error (.undefinedEntry name i)
  else .error (.indexOutOfDepth name i)

/-- `M[i] <- v` (20_memory.md R50). -/
def memWrite {w : Nat} (name : Store) (depth : Nat) (m : Mem w) (i : Nat) (v : BitVec w) : Except Fault (Mem w) :=
  if i < depth then .ok (memSet i v m) else .error (.indexOutOfDepth name i)

/-- `M[i] <- v; …; M[i+k-1] <- v`. -/
def memWriteRun {w : Nat} (name : Store) (depth : Nat) (m : Mem w) (i k : Nat) (v : BitVec w) : Except Fault (Mem w) :=
  if i + k ≤ depth then .ok (memFill i k v m) else .error (.indexOutOfDepth name (i + k - 1))

/-! Register files (10_state.md R21 to R24). -/

/-- `F[i]`, with the index checked. -/
def fileRead {α : Type} {n : Nat} (name : Store) (f : Vector α n) (i : Nat) : Except Fault α :=
  match f[i]? with
  | some x => .ok x
  | none => .error (.indexOutOfDepth name i)

/-- `F[i] <- x`, with the index checked. -/
def fileWrite {α : Type} {n : Nat} (name : Store) (f : Vector α n) (i : Nat) (x : α) : Except Fault (Vector α n) :=
  if h : i < n then .ok (f.set i x h) else .error (.indexOutOfDepth name i)

/-- A file given entry by entry. -/
def fileOf {α : Type} (n : Nat) (f : Nat → α) : Vector α n :=
  ⟨((List.range n).map f).toArray, by simp⟩

/-- A file whose first entries become `xs`; the others keep their values. -/
def fileOverlay {α : Type} {n : Nat} (xs : List α) (f : Vector α n) : Vector α n :=
  ⟨(xs.take n ++ f.toList.drop xs.length).toArray, by simp; omega⟩

/-- `MoveToFront` on a file (43_symbols.md R137): entry `j` goes to the front, entries `0 .. j-1` move up by one. -/
def fileMoveToFront {α : Type} {n : Nat} (f : Vector α n) (j : Nat) (h : j < n) : Vector α n :=
  ⟨(f[j] :: f.toList.eraseIdx j).toArray, by simp [List.length_eraseIdx, h]; omega⟩

/-- `MoveToFront(L, j)` (43_symbols.md R137): the entry moved, and the list after, with the index checked. -/
def moveToFront {α : Type} {n : Nat} (name : Store) (f : Vector α n) (j : Nat) : Except Fault (α × Vector α n) :=
  if h : j < n then .ok (f[j], fileMoveToFront f j h) else .error (.indexOutOfDepth name j)

/-! Errors (60_exceptions.md R187 to R190). -/

/-- The error codes of 60_exceptions.md R187. -/
def errorCode : StreamError → BitVec 4
  | .headerMagic => 1#4
  | .headerLevel => 1#4
  | .headerShort => 1#4
  | .blockMagic => 2#4
  | .crcBlock => 3#4
  | .crcCombined => 3#4
  | .endOfInput => 4#4
  | .noSymbols => 5#4
  | .badGroups => 5#4
  | .badSelectors => 5#4
  | .badSelector => 5#4
  | .badLength => 5#4
  | .oversubscribed => 5#4
  | .selectorOverrun => 5#4
  | .badCode => 5#4
  | .blockOverflow => 5#4
  | .badOrigPtr => 5#4
  | .rleTruncated => 5#4

/-- The error reasons of 60_exceptions.md R188. -/
def errorReason : StreamError → BitVec 8
  | .headerMagic => 1#8
  | .headerLevel => 2#8
  | .headerShort => 3#8
  | .blockMagic => 0#8
  | .crcBlock => 1#8
  | .crcCombined => 2#8
  | .endOfInput => 0#8
  | .noSymbols => 1#8
  | .badGroups => 2#8
  | .badSelectors => 3#8
  | .badSelector => 4#8
  | .badLength => 5#8
  | .oversubscribed => 6#8
  | .selectorOverrun => 7#8
  | .badCode => 8#8
  | .blockOverflow => 9#8
  | .badOrigPtr => 10#8
  | .rleTruncated => 11#8

/-- `raise E(reason)` (60_exceptions.md R190), the block's exception entry: latch code and reason, go to `FAILED`,
abandon the rest of the action (the bits of an element read so far among it). Nothing else is written (R189). -/
def raise (e : StreamError) (s : State) : State :=
  { s with errCode := errorCode e, errReason := errorReason e, phase := .failed, part := [] }

/-- What leaves an error or the end of a stream: CLOSE's write of `phase`, and the release of the source
(60_exceptions.md R191, R194, 46_host.md R182, 70_reset_and_hazards.md R208, log entry 14). Every register but `phase` is
kept, `errCode` among them (R182, R208, 70_reset_and_hazards.md R222, log entries 9 and 22). There is no other return. -/
def leaveSession (s : State) : State := { s with phase := .closed, source := none }

/-! The bit reader (40_bitreader.md R91). -/

/-- The value `GetBits(n)` returns when `n` bits are live: `(bsBuff >> (bsLive - n)) & (2^n - 1)`. -/
def bitsValue (n : Nat) (s : State) : Nat := (s.bsBuff.toNat >>> (s.bsLive.toNat - n)) % 2 ^ n

/-- The second half of `GetBits(n)`: the `n` bits, and the state after. -/
def takeBits (n : Nat) (s : State) : List Bool × State :=
  (bitsOf n (bitsValue n s), { s with bsLive := BitVec.ofNat 5 (s.bsLive.toNat - n) })

/-- The bits taken from the source and not consumed (10_state.md R18, R34), first to come first. -/
def liveBits (s : State) : List Bool := bitsOf s.bsLive.toNat s.bsBuff.toNat

/-- The loop body of `GetBits` for an answer `DATA(b)`. -/
def absorbByte (b : BitVec 8) (s : State) : State :=
  { s with bsBuff := (s.bsBuff <<< 8) ||| b.zeroExtend 32, bsLive := s.bsLive + 8#5, inCount := s.inCount + 1 }

/-- What the source answers to `Fetch()` and what it has left (20_memory.md R48, 30_encoding.md R72). -/
def sourceAnswer : List (BitVec 8) → BitVec 9 × List (BitVec 8)
  | [] => (0#9, [])
  | b :: rest => (0x100#9 ||| b.zeroExtend 9, rest)

/-! Answers. -/

/-- A command's answer at the host port (30_encoding.md R72). -/
def answer (a : Answer) (s : State) : State := { s with answers := s.answers ++ [a] }

/-- The end of a READ_BYTES call (46_host.md R181). -/
def returnReadBytes (r : ReadBytesReturn) (s : State) : State :=
  { s with job := none, rbReturns := s.rbReturns ++ [r] }

/-- A READ answers `Byte(b)` (46_host.md R178); inside READ_BYTES the host places the byte and, while the buffer is
not full, issues the next READ (R181). -/
def answerByte (b : BitVec 8) (s : State) : State :=
  let t := answer (.byte b) s
  match s.job with
  | some (.readBytes n k) =>
    let u := { t with rbBuf := t.rbBuf ++ [b] }
    if k + 1 < n then { u with job := some (.readBytes n (k + 1)) } else returnReadBytes (.count n) u
  | _ => { t with job := none }

/-- A READ answers `EndOfStream` (46_host.md R178, R181). -/
def answerEndOfStream (s : State) : State :=
  let t := answer .endOfStream s
  match s.job with
  | some (.readBytes _ k) => returnReadBytes (if k = 0 then .endOfStream else .count k) t
  | _ => { t with job := none }

/-- A READ answers `Error(errCode, errReason)` (46_host.md R178, R181). -/
def answerError (s : State) : State :=
  let t := answer (.error s.errCode s.errReason) s
  match s.job with
  | some (.readBytes _ _) => returnReadBytes (.error s.errCode s.errReason) t
  | _ => { t with job := none }

/-! Reset (70_reset_and_hazards.md R206). -/

/-- Hardware reset: every register and register file 0, memories undefined, ports idle, source unbound, refusal mark
clear. The configuration is not state (R206); what the host has still to issue, its buffer, and the answers already
given are the host's (log entry 13). -/
def hardwareReset (s : State) : State :=
  { State.reset with
    cfg := s.cfg, port := s.port, handover := s.handover, answers := s.answers, rbBuf := s.rbBuf, rbReturns := s.rbReturns }

/-- Every register of 10_state.md at its reset value; register files, memories and ports kept (46_host.md R176,
70_reset_and_hazards.md R208). DESIGN CHOICE (log entry 4): the temporaries of the pseudocode, which those rules do not
name, are cleared as well. -/
def resetRegisters (s : State) : State :=
  { s with
    phase := .closed
    bsBuff := 0#32, bsLive := 0#5, inCount := 0
    blockSize100k := 0#4, combinedCRC := 0#32, storedCombinedCRC := 0#32, blockCount := 0, outCount := 0
    storedBlockCRC := 0#32, randomised := 0#1, origPtr := 0#24, blockCRC := 0#32
    inUse16 := 0#16, nInUse := 0#9, alphaSize := 0#9, nGroups := 0#3, nSelectors := 0#15
    groupNo := 0#15, groupPos := 0#6, curTable := 0#3, runS := 0#20, runN := 0#20, nblock := 0#20
    tPos := 0#20, i2 := 0#20, rleCount := 0#3, rlePrev := 0#8, repLeft := 0#8, rNToGo := 0#10, rTPos := 0#9
    errCode := 0#4, errReason := 0#8
    part := [], curr := 0#5, mapRange := 0#4, selIdx := 0#15, tblIdx := 0#3, symIdx := 0#9 }

end Sys2Proof.Machine
end

