-- ==== Sys2Proof/Machine/Operands.lean ====
section
/-! DEFINITION. Operand assembly (30_encoding.md R68 to R70): how the operand of each element is read, and what an
operand's bits name. The one operand form of the stream is the unsigned MSB-first field, assembled by `decode`; the
exceptions of R68 are here. -/

namespace Sys2Proof.Machine

/-- `SH_LEVEL`: the digits `'1'..'9'` (41_framer.md R101). -/
def levelLegal (d : BitVec 8) : Bool := decide (0x31 ≤ d.toNat) && decide (d.toNat ≤ 0x39)

/-- `SH_LEVEL`: `blockSize100k = byte − 0x30` (30_encoding.md R68). -/
def levelValue (d : BitVec 8) : BitVec 4 := BitVec.ofNat 4 (d.toNat - 0x30)

/-- `MAP_L1`: bit `15 − i` says that range `i` is present (42_tables.md R117). -/
def rangePresent (u : BitVec 16) (i : Nat) : Bool := u.getLsbD (15 - i)

/-- The first present range at or after `i` (42_tables.md R118: ascending order). -/
def nextRange (u : BitVec 16) (i : Nat) : Option (BitVec 4) :=
  ((List.range 16).find? (fun k => decide (i ≤ k) && rangePresent u k)).map (BitVec.ofNat 4)

/-- `MAP_L2`: bit `15 − j` marks byte value `16·i + j` (42_tables.md R118). -/
def markRange (i : BitVec 4) (w : BitVec 16) (f : Vector Bool 256) : Vector Bool 256 :=
  (List.range 16).foldl (fun g j => if w.getLsbD (15 - j) then g.setIfInBounds (16 * i.toNat + j) true else g) f

/-- The byte values marked in the bitmap, ascending (42_tables.md R119). -/
def inUseBytes (f : Vector Bool 256) : List (BitVec 8) :=
  f.toList.zipIdx.filterMap (fun e => if e.1 then some (BitVec.ofNat 8 e.2) else none)

/-- `TB_NGROUPS`: legal values 2..6 (42_tables.md R124). -/
def groupsLegal (g : BitVec 3) : Bool := decide (minGroups ≤ g.toNat) && decide (g.toNat ≤ maxGroups)

/-- A running code length in 1..20 (42_tables.md R129). -/
def lengthLegal (l : BitVec 5) : Bool := decide (minCodeLen ≤ l.toNat) && decide (l.toNat ≤ maxCodeLen)

/-- The table of the current group, whose codes the next symbol is read with (30_encoding.md R70). -/
def currentTable (s : State) : Except Fault HuffTable := fileRead .tables s.tables s.curTable.toNat

end Sys2Proof.Machine
end

