-- ==== Sys2Proof/Machine/Framer.lean ====
section
/-! DEFINITION. The container framer: the meanings of the header, block-header and trailer elements (41_framer.md),
and what an unrecognised block magic does (R104). -/

namespace Sys2Proof.Machine

/-- `SH_MAGIC` (R99): the three bytes matched; the level digit is next. -/
def execShMagic (s : State) : Host.Outcome State Fault Refusal := .next { s with phase := .streamHeader .level }

/-- `SH_LEVEL` (R101). -/
def execShLevel (d : BitVec 8) (s : State) : Host.Outcome State Fault Refusal :=
  if levelLegal d then .next { s with blockSize100k := levelValue d, phase := .blockHeader }
  else .next (raise .headerLevel s)

/-- `BH_MAGIC` (R103). -/
def execBhMagic (s : State) : Host.Outcome State Fault Refusal := .next { s with phase := .blockTables .crc }

/-- `EOS_MAGIC` (R105). -/
def execEosMagic (s : State) : Host.Outcome State Fault Refusal := .next { s with phase := .streamTrailer }

/-- A 48-bit magic that is neither (R104): an error when strict, the end of the stream when lenient. -/
def unrecognisedMagic (s : State) : State :=
  if s.cfg.strictBlockMagic then raise .blockMagic s else { s with phase := .endOfStream }

/-- What an illegal stream encoding does (30_encoding.md R73). -/
def rejectElement (e : StreamError) (s : State) : State :=
  match e with
  | .blockMagic => unrecognisedMagic s
  | _ => raise e s

/-- `unzftab[0..255] <- 0` (41_framer.md R106, 43_symbols.md R138). -/
def clearedCounts : Mem 20 := memOfList (List.replicate countDepth 0#20)

/-- The per-block initialisation of R106. -/
def blockInit (s : State) : State :=
  { s with
    blockCRC := crcInit
    nblock := 0#20, runS := 0#20, runN := 1#20, groupNo := 0#15, groupPos := 0#6, curTable := 0#3
    nInUse := 0#9, alphaSize := 0#9, nGroups := 0#3, nSelectors := 0#15
    inUse := Vector.replicate 256 false, unzftab := clearedCounts
    i2 := 0#20, tPos := 0#20, rleCount := 0#3, rlePrev := 0#8, repLeft := 0#8, rNToGo := 0#10, rTPos := 0#9 }

/-- `BH_CRC` (R106). -/
def execBhCrc (c : BitVec 32) (s : State) : Host.Outcome State Fault Refusal :=
  .next { blockInit s with storedBlockCRC := c, phase := .blockTables .rand }

/-- Whether a block with this flag is refused (00_scope.md R8, 46_host.md R185). -/
def randRefused (r : BitVec 1) (s : State) : Bool := decide (r = 1#1) && !s.cfg.rnumsTrusted

/-- `BH_RAND` (R107): both values are legal; under `RNUMS_TRUSTED = false` a 1 sets the refusal mark, after which the
model has no transition (46_host.md R185, log entry 7). -/
def execBhRand (r : BitVec 1) (s : State) : Host.Outcome State Fault Refusal :=
  .next { s with randomised := r, refusalMark := s.refusalMark || randRefused r s, phase := .blockTables .origptr }

/-- `BH_ORIGPTR` (R108): any value is read; the range check is 43_symbols.md R150. -/
def execBhOrigptr (p : BitVec 24) (s : State) : Host.Outcome State Fault Refusal :=
  .next { s with origPtr := p, phase := .blockTables .mapL1 }

/-- `TR_CRC` (R113). -/
def execTrCrc (c : BitVec 32) (s : State) : Host.Outcome State Fault Refusal :=
  let t := { s with storedCombinedCRC := c }
  if c = s.combinedCRC then .next { t with phase := .endOfStream } else .next (raise .crcCombined t)

/-- `TR_PAD` (R114): the bits are neither read nor checked, and nothing is written. -/
def execTrPad (_x : List Bool) (s : State) : Host.Outcome State Fault Refusal := .next s

end Sys2Proof.Machine
end

