-- ==== Sys2Proof/Machine/Flags.lean ====
section
/-! DEFINITION. The status registers S0 to S11 (10_state.md R29 to R33): views of the registers, with the flag bits
`EOS`, `ERR`, `RAND`, `OPEN` and `PEND`. -/

namespace Sys2Proof.Machine

/-- The encoding of `phase` (10_state.md R15). -/
def Phase.code : Phase → BitVec 4
  | .closed => 0#4
  | .streamHeader _ => 1#4
  | .blockHeader => 2#4
  | .blockTables _ => 3#4
  | .blockSymbols _ => 4#4
  | .blockSetup => 5#4
  | .blockOutput => 6#4
  | .blockEnd => 7#4
  | .streamTrailer => 8#4
  | .endOfStream => 9#4
  | .failed => 10#4

/-- `EOS`: `phase = END_OF_STREAM` (10_state.md R31). -/
def flagEos (s : State) : BitVec 1 := if s.phase.code = 9#4 then 1#1 else 0#1
/-- `ERR`: `phase = FAILED` (10_state.md R31). -/
def flagErr (s : State) : BitVec 1 := if s.phase.code = 10#4 then 1#1 else 0#1
/-- `RAND` (10_state.md R31). -/
def flagRand (s : State) : BitVec 1 := s.randomised
/-- `OPEN`: `phase ≠ CLOSED` (10_state.md R31). -/
def flagOpen (s : State) : BitVec 1 := if s.phase.code = 0#4 then 0#1 else 1#1
/-- `PEND`: `repLeft > 0` (10_state.md R31). -/
def flagPend (s : State) : BitVec 1 := if s.repLeft = 0#8 then 0#1 else 1#1

/-- `S_STATUS` (10_state.md R31). -/
def statusWord (s : State) : BitVec 32 :=
  0#16 ++ flagPend s ++ s.rleCount ++ s.blockSize100k ++ flagOpen s ++ flagRand s ++ flagErr s ++ flagEos s ++ s.phase.code

/-- `S_ERROR` (10_state.md R32). -/
def errorWord (s : State) : BitVec 32 := 0#20 ++ s.errReason ++ s.errCode

/-- `S_TABLES` (10_state.md R33). -/
def tablesWord (s : State) : BitVec 32 := 0#5 ++ s.nInUse ++ s.nSelectors ++ s.nGroups

/-- `S_i`, the register map of 10_state.md R30; indices 12..15 read 0 (R29, 46_host.md R184). -/
def statusRegister (s : State) (i : BitVec 4) : BitVec 32 :=
  match i.toNat with
  | 0 => statusWord s
  | 1 => errorWord s
  | 2 => s.storedBlockCRC
  | 3 => s.blockCRC
  | 4 => s.combinedCRC
  | 5 => s.storedCombinedCRC
  | 6 => BitVec.ofNat 32 s.blockCount
  | 7 => 0#8 ++ s.origPtr
  | 8 => 0#12 ++ s.nblock
  | 9 => BitVec.ofNat 32 s.inCount
  | 10 => BitVec.ofNat 32 s.outCount
  | 11 => tablesWord s
  | _ => 0#32

end Sys2Proof.Machine
end

