-- ==== Sys2Proof/Machine/HostPort.lean ====
section
/-! DEFINITION. The meanings of the host commands (46_host.md). A command is taken only when no other is in progress
(R185, R186). -/

namespace Sys2Proof.Machine

/-- `CMD_OPEN` (R176): registers at their reset values, the handed-over source bound, `STREAM_HEADER`. -/
def execCmdOpen (s : State) : Host.Outcome State Fault Refusal :=
  match s.job, s.phase with
  | some _, _ => .refused .commandPending
  | none, .closed =>
    .next (answer .ack { resetRegisters s with phase := .streamHeader .magic, source := some s.handover })
  | none, _ => .refused .openWhileOpen

/-- `CMD_READ` (R178): the READ begins; the passes of its loop are the steps that follow, until one answers (log
entry 3). -/
def execCmdRead (s : State) : Host.Outcome State Fault Refusal :=
  match s.job, s.phase with
  | some _, _ => .refused .commandPending
  | none, .closed => .refused .readWhileClosed
  | none, _ => .next { s with job := some .read }

/-- `CMD_READ_BYTES(n)` (R181): no READ for `n = 0`; otherwise the first of its READs begins. -/
def execCmdReadBytes (n : Nat) (s : State) : Host.Outcome State Fault Refusal :=
  match s.job, s.phase with
  | some _, _ => .refused .commandPending
  | none, .closed => .refused .readWhileClosed
  | none, _ =>
    if n = 0 then .next (returnReadBytes (.count 0) { s with rbBuf := [] })
    else .next { s with job := some (.readBytes n 0), rbBuf := [] }

/-- `CMD_CLOSE` (R182): always admitted between commands; only `phase` changes, and the source is released. -/
def execCmdClose (s : State) : Host.Outcome State Fault Refusal :=
  match s.job with
  | some _ => .refused .commandPending
  | none => .next (answer .ack (leaveSession s))

/-- `CMD_STATUS(i)` (R184): answers `S_i`; no side effect. -/
def execCmdStatus (i : BitVec 4) (s : State) : Host.Outcome State Fault Refusal :=
  match s.job with
  | some _ => .refused .commandPending
  | none => .next (answer (.value (statusRegister s i)) s)

end Sys2Proof.Machine
end

