-- ==== Sys2Proof/Machine/Source.lean ====
section
/-! DEFINITION. The meanings of the source's answers (40_bitreader.md R91, R92): the loop body of `GetBits`. -/

namespace Sys2Proof.Machine

/-- The error an `EOI` raises: `InvalidHeader(SHORT)` in `STREAM_HEADER` (41_framer.md R100), otherwise
`UnexpectedEndOfStream` (40_bitreader.md R91). -/
def endOfInputError (p : Phase) : StreamError :=
  match p with
  | .streamHeader _ => .headerShort
  | _ => .endOfInput

/-- `SRC_DATA` (R92): the byte enters the bit accumulator (R91). -/
def execSrcData (b : BitVec 8) (s : State) : Host.Outcome State Fault Refusal := .next (absorbByte b s)

/-- `SRC_EOI` (R92): input exhausted inside a field. -/
def execSrcEoi (s : State) : Host.Outcome State Fault Refusal := .next (raise (endOfInputError s.phase) s)

end Sys2Proof.Machine
end

