-- ==== Sys2Proof/Machine/Symbols.lean ====
section
/-! DEFINITION. The symbol decoder (43_symbols.md): group selection, the RUNA/RUNB expander, the MTF decoder, the end
of a block's symbols. -/

namespace Sys2Proof.Machine

/-- Group selection, before each symbol (R139). -/
def groupPass (s : State) : Except Fault State :=
  if s.groupPos = 0#6 then
    if s.nSelectors.toNat ≤ s.groupNo.toNat then .ok (raise .selectorOverrun s)
    else
      match memRead .selector maxSelectors s.selector s.groupNo.toNat with
      | .error f => .error f
      | .ok t =>
        .ok
          { s with
            curTable := t, groupNo := s.groupNo + 1#15, groupPos := BitVec.ofNat 6 (groupSize - 1)
            phase := .blockSymbols .code }
  else .ok { s with groupPos := s.groupPos - 1#6, phase := .blockSymbols .code }

/-- One run digit, of value `d` times its weight (R142), under the block-size limit (R143). -/
def runDigit (d : Nat) (s : State) : State :=
  let t := s.runS.toNat + s.runN.toNat * d
  if blockLimit s < s.nblock.toNat + t then raise .blockOverflow s
  else { s with runS := BitVec.ofNat 20 t, runN := s.runN <<< 1, phase := .blockSymbols .group }

/-- `SYM_RUNA` (R142): symbol 0, a digit of value 1. -/
def execSymRuna (s : State) : Host.Outcome State Fault Refusal := .next (runDigit 1 s)

/-- `SYM_RUNB` (R142): symbol 1, a digit of value 2. -/
def execSymRunb (s : State) : Host.Outcome State Fault Refusal := .next (runDigit 2 s)

/-- `unzftab[b] <- unzftab[b] + k` (R137, R144). -/
def countBytes (b : BitVec 8) (k : Nat) (u : Mem 20) : Except Fault (Mem 20) :=
  match memRead .unzftab countDepth u b.toNat with
  | .error f => .error f
  | .ok c => memWrite .unzftab countDepth u b.toNat (c + BitVec.ofNat 20 k)

/-- `k` copies of `b` written to `ll8` at `nblock`, and counted (R137, R144). -/
def appendLl8 (b : BitVec 8) (k : Nat) (s : State) : Except Fault State :=
  match memWriteRun .ll8 maxBlock s.ll8 s.nblock.toNat k b with
  | .error f => .error f
  | .ok l =>
    match countBytes b k s.unzftab with
    | .error f => .error f
    | .ok u => .ok { s with ll8 := l, unzftab := u, nblock := s.nblock + BitVec.ofNat 20 k }

/-- `FlushRun()` (R144). -/
def flushRun (s : State) : Except Fault State :=
  if s.runS = 0#20 then .ok { s with runS := 0#20, runN := 1#20 }
  else
    match fileRead .mtfSym s.mtfSym 0 with
    | .error f => .error f
    | .ok b =>
      match appendLl8 b s.runS.toNat s with
      | .error f => .error f
      | .ok t => .ok { t with runS := 0#20, runN := 1#20 }

/-- `PutLL8(b)` (R137), with its check (R143). -/
def putLl8 (b : BitVec 8) (s : State) : Except Fault State :=
  if s.nblock.toNat < blockLimit s then
    match appendLl8 b 1 s with
    | .error f => .error f
    | .ok t => .ok { t with phase := .blockSymbols .group }
  else .ok (raise .blockOverflow s)

/-- The effect of an MTF symbol `n` (R146). -/
def mtfSymbol (n : Nat) (s : State) : Except Fault State :=
  match flushRun s with
  | .error f => .error f
  | .ok t =>
    match moveToFront .mtfSym t.mtfSym (n - 1) with
    | .error f => .error f
    | .ok (v, list) => putLl8 v { t with mtfSym := list }

/-- `SYM_MTF` (R146). -/
def execSymMtf (n : BitVec 9) (s : State) : Host.Outcome State Fault Refusal := finish (mtfSymbol n.toNat s)

/-- The effect of EOB (R148). -/
def endOfSymbols (s : State) : Except Fault State :=
  match flushRun s with
  | .error f => .error f
  | .ok t => .ok { t with phase := .blockSetup }

/-- `SYM_EOB` (R148). -/
def execSymEob (s : State) : Host.Outcome State Fault Refusal := finish (endOfSymbols s)

end Sys2Proof.Machine
end

