-- ==== Sys2Proof/Machine/Tables.lean ====
section
/-! DEFINITION. The table parse (42_tables.md): the meanings of the bitmap, count, selector and length elements, and
the actions between them that read no bit (the in-use list, the selector list, the decode tables, the start of the
symbol decoder). -/

namespace Sys2Proof.Machine

/-! The in-use bitmap. -/

/-- The next `MAP_L2`, for the first present range at or after `i`, or else the in-use list (R117 to R119). -/
def advanceMap (i : Nat) (s : State) : State :=
  match nextRange s.inUse16 i with
  | some k => { s with mapRange := k, phase := .blockTables .mapL2 }
  | none => { s with phase := .blockTables .alphabet }

/-- `MAP_L1` (R117). -/
def execMapL1 (u : BitVec 16) (s : State) : Host.Outcome State Fault Refusal :=
  .next (advanceMap 0 { s with inUse16 := u })

/-- `MAP_L2` (R118), for the range `mapRange`. -/
def execMapL2 (v : BitVec 16) (s : State) : Host.Outcome State Fault Refusal :=
  .next (advanceMap (s.mapRange.toNat + 1) { s with inUse := markRange s.mapRange v s.inUse })

/-- The in-use list and its check (R119, R120), then `alphaSize` (R123). -/
def alphabetPass (s : State) : State :=
  let used := inUseBytes s.inUse
  let t := { s with seqToUnseq := fileOverlay used s.seqToUnseq, nInUse := BitVec.ofNat 9 used.length }
  if used.length = 0 then raise .noSymbols t
  else { t with alphaSize := t.nInUse + 2#9, phase := .blockTables .ngroups }

/-! Group and selector counts, selectors. -/

/-- `TB_NGROUPS` (R124). -/
def execTbNgroups (g : BitVec 3) (s : State) : Host.Outcome State Fault Refusal :=
  if groupsLegal g then .next { s with nGroups := g, phase := .blockTables .nsel } else .next (raise .badGroups s)

/-- `TB_NSEL` (R125). -/
def execTbNsel (k : BitVec 15) (s : State) : Host.Outcome State Fault Refusal :=
  if k = 0#15 then .next (raise .badSelectors s)
  else .next { s with nSelectors := k, selIdx := 0#15, phase := .blockTables .selector }

/-- One selector stored at `selIdx` (R126); after the last one the selectors are MTF-decoded. -/
def storeSelector (j : BitVec 3) (s : State) : Except Fault State :=
  match memWrite .selectorMtf maxSelectors s.selectorMtf s.selIdx.toNat j with
  | .error f => .error f
  | .ok m =>
    let t := { s with selectorMtf := m, selIdx := s.selIdx + 1#15 }
    if s.selIdx.toNat + 1 = s.nSelectors.toNat then .ok { t with phase := .blockTables .selectorList }
    else .ok { t with phase := .blockTables .selector }

/-- `TB_SELECTOR` (R126). -/
def execTbSelector (j : BitVec 3) (s : State) : Host.Outcome State Fault Refusal :=
  if s.nGroups.toNat ≤ j.toNat then .next (raise .badSelector s) else finish (storeSelector j s)

/-- The loop of R127 over the selectors `is`. -/
def selectorLoop : List Nat → State → Except Fault State
  | [], s => .ok s
  | i :: is, s =>
    match memRead .selectorMtf maxSelectors s.selectorMtf i with
    | .error f => .error f
    | .ok j =>
      match moveToFront .selPos s.selPos j.toNat with
      | .error f => .error f
      | .ok (v, list) =>
        match memWrite .selector maxSelectors s.selector i v with
        | .error f => .error f
        | .ok m => selectorLoop is { s with selPos := list, selector := m }

/-- MTF decode of the selectors (R127); the code lengths are next. -/
def selectorListPass (s : State) : Except Fault State :=
  if maxGroups < s.nGroups.toNat then .error (.indexOutOfDepth .selPos (s.nGroups.toNat - 1))
  else
    let start := { s with selPos := fileOverlay ((List.range s.nGroups.toNat).map (BitVec.ofNat 3)) s.selPos }
    match selectorLoop (List.range s.nSelectors.toNat) start with
    | .error f => .error f
    | .ok t => .ok { t with tblIdx := 0#3, phase := .blockTables .lenStart }

/-! Code lengths. -/

/-- `TB_LEN_START` (R128), for table `tblIdx`. -/
def execTbLenStart (l : BitVec 5) (s : State) : Host.Outcome State Fault Refusal :=
  .next { s with curr := l, symIdx := 0#9, phase := .blockTables .lencode }

/-- Whether the range check of R129 stands before the next bit, and fails: it is made before the first bit of a code. -/
def lengthRefused (s : State) : Bool := s.part.isEmpty && !lengthLegal s.curr

/-- `TB_LEN_INC` (R129): the range check comes before the next code's first bit (`lengthRefused`). -/
def execTbLenInc (s : State) : Host.Outcome State Fault Refusal :=
  .next { s with curr := s.curr + 1#5 }

/-- `TB_LEN_DEC` (R129). -/
def execTbLenDec (s : State) : Host.Outcome State Fault Refusal :=
  .next { s with curr := s.curr - 1#5 }

/-- After a symbol's length: the next symbol, the next table's start, or the decode tables (R116, R130). -/
def advanceLength (s : State) : State :=
  if s.symIdx.toNat + 1 = s.alphaSize.toNat then
    if s.tblIdx.toNat + 1 = s.nGroups.toNat then { s with tblIdx := 0#3, phase := .blockTables .build }
    else { s with tblIdx := s.tblIdx + 1#3, phase := .blockTables .lenStart }
  else { s with symIdx := s.symIdx + 1#9, phase := .blockTables .lencode }

/-- `len[t][s] <- curr` (R130). -/
def storeLength (s : State) : Except Fault State :=
  match fileRead .tables s.tables s.tblIdx.toNat with
  | .error f => .error f
  | .ok t =>
    match fileWrite .len t.len s.symIdx.toNat s.curr with
    | .error f => .error f
    | .ok l =>
      match fileWrite .tables s.tables s.tblIdx.toNat { t with len := l } with
      | .error f => .error f
      | .ok ts => .ok { s with tables := ts }

/-- `TB_LEN_STOP` (R130). -/
def execTbLenStop (s : State) : Host.Outcome State Fault Refusal :=
  match storeLength s with
  | .error f => .fault f
  | .ok t => .next (advanceLength t)

/-! Decode tables (R131, R132). -/

/-- The code lengths `1..20`. -/
def codeLengths : List Nat := List.range' 1 20

/-- `count[n]`: how many of the lengths are `n`. -/
def lengthCount (lens : List (BitVec 5)) (n : Nat) : Nat := (lens.filter (fun l => decide (l.toNat = n))).length

/-- `sum over n in 1..20 of count[n] * 2^(20 - n)` (R132). -/
def codeSpace (lens : List (BitVec 5)) : Nat :=
  (codeLengths.map (fun n => lengthCount lens n * 2 ^ (20 - n))).sum

/-- `k` at the start of length `n`: the number of symbols with a shorter length (R131). -/
def firstIndex (lens : List (BitVec 5)) (n : Nat) : Nat := ((List.range' 1 (n - 1)).map (lengthCount lens)).sum

/-- `code` at the start of length `n + 1`: `code <- (code + count[n]) << 1`, from 0 at length 1 (R131). -/
def firstCodeAfter (lens : List (BitVec 5)) : Nat → Nat
  | 0 => 0
  | n + 1 => 2 * (firstCodeAfter lens n + lengthCount lens (n + 1))

/-- The symbols with length `n`, in ascending symbol order. -/
def symbolsOfLength (lens : List (BitVec 5)) (n : Nat) : List Nat :=
  lens.zipIdx.filterMap (fun e => if e.1.toNat = n then some e.2 else none)

/-- `perm`: the symbols in order of (length, symbol number) (R131). -/
def canonicalOrder (lens : List (BitVec 5)) : List Nat := codeLengths.flatMap (symbolsOfLength lens)

/-- `minLen`, `maxLen` and `count` (R131); entry 0 of `count` is unused and kept (10_state.md R23). -/
def withCounts (lens : List (BitVec 5)) (t : HuffTable) : HuffTable :=
  { t with
    minLen := BitVec.ofNat 5 ((lens.map (·.toNat)).foldl min 31)
    maxLen := BitVec.ofNat 5 ((lens.map (·.toNat)).foldl max 0)
    count := fileOf 21 (fun n => if n = 0 then t.count[0] else BitVec.ofNat 9 (lengthCount lens n)) }

/-- `firstIdx`, `perm` and `firstCode` (R131); entries 0 and entries of `perm` beyond the symbols are kept. -/
def withCodes (lens : List (BitVec 5)) (t : HuffTable) : HuffTable :=
  { t with
    firstIdx := fileOf 21 (fun n => if n = 0 then t.firstIdx[0] else BitVec.ofNat 9 (firstIndex lens n))
    perm := fileOverlay ((canonicalOrder lens).map (BitVec.ofNat 9)) t.perm
    firstCode := fileOf 21 (fun n => if n = 0 then t.firstCode[0] else BitVec.ofNat 21 (firstCodeAfter lens (n - 1))) }

/-- After table `tblIdx` is built: the next table, or the symbol decoder (R116). -/
def advanceBuild (s : State) : State :=
  if s.tblIdx.toNat + 1 = s.nGroups.toNat then { s with phase := .blockTables .symbolInit }
  else { s with tblIdx := s.tblIdx + 1#3, phase := .blockTables .build }

/-- Build table `tblIdx` (R131) and check its code space (R132). -/
def buildPass (s : State) : Except Fault State :=
  if 258 < s.alphaSize.toNat then .error (.indexOutOfDepth .len (s.alphaSize.toNat - 1))
  else
    match fileRead .tables s.tables s.tblIdx.toNat with
    | .error f => .error f
    | .ok t =>
      let lens := t.len.toList.take s.alphaSize.toNat
      let counted := withCounts lens t
      if 2 ^ 20 < codeSpace lens then
        match fileWrite .tables s.tables s.tblIdx.toNat counted with
        | .error f => .error f
        | .ok ts => .ok (raise .oversubscribed { s with tables := ts })
      else
        match fileWrite .tables s.tables s.tblIdx.toNat (withCodes lens counted) with
        | .error f => .error f
        | .ok ts => .ok (advanceBuild { s with tables := ts })

/-- The start of the symbol decoder (R134, 43_symbols.md R138). -/
def symbolInitPass (s : State) : Except Fault State :=
  if 256 < s.nInUse.toNat then .error (.indexOutOfDepth .mtfSym (s.nInUse.toNat - 1))
  else .ok
    { s with
      mtfSym := fileOverlay (s.seqToUnseq.toList.take s.nInUse.toNat) s.mtfSym
      unzftab := clearedCounts
      nblock := 0#20, runS := 0#20, runN := 1#20, groupNo := 0#15, groupPos := 0#6
      phase := .blockSymbols .group }

end Sys2Proof.Machine
end

