-- ==== Sys2Proof/Machine/Dispatch.lean ====
section
/-! DEFINITION. The dispatch: one arm per instruction, each one direct call of its meaning. -/

namespace Sys2Proof.Machine

def exec (i : Instr) (s : State) : Host.Outcome State Fault Refusal :=
  match i with
  | .shMagic => Sys2Proof.Machine.execShMagic s
  | .shLevel d => Sys2Proof.Machine.execShLevel d s
  | .bhMagic => Sys2Proof.Machine.execBhMagic s
  | .eosMagic => Sys2Proof.Machine.execEosMagic s
  | .bhCrc c => Sys2Proof.Machine.execBhCrc c s
  | .bhRand r => Sys2Proof.Machine.execBhRand r s
  | .bhOrigptr p => Sys2Proof.Machine.execBhOrigptr p s
  | .mapL1 u => Sys2Proof.Machine.execMapL1 u s
  | .mapL2 v => Sys2Proof.Machine.execMapL2 v s
  | .tbNgroups g => Sys2Proof.Machine.execTbNgroups g s
  | .tbNsel k => Sys2Proof.Machine.execTbNsel k s
  | .tbSelector j => Sys2Proof.Machine.execTbSelector j s
  | .tbLenStart l => Sys2Proof.Machine.execTbLenStart l s
  | .tbLenInc => Sys2Proof.Machine.execTbLenInc s
  | .tbLenDec => Sys2Proof.Machine.execTbLenDec s
  | .tbLenStop => Sys2Proof.Machine.execTbLenStop s
  | .symRuna => Sys2Proof.Machine.execSymRuna s
  | .symRunb => Sys2Proof.Machine.execSymRunb s
  | .symMtf n => Sys2Proof.Machine.execSymMtf n s
  | .symEob => Sys2Proof.Machine.execSymEob s
  | .trCrc c => Sys2Proof.Machine.execTrCrc c s
  | .trPad x => Sys2Proof.Machine.execTrPad x s
  | .cmdOpen => Sys2Proof.Machine.execCmdOpen s
  | .cmdRead => Sys2Proof.Machine.execCmdRead s
  | .cmdReadBytes n => Sys2Proof.Machine.execCmdReadBytes n s
  | .cmdClose => Sys2Proof.Machine.execCmdClose s
  | .cmdStatus k => Sys2Proof.Machine.execCmdStatus k s
  | .srcData b => Sys2Proof.Machine.execSrcData b s
  | .srcEoi => Sys2Proof.Machine.execSrcEoi s

end Sys2Proof.Machine
end

