-- ==== Sys2Proof/Machine/Output.lean ====
section
/-! DEFINITION. The output stage (45_output.md): the walk, the derandomiser, the RLE expander, emission with the block
CRC, and the block's end. -/

namespace Sys2Proof.Machine

/-- `RNUMS[i]` (R162), with the index checked. -/
def rnumAt (i : Nat) : Except Fault (BitVec 10) :=
  match rnums[i]? with
  | some n => .ok (BitVec.ofNat 10 n)
  | none => .error (.indexOutOfDepth .rnums i)

/-- `RandMask()` (R163), once `rNToGo` is not 0: the mask bit and the state after. -/
def maskStep (s : State) : BitVec 8 × State :=
  let n := s.rNToGo - 1#10
  (if n = 1#10 then 1#8 else 0#8, { s with rNToGo := n })

/-- `RandMask()` (R163). -/
def randMask (s : State) : Except Fault (BitVec 8 × State) :=
  if s.rNToGo = 0#10 then
    match rnumAt s.rTPos.toNat with
    | .error f => .error f
    | .ok n => .ok (maskStep { s with rNToGo := n, rTPos := s.rTPos + 1#9 })
  else .ok (maskStep s)

/-- `WalkByte()` (R166): one step of the successor walk, derandomised when the block is randomised. -/
def walkByte (s : State) : Except Fault (BitVec 8 × State) :=
  match memRead .ll8 maxBlock s.ll8 s.tPos.toNat with
  | .error f => .error f
  | .ok b =>
    match memRead .tt maxBlock s.tt s.tPos.toNat with
    | .error f => .error f
    | .ok p =>
      let t := { s with tPos := p, i2 := s.i2 + 1#20 }
      if s.randomised = 1#1 then
        match randMask t with
        | .error f => .error f
        | .ok (m, u) => .ok (b ^^^ m, u)
      else .ok (b, t)

/-- `Emit(b)` (R168): the byte enters the block CRC, is counted, and answers the READ. -/
def emit (b : BitVec 8) (s : State) : State :=
  answerByte b { s with blockCRC := crcByte s.blockCRC b, outCount := s.outCount + 1 }

/-- The RLE expander for a walk byte (R167): after four equal bytes it is a count byte; otherwise it is emitted. -/
def expandByte (b : BitVec 8) (s : State) : State :=
  if s.rleCount = 4#3 then { s with repLeft := b, rleCount := 0#3 }
  else if s.rleCount ≠ 0#3 ∧ b = s.rlePrev then emit b { s with rleCount := s.rleCount + 1#3 }
  else emit b { s with rleCount := 1#3, rlePrev := b }

/-- One turn of the loop of `OutputStep` (R167). -/
def outputPass (s : State) : Except Fault State :=
  if s.repLeft ≠ 0#8 then .ok (emit s.rlePrev { s with repLeft := s.repLeft - 1#8 })
  else if s.i2 = s.nblock then
    if s.rleCount = 4#3 then .ok (raise .rleTruncated s) else .ok { s with phase := .blockEnd }
  else
    match walkByte s with
    | .error f => .error f
    | .ok (b, t) => .ok (expandByte b t)

/-- The `BLOCK_END` action: the block CRC check (R170), then the combined CRC (R171). -/
def blockEndPass (s : State) : State :=
  let computed := crcComputed s.blockCRC
  if computed = s.storedBlockCRC then
    { s with
      combinedCRC := crcCombine s.combinedCRC computed, blockCount := s.blockCount + 1, phase := .blockHeader }
  else raise .crcBlock s

end Sys2Proof.Machine
end

