-- ==== Sys2Proof/Machine/Transform.lean ====
section
/-! DEFINITION. The inverse block transform's setup (43_symbols.md R150, 44_inverse_bwt.md R151 to R155): the origin
pointer check, the cumulative counts, the successor table, the start of the output. -/

namespace Sys2Proof.Machine

/-- The entries `is` of a memory, in that order. -/
def memReadAll {w : Nat} (name : Store) (depth : Nat) (m : Mem w) : List Nat → Except Fault (List (BitVec w))
  | [] => .ok []
  | i :: is =>
    match memRead name depth m i with
    | .error f => .error f
    | .ok v =>
      match memReadAll name depth m is with
      | .error f => .error f
      | .ok vs => .ok (v :: vs)

/-- `a`, `a + c0`, `a + c0 + c1`, … -/
def runningSums (a : BitVec 20) : List (BitVec 20) → List (BitVec 20)
  | [] => [a]
  | c :: cs => a :: runningSums (a + c) cs

/-- `cftab` (R153): all 257 entries are written. -/
def cumulativeCounts (u : Mem 20) : Except Fault (Mem 20) :=
  match memReadAll .unzftab countDepth u (List.range countDepth) with
  | .error f => .error f
  | .ok counts => .ok (memOfList (runningSums 0#20 counts))

/-- The loop of R154 over the positions `is`: `tt[cftab[v]] <- i; cftab[v] <- cftab[v] + 1` for `v = ll8[i]`. -/
def successorLoop (l : Mem 8) : List Nat → Mem 20 → Mem 20 → Except Fault (Mem 20 × Mem 20)
  | [], c, t => .ok (c, t)
  | i :: is, c, t =>
    match memRead .ll8 maxBlock l i with
    | .error f => .error f
    | .ok v =>
      match memRead .cftab cumulativeDepth c v.toNat with
      | .error f => .error f
      | .ok k =>
        match memWrite .tt maxBlock t k.toNat (BitVec.ofNat 20 i) with
        | .error f => .error f
        | .ok t' =>
          match memWrite .cftab cumulativeDepth c v.toNat (k + 1#20) with
          | .error f => .error f
          | .ok c' => successorLoop l is c' t'

/-- The start of a block's output (R155). -/
def outputInit (s : State) : Except Fault State :=
  match memRead .tt maxBlock s.tt s.origPtr.toNat with
  | .error f => .error f
  | .ok p =>
    .ok
      { s with
        tPos := p, i2 := 0#20, rleCount := 0#3, rlePrev := 0#8, repLeft := 0#8, rNToGo := 0#10, rTPos := 0#9
        phase := .blockOutput }

/-- The `BLOCK_SETUP` action: the check of R150, then R153, R154 and R155. -/
def setupPass (s : State) : Except Fault State :=
  if s.nblock.toNat ≤ s.origPtr.toNat then .ok (raise .badOrigPtr s)
  else
    match cumulativeCounts s.unzftab with
    | .error f => .error f
    | .ok c =>
      match successorLoop s.ll8 (List.range s.nblock.toNat) c s.tt with
      | .error f => .error f
      | .ok (c', t) => outputInit { s with cftab := c', tt := t }

end Sys2Proof.Machine
end

