-- ==== Sys2Proof/Machine/Read.lean ====
section
/-! DEFINITION. The passes of the READ loop (46_host.md R178): the action of the current phase (41_framer.md R98),
one `GetBits`, one source answer, one element or one internal action at a time (log entry 3). -/

namespace Sys2Proof.Machine

/-- A decoder's rejection, as a stop of the model. -/
def rejected (r : Reject) : Host.Outcome State Fault Refusal :=
  match r with
  | .illegalCommand w => .refused (.illegalCommand w)
  | .illegalAnswer w => .refused (.illegalAnswer w)
  | .tableIndex i => .fault (.indexOutOfDepth .huffman i)
  | .noSuchSymbol k => .fault (.noSuchSymbol k)

/-- The bits of an element so far, the last `GetBits` among them: an incomplete element keeps them, a complete one is
executed, an illegal one raises its error (30_encoding.md R73). -/
def acceptBits (e : Expect) (bits : List Bool) (s : State) : Host.Outcome State Fault Refusal :=
  match decode e bits with
  | .need _ => .next { s with part := bits }
  | .instr i _ => exec i { s with part := [] }
  | .illegal err => .next (rejectElement err { s with part := [] })
  | .reject r => rejected r

/-- `Fetch()` (40_bitreader.md R92): the source answers a 9-bit word, and that answer is executed. -/
def sourcePass (s : State) : Host.Outcome State Fault Refusal :=
  match s.source with
  | none => .fault .noSource
  | some bytes =>
    let a := sourceAnswer bytes
    match decode .sourceAnswer (bitsOf 9 a.1.toNat) with
    | .instr i _ => exec i { s with source := some a.2 }
    | .reject r => rejected r
    | .need _ => .refused (.illegalAnswer a.1)
    | .illegal _ => .refused (.illegalAnswer a.1)

/-- One turn towards the element `e`: `GetBits(n)` fetches while fewer than `n` bits are live, then takes its `n` bits
(40_bitreader.md R91). -/
def elementPass (e : Expect) (s : State) : Host.Outcome State Fault Refusal :=
  match decode e s.part with
  | .need n =>
    if n = 0 ∨ readMax < n then .fault (.getBitsWidth n)
    else if s.bsLive.toNat < n then sourcePass s
    else acceptBits e (s.part ++ (takeBits n s).1) (takeBits n s).2
  | .instr _ _ => acceptBits e s.part s
  | .illegal _ => acceptBits e s.part s
  | .reject _ => acceptBits e s.part s

/-- One turn towards a code of a `lencode`: the range check of 42_tables.md R129 comes before its first bit. -/
def lencodePass (s : State) : Host.Outcome State Fault Refusal :=
  if lengthRefused s then .next (raise .badLength s) else elementPass .lencode s

/-- One turn towards a Huffman symbol, with the current group's table (43_symbols.md R140). -/
def symbolPass (s : State) : Host.Outcome State Fault Refusal :=
  match currentTable s with
  | .error f => .fault f
  | .ok t => elementPass (.symbol t s.nInUse.toNat) s

/-- One step of the table parse (42_tables.md R116). -/
def tablesPass (pos : TablesPos) (s : State) : Host.Outcome State Fault Refusal :=
  match pos with
  | .crc => elementPass .bhCrc s
  | .rand => elementPass .bhRand s
  | .origptr => elementPass .bhOrigptr s
  | .mapL1 => elementPass .mapL1 s
  | .mapL2 => elementPass .mapL2 s
  | .alphabet => .next (alphabetPass s)
  | .ngroups => elementPass .tbNgroups s
  | .nsel => elementPass .tbNsel s
  | .selector => elementPass (.selector s.nGroups.toNat) s
  | .selectorList => finish (selectorListPass s)
  | .lenStart => elementPass .tbLenStart s
  | .lencode => lencodePass s
  | .build => finish (buildPass s)
  | .symbolInit => finish (symbolInitPass s)

/-- The `STREAM_TRAILER` action: one turn towards `TR_CRC` (41_framer.md R113) and, where it ends the stream, `TR_PAD`
in the same action (30_encoding.md R71, 41_framer.md R114): the bits still live, of which none is taken (log entry
10). -/
def trailerPass (s : State) : Host.Outcome State Fault Refusal :=
  match elementPass .trCrc s with
  | .next t => if t.phase = .endOfStream then exec (.trPad (liveBits t)) t else .next t
  | .fault f => .fault f
  | .refused r => .refused r

/-- One pass of the READ loop (46_host.md R178). -/
def readPass (s : State) : Host.Outcome State Fault Refusal :=
  match s.phase with
  | .closed => .refused .readWhileClosed
  | .streamHeader .magic => elementPass .shMagic s
  | .streamHeader .level => elementPass .shLevel s
  | .blockHeader => elementPass .blockMagic s
  | .blockTables pos => tablesPass pos s
  | .blockSymbols .group => finish (groupPass s)
  | .blockSymbols .code => symbolPass s
  | .blockSetup => finish (setupPass s)
  | .blockOutput => finish (outputPass s)
  | .blockEnd => .next (blockEndPass s)
  | .streamTrailer => trailerPass s
  | .endOfStream => .next (answerEndOfStream s)
  | .failed => .next (answerError s)

end Sys2Proof.Machine
end

