-- ==== Sys2Proof/Machine/Port.lean ====
section
/-! DEFINITION. The host port and the platform: the next command word is taken, decoded and executed when no command
is in progress (46_host.md R186); hardware reset (70_reset_and_hazards.md R206). And where a word is placed so that
the next step fetches it (log entry 11). -/

namespace Sys2Proof.Machine

/-- A command word at the host port, with what the host hands over beside it. -/
def commandPass (word : BitVec 8) (s : State) : Host.Outcome State Fault Refusal :=
  match decode .command (bitsOf 8 word.toNat) with
  | .instr i _ => exec i s
  | .reject r => rejected r
  | .need _ => .refused (.illegalCommand word)
  | .illegal _ => .refused (.illegalCommand word)

/-- Between commands: the next event, or nothing to do, and then BZ2DEC keeps all its state (60_exceptions.md R203,
log entry 6). -/
def portPass (s : State) : Host.Outcome State Fault Refusal :=
  match s.port with
  | [] => .next s
  | .command word handover :: rest => commandPass word { s with port := rest, handover := handover }
  | .readBytes n :: rest => exec (.cmdReadBytes n) { s with port := rest }
  | .reset :: rest => .next (hardwareReset { s with port := rest })

/-! Placing one word (log entry 11). -/

/-- The phase in which the element of a table row is read, and the width of its last `GetBits`. -/
def elementPlace : Expect → Phase × Nat
  | .command => (.closed, 8)
  | .sourceAnswer => (.streamHeader .magic, 9)
  | .shMagic => (.streamHeader .magic, 8)
  | .shLevel => (.streamHeader .level, 8)
  | .blockMagic => (.blockHeader, 24)
  | .bhCrc => (.blockTables .crc, 16)
  | .bhRand => (.blockTables .rand, 1)
  | .bhOrigptr => (.blockTables .origptr, 24)
  | .mapL1 => (.blockTables .mapL1, 16)
  | .mapL2 => (.blockTables .mapL2, 16)
  | .tbNgroups => (.blockTables .ngroups, 3)
  | .tbNsel => (.blockTables .nsel, 15)
  | .selector _ => (.blockTables .selector, 1)
  | .tbLenStart => (.blockTables .lenStart, 5)
  | .lencode => (.blockTables .lencode, 1)
  | .symbol _ _ => (.blockSymbols .code, 1)
  | .trCrc => (.streamTrailer, 16)
  | .trPad => (.streamTrailer, 0)

/-- A command word at the head of the host port, in a phase that admits it: OPEN needs `CLOSED`, READ an open
session (46_host.md R185). -/
def placeCommand (w : Nat) (s : State) : State :=
  let t := { s with port := .command (BitVec.ofNat 8 w) [] :: s.port, job := none, refusalMark := false }
  if w = 0x10 then { t with phase := .closed }
  else if w = 0x20 ∧ s.phase = .closed then { t with phase := .streamHeader .magic }
  else t

/-- A source answer as what the source gives to the next `Fetch()`, during a READ that needs a byte. -/
def placeAnswer (w : Nat) (s : State) : State :=
  let bytes := if w = 0 then [] else BitVec.ofNat 8 w :: s.source.getD []
  { s with
    job := some .read, refusalMark := false, phase := .streamHeader .magic, part := [], bsLive := 0#5, source := some bytes }

/-- An element of the stream, during a READ that has it next: all but the bits of its last `GetBits` consumed, those
live in the bit accumulator. -/
def placeElement (e : Expect) (bits : List Bool) (s : State) : State :=
  let last := (elementPlace e).2
  let k := bits.length - last
  { s with
    job := some .read, refusalMark := false, phase := (elementPlace e).1, part := bits.take k
    bsBuff := BitVec.ofNat 32 (valueOf (bits.drop k)), bsLive := BitVec.ofNat 5 last }

/-- The state `s` with the word placed where the step fetches its next instruction. -/
def placeWord (s : State) (nbits w : Nat) : State :=
  match tablePlace nbits w with
  | none => placeCommand w s
  | some .command => placeCommand w s
  | some .sourceAnswer => placeAnswer w s
  | some e => placeElement e (tableBits nbits w) s

end Sys2Proof.Machine
end

