-- ==== Sys2Proof/Machine/Step.lean ====
section
/-! DEFINITION. The step: a refused run has no transition (46_host.md R185); a command in progress makes one pass of
the READ loop; otherwise the host port's next event is taken. -/

namespace Sys2Proof.Machine

/-- One step of the machine. -/
def step (s : State) : Host.Outcome State Fault Refusal :=
  if s.refusalMark then .refused .untrustedRandomised
  else
    match s.job with
    | some _ => readPass s
    | none => portPass s

/-- `s` with the instruction whose bits are `w` placed where the step fetches its next instruction (log entry 11). -/
def State.withFetchWord (s : State) (nbits w : Nat) : State := placeWord s nbits w

end Sys2Proof.Machine
end

