-- ==== Sys2Proof/WellFormed.lean ====
section
/-! DEFINITION. Which instructions have an encoding: the operands lie in the ranges their encodings can carry
(30_encoding.md R65, R67, R69). A value that an encoding can carry and a rule then answers with an error (a level
digit outside 1..9, a group count of 7) is well-formed: its meaning is that error (R73). -/

namespace Sys2Proof

/-- The static check of an instruction. -/
def WellFormed : Instr → Bool
  -- R67: `"1"^j "0"` with `0 ≤ j < nGroups ≤ 6`
  | .tbSelector j => decide (j.toNat < 6)
  -- R69: MTF symbols are `2 .. nInUse`, `nInUse ≤ 256`
  | .symMtf n => decide (2 ≤ n.toNat) && decide (n.toNat ≤ 256)
  -- R65: 0 to 7 pad bits
  | .trPad x => decide (x.length ≤ 7)
  | .shMagic => true
  | .shLevel _ => true
  | .bhMagic => true
  | .eosMagic => true
  | .bhCrc _ => true
  | .bhRand _ => true
  | .bhOrigptr _ => true
  | .mapL1 _ => true
  | .mapL2 _ => true
  | .tbNgroups _ => true
  | .tbNsel _ => true
  | .tbLenStart _ => true
  | .tbLenInc => true
  | .tbLenDec => true
  | .tbLenStop => true
  | .symRuna => true
  | .symRunb => true
  | .symEob => true
  | .trCrc _ => true
  | .cmdOpen => true
  | .cmdRead => true
  | .cmdReadBytes _ => true
  | .cmdClose => true
  | .cmdStatus _ => true
  | .srcData _ => true
  | .srcEoi => true

end Sys2Proof
end

