-- ==== Sys2Proof/Safety.lean ====
section
/-! DEFINITION. The terms claims use: what a run has output, which bits stand next, which phases follow which, what
holds between commands, and the invariant under which no step meets a fault of the model. -/

namespace Sys2Proof.Safety

open Sys2Proof.Machine

/-! Observations (70_reset_and_hazards.md R222). -/

/-- The output stream: the bytes of the answers `Byte(b)`, in order (20_memory.md R49). -/
def outputOf (as : List Answer) : List (BitVec 8) :=
  as.filterMap (fun a => match a with | .byte b => some b | _ => none)

/-- The bits the source has still to deliver, in stream order (20_memory.md R56). -/
def sourceBits (s : State) : List Bool := (s.source.getD []).flatMap (fun b => bitsOf 8 b.toNat)

/-- The stream bits not consumed yet: those live in the accumulator, then those of the source (10_state.md R17, R18). -/
def pendingBits (s : State) : List Bool := liveBits s ++ sourceBits s

/-- The bytes of the session's input: those taken and those left (20_memory.md R48). -/
def sessionBytes (s : State) : Nat := s.inCount + (s.source.getD []).length

/-- All six memories are in canonical form (20_memory.md R51 to R54). -/
def memoriesWf (s : State) : Prop :=
  Mem.wf maxBlock s.ll8 ∧ Mem.wf maxBlock s.tt ∧ Mem.wf maxSelectors s.selectorMtf ∧ Mem.wf maxSelectors s.selector ∧
    Mem.wf countDepth s.unzftab ∧ Mem.wf cumulativeDepth s.cftab

/-! Phases (10_state.md R16, 41_framer.md R98). -/

/-- The element the current phase reads, if it reads one (30_encoding.md R71). -/
def expected (s : State) : Option Expect :=
  match s.phase with
  | .streamHeader .magic => some .shMagic
  | .streamHeader .level => some .shLevel
  | .blockHeader => some .blockMagic
  | .blockTables .crc => some .bhCrc
  | .blockTables .rand => some .bhRand
  | .blockTables .origptr => some .bhOrigptr
  | .blockTables .mapL1 => some .mapL1
  | .blockTables .mapL2 => some .mapL2
  | .blockTables .ngroups => some .tbNgroups
  | .blockTables .nsel => some .tbNsel
  | .blockTables .selector => some (.selector s.nGroups.toNat)
  | .blockTables .lenStart => some .tbLenStart
  | .blockTables .lencode => if lengthRefused s then none else some .lencode
  | .blockSymbols .code => (s.tables[s.curTable.toNat]?).map (fun t => .symbol t s.nInUse.toNat)
  | .streamTrailer => some .trCrc
  | _ => none

/-- The values of `phase` between two host commands (10_state.md R16). -/
def idlePhase : Phase → Bool
  | .closed => true
  | .streamHeader .magic => true
  | .blockOutput => true
  | .endOfStream => true
  | .failed => true
  | _ => false

/-- What holds between two commands, and so that it holds (10_state.md R16): with no command in progress the phase is
one of five; a partly read element exists only inside a READ, in a phase that reads one. -/
def betweenCommands (s : State) : Prop :=
  (s.job = none → idlePhase s.phase = true) ∧ (s.part ≠ [] → s.job ≠ none ∧ (expected s).isSome = true)

/-- The transitions of the phase register inside a READ (41_framer.md R98), by their codes (10_state.md R15), but for
the lenient reading of an unknown magic. -/
def phaseEdges : List (Nat × Nat) := [(1, 2), (2, 3), (2, 8), (3, 4), (4, 5), (5, 6), (6, 7), (7, 2), (8, 9)]

/-- `phase` may go in one step from the phase of `s` to that of `t`: it stays; inside a READ it takes an edge of R98, goes
from `BLOCK_HEADER` to `END_OF_STREAM` under the lenient reading (R104), or fails from a phase that decodes (R190);
between commands it is opened (46_host.md R176) or closed (R182, 70_reset_and_hazards.md R206). -/
def phaseMayGo (s t : State) : Prop :=
  s.phase.code = t.phase.code ∨
    (s.job ≠ none ∧
      ((s.phase.code.toNat, t.phase.code.toNat) ∈ phaseEdges ∨
        (s.cfg.strictBlockMagic = false ∧ s.phase.code = 2#4 ∧ t.phase.code = 9#4) ∨
        (1 ≤ s.phase.code.toNat ∧ s.phase.code.toNat ≤ 8 ∧ t.phase.code = 10#4))) ∨
    (s.job = none ∧ ((s.phase.code = 0#4 ∧ t.phase.code = 1#4) ∨ t.phase.code = 0#4))

/-- The next event at the port is the command word `w`. -/
def nextCommand (w : BitVec 8) (s : State) : Prop := ∃ src rest, s.port = .command w src :: rest

/-- What starts the counts of a session again is next: a reset, or OPEN of a closed stream (46_host.md R176,
70_reset_and_hazards.md R206). -/
def startsAgain (s : State) : Prop :=
  s.job = none ∧ ((∃ rest, s.port = .reset :: rest) ∨ (nextCommand 0x10#8 s ∧ s.phase = .closed))

/-- The errors each phase can raise (60_exceptions.md R205). -/
def errorsOf : Phase → List StreamError
  | .streamHeader _ => [.headerMagic, .headerLevel, .headerShort]
  | .blockHeader => [.endOfInput, .blockMagic]
  | .blockTables _ =>
    [.endOfInput, .noSymbols, .badGroups, .badSelectors, .badSelector, .badLength, .oversubscribed]
  | .blockSymbols _ => [.endOfInput, .selectorOverrun, .badCode, .blockOverflow]
  | .blockSetup => [.badOrigPtr]
  | .blockOutput => [.rleTruncated]
  | .blockEnd => [.crcBlock]
  | .streamTrailer => [.endOfInput, .crcCombined]
  | _ => []

/-- What every element of the stream leaves alone: the parameters, the bit reader and the source, the counters of
bytes, `tt`, `cftab` and the decoded selectors, the answers, the command in progress, and the host's side
(40_bitreader.md R97, 45_output.md R168, 20_memory.md R52 to R54). -/
def elementFrame (s t : State) : Prop :=
  t.cfg = s.cfg ∧ t.bsBuff = s.bsBuff ∧ t.bsLive = s.bsLive ∧ t.inCount = s.inCount ∧ t.source = s.source ∧
    t.outCount = s.outCount ∧ t.blockCount = s.blockCount ∧ t.combinedCRC = s.combinedCRC ∧ t.tt = s.tt ∧
    t.cftab = s.cftab ∧ t.selector = s.selector ∧ t.job = s.job ∧ t.answers = s.answers ∧ t.port = s.port ∧
    t.handover = s.handover ∧ t.rbBuf = s.rbBuf ∧ t.rbReturns = s.rbReturns

/-- The instructions that are elements of the compressed stream (30_encoding.md R64). -/
def isElement : Instr → Bool
  | .cmdOpen => false
  | .cmdRead => false
  | .cmdReadBytes _ => false
  | .cmdClose => false
  | .cmdStatus _ => false
  | .srcData _ => false
  | .srcEoi => false
  | _ => true

/-- The elements that write `ll8` or `unzftab` (20_memory.md R51, R54). -/
def writesBlock : Instr → Bool
  | .bhCrc _ => true
  | .symMtf _ => true
  | .symEob => true
  | _ => false

/-- The elements that write `selectorMtf` (20_memory.md R53). -/
def writesSelectorMtf : Instr → Bool
  | .tbSelector _ => true
  | _ => false

/-- `t` differs from `s` only in the bit reader and in what the source has left. -/
def onlyReaderDiffers (s t : State) : Prop :=
  t = { s with bsBuff := t.bsBuff, bsLive := t.bsLive, inCount := t.inCount, source := t.source }

/-- Every register of 10_state.md R15 to R27 that is no register file holds 0, but for `phase`. -/
def registersZero (s : State) : Prop :=
  s.bsBuff = 0#32 ∧ s.bsLive = 0#5 ∧ s.inCount = 0 ∧ s.blockSize100k = 0#4 ∧ s.combinedCRC = 0#32 ∧
    s.storedCombinedCRC = 0#32 ∧ s.blockCount = 0 ∧ s.outCount = 0 ∧ s.storedBlockCRC = 0#32 ∧ s.randomised = 0#1 ∧
    s.origPtr = 0#24 ∧ s.blockCRC = 0#32 ∧ s.inUse16 = 0#16 ∧ s.nInUse = 0#9 ∧ s.alphaSize = 0#9 ∧ s.nGroups = 0#3 ∧
    s.nSelectors = 0#15 ∧ s.groupNo = 0#15 ∧ s.groupPos = 0#6 ∧ s.curTable = 0#3 ∧ s.runS = 0#20 ∧ s.runN = 0#20 ∧
    s.nblock = 0#20 ∧ s.tPos = 0#20 ∧ s.i2 = 0#20 ∧ s.rleCount = 0#3 ∧ s.rlePrev = 0#8 ∧ s.repLeft = 0#8 ∧
    s.rNToGo = 0#10 ∧ s.rTPos = 0#9 ∧ s.errCode = 0#4 ∧ s.errReason = 0#8

/-- Every register file of 10_state.md holds 0 (70_reset_and_hazards.md R206). -/
def filesZero (s : State) : Prop :=
  s.inUse = Vector.replicate 256 false ∧ s.seqToUnseq = Vector.replicate 256 0#8 ∧ s.selPos = Vector.replicate 6 0#3 ∧
    s.mtfSym = Vector.replicate 256 0#8 ∧
      ∀ t ∈ s.tables.toList, t.len = Vector.replicate 258 0#5 ∧ t.minLen = 0#5 ∧ t.maxLen = 0#5 ∧
        t.count = Vector.replicate 21 0#9 ∧ t.firstCode = Vector.replicate 21 0#21 ∧
          t.firstIdx = Vector.replicate 21 0#9 ∧ t.perm = Vector.replicate 258 0#9

/-- No entry of an internal memory has been written: all contents unspecified (20_memory.md R55). -/
def memoriesUnwritten (s : State) : Prop :=
  s.ll8 = [] ∧ s.tt = [] ∧ s.selectorMtf = [] ∧ s.selector = [] ∧ s.unzftab = [] ∧ s.cftab = []

/-- Register files and memories of `t` are those of `s` (70_reset_and_hazards.md R208). -/
def filesKept (s t : State) : Prop :=
  t.inUse = s.inUse ∧ t.seqToUnseq = s.seqToUnseq ∧ t.selPos = s.selPos ∧ t.mtfSym = s.mtfSym ∧ t.tables = s.tables ∧
    t.ll8 = s.ll8 ∧ t.tt = s.tt ∧ t.selectorMtf = s.selectorMtf ∧ t.selector = s.selector ∧ t.unzftab = s.unzftab ∧
    t.cftab = s.cftab

/-- The latched error is one of 60_exceptions.md R188 in `FAILED`, and none is latched outside `FAILED` and `CLOSED`
(10_state.md R27, 46_host.md R182, log entry 9). -/
def errorLatch (s : State) : Prop :=
  (s.phase = .failed → ∃ e, s.errCode = errorCode e ∧ s.errReason = errorReason e) ∧
    (s.errCode ≠ 0#4 → s.phase = .failed ∨ s.phase = .closed)

/-- What `EndOfStream` has verified (70_reset_and_hazards.md R222): the combined CRC, unless the lenient reading of an
unknown magic ended the stream (41_framer.md R104). -/
def endVerified (s : State) : Prop :=
  s.phase = .endOfStream → s.cfg.strictBlockMagic = true → s.combinedCRC = s.storedCombinedCRC

/-- The bound of 40_bitreader.md R91 on live bits: at most 7 between two `GetBits`, at most 7 more than the `GetBits`
in progress asks for during its fetches; after an end of input or a CLOSE whatever was left. -/
def readerBound (s : State) : Prop :=
  s.bsLive.toNat < 8 ∨ s.phase = .failed ∨ s.phase = .closed ∨
    ∃ e n, expected s = some e ∧ decode e s.part = .need n ∧ n ≤ readMax ∧ s.bsLive.toNat < n + 8

/-! Whole commands. -/

/-- A bound on the steps of one READ, from the bits and bytes left (46_host.md R179, 70_reset_and_hazards.md R221). -/
def readBound (s : State) : Nat :=
  32 * (s.bsLive.toNat + 8 * (s.source.getD []).length) + 16 * s.part.length + (s.source.getD []).length + 12

/-- `t` is the canonical decode table of the lengths `lens`, all of them legal, within the code space (42_tables.md
R131, R132). -/
def canonicalTable (lens : List (BitVec 5)) (t : HuffTable) : Prop :=
  t.len.toList.take lens.length = lens ∧ (∀ l ∈ lens, lengthLegal l = true) ∧ codeSpace lens ≤ 2 ^ 20 ∧
    withCodes lens (withCounts lens t) = t

/-- Position `i` of the transformed block sorts before position `j`: by byte, then by position (44_inverse_bwt.md
R154). -/
def sortsBefore (l : Mem 8) (i j : Nat) : Prop :=
  ∃ a b, memGet l i = some a ∧ memGet l j = some b ∧ (a.toNat < b.toNat ∨ (a = b ∧ i < j))

/-- MTF decode of a list of positions, from a list of values: the function of 42_tables.md R127. -/
def mtfDecode {α : Type} : List α → List Nat → Option (List α)
  | _, [] => some []
  | l, j :: js =>
    match l[j]? with
    | none => none
    | some v => (mtfDecode (v :: l.eraseIdx j) js).map (fun vs => v :: vs)

/-- The run length that digits write, first digit least significant: RUNA (`false`) is 1, RUNB (`true`) is 2
(43_symbols.md R142). -/
def digitsValue : List Bool → Nat
  | [] => 0
  | d :: ds => (if d then 2 else 1) + 2 * digitsValue ds

/-- The symbols of a run, executed one after another. -/
def execDigits : List Bool → State → Host.Outcome State Fault Refusal
  | [], s => .next s
  | d :: ds, s =>
    match exec (if d then .symRunb else .symRuna) s with
    | .next t => execDigits ds t
    | .fault f => .fault f
    | .refused r => .refused r

/-! No fault of the model (20_memory.md R50, R55, 60_exceptions.md R204). -/

/-- The lengths of table `t` that the block uses. -/
def tableLens (s : State) (t : HuffTable) : List (BitVec 5) := t.len.toList.take s.alphaSize.toNat

/-- Every length of table number `k` is 1..20 (42_tables.md R129). -/
def lensLegal (s : State) (k : Nat) : Prop :=
  ∀ t, s.tables[k]? = some t → ∀ l ∈ tableLens s t, lengthLegal l = true

/-- Table number `k` is built from its lengths (42_tables.md R131) and passed the code-space check (R132). -/
def tableBuilt (s : State) (k : Nat) : Prop :=
  ∀ t, s.tables[k]? = some t →
    codeSpace (tableLens s t) ≤ 2 ^ 20 ∧ withCodes (tableLens s t) (withCounts (tableLens s t) t) = t

/-- The alphabet is known (42_tables.md R119, R120, R123). -/
def alphabetKnown (s : State) : Prop :=
  1 ≤ s.nInUse.toNat ∧ s.nInUse.toNat ≤ 256 ∧ s.alphaSize.toNat = s.nInUse.toNat + 2

/-- The group count is legal (42_tables.md R124). -/
def groupsKnown (s : State) : Prop := 2 ≤ s.nGroups.toNat ∧ s.nGroups.toNat ≤ 6

/-- The first `k` entries of a selector memory are table numbers (20_memory.md R53). -/
def selectorsBelow (m : Mem 3) (k groups : Nat) : Prop := ∀ i < k, ∃ v, memGet m i = some v ∧ v.toNat < groups

/-- The number of entries `v` among the first `n` of `ll8`. -/
def occurrences (l : Mem 8) (v : BitVec 8) (n : Nat) : Nat :=
  ((List.range n).filter (fun i => memGet l i == some v)).length

/-- The block so far: `ll8` is written up to `nblock`, and `unzftab` counts it (20_memory.md R51, R54, R55). -/
def blockWritten (s : State) : Prop :=
  (∀ i < s.nblock.toNat, (memGet s.ll8 i).isSome = true) ∧
    ∀ v : BitVec 8, ∃ c, memGet s.unzftab v.toNat = some c ∧ c.toNat = occurrences s.ll8 v s.nblock.toNat

/-- What the table parse has established at each of its positions (42_tables.md R116). -/
def tablesInv (s : State) : TablesPos → Prop
  | .crc => True
  | .rand => True
  | .origptr => True
  | .mapL1 => True
  | .mapL2 => True
  | .alphabet => True
  | .ngroups => alphabetKnown s
  | .nsel => alphabetKnown s ∧ groupsKnown s
  | .selector =>
    alphabetKnown s ∧ groupsKnown s ∧ s.selIdx.toNat < s.nSelectors.toNat ∧
      selectorsBelow s.selectorMtf s.selIdx.toNat s.nGroups.toNat
  | .selectorList =>
    alphabetKnown s ∧ groupsKnown s ∧ selectorsBelow s.selectorMtf s.nSelectors.toNat s.nGroups.toNat
  | .lenStart =>
    alphabetKnown s ∧ groupsKnown s ∧ selectorsBelow s.selector s.nSelectors.toNat s.nGroups.toNat ∧
      s.tblIdx.toNat < s.nGroups.toNat ∧ ∀ k < s.tblIdx.toNat, lensLegal s k
  | .lencode =>
    alphabetKnown s ∧ groupsKnown s ∧ selectorsBelow s.selector s.nSelectors.toNat s.nGroups.toNat ∧
      s.tblIdx.toNat < s.nGroups.toNat ∧ (∀ k < s.tblIdx.toNat, lensLegal s k) ∧
      s.symIdx.toNat < s.alphaSize.toNat ∧ (s.part ≠ [] → lengthLegal s.curr = true) ∧
      ∀ t, s.tables[s.tblIdx.toNat]? = some t → ∀ l ∈ t.len.toList.take s.symIdx.toNat, lengthLegal l = true
  | .build =>
    alphabetKnown s ∧ groupsKnown s ∧ selectorsBelow s.selector s.nSelectors.toNat s.nGroups.toNat ∧
      s.tblIdx.toNat < s.nGroups.toNat ∧ (∀ k < s.nGroups.toNat, lensLegal s k) ∧
      ∀ k < s.tblIdx.toNat, tableBuilt s k
  | .symbolInit =>
    alphabetKnown s ∧ groupsKnown s ∧ selectorsBelow s.selector s.nSelectors.toNat s.nGroups.toNat ∧
      (∀ k < s.nGroups.toNat, lensLegal s k) ∧ ∀ k < s.nGroups.toNat, tableBuilt s k

/-- What holds while symbols are decoded (43_symbols.md R136 to R149). Inside a group, and at its first symbol, `curTable`
is one of the block's tables (R139). -/
def symbolsInv (s : State) : Prop :=
  alphabetKnown s ∧ groupsKnown s ∧ selectorsBelow s.selector s.nSelectors.toNat s.nGroups.toNat ∧
    (∀ k < s.nGroups.toNat, lensLegal s k) ∧ (∀ k < s.nGroups.toNat, tableBuilt s k) ∧
    blockWritten s ∧ s.nblock.toNat + s.runS.toNat ≤ blockLimit s ∧
    (s.groupPos ≠ 0#6 ∨ s.phase = .blockSymbols .code → s.curTable.toNat < s.nGroups.toNat)

/-- What holds while a block is output (44_inverse_bwt.md R156): the walk stays inside the entries written. -/
def outputInv (s : State) : Prop :=
  s.nblock.toNat ≤ maxBlock ∧ s.tPos.toNat < s.nblock.toNat ∧
    ∀ i < s.nblock.toNat,
      (memGet s.ll8 i).isSome = true ∧ ∃ p, memGet s.tt i = some p ∧ p.toNat < s.nblock.toNat

/-- What each phase has established. -/
def phaseInv (s : State) : Prop :=
  match s.phase with
  | .blockTables pos => tablesInv s pos
  | .blockSymbols _ => symbolsInv s
  | .blockSetup => blockWritten s ∧ s.nblock.toNat ≤ blockLimit s
  | .blockOutput => outputInv s
  | _ => True

/-- The invariant under which no step meets a fault of the model. -/
def noFaultInv (s : State) : Prop :=
  memoriesWf s ∧ s.blockSize100k.toNat ≤ 9 ∧ (s.phase ≠ .closed → s.source.isSome = true) ∧ phaseInv s

end Sys2Proof.Safety
end

