-- ==== Sys2Proof/Certificates/Slice0/Obligations.lean ====
section
/-! DEFINITION. The statements about BZ2DEC that are to be proved, each with the rules of spec/ it rests on. -/

open Sys2Proof Sys2Proof.Machine Sys2Proof.Safety

/-! Reset and the host port. -/

/-- Hardware reset (70_reset_and_hazards.md R206, R208): `CLOSED`, every register, register file and status register 0,
port idle, no source, no refusal mark. The rule leaves the six memories unspecified: that they hold nothing written is the
model's choice (log entry 1). Reset as an event at the port, and what stays of the host's side, are the model's (log entry
13). -/
def Obligations.HardwareResetClearsTheMachine : Prop :=
  (State.reset.phase = .closed ∧ registersZero State.reset ∧ filesZero State.reset ∧ memoriesUnwritten State.reset ∧
    State.reset.job = none ∧ State.reset.source = none ∧ State.reset.refusalMark = false ∧
      ∀ i, statusRegister State.reset i = 0#32) ∧
    ∀ (s : State) (rest : List PortEvent), s.refusalMark = false → s.job = none → s.port = .reset :: rest →
      ∃ t, step s = .next t ∧ t.phase = .closed ∧ registersZero t ∧ filesZero t ∧ memoriesUnwritten t ∧ t.job = none ∧
        t.source = none ∧ t.refusalMark = false ∧ (∀ i, statusRegister t i = 0#32) ∧ t.cfg = s.cfg ∧ t.port = rest ∧
          t.answers = s.answers

/-- The state after reset (70_reset_and_hazards.md R206) meets every invariant stated below. Two of them rest on the model's
choices: `betweenCommands` on a partly read element being empty at reset (log entry 4), `memoriesWf` and `noFaultInv` on
memories in which nothing is written (log entry 1). -/
def Obligations.ResetMeetsTheInvariants : Prop :=
  noFaultInv State.reset ∧ memoriesWf State.reset ∧ betweenCommands State.reset ∧ errorLatch State.reset ∧
    endVerified State.reset ∧ readerBound State.reset

/-- `CMD_OPEN` (46_host.md R176, 70_reset_and_hazards.md R208, R210): registers at their reset values,
`STREAM_HEADER`, the handed-over source bound, `ACK`; `S_STATUS` reads 0x81 and every other status register 0;
register files and memories kept (log entry 12). -/
def Obligations.OpenStartsASession : Prop :=
  ∀ s : State, s.job = none → s.phase = .closed →
    ∃ t, exec .cmdOpen s = .next t ∧ t.phase = .streamHeader .magic ∧ registersZero t ∧ filesKept s t ∧
      t.source = some s.handover ∧ t.answers = s.answers ++ [.ack] ∧
        (∀ i, statusRegister t i = if i = 0#4 then 0x81#32 else 0#32) ∧ t.job = none ∧
          t.refusalMark = s.refusalMark ∧ t.cfg = s.cfg ∧ t.port = s.port ∧ t.rbBuf = s.rbBuf ∧
            t.rbReturns = s.rbReturns

/-- `CMD_READ` and `CMD_READ_BYTES` in an open session (46_host.md R178, R181): the READ, or the first READ of the
call, is in progress; `READ_BYTES(0)` issues no READ and returns `Count(0)`. The READ as a run of steps is the model's
(log entry 3), and so are the buffer and the returns of the host (log entry 8). -/
def Obligations.ReadBeginsInAnOpenSession : Prop :=
  ∀ s : State, s.job = none → s.phase ≠ .closed →
    exec .cmdRead s = .next { s with job := some .read } ∧
      exec (.cmdReadBytes 0) s = .next { s with rbBuf := [], rbReturns := s.rbReturns ++ [.count 0] } ∧
        ∀ n, 0 < n → exec (.cmdReadBytes n) s = .next { s with job := some (.readBytes n 0), rbBuf := [] }

/-- `CMD_CLOSE` (46_host.md R182, 70_reset_and_hazards.md R208): from every phase, `phase` becomes `CLOSED`, the
source is released, `ACK` is answered, and no other register changes. The rules followed here stand against 10_state.md R27
and R34 (log entries 9 and 22); that no source is bound afterwards is deduced (log entry 14). -/
def Obligations.CloseOnlyClosesThePhase : Prop :=
  ∀ s : State, s.job = none →
    exec .cmdClose s = .next { s with phase := .closed, source := none, answers := s.answers ++ [.ack] }

/-- `CMD_STATUS` (46_host.md R184): in every phase the answer is `S_i`, 0 for the indices 12 to 15, and nothing else
changes. -/
def Obligations.StatusAnswersTheRegister : Prop :=
  ∀ (s : State) (i : BitVec 4), s.job = none →
    exec (.cmdStatus i) s = .next { s with answers := s.answers ++ [.value (statusRegister s i)] } ∧
      (12 ≤ i.toNat → statusRegister s i = 0#32)

/-- The status registers are views of the registers, field by field (10_state.md R30 to R33). -/
def Obligations.StatusRegistersShowTheFields : Prop :=
  ∀ s : State,
    (statusRegister s 0#4).extractLsb' 0 4 = s.phase.code ∧
    (statusRegister s 0#4).getLsbD 4 = decide (s.phase.code = 9#4) ∧
    (statusRegister s 0#4).getLsbD 5 = decide (s.phase.code = 10#4) ∧
    (statusRegister s 0#4).extractLsb' 6 1 = s.randomised ∧
    (statusRegister s 0#4).getLsbD 7 = decide (s.phase ≠ .closed) ∧
    (statusRegister s 0#4).extractLsb' 8 4 = s.blockSize100k ∧
    (statusRegister s 0#4).extractLsb' 12 3 = s.rleCount ∧
    (statusRegister s 0#4).getLsbD 15 = decide (0 < s.repLeft.toNat) ∧
    (statusRegister s 0#4).extractLsb' 16 16 = 0#16 ∧
    (statusRegister s 1#4).extractLsb' 0 4 = s.errCode ∧
    (statusRegister s 1#4).extractLsb' 4 8 = s.errReason ∧
    (statusRegister s 1#4).extractLsb' 12 20 = 0#20 ∧
    statusRegister s 2#4 = s.storedBlockCRC ∧ statusRegister s 3#4 = s.blockCRC ∧
    statusRegister s 4#4 = s.combinedCRC ∧ statusRegister s 5#4 = s.storedCombinedCRC ∧
    (statusRegister s 6#4).toNat = s.blockCount % 2 ^ 32 ∧
    (statusRegister s 7#4).toNat = s.origPtr.toNat ∧ (statusRegister s 8#4).toNat = s.nblock.toNat ∧
    (statusRegister s 9#4).toNat = s.inCount % 2 ^ 32 ∧ (statusRegister s 10#4).toNat = s.outCount % 2 ^ 32 ∧
    (statusRegister s 11#4).extractLsb' 0 3 = s.nGroups ∧
    (statusRegister s 11#4).extractLsb' 3 15 = s.nSelectors ∧
    (statusRegister s 11#4).extractLsb' 18 9 = s.nInUse ∧
    (statusRegister s 11#4).extractLsb' 27 5 = 0#5

/-- Refused host interactions (46_host.md R185, R181, 30_encoding.md R72, R75): OPEN of an open stream, READ and
READ_BYTES of a closed one, any command while one is pending, every word but 0x10, 0x20, 0x30 and 0x40 to 0x4F; and a run
that met the refusal mark has no transition any more. The model's: the mark is a field, and the step after it is refused
(log entry 7); READ_BYTES(0) of a closed stream is refused like READ_BYTES of any other length, although it issues no READ
(log entry 8, deduced from where R181 admits the command). -/
def Obligations.RefusedInteractionsHaveNoTransition : Prop :=
  (∀ s : State,
    (s.job = none → s.phase ≠ .closed → exec .cmdOpen s = .refused .openWhileOpen) ∧
    (s.job = none → s.phase = .closed →
      exec .cmdRead s = .refused .readWhileClosed ∧ ∀ n, exec (.cmdReadBytes n) s = .refused .readWhileClosed) ∧
    (s.job ≠ none →
      exec .cmdOpen s = .refused .commandPending ∧ exec .cmdRead s = .refused .commandPending ∧
      exec .cmdClose s = .refused .commandPending ∧ (∀ n, exec (.cmdReadBytes n) s = .refused .commandPending) ∧
      ∀ i, exec (.cmdStatus i) s = .refused .commandPending) ∧
    (s.refusalMark = true → step s = .refused .untrustedRandomised)) ∧
  (∀ w : BitVec 8, (∃ i rest, decode .command (bitsOf 8 w.toNat) = .instr i rest) ↔
    (w = 0x10#8 ∨ w = 0x20#8 ∨ w = 0x30#8 ∨ (0x40 ≤ w.toNat ∧ w.toNat ≤ 0x4F))) ∧
  ∀ (s : State) (w : BitVec 8) (src : List (BitVec 8)) (rest : List PortEvent), s.refusalMark = false →
    s.job = none → s.port = .command w src :: rest →
      ¬ (w = 0x10#8 ∨ w = 0x20#8 ∨ w = 0x30#8 ∨ (0x40 ≤ w.toNat ∧ w.toNat ≤ 0x4F)) →
        step s = .refused (.illegalCommand w)

/-- Between commands BZ2DEC does nothing and keeps all its state (60_exceptions.md R203). The step of an idle machine is
the model's (log entry 6). -/
def Obligations.IdleMachineKeepsItsState : Prop :=
  ∀ s : State, s.refusalMark = false → s.job = none → s.port = [] → step s = .next s

/-! The step runs what is decoded. -/

/-- A step runs what is decoded. In a READ: the element its last `GetBits` completes is executed, an illegal one raises
its error, with nothing changed but the bits consumed (`InvalidHeader(MAGIC)`, `BAD_SELECTOR`, `BAD_CODE`, or what an
unrecognised magic does), one that is not complete is kept (40_bitreader.md R91, 41_framer.md R98, R104, 30_encoding.md
R73, 60_exceptions.md R188, R190); a `GetBits` with too few live bits takes the source's next answer (40_bitreader.md R92,
20_memory.md R48). Between commands: the next
command word, with what is handed over beside it (46_host.md R186, 30_encoding.md R72). The model's choices: the steps a
READ is cut into (log entry 3); READ_BYTES as an event of its own at the port (log entry 8: by 46_host.md R181 BZ2DEC sees
only its READs); `TR_PAD` run in the step that completes a matching `TR_CRC`, on the bits left in the reader (log entry 10:
30_encoding.md R71 and 41_framer.md R114 give its phase and no pseudocode). -/
def Obligations.StepRunsTheDecodedInstruction : Prop :=
  ∀ s : State, s.refusalMark = false →
    (s.job ≠ none → ∀ (e : Expect) (n : Nat), expected s = some e → decode e s.part = .need n → 1 ≤ n → n ≤ 24 →
      (n ≤ s.bsLive.toNat →
        (∀ i rest, decode e (s.part ++ (takeBits n s).1) = .instr i rest →
          step s = exec i { (takeBits n s).2 with part := [] }) ∧
        (∀ c rest t, decode e (s.part ++ (takeBits n s).1) = .instr (.trCrc c) rest → s.phase = .streamTrailer →
          exec (.trCrc c) { (takeBits n s).2 with part := [] } = .next t → t.phase = .endOfStream →
            step s = exec (.trPad (liveBits t)) t) ∧
        (decode e (s.part ++ (takeBits n s).1) = .illegal .headerMagic →
          step s = .next { (takeBits n s).2 with errCode := 1#4, errReason := 1#8, phase := .failed, part := [] }) ∧
        (decode e (s.part ++ (takeBits n s).1) = .illegal .badSelector →
          step s = .next { (takeBits n s).2 with errCode := 5#4, errReason := 4#8, phase := .failed, part := [] }) ∧
        (decode e (s.part ++ (takeBits n s).1) = .illegal .badCode →
          step s = .next { (takeBits n s).2 with errCode := 5#4, errReason := 8#8, phase := .failed, part := [] }) ∧
        (decode e (s.part ++ (takeBits n s).1) = .illegal .blockMagic →
          (s.cfg.strictBlockMagic = true →
            step s = .next { (takeBits n s).2 with errCode := 2#4, errReason := 0#8, phase := .failed, part := [] }) ∧
          (s.cfg.strictBlockMagic = false →
            step s = .next { (takeBits n s).2 with phase := .endOfStream, part := [] })) ∧
        (∀ err, decode e (s.part ++ (takeBits n s).1) = .illegal err →
          err ∈ [.headerMagic, .blockMagic, .badSelector, .badCode]) ∧
        (∀ m, decode e (s.part ++ (takeBits n s).1) = .need m →
          step s = .next { (takeBits n s).2 with part := s.part ++ (takeBits n s).1 })) ∧
      (s.bsLive.toNat < n →
        (∀ b rest, s.source = some (b :: rest) → step s = exec (.srcData b) { s with source := some rest }) ∧
        (s.source = some [] → step s = exec .srcEoi s))) ∧
    (s.job = none → ∀ rest : List PortEvent,
      (∀ w src i after, s.port = .command w src :: rest → decode .command (bitsOf 8 w.toNat) = .instr i after →
        step s = exec i { s with port := rest, handover := src }) ∧
      (∀ n, s.port = .readBytes n :: rest → step s = exec (.cmdReadBytes n) { s with port := rest }))

/-- Words written out from 30_encoding.md R65, R67 and R72 decode to the elements they stand for. -/
def Obligations.WordsOfTheSpecDecode : Prop :=
  decode .shMagic (bitsOf 8 0x42 ++ bitsOf 8 0x5A ++ bitsOf 8 0x68) = .instr .shMagic [] ∧
  decode .shLevel (bitsOf 8 0x39) = .instr (.shLevel 0x39#8) [] ∧
  decode .blockMagic (bitsOf 48 0x314159265359) = .instr .bhMagic [] ∧
  decode .blockMagic (bitsOf 48 0x177245385090) = .instr .eosMagic [] ∧
  decode .bhCrc (bitsOf 8 0x19 ++ bitsOf 8 0x93 ++ bitsOf 8 0x9B ++ bitsOf 8 0x6B) = .instr (.bhCrc 0x19939B6B#32) [] ∧
  decode .mapL1 [false, false, false, false, false, false, true, true, false, false, false, false, false, false, false, false]
    = .instr (.mapL1 0x0300#16) [] ∧
  decode (.selector 6) [true, true, true, true, true, false] = .instr (.tbSelector 5#3) [] ∧
  decode (.selector 2) [true, true] = .illegal .badSelector ∧
  decode .lencode [true, false] = .instr .tbLenInc [] ∧ decode .lencode [true, true] = .instr .tbLenDec [] ∧
  decode .lencode [false] = .instr .tbLenStop [] ∧
  decode .command [false, true, false, false, true, false, true, true] = .instr (.cmdStatus 11#4) [] ∧
  decode .sourceAnswer [true, false, true, false, false, false, false, true, false] = .instr (.srcData 0x42#8) [] ∧
  decode .sourceAnswer [false, false, false, false, false, false, false, false, false] = .instr .srcEoi []

/-! The bit reader. -/

/-- The source's answers. `SRC_DATA` (40_bitreader.md R91, R92): while at most 23 bits are live, the byte's bits follow
the live ones, first bit most significant (20_memory.md R56), and `inCount` counts it; nothing else changes. `SRC_EOI`
(R91, 41_framer.md R100): the error is `InvalidHeader(SHORT)` in `STREAM_HEADER` and `UnexpectedEndOfStream` otherwise;
only the error registers, `phase` and the unfinished element are written (60_exceptions.md R189, R190). -/
def Obligations.SourceAnswersEnterTheReader : Prop :=
  ∀ s : State,
    (s.bsLive.toNat ≤ 23 → ∀ b : BitVec 8,
      ∃ t, exec (.srcData b) s = .next t ∧ liveBits t = liveBits s ++ bitsOf 8 b.toNat ∧
        t = { s with bsBuff := t.bsBuff, bsLive := s.bsLive + 8#5, inCount := s.inCount + 1 }) ∧
    exec .srcEoi s = .next
      { s with
        errCode := if s.phase.code = 1#4 then 1#4 else 4#4
        errReason := if s.phase.code = 1#4 then 3#8 else 0#8
        phase := .failed, part := [] }

/-- `GetBits(n)` with `n` bits live (40_bitreader.md R91, R94): it returns the first `n` live bits and leaves the
others. -/
def Obligations.GetBitsTakesTheFirstLiveBits : Prop :=
  ∀ (s : State) (n : Nat), n ≤ s.bsLive.toNat →
    (takeBits n s).1 = (liveBits s).take n ∧ liveBits (takeBits n s).2 = (liveBits s).drop n ∧
      onlyReaderDiffers s (takeBits n s).2 ∧ (takeBits n s).2.inCount = s.inCount ∧ (takeBits n s).2.source = s.source

/-- The stream is read strictly forward (40_bitreader.md R97, 10_state.md R17): a step of a READ consumes the next bits of
the stream, pushes none back, and loses no byte of the session (20_memory.md R48). It consumes at most 24 bits, since one
`GetBits` takes at most `READ_MAX` (40_bitreader.md R91) and a step makes at most one (the model's choice, log entry 3). -/
def Obligations.StreamIsReadForward : Prop :=
  ∀ s t : State, step s = .next t → s.job ≠ none →
    (∃ used, pendingBits s = used ++ pendingBits t ∧ used.length ≤ 24) ∧ sessionBytes t = sessionBytes s

/-- Between two `GetBits` at most 7 bits are live, during one at most 7 more than it asks for (40_bitreader.md R91,
10_state.md R18). -/
def Obligations.LiveBitsStayBounded : Prop :=
  ∀ s t : State, readerBound s → step s = .next t → readerBound t

/-- An element that stands next in the stream is executed, whatever the reads it is split into (40_bitreader.md R94,
30_encoding.md R64): a run of the READ's passes reaches its meaning with exactly its bits consumed, and nothing but
the reader has changed. For a Huffman symbol the table must be canonical (42_tables.md R131, R132). -/
def Obligations.ElementNextInTheStreamIsExecuted : Prop :=
  ∀ (s : State) (e : Expect) (i : Instr) (bits rest : List Bool), s.refusalMark = false → s.job ≠ none →
    expected s = some e → WellFormed i = true → encode e i = some bits → s.part = [] → s.bsLive.toNat < 8 →
      pendingBits s = bits ++ rest →
        (∀ t k, e = .symbol t k → 1 ≤ k ∧ k ≤ 256 ∧ canonicalTable (t.len.toList.take (k + 2)) t) →
          ∃ k u, Host.Core.run core k s = exec i u ∧ onlyReaderDiffers s u ∧ pendingBits u = rest ∧
            sessionBytes u = sessionBytes s ∧ u.bsLive.toNat < 8

/-! Encodings. -/

/-- Decoding an encoded well-formed element, command or source answer gives it back (30_encoding.md R65, R67, R68,
R72). Huffman symbols have a statement of their own. -/
def Obligations.DecodingInvertsEncoding : Prop :=
  (∀ (e : Expect) (i : Instr) (bits rest : List Bool), (∀ t k, e ≠ .symbol t k) → e ≠ .trPad → WellFormed i = true →
      encode e i = some bits → decode e (bits ++ rest) = .instr i rest) ∧
    ∀ x : List Bool, encode .trPad (.trPad x) = some x ∧ decode .trPad x = .instr (.trPad x) []

/-- Each word has one meaning: what is decoded encodes to the bits it was read from (30_encoding.md R65, R67, R72). And
when bits are refused: the signature at its first byte that differs and not later (41_framer.md R99, R102), the 48-bit
magic once it is whole (R103, R104), a selector exactly at its `nGroups`-th 1-bit, whatever follows (42_tables.md R126,
30_encoding.md R76). No other element but a Huffman symbol has an illegal encoding (R73, R74). -/
def Obligations.EncodingInvertsDecoding : Prop :=
  (∀ (e : Expect) (i : Instr) (bits rest : List Bool), (∀ t k, e ≠ .symbol t k) →
    (∀ limit, e = .selector limit → 1 ≤ limit ∧ limit ≤ 6) → decode e bits = .instr i rest →
      ∃ word, encode e i = some word ∧ bits = word ++ rest) ∧
  (decode .shMagic [] = .need 8 ∧ decode .shMagic (bitsOf 8 0x42) = .need 8 ∧
    decode .shMagic (bitsOf 8 0x42 ++ bitsOf 8 0x5A) = .need 8) ∧
  (∀ (b : BitVec 8) (rest : List Bool),
    (b ≠ 0x42#8 → decode .shMagic (bitsOf 8 b.toNat ++ rest) = .illegal .headerMagic) ∧
    (b ≠ 0x5A#8 → decode .shMagic (bitsOf 8 0x42 ++ bitsOf 8 b.toNat ++ rest) = .illegal .headerMagic) ∧
    (b ≠ 0x68#8 →
      decode .shMagic (bitsOf 8 0x42 ++ bitsOf 8 0x5A ++ bitsOf 8 b.toNat ++ rest) = .illegal .headerMagic)) ∧
  (∀ bits : List Bool, bits.length < 48 → decode .blockMagic bits = .need (min 24 (48 - bits.length))) ∧
  (∀ (m : Nat) (rest : List Bool), m < 2 ^ 48 → m ≠ 0x314159265359 → m ≠ 0x177245385090 →
    decode .blockMagic (bitsOf 48 m ++ rest) = .illegal .blockMagic) ∧
  (∀ (groups : Nat) (bits : List Bool), 1 ≤ groups →
    (decode (.selector groups) bits = .illegal .badSelector ↔ List.replicate groups true <+: bits) ∧
    (decode (.selector groups) bits = .need 1 ↔ ∃ j < groups, bits = List.replicate j true)) ∧
  ∀ (e : Expect) (bits : List Bool) (err : StreamError), decode e bits = .illegal err →
    (e = .shMagic ∧ err = .headerMagic) ∨ (e = .blockMagic ∧ err = .blockMagic) ∨
      (∃ groups, e = .selector groups ∧ err = .badSelector) ∨ ∃ t k, e = .symbol t k ∧ err = .badCode

/-- Every symbol of a canonical table decodes from its own code, whatever follows, and what is decoded with the table is
one of its symbols, read from exactly that symbol's code (42_tables.md R131, 43_symbols.md R140, R141). While the bits begin
with no symbol's code, `minLen` bits are asked for at once and then one at a time, and at `maxLen` bits, not before, they
are `BAD_CODE` (R140). -/
def Obligations.CanonicalCodesDecode : Prop :=
  ∀ (t : HuffTable) (k : Nat) (i : Instr) (bits rest : List Bool), 1 ≤ k → k ≤ 256 →
    canonicalTable (t.len.toList.take (k + 2)) t →
      (encode (.symbol t k) i = some bits → decode (.symbol t k) (bits ++ rest) = .instr i rest) ∧
      (decode (.symbol t k) bits = .instr i rest → ∃ word, encode (.symbol t k) i = some word ∧ bits = word ++ rest) ∧
      ((∀ j word, encode (.symbol t k) j = some word → ¬ word <+: bits) →
        (bits.length < t.minLen.toNat → decode (.symbol t k) bits = .need (t.minLen.toNat - bits.length)) ∧
        (t.minLen.toNat ≤ bits.length → bits.length < t.maxLen.toNat → decode (.symbol t k) bits = .need 1) ∧
        (t.maxLen.toNat ≤ bits.length → decode (.symbol t k) bits = .illegal .badCode))

/-- Under the code-space check every code value of length `n` fits in its `n` bits (42_tables.md R132). -/
def Obligations.CodeSpaceBoundsTheCodes : Prop :=
  ∀ lens : List (BitVec 5), codeSpace lens ≤ 2 ^ 20 →
    ∀ n, 1 ≤ n → n ≤ 20 → firstCodeAfter lens (n - 1) + lengthCount lens n ≤ 2 ^ n

/-! The framer. -/

/-- `SH_MAGIC` and `SH_LEVEL` (41_framer.md R99, R101): the digit sets `blockSize100k`, and with it `BLOCK_LIMIT`; a byte
outside 0x31..0x39 is `InvalidHeader(LEVEL)`. -/
def Obligations.HeaderSetsTheBlockSize : Prop :=
  ∀ s : State,
    exec .shMagic s = .next { s with phase := .streamHeader .level } ∧
    (∀ d : BitVec 8, 0x31 ≤ d.toNat → d.toNat ≤ 0x39 →
      ∃ t, exec (.shLevel d) s = .next t ∧ t = { s with blockSize100k := t.blockSize100k, phase := .blockHeader } ∧
        t.blockSize100k.toNat = d.toNat - 0x30 ∧ blockLimit t = 100000 * (d.toNat - 0x30)) ∧
    (∀ d : BitVec 8, d.toNat < 0x31 ∨ 0x39 < d.toNat →
      exec (.shLevel d) s = .next { s with errCode := 1#4, errReason := 2#8, phase := .failed, part := [] })

/-- The two 48-bit magics (41_framer.md R103, R105) and the header fields that are only stored (R107, R108): each goes
on to the next field and writes its own register. A randomised block under `RNUMS_TRUSTED = false` sets the refusal mark
(00_scope.md R8, 46_host.md R185); that its flag is stored and the step after is the one refused is the model's (log
entry 7). -/
def Obligations.BlockHeaderFieldsAreStored : Prop :=
  ∀ s : State,
    exec .bhMagic s = .next { s with phase := .blockTables .crc } ∧
    exec .eosMagic s = .next { s with phase := .streamTrailer } ∧
    (∀ p : BitVec 24, exec (.bhOrigptr p) s = .next { s with origPtr := p, phase := .blockTables .mapL1 }) ∧
    (∀ r : BitVec 1, r = 0#1 ∨ s.cfg.rnumsTrusted = true →
      exec (.bhRand r) s = .next { s with randomised := r, phase := .blockTables .origptr }) ∧
    (s.cfg.rnumsTrusted = false →
      ∃ t, exec (.bhRand 1#1) s = .next t ∧
        t = { s with randomised := 1#1, refusalMark := true, phase := .blockTables .origptr } ∧
        step t = .refused .untrustedRandomised)

/-- `BH_CRC` (41_framer.md R106): the stored CRC, the accumulator's initial value, and the per-block initialisation,
`unzftab` cleared in all its 256 entries; nothing else changes. -/
def Obligations.BlockCrcFieldInitialisesTheBlock : Prop :=
  ∀ (s : State) (c : BitVec 32),
    ∃ u, (∀ v, memGet u v = if v < 256 then some 0#20 else none) ∧
      exec (.bhCrc c) s = .next
        { s with
          storedBlockCRC := c, blockCRC := 0xFFFFFFFF#32
          nblock := 0#20, runS := 0#20, runN := 1#20, groupNo := 0#15, groupPos := 0#6, curTable := 0#3
          nInUse := 0#9, alphaSize := 0#9, nGroups := 0#3, nSelectors := 0#15
          inUse := Vector.replicate 256 false, unzftab := u
          i2 := 0#20, tPos := 0#20, rleCount := 0#3, rlePrev := 0#8, repLeft := 0#8, rNToGo := 0#10, rTPos := 0#9
          phase := .blockTables .rand }

/-- An unrecognised 48-bit magic (41_framer.md R104): `InvalidBlockHeader(0)` when strict, which is the default; when
lenient the stream ends, no combined CRC is read or checked, and the READ answers `EndOfStream`, a READ of READ_BYTES as
well, whose call then returns (46_host.md R181). The model's choices: the answer is a step of its own (log entry 3), and the
host's returns stand in State (log entry 8). -/
def Obligations.UnrecognisedMagicEndsTheStream : Prop :=
  Config.default.strictBlockMagic = true ∧
  ∀ (s : State) (n m : Nat), s.refusalMark = false → s.job ≠ none → s.phase = .blockHeader →
    decode .blockMagic s.part = .need n → n ≤ s.bsLive.toNat →
      s.part ++ (takeBits n s).1 = bitsOf 48 m → m < 2 ^ 48 → m ≠ 0x314159265359 → m ≠ 0x177245385090 →
        (s.cfg.strictBlockMagic = true →
          step s = .next { (takeBits n s).2 with errCode := 2#4, errReason := 0#8, phase := .failed, part := [] }) ∧
        (s.cfg.strictBlockMagic = false →
          ∃ t, step s = .next t ∧ t = { (takeBits n s).2 with phase := .endOfStream, part := [] } ∧
            (s.job = some .read → step t = .next { t with job := none, answers := s.answers ++ [.endOfStream] }) ∧
            ∀ w k, s.job = some (.readBytes w k) →
              step t = .next
                { t with
                  job := none, answers := s.answers ++ [.endOfStream]
                  rbReturns := s.rbReturns ++ [if k = 0 then .endOfStream else .count k] })

/-- `TR_CRC` and `TR_PAD` (41_framer.md R113, R114): the stored value is kept and compared; a difference is
`CrcMismatch(COMBINED)`; the pad, whatever its bits, changes nothing. -/
def Obligations.TrailerChecksTheCombinedCrc : Prop :=
  ∀ (s : State) (c : BitVec 32),
    (c = s.combinedCRC → exec (.trCrc c) s = .next { s with storedCombinedCRC := c, phase := .endOfStream }) ∧
    (c ≠ s.combinedCRC →
      exec (.trCrc c) s = .next
        { s with storedCombinedCRC := c, errCode := 3#4, errReason := 2#8, phase := .failed, part := [] }) ∧
    ∀ x : List Bool, exec (.trPad x) s = .next s

/-! The table parse. -/

/-- The in-use bitmap. `MAP_L1` (42_tables.md R117): the next `MAP_L2` belongs to the first range marked, bit `15 − i` for
range `i`; with no range marked there is none. `MAP_L2` (R118): bit `15 − j` marks byte value `16·i + j` of the element's
range `i`; marks already made stay; then the next marked range, in ascending order, or the in-use list. -/
def Obligations.BitmapMarksTheBytesInUse : Prop :=
  ∀ s : State,
    (∀ u : BitVec 16,
      ((∀ i < 16, u.getLsbD (15 - i) = false) →
        exec (.mapL1 u) s = .next { s with inUse16 := u, phase := .blockTables .alphabet }) ∧
      ∀ i < 16, u.getLsbD (15 - i) = true → (∀ k < i, u.getLsbD (15 - k) = false) →
        exec (.mapL1 u) s = .next { s with inUse16 := u, mapRange := BitVec.ofNat 4 i, phase := .blockTables .mapL2 }) ∧
    ∀ v : BitVec 16, ∃ t, exec (.mapL2 v) s = .next t ∧
      t = { s with inUse := t.inUse, mapRange := t.mapRange, phase := t.phase } ∧
      (∀ k, (h : k < 256) →
        t.inUse[k] = (s.inUse[k] || (decide (k / 16 = s.mapRange.toNat) && v.getLsbD (15 - k % 16)))) ∧
      ((∀ i < 16, s.mapRange.toNat < i → s.inUse16.getLsbD (15 - i) = false) →
        t.phase = .blockTables .alphabet ∧ t.mapRange = s.mapRange) ∧
      ∀ i < 16, s.mapRange.toNat < i → s.inUse16.getLsbD (15 - i) = true →
        (∀ k < i, s.mapRange.toNat < k → s.inUse16.getLsbD (15 - k) = false) →
          t.phase = .blockTables .mapL2 ∧ t.mapRange.toNat = i

/-- The in-use list (42_tables.md R119, R120, R123): the marked byte values in ascending order, counted in `nInUse`; with
none the error is `NO_SYMBOLS`, otherwise `alphaSize = nInUse + 2`. That `seqToUnseq` keeps its entries beyond the list is
the model's reading, which no rule states (log entry 20). -/
def Obligations.InUseListIsAscending : Prop :=
  ∀ s : State, s.refusalMark = false → s.job ≠ none → s.phase = .blockTables .alphabet →
    ∃ (t : State) (used : List (BitVec 8)), step s = .next t ∧
      (used.map (·.toNat)).Pairwise (· < ·) ∧
      (∀ b : BitVec 8, b ∈ used ↔ s.inUse[b.toNat]? = some true) ∧
      t.nInUse.toNat = used.length ∧
      (∀ k, (h : k < 256) → t.seqToUnseq[k] = if h' : k < used.length then used[k] else s.seqToUnseq[k]) ∧
      (used = [] →
        t = { s with nInUse := t.nInUse, seqToUnseq := t.seqToUnseq, errCode := 5#4, errReason := 1#8
                     phase := .failed, part := [] }) ∧
      (used ≠ [] →
        t = { s with nInUse := t.nInUse, seqToUnseq := t.seqToUnseq, alphaSize := t.alphaSize
                     phase := .blockTables .ngroups } ∧ t.alphaSize.toNat = used.length + 2)

/-- `TB_NGROUPS` and `TB_NSEL` (42_tables.md R124, R125): 2..6 groups and at least one selector, or `BAD_GROUPS` and
`BAD_SELECTORS`. -/
def Obligations.GroupAndSelectorCountsAreChecked : Prop :=
  ∀ s : State,
    (∀ g : BitVec 3, 2 ≤ g.toNat → g.toNat ≤ 6 →
      exec (.tbNgroups g) s = .next { s with nGroups := g, phase := .blockTables .nsel }) ∧
    (∀ g : BitVec 3, g.toNat < 2 ∨ 6 < g.toNat →
      exec (.tbNgroups g) s = .next { s with errCode := 5#4, errReason := 2#8, phase := .failed, part := [] }) ∧
    (∀ k : BitVec 15, 1 ≤ k.toNat →
      exec (.tbNsel k) s = .next { s with nSelectors := k, selIdx := 0#15, phase := .blockTables .selector }) ∧
    exec (.tbNsel 0#15) s = .next { s with errCode := 5#4, errReason := 3#8, phase := .failed, part := [] }

/-- `TB_SELECTOR` (42_tables.md R126): below `nGroups` it is stored at its index, and every other entry stays; after the
last one the selector list is decoded. At or above `nGroups` it is `BAD_SELECTOR`. -/
def Obligations.SelectorIsStoredAtItsIndex : Prop :=
  ∀ (s : State) (j : BitVec 3),
    (j.toNat < s.nGroups.toNat → s.selIdx.toNat < s.nSelectors.toNat →
      ∃ m, (∀ a, memGet m a = if a = s.selIdx.toNat then some j else memGet s.selectorMtf a) ∧
        exec (.tbSelector j) s = .next
          { s with
            selectorMtf := m, selIdx := s.selIdx + 1#15
            phase :=
              if s.selIdx.toNat + 1 = s.nSelectors.toNat then .blockTables .selectorList
              else .blockTables .selector }) ∧
    (s.nGroups.toNat ≤ j.toNat →
      exec (.tbSelector j) s = .next { s with errCode := 5#4, errReason := 4#8, phase := .failed, part := [] })

/-- The selectors' MTF decode (42_tables.md R127), from the initial list `0, 1, …, nGroups − 1`: it cannot fail, writes
`selector[0..nSelectors−1]`, and keeps every other entry. -/
def Obligations.SelectorsAreMtfDecoded : Prop :=
  ∀ (s : State) (js : List Nat), s.refusalMark = false → s.job ≠ none → s.phase = .blockTables .selectorList →
    s.nGroups.toNat ≤ 6 → js.length = s.nSelectors.toNat →
      (∀ i, (h : i < js.length) →
        js[i] < s.nGroups.toNat ∧ memGet s.selectorMtf i = some (BitVec.ofNat 3 js[i])) →
        ∃ (t : State) (vs : List Nat), step s = .next t ∧
          mtfDecode (List.range s.nGroups.toNat) js = some vs ∧ vs.length = js.length ∧
          (∀ v ∈ vs, v < s.nGroups.toNat) ∧
          (∀ a, memGet t.selector a =
            if h : a < vs.length then some (BitVec.ofNat 3 vs[a]) else memGet s.selector a) ∧
          t = { s with selPos := t.selPos, selector := t.selector, tblIdx := 0#3, phase := .blockTables .lenStart }

/-- `TB_LEN_START`, `TB_LEN_INC` and `TB_LEN_DEC` (42_tables.md R128, R129): the running length is set, goes up by one,
goes down by one; with a length of 1..20 before it, it stays in 0..21. -/
def Obligations.LengthCodesMoveTheRunningLength : Prop :=
  ∀ s : State,
    (∀ l : BitVec 5,
      exec (.tbLenStart l) s = .next { s with curr := l, symIdx := 0#9, phase := .blockTables .lencode }) ∧
    (1 ≤ s.curr.toNat → s.curr.toNat ≤ 20 →
      ∃ t u, exec .tbLenInc s = .next t ∧ t = { s with curr := t.curr } ∧ t.curr.toNat = s.curr.toNat + 1 ∧
        exec .tbLenDec s = .next u ∧ u = { s with curr := u.curr } ∧ u.curr.toNat = s.curr.toNat - 1)

/-- `TB_LEN_STOP` (42_tables.md R130): the running length becomes the symbol's, every other length and table stays, and
the parse goes on to the next symbol, the next table, or the decode tables (R116). -/
def Obligations.LengthStopStoresTheLength : Prop :=
  ∀ s : State, s.tblIdx.toNat < 6 → s.symIdx.toNat < 258 →
    ∃ t, exec .tbLenStop s = .next t ∧
      t = { s with tables := t.tables, symIdx := t.symIdx, tblIdx := t.tblIdx, phase := t.phase } ∧
      (∀ k, (h : k < 6) →
        t.tables[k] = { s.tables[k] with len := t.tables[k].len } ∧
        ∀ n, (h' : n < 258) →
          t.tables[k].len[n] =
            if k = s.tblIdx.toNat ∧ n = s.symIdx.toNat then s.curr else s.tables[k].len[n]) ∧
      (s.symIdx.toNat + 1 ≠ s.alphaSize.toNat →
        t.symIdx = s.symIdx + 1#9 ∧ t.tblIdx = s.tblIdx ∧ t.phase = .blockTables .lencode) ∧
      (s.symIdx.toNat + 1 = s.alphaSize.toNat → s.tblIdx.toNat + 1 ≠ s.nGroups.toNat →
        t.symIdx = s.symIdx ∧ t.tblIdx = s.tblIdx + 1#3 ∧ t.phase = .blockTables .lenStart) ∧
      (s.symIdx.toNat + 1 = s.alphaSize.toNat → s.tblIdx.toNat + 1 = s.nGroups.toNat →
        t.symIdx = s.symIdx ∧ t.tblIdx = 0#3 ∧ t.phase = .blockTables .build)

/-- The canonical decode table (42_tables.md R131), entry by entry as its loops write it, under the check of R132; other
tables stay. That its lengths stay is the model's reading (log entry 20). -/
def Obligations.DecodeTableIsCanonical : Prop :=
  ∀ s : State, s.refusalMark = false → s.job ≠ none → s.phase = .blockTables .build → 1 ≤ s.alphaSize.toNat →
    s.alphaSize.toNat ≤ 258 → (hk : s.tblIdx.toNat < 6) →
      (∀ l ∈ tableLens s s.tables[s.tblIdx.toNat], lengthLegal l = true) →
        codeSpace (tableLens s s.tables[s.tblIdx.toNat]) ≤ 2 ^ 20 →
          ∃ t, step s = .next t ∧ t = { s with tables := t.tables, tblIdx := t.tblIdx, phase := t.phase } ∧
            (∀ k, (h : k < 6) → k ≠ s.tblIdx.toNat → t.tables[k] = s.tables[k]) ∧
            t.tables[s.tblIdx.toNat].len = s.tables[s.tblIdx.toNat].len ∧
            (∀ l ∈ tableLens s s.tables[s.tblIdx.toNat],
              t.tables[s.tblIdx.toNat].minLen.toNat ≤ l.toNat ∧ l.toNat ≤ t.tables[s.tblIdx.toNat].maxLen.toNat) ∧
            t.tables[s.tblIdx.toNat].minLen ∈ tableLens s s.tables[s.tblIdx.toNat] ∧
            t.tables[s.tblIdx.toNat].maxLen ∈ tableLens s s.tables[s.tblIdx.toNat] ∧
            t.tables[s.tblIdx.toNat].firstIdx[1] = 0#9 ∧ t.tables[s.tblIdx.toNat].firstCode[1] = 0#21 ∧
            (∀ n, 1 ≤ n → (h : n ≤ 20) →
              t.tables[s.tblIdx.toNat].count[n].toNat = lengthCount (tableLens s s.tables[s.tblIdx.toNat]) n) ∧
            (∀ n, 1 ≤ n → (h : n < 20) →
              t.tables[s.tblIdx.toNat].firstIdx[n + 1].toNat =
                t.tables[s.tblIdx.toNat].firstIdx[n].toNat + t.tables[s.tblIdx.toNat].count[n].toNat ∧
              t.tables[s.tblIdx.toNat].firstCode[n + 1].toNat =
                2 * (t.tables[s.tblIdx.toNat].firstCode[n].toNat + t.tables[s.tblIdx.toNat].count[n].toNat)) ∧
            (∀ y n, (h : n ≤ 20) → (tableLens s s.tables[s.tblIdx.toNat])[y]? = some (BitVec.ofNat 5 n) →
              t.tables[s.tblIdx.toNat].perm[t.tables[s.tblIdx.toNat].firstIdx[n].toNat +
                lengthCount ((tableLens s s.tables[s.tblIdx.toNat]).take y) n]? = some (BitVec.ofNat 9 y)) ∧
            (s.tblIdx.toNat + 1 = s.nGroups.toNat → t.tblIdx = s.tblIdx ∧ t.phase = .blockTables .symbolInit) ∧
            (s.tblIdx.toNat + 1 ≠ s.nGroups.toNat → t.tblIdx = s.tblIdx + 1#3 ∧ t.phase = .blockTables .build)

/-- Illegal lengths. A running length outside 1..20 is `BAD_LENGTH` before the first bit of a code is read (42_tables.md
R129); an over-subscribed length set is `OVERSUBSCRIBED`, raised after `minLen`, `maxLen` and `count` are written with the
values of R131 and before anything else is (R132, 60_exceptions.md R190). The model's readings: the range check is made in
the step that would read the bit (log entry 16), and the build writes no length (log entry 20). -/
def Obligations.IllegalLengthsAreRefused : Prop :=
  ∀ s : State, s.refusalMark = false → s.job ≠ none →
    (s.phase = .blockTables .lencode → s.part = [] → s.curr.toNat < 1 ∨ 20 < s.curr.toNat →
      step s = .next { s with errCode := 5#4, errReason := 5#8, phase := .failed }) ∧
    (s.phase = .blockTables .build → s.alphaSize.toNat ≤ 258 → (hk : s.tblIdx.toNat < 6) →
      2 ^ 20 < codeSpace (tableLens s s.tables[s.tblIdx.toNat]) →
        ∃ t, step s = .next t ∧
          t = { s with tables := t.tables, errCode := 5#4, errReason := 6#8, phase := .failed, part := [] } ∧
          (∀ k, (h : k < 6) → k ≠ s.tblIdx.toNat → t.tables[k] = s.tables[k]) ∧
          t.tables[s.tblIdx.toNat] =
            { s.tables[s.tblIdx.toNat] with
              minLen := t.tables[s.tblIdx.toNat].minLen, maxLen := t.tables[s.tblIdx.toNat].maxLen
              count := t.tables[s.tblIdx.toNat].count } ∧
          (∀ l ∈ tableLens s s.tables[s.tblIdx.toNat],
            t.tables[s.tblIdx.toNat].minLen.toNat ≤ l.toNat ∧ l.toNat ≤ t.tables[s.tblIdx.toNat].maxLen.toNat) ∧
          t.tables[s.tblIdx.toNat].minLen ∈ tableLens s s.tables[s.tblIdx.toNat] ∧
          t.tables[s.tblIdx.toNat].maxLen ∈ tableLens s s.tables[s.tblIdx.toNat] ∧
          ∀ n, 1 ≤ n → (h : n ≤ 20) →
            t.tables[s.tblIdx.toNat].count[n].toNat = lengthCount (tableLens s s.tables[s.tblIdx.toNat]) n)

/-- The start of the symbol decoder (42_tables.md R134, 43_symbols.md R138): the MTF list starts with the in-use bytes in
ascending order, the counts are cleared, and no bit is read. That `mtfSym` keeps its entries beyond `nInUse` is the
model's reading, which no rule states (log entry 20). -/
def Obligations.SymbolDecoderStarts : Prop :=
  ∀ s : State, s.refusalMark = false → s.job ≠ none → s.phase = .blockTables .symbolInit → s.nInUse.toNat ≤ 256 →
    ∃ t, step s = .next t ∧
      t = { s with
        mtfSym := t.mtfSym, unzftab := t.unzftab
        nblock := 0#20, runS := 0#20, runN := 1#20, groupNo := 0#15, groupPos := 0#6
        phase := .blockSymbols .group } ∧
      (∀ k, (h : k < 256) → t.mtfSym[k] = if k < s.nInUse.toNat then s.seqToUnseq[k] else s.mtfSym[k]) ∧
      ∀ v, memGet t.unzftab v = if v < 256 then some 0#20 else none

/-! The symbol decoder. -/

/-- Group selection (43_symbols.md R139): every 50 symbols the next selector's table; none left is `SELECTOR_OVERRUN`,
before any bit of the symbol is read. -/
def Obligations.GroupSelectsItsTable : Prop :=
  ∀ s : State, s.refusalMark = false → s.job ≠ none → s.phase = .blockSymbols .group →
    (s.groupPos ≠ 0#6 → step s = .next { s with groupPos := s.groupPos - 1#6, phase := .blockSymbols .code }) ∧
    (s.groupPos = 0#6 → s.groupNo.toNat < s.nSelectors.toNat →
      ∀ k, memGet s.selector s.groupNo.toNat = some k →
        step s = .next
          { s with
            curTable := k, groupNo := s.groupNo + 1#15, groupPos := 49#6, phase := .blockSymbols .code }) ∧
    (s.groupPos = 0#6 → s.nSelectors.toNat ≤ s.groupNo.toNat →
      step s = .next { s with errCode := 5#4, errReason := 7#8, phase := .failed, part := [] })

/-- `SYM_RUNA` and `SYM_RUNB` (43_symbols.md R142, R143): the run grows by `runN` or twice `runN`, unless the block
would pass its limit. -/
def Obligations.RunDigitAddsItsWeight : Prop :=
  ∀ (s : State) (d : Bool), s.blockSize100k.toNat ≤ 9 →
    (s.nblock.toNat + (s.runS.toNat + s.runN.toNat * (if d then 2 else 1)) ≤ blockLimit s →
      ∃ t, exec (if d then .symRunb else .symRuna) s = .next t ∧
        t = { s with runS := t.runS, runN := s.runN <<< 1, phase := .blockSymbols .group } ∧
          t.runS.toNat = s.runS.toNat + s.runN.toNat * (if d then 2 else 1)) ∧
    (blockLimit s < s.nblock.toNat + (s.runS.toNat + s.runN.toNat * (if d then 2 else 1)) →
      exec (if d then .symRunb else .symRuna) s =
        .next { s with errCode := 5#4, errReason := 9#8, phase := .failed, part := [] })

/-- Run lengths in bijective base 2 (43_symbols.md R142, R145): a string of digits, least significant first, gives the
run length it writes. -/
def Obligations.DigitStringsWriteTheRunLength : Prop :=
  ∀ (s : State) (ds : List Bool), ds ≠ [] → s.blockSize100k.toNat ≤ 9 → s.runS = 0#20 → s.runN = 1#20 →
    s.nblock.toNat + digitsValue ds ≤ blockLimit s →
      ∃ t, execDigits ds s = .next t ∧ t = { s with runS := t.runS, runN := t.runN, phase := .blockSymbols .group } ∧
        t.runS.toNat = digitsValue ds ∧ t.runN.toNat = 2 ^ ds.length

/-- `FlushRun` (43_symbols.md R144), before an MTF symbol or EOB: `runS` copies of the front byte of the MTF list, counted
in `unzftab`; the list is not reordered; then `runS = 0` and `runN = 1`. `SYM_EOB` (R148) is that flush, and the block's
setup is next. -/
def Obligations.RunFlushWritesTheFrontByte : Prop :=
  ∀ s : State, Mem.wf maxBlock s.ll8 → s.nblock.toNat + s.runS.toNat ≤ maxBlock →
    (∃ c, memGet s.unzftab (s.mtfSym[0]).toNat = some c) →
      ∃ t, flushRun s = .ok t ∧ exec .symEob s = .next { t with phase := .blockSetup } ∧
        t = { s with ll8 := t.ll8, unzftab := t.unzftab, nblock := t.nblock, runS := 0#20, runN := 1#20 } ∧
        t.nblock.toNat = s.nblock.toNat + s.runS.toNat ∧
        (∀ a, memGet t.ll8 a =
          if s.nblock.toNat ≤ a ∧ a < s.nblock.toNat + s.runS.toNat then some s.mtfSym[0] else memGet s.ll8 a) ∧
        ∀ a, memGet t.unzftab a =
          if a = (s.mtfSym[0]).toNat then (memGet s.unzftab a).map (· + s.runS) else memGet s.unzftab a

/-- `SYM_MTF` (43_symbols.md R146, R137, R143): the run is flushed, the byte at position `n − 1` moves to the front of the
list, is written to `ll8` and counted; a full block is `BLOCK_OVERFLOW`, after the flush and the move. -/
def Obligations.MtfSymbolWritesItsByte : Prop :=
  ∀ (s : State) (n : BitVec 9), 2 ≤ n.toNat → (hn : n.toNat ≤ 256) → Mem.wf maxBlock s.ll8 →
    s.blockSize100k.toNat ≤ 9 → (∀ v < 256, (memGet s.unzftab v).isSome = true) →
      s.nblock.toNat + s.runS.toNat ≤ blockLimit s →
        ∃ u t, flushRun s = .ok u ∧ exec (.symMtf n) s = .next t ∧
          (t.mtfSym[0] = s.mtfSym[n.toNat - 1] ∧
            ∀ k, 0 < k → (h : k < 256) →
              t.mtfSym[k] = if k ≤ n.toNat - 1 then s.mtfSym[k - 1] else s.mtfSym[k]) ∧
          (s.nblock.toNat + s.runS.toNat < blockLimit s →
            t = { u with mtfSym := t.mtfSym, ll8 := t.ll8, unzftab := t.unzftab, nblock := t.nblock
                         phase := .blockSymbols .group } ∧
            t.nblock.toNat = u.nblock.toNat + 1 ∧
            (∀ a, memGet t.ll8 a = if a = u.nblock.toNat then some s.mtfSym[n.toNat - 1] else memGet u.ll8 a) ∧
            ∀ a, memGet t.unzftab a =
              if a = (s.mtfSym[n.toNat - 1]).toNat then (memGet u.unzftab a).map (· + 1#20)
              else memGet u.unzftab a) ∧
          (s.nblock.toNat + s.runS.toNat = blockLimit s →
            t = { u with mtfSym := t.mtfSym, errCode := 5#4, errReason := 9#8, phase := .failed, part := [] })

/-! The inverse transform and the output stage. -/

/-- The origin-pointer check (43_symbols.md R150): `origPtr ≥ nblock` is `BAD_ORIGPTR`; an empty block always fails. -/
def Obligations.BadOriginPointerIsRefused : Prop :=
  ∀ s : State, s.refusalMark = false → s.job ≠ none → s.phase = .blockSetup →
    (s.nblock.toNat ≤ s.origPtr.toNat →
      step s = .next { s with errCode := 5#4, errReason := 10#8, phase := .failed, part := [] }) ∧
    (s.nblock = 0#20 → step s = .next { s with errCode := 5#4, errReason := 10#8, phase := .failed, part := [] })

/-- The setup (44_inverse_bwt.md R153 to R156): `tt[0..nblock−1]` is the permutation of the positions of `ll8` that sorts
them by byte and then by position, other entries stay, `cftab` ends as the counts of bytes up to each value, and the
walk starts at `tt[origPtr]`. -/
def Obligations.SetupSortsThePositions : Prop :=
  ∀ s : State, s.refusalMark = false → s.job ≠ none → s.phase = .blockSetup → blockWritten s →
    s.nblock.toNat ≤ maxBlock → s.origPtr.toNat < s.nblock.toNat →
      ∃ t, step s = .next t ∧
        t = { s with
          cftab := t.cftab, tt := t.tt, tPos := t.tPos, i2 := 0#20, rleCount := 0#3, rlePrev := 0#8, repLeft := 0#8
          rNToGo := 0#10, rTPos := 0#9, phase := .blockOutput } ∧
        (∀ k < s.nblock.toNat, ∃ p, memGet t.tt k = some p ∧ p.toNat < s.nblock.toNat) ∧
        (∀ j k p q, j < k → k < s.nblock.toNat → memGet t.tt j = some p → memGet t.tt k = some q →
          sortsBefore s.ll8 p.toNat q.toNat) ∧
        (∀ a, s.nblock.toNat ≤ a → memGet t.tt a = memGet s.tt a) ∧
        memGet t.tt s.origPtr.toNat = some t.tPos ∧
        (∀ v < 256, ∃ c, memGet t.cftab v = some c ∧
          c.toNat = ((List.range s.nblock.toNat).filter
            (fun i => (memGet s.ll8 i).any (fun b => decide (b.toNat ≤ v)))).length) ∧
        ∃ c, memGet t.cftab 256 = some c ∧ c = s.nblock

/-- One walk step (45_output.md R166), made where the block's entries are written: `ll8[tPos]`, then `tPos` becomes
`tt[tPos]` and `i2` grows by one; the byte of a randomised block takes the mask of R163, with the table of R162 and its
check values. -/
def Obligations.WalkStepFollowsTheSuccessor : Prop :=
  (rnums.length = 512 ∧ rnums.sum = 278212 ∧ (∀ n ∈ rnums, 50 ≤ n ∧ n ≤ 999) ∧
    rnums[0]? = some 619 ∧ rnums[1]? = some 720 ∧ rnums[511]? = some 638) ∧
  (∀ s : State,
    (s.rNToGo ≠ 0#10 →
      randMask s = .ok (if s.rNToGo = 2#10 then 1#8 else 0#8, { s with rNToGo := s.rNToGo - 1#10 })) ∧
    (s.rNToGo = 0#10 → ∀ n, rnums[s.rTPos.toNat]? = some n →
      ∃ t, randMask s = .ok (0#8, t) ∧ t = { s with rNToGo := t.rNToGo, rTPos := t.rTPos } ∧
        t.rNToGo.toNat = n - 1 ∧ t.rTPos.toNat = (s.rTPos.toNat + 1) % 512)) ∧
  ∀ (s : State) (b : BitVec 8) (p : BitVec 20), s.tPos.toNat < maxBlock → memGet s.ll8 s.tPos.toNat = some b →
    memGet s.tt s.tPos.toNat = some p →
      (s.randomised = 0#1 → walkByte s = .ok (b, { s with tPos := p, i2 := s.i2 + 1#20 })) ∧
      (s.randomised = 1#1 → ∃ m t, randMask { s with tPos := p, i2 := s.i2 + 1#20 } = .ok (m, t) ∧
        walkByte s = .ok (b ^^^ m, t))

/-- `Emit` (45_output.md R168, with `CrcByte` of R169): the byte enters the block CRC, is counted, and answers the READ.
Where the READ is one of READ_BYTES the host places the byte and goes on, or returns when its buffer is full (46_host.md
R181); the host's buffer and returns in State are the model's (log entry 8). -/
def Obligations.EmitAnswersTheRead : Prop :=
  ∀ (s : State) (b : BitVec 8),
    (s.job = some .read →
      emit b s =
        { s with
          blockCRC := crcByte s.blockCRC b, outCount := s.outCount + 1, answers := s.answers ++ [.byte b]
          job := none }) ∧
    ∀ n k, s.job = some (.readBytes n k) →
      (k + 1 < n →
        emit b s =
          { s with
            blockCRC := crcByte s.blockCRC b, outCount := s.outCount + 1, answers := s.answers ++ [.byte b]
            rbBuf := s.rbBuf ++ [b], job := some (.readBytes n (k + 1)) }) ∧
      (n ≤ k + 1 →
        emit b s =
          { s with
            blockCRC := crcByte s.blockCRC b, outCount := s.outCount + 1, answers := s.answers ++ [.byte b]
            rbBuf := s.rbBuf ++ [b], rbReturns := s.rbReturns ++ [.count n], job := none })

/-- `OutputStep` (45_output.md R167): pending copies first; then, at the end of the walk, `RLE_TRUNCATED` or the block's
end; otherwise a walk byte, which after four equal bytes is a count byte and else is emitted. -/
def Obligations.OutputStepExpandsRuns : Prop :=
  ∀ s : State, s.refusalMark = false → s.job ≠ none → s.phase = .blockOutput →
    (0 < s.repLeft.toNat → step s = .next (emit s.rlePrev { s with repLeft := s.repLeft - 1#8 })) ∧
    (s.repLeft = 0#8 → s.i2 = s.nblock → s.rleCount = 4#3 →
      step s = .next { s with errCode := 5#4, errReason := 11#8, phase := .failed, part := [] }) ∧
    (s.repLeft = 0#8 → s.i2 = s.nblock → s.rleCount ≠ 4#3 → step s = .next { s with phase := .blockEnd }) ∧
    (s.repLeft = 0#8 → s.i2 ≠ s.nblock → ∀ b t, walkByte s = .ok (b, t) →
      (s.rleCount = 4#3 → step s = .next { t with repLeft := b, rleCount := 0#3 }) ∧
      (s.rleCount ≠ 4#3 → 0 < s.rleCount.toNat → b = s.rlePrev →
        step s = .next (emit b { t with rleCount := s.rleCount + 1#3 })) ∧
      (s.rleCount ≠ 4#3 → (s.rleCount = 0#3 ∨ b ≠ s.rlePrev) →
        step s = .next (emit b { t with rleCount := 1#3, rlePrev := b })))

/-- The block's end (45_output.md R170, R171): the inverted accumulator must equal the stored CRC; then it is folded into
the combined CRC and the block is counted. A block that fails does not update them. -/
def Obligations.BlockEndChecksAndCombinesTheCrc : Prop :=
  ∀ s : State, s.refusalMark = false → s.job ≠ none → s.phase = .blockEnd →
    (s.blockCRC ^^^ 0xFFFFFFFF#32 = s.storedBlockCRC →
      step s = .next
        { s with
          combinedCRC := s.combinedCRC.rotateLeft 1 ^^^ (s.blockCRC ^^^ 0xFFFFFFFF#32)
          blockCount := s.blockCount + 1, phase := .blockHeader }) ∧
    (s.blockCRC ^^^ 0xFFFFFFFF#32 ≠ s.storedBlockCRC →
      step s = .next { s with errCode := 3#4, errReason := 1#8, phase := .failed, part := [] })

/-! Errors and terminal phases. -/

/-- In `FAILED` and in `END_OF_STREAM` every READ answers the same event and writes no register (60_exceptions.md
R191), a READ of READ_BYTES as well, whose call then returns (46_host.md R181; the returns in State are the model's, log
entry 8). -/
def Obligations.TerminalPhasesAnswerTheSameEvent : Prop :=
  ∀ s : State, s.refusalMark = false →
    (s.job = some .read →
      (s.phase = .failed →
        step s = .next { s with job := none, answers := s.answers ++ [.error s.errCode s.errReason] }) ∧
      (s.phase = .endOfStream → step s = .next { s with job := none, answers := s.answers ++ [.endOfStream] })) ∧
    ∀ n k, s.job = some (.readBytes n k) →
      (s.phase = .failed →
        step s = .next
          { s with
            job := none, answers := s.answers ++ [.error s.errCode s.errReason]
            rbReturns := s.rbReturns ++ [.error s.errCode s.errReason] }) ∧
      (s.phase = .endOfStream →
        step s = .next
          { s with
            job := none, answers := s.answers ++ [.endOfStream]
            rbReturns := s.rbReturns ++ [if k = 0 then .endOfStream else .count k] })

/-- What READ_BYTES does with the answers of its READs (46_host.md R181). The buffer and the returns in State are the
model's (log entry 8). -/
def Obligations.ReadBytesPlacesAnswers : Prop :=
  ∀ (s : State) (n k : Nat), s.job = some (.readBytes n k) →
    (∀ b, k + 1 < n → answerByte b s =
      { s with answers := s.answers ++ [.byte b], rbBuf := s.rbBuf ++ [b], job := some (.readBytes n (k + 1)) }) ∧
    (∀ b, n ≤ k + 1 → answerByte b s =
      { s with
        answers := s.answers ++ [.byte b], rbBuf := s.rbBuf ++ [b], job := none
        rbReturns := s.rbReturns ++ [.count n] }) ∧
    answerEndOfStream s =
      { s with
        answers := s.answers ++ [.endOfStream], job := none
        rbReturns := s.rbReturns ++ [if k = 0 then .endOfStream else .count k] } ∧
    answerError s =
      { s with
        answers := s.answers ++ [.error s.errCode s.errReason], job := none
        rbReturns := s.rbReturns ++ [.error s.errCode s.errReason] }

/-- Which errors each phase can raise (60_exceptions.md R205, R188). -/
def Obligations.PhaseRaisesOnlyItsErrors : Prop :=
  ∀ s t : State, step s = .next t → s.phase ≠ .failed → t.phase = .failed →
    ∃ err ∈ errorsOf s.phase, t.errCode = errorCode err ∧ t.errReason = errorReason err

/-! Rules of the whole machine. -/

/-- The transitions of `phase` (41_framer.md R98): no step takes another. From `BLOCK_HEADER` to `END_OF_STREAM` only under
the lenient reading (R104); to `FAILED` only inside a READ; OPEN, CLOSE and reset only between commands (46_host.md R176,
R182, 70_reset_and_hazards.md R206, R208). -/
def Obligations.PhaseTakesOnlyItsTransitions : Prop :=
  ∀ s t : State, step s = .next t → phaseMayGo s t

/-- Between two host commands `phase` holds one of five values (10_state.md R16). -/
def Obligations.PhasesBetweenCommandsAreFive : Prop :=
  ∀ s t : State, betweenCommands s → step s = .next t → betweenCommands t

/-- No step changes the configuration (70_reset_and_hazards.md R219). -/
def Obligations.ConfigurationIsConstant : Prop :=
  ∀ s t : State, step s = .next t → t.cfg = s.cfg

/-- The memories keep their canonical form, entries inside their depths (20_memory.md R50 to R54). -/
def Obligations.MemoriesStayCanonical : Prop :=
  ∀ s t : State, memoriesWf s → step s = .next t → memoriesWf t

/-- What the terminal phases stand for. `FAILED` holds one of the errors of 60_exceptions.md R188, and no error is latched
but in `FAILED` and, kept by CLOSE, in `CLOSED` (10_state.md R27, 46_host.md R182; log entry 9). `END_OF_STREAM` has the
combined CRC verified (70_reset_and_hazards.md R222), but for the lenient reading of an unknown magic (41_framer.md
R104); where the trailer ends the stream it is verified under either reading (R113). -/
def Obligations.TerminalPhasesStayJustified : Prop :=
  ∀ s t : State, step s = .next t →
    (errorLatch s → errorLatch t) ∧ (endVerified s → endVerified t) ∧
      (s.phase = .streamTrailer → t.phase = .endOfStream → t.combinedCRC = t.storedCombinedCRC)

/-- The combined CRC and the block count change only where a block's CRC has matched, and start again at 0 only where the
next event at the port is OPEN of a closed stream, or reset (10_state.md R19, 45_output.md R171, 46_host.md R176,
70_reset_and_hazards.md R206). -/
def Obligations.CombinedCrcCountsOnlyMatchedBlocks : Prop :=
  ∀ s t : State, step s = .next t →
    (t.combinedCRC = s.combinedCRC ∧ t.blockCount = s.blockCount) ∨
    (s.job ≠ none ∧ s.phase = .blockEnd ∧ s.blockCRC ^^^ 0xFFFFFFFF#32 = s.storedBlockCRC ∧ t.phase = .blockHeader ∧
      t.combinedCRC = s.combinedCRC.rotateLeft 1 ^^^ s.storedBlockCRC ∧ t.blockCount = s.blockCount + 1) ∨
    (startsAgain s ∧ t.combinedCRC = 0#32 ∧ t.blockCount = 0)

/-- The output is counted and summed (20_memory.md R49, 45_output.md R168, with `CrcByte` of R169): a step gives at most
one byte, in `BLOCK_OUTPUT` only, and then it enters the CRC; the counter starts again at 0 only where the next event at the
port is OPEN of a closed stream, or reset (46_host.md R176, 70_reset_and_hazards.md R206). -/
def Obligations.OutputIsCountedAndSummed : Prop :=
  ∀ s t : State, step s = .next t →
    (outputOf t.answers = outputOf s.answers ∧ (t.outCount = s.outCount ∨ (startsAgain s ∧ t.outCount = 0))) ∨
    ∃ b, s.phase = .blockOutput ∧ s.job ≠ none ∧ outputOf t.answers = outputOf s.answers ++ [b] ∧
      t.outCount = s.outCount + 1 ∧ t.blockCRC = crcByte s.blockCRC b

/-- No element of the stream touches the reader, the source, the counters of bytes, the answers or the host's side, nor
`tt`, `cftab` and `selector` (40_bitreader.md R97, 20_memory.md R52 to R54); `ll8` and `unzftab` only where the element
writes the block, `selectorMtf` only where it is `TB_SELECTOR` (20_memory.md R51, R53, R54). -/
def Obligations.ElementsKeepTheReaderAndThePorts : Prop :=
  ∀ (i : Instr) (s t : State), isElement i = true → exec i s = .next t →
    elementFrame s t ∧ (writesBlock i = false → t.ll8 = s.ll8 ∧ t.unzftab = s.unzftab) ∧
      (writesSelectorMtf i = false → t.selectorMtf = s.selectorMtf)

/-- No step meets a fault of the model (20_memory.md R50, R55, 40_bitreader.md R91, 60_exceptions.md R204), under an
invariant that every step keeps. -/
def Obligations.NoStepMeetsAFault : Prop :=
  ∀ s : State, noFaultInv s → (∀ f, step s ≠ .fault f) ∧ ∀ t, step s = .next t → noFaultInv t

/-- Every READ ends and answers exactly one event (46_host.md R178, R179), within a bound on its steps that the bits and
bytes left give: a READ of `CMD_READ`, and each READ of READ_BYTES, which is then followed by the next one only after a byte
(R181). Under `RNUMS_TRUSTED = false` a randomised block may instead end the run by the refusal mark (R185). The bound is
the model's, since its steps are smaller than the rule's passes (log entry 3), and so are READ_BYTES as a command in
progress (log entry 8) and the step that is refused (log entry 7). -/
def Obligations.EveryReadAnswersOnce : Prop :=
  ∀ s : State, noFaultInv s → s.refusalMark = false → s.job ≠ none → s.phase ≠ .closed →
    (s.cfg.rnumsTrusted = false ∧ ∃ k, k ≤ readBound s ∧ Host.Core.run core k s = .refused .untrustedRandomised) ∨
    ∃ k t a, k ≤ readBound s ∧ Host.Core.run core k s = .next t ∧ t.answers = s.answers ++ [a] ∧
      ((∃ b, a = .byte b) ∨ a = .endOfStream ∨ ∃ c r, a = .error c r) ∧
      (t.job = none ∨
        ∃ n j b, s.job = some (.readBytes n j) ∧ a = .byte b ∧ t.job = some (.readBytes n (j + 1)))

/-! The CRC step that the statements about output name. -/

/-- `CrcByte` (45_output.md R169): a table entry is eight shift-and-xor turns with 0x04C11DB7, most significant bit first;
the accumulator starts at 0xFFFFFFFF and is inverted at the end; and the rule's check values. -/
def Obligations.CrcByteFollowsItsTable : Prop :=
  (∀ i : BitVec 8, crcTable i =
    Nat.repeat (fun x : BitVec 32 => if x.getLsbD 31 then (x <<< 1) ^^^ 0x04C11DB7#32 else x <<< 1) 8
      (i.zeroExtend 32 <<< 24)) ∧
  (∀ (c : BitVec 32) (b : BitVec 8), crcByte c b = (c <<< 8) ^^^ crcTable ((c >>> 24).truncate 8 ^^^ b)) ∧
  crcInit = 0xFFFFFFFF#32 ∧ (∀ c : BitVec 32, crcComputed c = c ^^^ 0xFFFFFFFF#32) ∧
  crcTable 1#8 = 0x04C11DB7#32 ∧ crcTable 2#8 = 0x09823B6E#32 ∧ crcTable 128#8 = 0x690CE0EE#32 ∧
  crcTable 255#8 = 0xB1F740B4#32 ∧ crcComputed crcInit = 0#32 ∧
  crcComputed ([0x31#8, 0x32#8, 0x33#8, 0x34#8, 0x35#8, 0x36#8, 0x37#8, 0x38#8, 0x39#8].foldl crcByte crcInit) =
    0xFC891918#32
end

