-- ==== Sys2Proof/Laws/Decode.lean ====
section
/-! SUPPORT. The laws of the decoder: bits and numbers, which instructions each expectation can give, what it can ask
for next. -/

namespace Sys2Proof.Laws

open Sys2Proof.Machine

@[simp] theorem bitsOf_length (n v : Nat) : (bitsOf n v).length = n := by
  induction n with
  | zero => rfl
  | succ n ih => simp [bitsOf, ih]

@[simp] theorem bitsOf_zero (v : Nat) : bitsOf 0 v = [] := rfl

theorem valueOf_append (xs ys : List Bool) : valueOf (xs ++ ys) = valueOf xs * 2 ^ ys.length + valueOf ys := by
  have h : ∀ (ys : List Bool) (a : Nat), ys.foldl (fun a b => 2 * a + b.toNat) a = a * 2 ^ ys.length + valueOf ys := by
    intro ys
    induction ys with
    | nil => intro a; simp [valueOf]
    | cons y ys ih =>
      intro a
      have h1 := ih (2 * a + y.toNat)
      have h2 := ih (2 * 0 + y.toNat)
      simp only [valueOf, List.foldl_cons, List.length_cons] at *
      rw [h1, h2]
      ring
  rw [valueOf, List.foldl_append, h]
  rfl

theorem valueOf_cons (b : Bool) (bits : List Bool) : valueOf (b :: bits) = b.toNat * 2 ^ bits.length + valueOf bits := by
  have := valueOf_append [b] bits
  simpa [valueOf] using this

theorem valueOf_lt (bits : List Bool) : valueOf bits < 2 ^ bits.length := by
  induction bits with
  | nil => simp [valueOf]
  | cons b bits ih =>
    rw [valueOf_cons, List.length_cons, pow_succ]
    cases b <;> simp <;> omega

/-- The number a field's bits write is the low part of the value they were taken from. -/
@[simp] theorem valueOf_bitsOf (n v : Nat) : valueOf (bitsOf n v) = v % 2 ^ n := by
  induction n with
  | zero => simp [bitsOf, valueOf, Nat.mod_one]
  | succ n ih =>
    rw [bitsOf, valueOf_cons, ih, bitsOf_length, Nat.testBit_eq_decide_div_mod_eq, Nat.mod_pow_succ]
    rcases Nat.mod_two_eq_zero_or_one (v / 2 ^ n) with h | h
    · simp [h]
    · simp [h]; ring

/-- Bits read back from the number they write are the same bits. -/
theorem bitsOf_valueOf (bits : List Bool) : bitsOf bits.length (valueOf bits) = bits := by
  have key : ∀ (n v : Nat), bitsOf n (v % 2 ^ n) = bitsOf n v := by
    intro n
    have gen : ∀ (k n v w : Nat), k ≤ n → v % 2 ^ n = w % 2 ^ n → bitsOf k v = bitsOf k w := by
      intro k
      induction k with
      | zero => intros; rfl
      | succ k ih =>
        intro n v w hk h
        rw [bitsOf, bitsOf, ih n v w (by omega) h]
        have h1 := congrArg (fun x => x.testBit k) h
        simp only [Nat.testBit_mod_two_pow] at h1
        have : k < n := by omega
        simp [this] at h1
        rw [h1]
    intro v
    exact gen n n _ _ (Nat.le_refl n) (Nat.mod_mod _ _)
  induction bits with
  | nil => rfl
  | cons b bits ih =>
    rw [List.length_cons, bitsOf]
    have hlt := valueOf_lt bits
    have hb : (valueOf (b :: bits)).testBit bits.length = b := by
      rw [valueOf_cons, Nat.testBit_eq_decide_div_mod_eq]
      have h2 : (b.toNat * 2 ^ bits.length + valueOf bits) / 2 ^ bits.length = b.toNat := by
        rw [Nat.add_comm, Nat.add_mul_div_right _ _ (Nat.two_pow_pos _), Nat.div_eq_of_lt hlt, Nat.zero_add]
      rw [h2]
      cases b <;> simp
    rw [hb]
    congr 1
    rw [← key, valueOf_cons]
    rw [Nat.mul_comm, Nat.mul_add_mod, Nat.mod_eq_of_lt hlt]
    exact ih

/-- The instructions an expectation can give (30_encoding.md R71). -/
def mayRead : Expect → Instr → Bool
  | .command, .cmdOpen => true
  | .command, .cmdRead => true
  | .command, .cmdClose => true
  | .command, .cmdStatus _ => true
  | .sourceAnswer, .srcData _ => true
  | .sourceAnswer, .srcEoi => true
  | .shMagic, .shMagic => true
  | .shLevel, .shLevel _ => true
  | .blockMagic, .bhMagic => true
  | .blockMagic, .eosMagic => true
  | .bhCrc, .bhCrc _ => true
  | .bhRand, .bhRand _ => true
  | .bhOrigptr, .bhOrigptr _ => true
  | .mapL1, .mapL1 _ => true
  | .mapL2, .mapL2 _ => true
  | .tbNgroups, .tbNgroups _ => true
  | .tbNsel, .tbNsel _ => true
  | .selector _, .tbSelector _ => true
  | .tbLenStart, .tbLenStart _ => true
  | .lencode, .tbLenInc => true
  | .lencode, .tbLenDec => true
  | .lencode, .tbLenStop => true
  | .symbol _ _, .symRuna => true
  | .symbol _ _, .symRunb => true
  | .symbol _ _, .symMtf _ => true
  | .symbol _ _, .symEob => true
  | .trCrc, .trCrc _ => true
  | .trPad, .trPad _ => true
  | _, _ => false

/-- The errors an expectation's bits can be (30_encoding.md R73). -/
def mayReject : Expect → StreamError → Bool
  | .shMagic, .headerMagic => true
  | .blockMagic, .blockMagic => true
  | .selector _, .badSelector => true
  | .symbol _ _, .badCode => true
  | _, _ => false

theorem fixedField_eq {chunk total : Nat} {bits : List Bool} {found : Nat → List Bool → Verdict} {v : Verdict}
    (h : fixedField chunk total bits found = v) :
    (bits.length < total ∧ v = .need (min chunk (total - bits.length))) ∨
      (total ≤ bits.length ∧ found (valueOf (bits.take total)) (bits.drop total) = v) := by
  unfold fixedField at h
  split at h
  · exact .inl ⟨‹_›, h.symm⟩
  · exact .inr ⟨by omega, h⟩

theorem decodeSelector_cases (limit : Nat) (j : Nat) (bits : List Bool) :
    decodeSelector limit j bits = .need 1 ∨ decodeSelector limit j bits = .illegal .badSelector ∨
      ∃ k rest, decodeSelector limit j bits = .instr (.tbSelector k) rest := by
  induction bits generalizing j with
  | nil => exact .inl rfl
  | cons b bits ih =>
    cases b with
    | false => exact .inr (.inr ⟨_, _, rfl⟩)
    | true =>
      simp only [decodeSelector]
      split
      · exact .inr (.inl rfl)
      · exact ih (j + 1)

/-- A verdict a Huffman symbol's bits can get. -/
def symbolOutcome (v : Verdict) : Prop :=
  v = .need 1 ∨ v = .illegal .badCode ∨ (∃ r, v = .reject r) ∨
    ∃ i rest, v = .instr i rest ∧ ∀ t n, mayRead (.symbol t n) i = true

theorem symbolVerdict_outcome (nInUse s : Nat) (rest : List Bool) : symbolOutcome (symbolVerdict nInUse s rest) := by
  unfold symbolVerdict
  split
  · exact .inr (.inr (.inr ⟨_, _, rfl, fun _ _ => rfl⟩))
  split
  · exact .inr (.inr (.inr ⟨_, _, rfl, fun _ _ => rfl⟩))
  split
  · exact .inr (.inr (.inr ⟨_, _, rfl, fun _ _ => rfl⟩))
  split
  · exact .inr (.inr (.inr ⟨_, _, rfl, fun _ _ => rfl⟩))
  · exact .inr (.inr (.inl ⟨_, rfl⟩))

theorem decodeCode_outcome (t : HuffTable) (nInUse n v : Nat) (bits : List Bool) :
    symbolOutcome (decodeCode t nInUse n v bits) := by
  induction bits generalizing n v with
  | nil =>
    unfold decodeCode
    split
    · exact symbolVerdict_outcome _ _ _
    · exact .inr (.inl rfl)
    · exact .inr (.inr (.inl ⟨_, rfl⟩))
    · exact .inl rfl
  | cons b bits ih =>
    unfold decodeCode
    split
    · exact symbolVerdict_outcome _ _ _
    · exact .inr (.inl rfl)
    · exact .inr (.inr (.inl ⟨_, rfl⟩))
    · exact ih _ _

theorem decodeSymbol_cases (t : HuffTable) (nInUse : Nat) (bits : List Bool) :
    (∃ n, decodeSymbol t nInUse bits = .need n ∧ n ≤ t.minLen.toNat) ∨ symbolOutcome (decodeSymbol t nInUse bits) := by
  unfold decodeSymbol
  simp only
  split
  · exact .inl ⟨_, rfl, by omega⟩
  · exact .inr (decodeCode_outcome _ _ _ _ _)

/-- An expectation gives only its own instructions. -/
theorem decode_instr {e : Expect} {bits rest : List Bool} {i : Instr} (h : decode e bits = .instr i rest) :
    mayRead e i = true := by
  cases e
  case command =>
    simp only [decode] at h
    rcases fixedField_eq h with ⟨_, h⟩ | ⟨_, h⟩
    · cases h
    · unfold decodeCommand at h
      split at h
      · cases h; rfl
      split at h
      · cases h; rfl
      split at h
      · cases h; rfl
      split at h
      · cases h; rfl
      · cases h
  case sourceAnswer =>
    simp only [decode] at h
    rcases fixedField_eq h with ⟨_, h⟩ | ⟨_, h⟩
    · cases h
    · unfold decodeAnswer at h
      split at h
      · cases h; rfl
      split at h
      · cases h; rfl
      · cases h
  case shMagic =>
    simp only [decode, decodeShMagic] at h
    split at h
    · cases h
    split at h
    · cases h
    · cases h; rfl
  case blockMagic =>
    simp only [decode, decodeBlockMagic] at h
    rcases fixedField_eq h with ⟨_, h⟩ | ⟨_, h⟩
    · cases h
    · split at h
      · cases h; rfl
      split at h
      · cases h; rfl
      · cases h
  case selector limit =>
    rcases decodeSelector_cases limit 0 bits with h' | h' | ⟨k, r, h'⟩ <;>
      (rw [decode, h'] at h; cases h)
    rfl
  case lencode =>
    simp only [decode] at h
    unfold decodeLencode at h
    split at h <;> cases h <;> rfl
  case symbol t n =>
    simp only [decode] at h
    rcases decodeSymbol_cases t n bits with ⟨k, h', _⟩ | h' | h' | ⟨r, h'⟩ | ⟨i', r, h', hi⟩
    · rw [h'] at h; cases h
    · rw [h'] at h; cases h
    · rw [h'] at h; cases h
    · rw [h'] at h; cases h
    · rw [h'] at h; cases h; exact hi t n
  case trPad => cases h; rfl
  all_goals
    simp only [decode] at h
    rcases fixedField_eq h with ⟨_, h⟩ | ⟨_, h⟩
    · cases h
    · cases h; rfl

/-- An expectation raises only its own errors. -/
theorem decode_illegal {e : Expect} {bits : List Bool} {err : StreamError} (h : decode e bits = .illegal err) :
    mayReject e err = true := by
  cases e
  case command =>
    simp only [decode] at h
    rcases fixedField_eq h with ⟨_, h⟩ | ⟨_, h⟩
    · cases h
    · unfold decodeCommand at h
      split at h
      · cases h
      split at h
      · cases h
      split at h
      · cases h
      split at h <;> cases h
  case sourceAnswer =>
    simp only [decode] at h
    rcases fixedField_eq h with ⟨_, h⟩ | ⟨_, h⟩
    · cases h
    · unfold decodeAnswer at h
      split at h
      · cases h
      split at h <;> cases h
  case shMagic =>
    simp only [decode, decodeShMagic] at h
    split at h
    · cases h; rfl
    split at h <;> cases h
  case blockMagic =>
    simp only [decode, decodeBlockMagic] at h
    rcases fixedField_eq h with ⟨_, h⟩ | ⟨_, h⟩
    · cases h
    · split at h
      · cases h
      split at h
      · cases h
      · cases h; rfl
  case selector limit =>
    rcases decodeSelector_cases limit 0 bits with h' | h' | ⟨k, r, h'⟩ <;>
      (rw [decode, h'] at h; cases h)
    rfl
  case lencode =>
    simp only [decode] at h
    unfold decodeLencode at h
    split at h <;> cases h
  case symbol t n =>
    simp only [decode] at h
    rcases decodeSymbol_cases t n bits with ⟨k, h', _⟩ | h' | h' | ⟨r, h'⟩ | ⟨i', r, h', hi⟩
    · rw [h'] at h; cases h
    · rw [h'] at h; cases h
    · rw [h'] at h; cases h; rfl
    · rw [h'] at h; cases h
    · rw [h'] at h; cases h
  case trPad => cases h
  all_goals
    simp only [decode] at h
    rcases fixedField_eq h with ⟨_, h⟩ | ⟨_, h⟩
    · cases h
    · cases h

/-- What an element of the stream asks of the next `GetBits`: 1 to 24 bits, but for a table whose `minLen` is 0 or
above 24 (40_bitreader.md R91). -/
theorem decode_need {e : Expect} {bits : List Bool} {n : Nat} (h : decode e bits = .need n)
    (hs : ∀ t k, e = .symbol t k → 1 ≤ t.minLen.toNat ∧ t.minLen.toNat ≤ readMax) : 1 ≤ n ∧ n ≤ readMax := by
  cases e
  case command =>
    simp only [decode] at h
    rcases fixedField_eq h with ⟨_, h⟩ | ⟨_, h⟩
    · cases h; simp only [readMax]; omega
    · unfold decodeCommand at h
      split at h
      · cases h
      split at h
      · cases h
      split at h
      · cases h
      split at h <;> cases h
  case sourceAnswer =>
    simp only [decode] at h
    rcases fixedField_eq h with ⟨_, h⟩ | ⟨_, h⟩
    · cases h; simp only [readMax]; omega
    · unfold decodeAnswer at h
      split at h
      · cases h
      split at h <;> cases h
  case shMagic =>
    simp only [decode, decodeShMagic] at h
    split at h
    · cases h
    split at h
    · cases h; simp only [readMax]; omega
    · cases h
  case blockMagic =>
    simp only [decode, decodeBlockMagic] at h
    rcases fixedField_eq h with ⟨_, h⟩ | ⟨_, h⟩
    · cases h; simp only [readMax]; omega
    · split at h
      · cases h
      split at h <;> cases h
  case selector limit =>
    rcases decodeSelector_cases limit 0 bits with h' | h' | ⟨k, r, h'⟩ <;>
      (rw [decode, h'] at h; cases h)
    simp [readMax]
  case lencode =>
    simp only [decode] at h
    unfold decodeLencode at h
    split at h <;> cases h <;> simp [readMax]
  case symbol t k =>
    obtain ⟨h1, h2⟩ := hs t k rfl
    simp only [decode] at h
    have h3 : ∀ v, symbolOutcome v → v = .need n → n = 1 := by
      rintro v (h' | h' | ⟨r, h'⟩ | ⟨i', r, h', hi⟩) hv <;> rw [h'] at hv <;> cases hv
      rfl
    unfold decodeSymbol at h
    simp only at h
    split at h
    · cases h; omega
    · have := h3 _ (decodeCode_outcome _ _ _ _ _) h; simp [this, readMax]
  case trPad => cases h
  all_goals
    simp only [decode] at h
    rcases fixedField_eq h with ⟨_, h⟩ | ⟨_, h⟩
    · cases h; simp only [readMax]; omega
    · cases h

end Sys2Proof.Laws
end

