-- ==== Sys2Proof/Laws/Mem.lean ====
section
/-! SUPPORT. The laws of the memories and register files: a read after a write, the canonical form, and for each
checked accessor the one lemma that says everything it can answer. -/

namespace Sys2Proof.Laws

open Sys2Proof.Machine

variable {w : Nat}

@[simp] theorem memGet_nil (i : Nat) : memGet ([] : Mem w) i = none := rfl

theorem memGet_cons (e : Nat × BitVec w) (m : Mem w) (i : Nat) :
    memGet (e :: m) i = if e.1 = i then some e.2 else memGet m i := rfl

/-- A read after a write to the same index gives the value written. -/
@[simp] theorem memGet_memSet_same (i : Nat) (v : BitVec w) (m : Mem w) : memGet (memSet i v m) i = some v := by
  induction m with
  | nil => simp [memSet, memGet]
  | cons e m ih =>
    unfold memSet
    split
    · simp [memGet]
    · split
      · simp [memGet]
      · rename_i h; simp [memGet, h, ih]

/-- A write leaves every other index alone. -/
theorem memGet_memSet_other {i j : Nat} (h : j ≠ i) (v : BitVec w) (m : Mem w) :
    memGet (memSet i v m) j = memGet m j := by
  have h' : i ≠ j := fun e => h e.symm
  induction m with
  | nil => simp [memSet, memGet, h']
  | cons e m ih =>
    unfold memSet
    split
    · simp [memGet, h']
    · split
      · rename_i h1 h2; subst h2; simp [memGet, h']
      · simp [memGet, ih]

theorem memGet_memSet (i j : Nat) (v : BitVec w) (m : Mem w) :
    memGet (memSet i v m) j = if j = i then some v else memGet m j := by
  by_cases h : j = i
  · subst h; simp
  · simp [h, memGet_memSet_other h]

theorem memGet_run (i k : Nat) (v : BitVec w) (m : Mem w) (j : Nat) :
    memGet ((List.range' i k).map (fun a => (a, v)) ++ m) j = if i ≤ j ∧ j < i + k then some v else memGet m j := by
  induction k generalizing i with
  | zero =>
    rw [if_neg (by omega)]
    rfl
  | succ k ih =>
    rw [List.range'_succ, List.map_cons, List.cons_append, memGet_cons, ih]
    by_cases h : i = j
    · subst h; simp
    · rw [if_neg h]
      exact if_congr (by omega) rfl rfl

theorem memGet_filter (p : Nat → Bool) (m : Mem w) (j : Nat) (h : p j = true) :
    memGet (m.filter (fun e => p e.1)) j = memGet m j := by
  induction m with
  | nil => rfl
  | cons e m ih =>
    rw [List.filter_cons]
    by_cases he : e.1 = j
    · rw [if_pos (by rw [he]; exact h), memGet_cons, memGet_cons, if_pos he, if_pos he]
    · split
      · rw [memGet_cons, memGet_cons, if_neg he, if_neg he, ih]
      · rw [memGet_cons, if_neg he, ih]

/-- A read after a run of writes: the value inside the run, and outside it what was there (20_memory.md R62). -/
theorem memGet_memFill (i k : Nat) (v : BitVec w) (m : Mem w) (hm : (m.map Prod.fst).Pairwise (· < ·)) (j : Nat) :
    memGet (memFill i k v m) j = if i ≤ j ∧ j < i + k then some v else memGet m j := by
  induction m with
  | nil =>
    have := memGet_run i k v ([] : Mem w) j
    rw [List.append_nil] at this
    exact this
  | cons e m ih =>
    have hm' : (m.map Prod.fst).Pairwise (· < ·) := by simp at hm; simpa using hm.2
    have hlt : ∀ x ∈ m, e.1 < x.1 := by
      simp at hm; intro x hx; exact hm.1 x.1 x.2 hx
    unfold memFill
    split
    · rename_i h
      rw [memGet_cons, ih hm', memGet_cons]
      by_cases he : e.1 = j
      · have : ¬(i ≤ j ∧ j < i + k) := by omega
        simp [he, this]
      · simp [he]
    · rename_i h
      rw [memGet_run]
      by_cases hj : i ≤ j ∧ j < i + k
      · simp [hj]
      · simp only [hj, if_false]
        by_cases hj2 : i + k ≤ j
        · exact memGet_filter (fun a => decide (i + k ≤ a)) (e :: m) j (by simpa using hj2)
        · have hnone : ∀ l : Mem w, (∀ x ∈ l, x.1 ≠ j) → memGet l j = none := by
            intro l
            induction l with
            | nil => simp
            | cons y l ihl =>
              intro hl
              have h1 := hl y (by simp)
              have h2 := ihl (fun x hx => hl x (by simp [hx]))
              simp [memGet, h1, h2]
          rw [hnone (e :: m), hnone]
          · intro x hx
            simp at hx
            omega
          · intro x hx
            simp at hx
            rcases hx with rfl | hx
            · omega
            · have := hlt x hx; omega

theorem memFill_one (i : Nat) (v : BitVec w) (m : Mem w) (hm : (m.map Prod.fst).Pairwise (· < ·)) :
    ∀ j, memGet (memFill i 1 v m) j = memGet (memSet i v m) j := by
  intro j
  rw [memGet_memFill i 1 v m hm, memGet_memSet]
  by_cases h : j = i
  · subst h; simp
  · rw [if_neg (by omega), if_neg h]

/-! The canonical form. -/

theorem mem_memSet {e : Nat × BitVec w} {i : Nat} {v : BitVec w} {m : Mem w} (h : e ∈ memSet i v m) :
    e = (i, v) ∨ e ∈ m := by
  induction m with
  | nil => simp [memSet] at h; exact .inl h
  | cons y m ih =>
    unfold memSet at h
    split at h
    · simpa using h
    · split at h
      · simp at h; rcases h with h | h
        · exact .inl h
        · exact .inr (by simp [h])
      · simp at h; rcases h with h | h
        · exact .inr (by simp [h])
        · rcases ih h with h | h
          · exact .inl h
          · exact .inr (by simp [h])

/-- A write keeps the indices rising. -/
theorem memSet_sorted (i : Nat) (v : BitVec w) (m : Mem w) (hm : (m.map Prod.fst).Pairwise (· < ·)) :
    ((memSet i v m).map Prod.fst).Pairwise (· < ·) := by
  induction m with
  | nil => simp [memSet]
  | cons e m ih =>
    have hm' : (m.map Prod.fst).Pairwise (· < ·) := by simp at hm; simpa using hm.2
    have hlt : ∀ x ∈ m, e.1 < x.1 := by simp at hm; intro x hx; exact hm.1 x.1 x.2 hx
    unfold memSet
    split
    · rename_i h
      rw [List.map_cons, List.pairwise_cons]
      refine ⟨?_, hm⟩
      intro a ha
      simp at ha
      rcases ha with rfl | ⟨b, hb⟩
      · exact h
      · have := hlt _ hb; simp at this; simp; omega
    · split
      · rename_i h1 h2
        rw [List.map_cons, List.pairwise_cons]
        refine ⟨?_, hm'⟩
        intro a ha
        simp at ha
        obtain ⟨b, hb⟩ := ha
        have := hlt _ hb; simp at this; simp; omega
      · rename_i h1 h2
        rw [List.map_cons, List.pairwise_cons]
        refine ⟨?_, ih hm'⟩
        intro a ha
        simp only [List.mem_map] at ha
        obtain ⟨x, hx, rfl⟩ := ha
        rcases mem_memSet hx with rfl | hx
        · simp; omega
        · exact hlt x hx

theorem mem_memFill {e : Nat × BitVec w} {i k : Nat} {v : BitVec w} {m : Mem w} (h : e ∈ memFill i k v m) :
    (i ≤ e.1 ∧ e.1 < i + k) ∨ e ∈ m := by
  induction m with
  | nil =>
    simp [memFill] at h
    obtain ⟨a, ha, rfl⟩ := h
    exact .inl ha
  | cons y m ih =>
    unfold memFill at h
    split at h
    · simp at h
      rcases h with h | h
      · exact .inr (by simp [h])
      · rcases ih h with h | h
        · exact .inl h
        · exact .inr (by simp [h])
    · rw [List.mem_append] at h
      rcases h with h | h
      · simp at h
        obtain ⟨a, ha, rfl⟩ := h
        exact .inl ha
      · exact .inr (List.mem_of_mem_filter h)

/-- A run of writes keeps the indices rising. -/
theorem memFill_sorted (i k : Nat) (v : BitVec w) (m : Mem w) (hm : (m.map Prod.fst).Pairwise (· < ·)) :
    ((memFill i k v m).map Prod.fst).Pairwise (· < ·) := by
  have hrun : ((List.range' i k).map (fun a => (a, v))).map Prod.fst = List.range' i k := by
    rw [List.map_map]; exact List.map_id _
  induction m with
  | nil =>
    simp only [memFill]
    rw [hrun]
    exact List.pairwise_lt_range'
  | cons e m ih =>
    have hm' : (m.map Prod.fst).Pairwise (· < ·) := by simp at hm; simpa using hm.2
    have hlt : ∀ x ∈ m, e.1 < x.1 := by simp at hm; intro x hx; exact hm.1 x.1 x.2 hx
    unfold memFill
    split
    · rename_i h
      rw [List.map_cons, List.pairwise_cons]
      refine ⟨?_, ih hm'⟩
      intro a ha
      simp only [List.mem_map] at ha
      obtain ⟨x, hx, rfl⟩ := ha
      rcases mem_memFill hx with hx | hx
      · omega
      · exact hlt x hx
    · rw [List.map_append, List.pairwise_append, hrun]
      refine ⟨List.pairwise_lt_range', ?_, ?_⟩
      · exact (List.Pairwise.sublist (List.Sublist.map _ List.filter_sublist) hm)
      · intro a ha b hb
        simp only [List.mem_range'_1] at ha
        simp only [List.mem_map, List.mem_filter, decide_eq_true_eq] at hb
        obtain ⟨x, ⟨_, hx⟩, rfl⟩ := hb
        omega

theorem memSet_wf {depth i : Nat} {v : BitVec w} {m : Mem w} (hm : Mem.wf depth m) (hi : i < depth) :
    Mem.wf depth (memSet i v m) := by
  refine ⟨memSet_sorted i v m hm.1, ?_⟩
  intro e he
  rcases mem_memSet he with rfl | he
  · exact hi
  · exact hm.2 e he

theorem memFill_wf {depth i k : Nat} {v : BitVec w} {m : Mem w} (hm : Mem.wf depth m) (hi : i + k ≤ depth) :
    Mem.wf depth (memFill i k v m) := by
  refine ⟨memFill_sorted i k v m hm.1, ?_⟩
  intro e he
  rcases mem_memFill he with he | he
  · omega
  · exact hm.2 e he

theorem memOfList_fst (vs : List (BitVec w)) : (memOfList vs).map Prod.fst = List.range vs.length := by
  simp only [memOfList, List.map_map]
  apply List.ext_getElem
  · simp
  · intro i h1 h2; simp

theorem memOfList_wf (vs : List (BitVec w)) : Mem.wf vs.length (memOfList vs) := by
  refine ⟨by rw [memOfList_fst]; exact List.pairwise_lt_range, ?_⟩
  intro e he
  have : e.1 ∈ (memOfList vs).map Prod.fst := List.mem_map_of_mem he
  rw [memOfList_fst] at this
  simpa using this

theorem memGet_zipIdx (vs : List (BitVec w)) (k j : Nat) :
    memGet ((vs.zipIdx k).map (fun e => (e.2, e.1))) j = if k ≤ j then vs[j - k]? else none := by
  induction vs generalizing k with
  | nil => simp
  | cons v vs ih =>
    simp only [List.zipIdx_cons, List.map_cons, memGet_cons, ih]
    by_cases h : k = j
    · subst h; simp
    · by_cases h2 : k ≤ j
      · have h3 : k + 1 ≤ j := by omega
        have h4 : j - k = (j - (k + 1)) + 1 := by omega
        simp [h, h2, h3, h4]
      · have h3 : ¬ k + 1 ≤ j := by omega
        simp [h, h2, h3]

/-- What a memory written from index 0 on holds. -/
@[simp] theorem memGet_memOfList (vs : List (BitVec w)) (j : Nat) : memGet (memOfList vs) j = vs[j]? := by
  have := memGet_zipIdx vs 0 j
  simp only [Nat.zero_le, if_true, Nat.sub_zero] at this
  exact this

/-! The checked accessors. -/

theorem memRead_ok {name : Store} {depth i : Nat} {m : Mem w} {v : BitVec w} :
    memRead name depth m i = .ok v ↔ i < depth ∧ memGet m i = some v := by
  unfold memRead
  split
  · rename_i h
    split <;> simp_all
  · rename_i h; simp [h]

theorem memWrite_ok {name : Store} {depth i : Nat} {m m' : Mem w} {v : BitVec w} :
    memWrite name depth m i v = .ok m' ↔ i < depth ∧ m' = memSet i v m := by
  unfold memWrite
  split
  · rename_i h; simp [h, eq_comm]
  · rename_i h; simp [h]

theorem memWriteRun_ok {name : Store} {depth i k : Nat} {m m' : Mem w} {v : BitVec w} :
    memWriteRun name depth m i k v = .ok m' ↔ i + k ≤ depth ∧ m' = memFill i k v m := by
  unfold memWriteRun
  split
  · rename_i h; simp [h, eq_comm]
  · rename_i h; simp [h]

theorem fileRead_ok {α : Type} {n : Nat} {name : Store} {f : Vector α n} {i : Nat} {x : α} :
    fileRead name f i = .ok x ↔ f[i]? = some x := by
  unfold fileRead
  split
  · rename_i h; simp [h]
  · rename_i h; simp [h]

theorem fileWrite_ok {α : Type} {n : Nat} {name : Store} {f f' : Vector α n} {i : Nat} {x : α} :
    fileWrite name f i x = .ok f' ↔ ∃ h : i < n, f' = f.set i x h := by
  unfold fileWrite
  split
  · rename_i h; simp [h, eq_comm]
  · rename_i h; simp [h]

theorem moveToFront_ok {α : Type} {n : Nat} {name : Store} {f f' : Vector α n} {j : Nat} {x : α} :
    moveToFront name f j = .ok (x, f') ↔ ∃ h : j < n, x = f[j] ∧ f' = fileMoveToFront f j h := by
  unfold moveToFront
  split
  · rename_i h; simp [h, eq_comm]
  · rename_i h; simp [h]

/-- `MoveToFront` entry by entry (43_symbols.md R137). -/
theorem fileMoveToFront_getElem {α : Type} {n : Nat} (f : Vector α n) (j : Nat) (h : j < n) (k : Nat) (hk : k < n) :
    (fileMoveToFront f j h)[k] = if k = 0 then f[j] else if k ≤ j then f[k - 1] else f[k] := by
  unfold fileMoveToFront
  rcases k with _ | k
  · simp
  · simp [List.getElem_eraseIdx]
    by_cases h1 : k < j
    · simp [h1]
    · simp [h1]

theorem fileMoveToFront_zero {α : Type} {n : Nat} (f : Vector α n) (h : 0 < n) : fileMoveToFront f 0 h = f := by
  apply Vector.ext
  intro k hk
  rw [fileMoveToFront_getElem]
  rcases k with _ | k <;> simp

@[simp] theorem fileOf_getElem {α : Type} (n : Nat) (f : Nat → α) (k : Nat) (hk : k < n) : (fileOf n f)[k] = f k := by
  simp [fileOf]

@[simp] theorem fileOverlay_getElem {α : Type} {n : Nat} (xs : List α) (f : Vector α n) (k : Nat) (hk : k < n) :
    (fileOverlay xs f)[k] = if h : k < xs.length then xs[k] else f[k] := by
  unfold fileOverlay
  simp only [Vector.getElem_mk, List.getElem_toArray]
  by_cases h : k < xs.length
  · rw [List.getElem_append_left (by simp; omega)]
    simp [h]
  · rw [List.getElem_append_right (by simp; omega)]
    have h2 : min n xs.length = xs.length := by omega
    have h3 : xs.length + (k - xs.length) = k := by omega
    simp [h, h2, h3]

end Sys2Proof.Laws
end

