-- ==== Sys2Proof/Laws/State.lean ====
section
/-! SUPPORT. The named state updates, field by field: what each writes and what it leaves. All true by rfl. -/

namespace Sys2Proof.Laws

open Sys2Proof.Machine

/-! `raise` -/

@[simp] theorem raise_cfg (e : StreamError) (s : State) : (raise e s).cfg = s.cfg := rfl
@[simp] theorem raise_phase (e : StreamError) (s : State) : (raise e s).phase = .failed := rfl
@[simp] theorem raise_bsBuff (e : StreamError) (s : State) : (raise e s).bsBuff = s.bsBuff := rfl
@[simp] theorem raise_bsLive (e : StreamError) (s : State) : (raise e s).bsLive = s.bsLive := rfl
@[simp] theorem raise_inCount (e : StreamError) (s : State) : (raise e s).inCount = s.inCount := rfl
@[simp] theorem raise_blockSize100k (e : StreamError) (s : State) : (raise e s).blockSize100k = s.blockSize100k := rfl
@[simp] theorem raise_combinedCRC (e : StreamError) (s : State) : (raise e s).combinedCRC = s.combinedCRC := rfl
@[simp] theorem raise_storedCombinedCRC (e : StreamError) (s : State) : (raise e s).storedCombinedCRC = s.storedCombinedCRC := rfl
@[simp] theorem raise_blockCount (e : StreamError) (s : State) : (raise e s).blockCount = s.blockCount := rfl
@[simp] theorem raise_outCount (e : StreamError) (s : State) : (raise e s).outCount = s.outCount := rfl
@[simp] theorem raise_storedBlockCRC (e : StreamError) (s : State) : (raise e s).storedBlockCRC = s.storedBlockCRC := rfl
@[simp] theorem raise_randomised (e : StreamError) (s : State) : (raise e s).randomised = s.randomised := rfl
@[simp] theorem raise_origPtr (e : StreamError) (s : State) : (raise e s).origPtr = s.origPtr := rfl
@[simp] theorem raise_blockCRC (e : StreamError) (s : State) : (raise e s).blockCRC = s.blockCRC := rfl
@[simp] theorem raise_inUse16 (e : StreamError) (s : State) : (raise e s).inUse16 = s.inUse16 := rfl
@[simp] theorem raise_inUse (e : StreamError) (s : State) : (raise e s).inUse = s.inUse := rfl
@[simp] theorem raise_seqToUnseq (e : StreamError) (s : State) : (raise e s).seqToUnseq = s.seqToUnseq := rfl
@[simp] theorem raise_nInUse (e : StreamError) (s : State) : (raise e s).nInUse = s.nInUse := rfl
@[simp] theorem raise_alphaSize (e : StreamError) (s : State) : (raise e s).alphaSize = s.alphaSize := rfl
@[simp] theorem raise_nGroups (e : StreamError) (s : State) : (raise e s).nGroups = s.nGroups := rfl
@[simp] theorem raise_nSelectors (e : StreamError) (s : State) : (raise e s).nSelectors = s.nSelectors := rfl
@[simp] theorem raise_selPos (e : StreamError) (s : State) : (raise e s).selPos = s.selPos := rfl
@[simp] theorem raise_tables (e : StreamError) (s : State) : (raise e s).tables = s.tables := rfl
@[simp] theorem raise_mtfSym (e : StreamError) (s : State) : (raise e s).mtfSym = s.mtfSym := rfl
@[simp] theorem raise_groupNo (e : StreamError) (s : State) : (raise e s).groupNo = s.groupNo := rfl
@[simp] theorem raise_groupPos (e : StreamError) (s : State) : (raise e s).groupPos = s.groupPos := rfl
@[simp] theorem raise_curTable (e : StreamError) (s : State) : (raise e s).curTable = s.curTable := rfl
@[simp] theorem raise_runS (e : StreamError) (s : State) : (raise e s).runS = s.runS := rfl
@[simp] theorem raise_runN (e : StreamError) (s : State) : (raise e s).runN = s.runN := rfl
@[simp] theorem raise_nblock (e : StreamError) (s : State) : (raise e s).nblock = s.nblock := rfl
@[simp] theorem raise_tPos (e : StreamError) (s : State) : (raise e s).tPos = s.tPos := rfl
@[simp] theorem raise_i2 (e : StreamError) (s : State) : (raise e s).i2 = s.i2 := rfl
@[simp] theorem raise_rleCount (e : StreamError) (s : State) : (raise e s).rleCount = s.rleCount := rfl
@[simp] theorem raise_rlePrev (e : StreamError) (s : State) : (raise e s).rlePrev = s.rlePrev := rfl
@[simp] theorem raise_repLeft (e : StreamError) (s : State) : (raise e s).repLeft = s.repLeft := rfl
@[simp] theorem raise_rNToGo (e : StreamError) (s : State) : (raise e s).rNToGo = s.rNToGo := rfl
@[simp] theorem raise_rTPos (e : StreamError) (s : State) : (raise e s).rTPos = s.rTPos := rfl
@[simp] theorem raise_errCode (e : StreamError) (s : State) : (raise e s).errCode = errorCode e := rfl
@[simp] theorem raise_errReason (e : StreamError) (s : State) : (raise e s).errReason = errorReason e := rfl
@[simp] theorem raise_ll8 (e : StreamError) (s : State) : (raise e s).ll8 = s.ll8 := rfl
@[simp] theorem raise_tt (e : StreamError) (s : State) : (raise e s).tt = s.tt := rfl
@[simp] theorem raise_selectorMtf (e : StreamError) (s : State) : (raise e s).selectorMtf = s.selectorMtf := rfl
@[simp] theorem raise_selector (e : StreamError) (s : State) : (raise e s).selector = s.selector := rfl
@[simp] theorem raise_unzftab (e : StreamError) (s : State) : (raise e s).unzftab = s.unzftab := rfl
@[simp] theorem raise_cftab (e : StreamError) (s : State) : (raise e s).cftab = s.cftab := rfl
@[simp] theorem raise_part (e : StreamError) (s : State) : (raise e s).part = [] := rfl
@[simp] theorem raise_curr (e : StreamError) (s : State) : (raise e s).curr = s.curr := rfl
@[simp] theorem raise_mapRange (e : StreamError) (s : State) : (raise e s).mapRange = s.mapRange := rfl
@[simp] theorem raise_selIdx (e : StreamError) (s : State) : (raise e s).selIdx = s.selIdx := rfl
@[simp] theorem raise_tblIdx (e : StreamError) (s : State) : (raise e s).tblIdx = s.tblIdx := rfl
@[simp] theorem raise_symIdx (e : StreamError) (s : State) : (raise e s).symIdx = s.symIdx := rfl
@[simp] theorem raise_source (e : StreamError) (s : State) : (raise e s).source = s.source := rfl
@[simp] theorem raise_job (e : StreamError) (s : State) : (raise e s).job = s.job := rfl
@[simp] theorem raise_refusalMark (e : StreamError) (s : State) : (raise e s).refusalMark = s.refusalMark := rfl
@[simp] theorem raise_answers (e : StreamError) (s : State) : (raise e s).answers = s.answers := rfl
@[simp] theorem raise_port (e : StreamError) (s : State) : (raise e s).port = s.port := rfl
@[simp] theorem raise_handover (e : StreamError) (s : State) : (raise e s).handover = s.handover := rfl
@[simp] theorem raise_rbBuf (e : StreamError) (s : State) : (raise e s).rbBuf = s.rbBuf := rfl
@[simp] theorem raise_rbReturns (e : StreamError) (s : State) : (raise e s).rbReturns = s.rbReturns := rfl

/-! `leaveSession` -/

@[simp] theorem leaveSession_cfg (s : State) : (leaveSession s).cfg = s.cfg := rfl
@[simp] theorem leaveSession_phase (s : State) : (leaveSession s).phase = .closed := rfl
@[simp] theorem leaveSession_bsBuff (s : State) : (leaveSession s).bsBuff = s.bsBuff := rfl
@[simp] theorem leaveSession_bsLive (s : State) : (leaveSession s).bsLive = s.bsLive := rfl
@[simp] theorem leaveSession_inCount (s : State) : (leaveSession s).inCount = s.inCount := rfl
@[simp] theorem leaveSession_blockSize100k (s : State) : (leaveSession s).blockSize100k = s.blockSize100k := rfl
@[simp] theorem leaveSession_combinedCRC (s : State) : (leaveSession s).combinedCRC = s.combinedCRC := rfl
@[simp] theorem leaveSession_storedCombinedCRC (s : State) : (leaveSession s).storedCombinedCRC = s.storedCombinedCRC := rfl
@[simp] theorem leaveSession_blockCount (s : State) : (leaveSession s).blockCount = s.blockCount := rfl
@[simp] theorem leaveSession_outCount (s : State) : (leaveSession s).outCount = s.outCount := rfl
@[simp] theorem leaveSession_storedBlockCRC (s : State) : (leaveSession s).storedBlockCRC = s.storedBlockCRC := rfl
@[simp] theorem leaveSession_randomised (s : State) : (leaveSession s).randomised = s.randomised := rfl
@[simp] theorem leaveSession_origPtr (s : State) : (leaveSession s).origPtr = s.origPtr := rfl
@[simp] theorem leaveSession_blockCRC (s : State) : (leaveSession s).blockCRC = s.blockCRC := rfl
@[simp] theorem leaveSession_inUse16 (s : State) : (leaveSession s).inUse16 = s.inUse16 := rfl
@[simp] theorem leaveSession_inUse (s : State) : (leaveSession s).inUse = s.inUse := rfl
@[simp] theorem leaveSession_seqToUnseq (s : State) : (leaveSession s).seqToUnseq = s.seqToUnseq := rfl
@[simp] theorem leaveSession_nInUse (s : State) : (leaveSession s).nInUse = s.nInUse := rfl
@[simp] theorem leaveSession_alphaSize (s : State) : (leaveSession s).alphaSize = s.alphaSize := rfl
@[simp] theorem leaveSession_nGroups (s : State) : (leaveSession s).nGroups = s.nGroups := rfl
@[simp] theorem leaveSession_nSelectors (s : State) : (leaveSession s).nSelectors = s.nSelectors := rfl
@[simp] theorem leaveSession_selPos (s : State) : (leaveSession s).selPos = s.selPos := rfl
@[simp] theorem leaveSession_tables (s : State) : (leaveSession s).tables = s.tables := rfl
@[simp] theorem leaveSession_mtfSym (s : State) : (leaveSession s).mtfSym = s.mtfSym := rfl
@[simp] theorem leaveSession_groupNo (s : State) : (leaveSession s).groupNo = s.groupNo := rfl
@[simp] theorem leaveSession_groupPos (s : State) : (leaveSession s).groupPos = s.groupPos := rfl
@[simp] theorem leaveSession_curTable (s : State) : (leaveSession s).curTable = s.curTable := rfl
@[simp] theorem leaveSession_runS (s : State) : (leaveSession s).runS = s.runS := rfl
@[simp] theorem leaveSession_runN (s : State) : (leaveSession s).runN = s.runN := rfl
@[simp] theorem leaveSession_nblock (s : State) : (leaveSession s).nblock = s.nblock := rfl
@[simp] theorem leaveSession_tPos (s : State) : (leaveSession s).tPos = s.tPos := rfl
@[simp] theorem leaveSession_i2 (s : State) : (leaveSession s).i2 = s.i2 := rfl
@[simp] theorem leaveSession_rleCount (s : State) : (leaveSession s).rleCount = s.rleCount := rfl
@[simp] theorem leaveSession_rlePrev (s : State) : (leaveSession s).rlePrev = s.rlePrev := rfl
@[simp] theorem leaveSession_repLeft (s : State) : (leaveSession s).repLeft = s.repLeft := rfl
@[simp] theorem leaveSession_rNToGo (s : State) : (leaveSession s).rNToGo = s.rNToGo := rfl
@[simp] theorem leaveSession_rTPos (s : State) : (leaveSession s).rTPos = s.rTPos := rfl
@[simp] theorem leaveSession_errCode (s : State) : (leaveSession s).errCode = s.errCode := rfl
@[simp] theorem leaveSession_errReason (s : State) : (leaveSession s).errReason = s.errReason := rfl
@[simp] theorem leaveSession_ll8 (s : State) : (leaveSession s).ll8 = s.ll8 := rfl
@[simp] theorem leaveSession_tt (s : State) : (leaveSession s).tt = s.tt := rfl
@[simp] theorem leaveSession_selectorMtf (s : State) : (leaveSession s).selectorMtf = s.selectorMtf := rfl
@[simp] theorem leaveSession_selector (s : State) : (leaveSession s).selector = s.selector := rfl
@[simp] theorem leaveSession_unzftab (s : State) : (leaveSession s).unzftab = s.unzftab := rfl
@[simp] theorem leaveSession_cftab (s : State) : (leaveSession s).cftab = s.cftab := rfl
@[simp] theorem leaveSession_part (s : State) : (leaveSession s).part = s.part := rfl
@[simp] theorem leaveSession_curr (s : State) : (leaveSession s).curr = s.curr := rfl
@[simp] theorem leaveSession_mapRange (s : State) : (leaveSession s).mapRange = s.mapRange := rfl
@[simp] theorem leaveSession_selIdx (s : State) : (leaveSession s).selIdx = s.selIdx := rfl
@[simp] theorem leaveSession_tblIdx (s : State) : (leaveSession s).tblIdx = s.tblIdx := rfl
@[simp] theorem leaveSession_symIdx (s : State) : (leaveSession s).symIdx = s.symIdx := rfl
@[simp] theorem leaveSession_source (s : State) : (leaveSession s).source = none := rfl
@[simp] theorem leaveSession_job (s : State) : (leaveSession s).job = s.job := rfl
@[simp] theorem leaveSession_refusalMark (s : State) : (leaveSession s).refusalMark = s.refusalMark := rfl
@[simp] theorem leaveSession_answers (s : State) : (leaveSession s).answers = s.answers := rfl
@[simp] theorem leaveSession_port (s : State) : (leaveSession s).port = s.port := rfl
@[simp] theorem leaveSession_handover (s : State) : (leaveSession s).handover = s.handover := rfl
@[simp] theorem leaveSession_rbBuf (s : State) : (leaveSession s).rbBuf = s.rbBuf := rfl
@[simp] theorem leaveSession_rbReturns (s : State) : (leaveSession s).rbReturns = s.rbReturns := rfl

/-! `answer` -/

@[simp] theorem answer_cfg (a : Answer) (s : State) : (answer a s).cfg = s.cfg := rfl
@[simp] theorem answer_phase (a : Answer) (s : State) : (answer a s).phase = s.phase := rfl
@[simp] theorem answer_bsBuff (a : Answer) (s : State) : (answer a s).bsBuff = s.bsBuff := rfl
@[simp] theorem answer_bsLive (a : Answer) (s : State) : (answer a s).bsLive = s.bsLive := rfl
@[simp] theorem answer_inCount (a : Answer) (s : State) : (answer a s).inCount = s.inCount := rfl
@[simp] theorem answer_blockSize100k (a : Answer) (s : State) : (answer a s).blockSize100k = s.blockSize100k := rfl
@[simp] theorem answer_combinedCRC (a : Answer) (s : State) : (answer a s).combinedCRC = s.combinedCRC := rfl
@[simp] theorem answer_storedCombinedCRC (a : Answer) (s : State) : (answer a s).storedCombinedCRC = s.storedCombinedCRC := rfl
@[simp] theorem answer_blockCount (a : Answer) (s : State) : (answer a s).blockCount = s.blockCount := rfl
@[simp] theorem answer_outCount (a : Answer) (s : State) : (answer a s).outCount = s.outCount := rfl
@[simp] theorem answer_storedBlockCRC (a : Answer) (s : State) : (answer a s).storedBlockCRC = s.storedBlockCRC := rfl
@[simp] theorem answer_randomised (a : Answer) (s : State) : (answer a s).randomised = s.randomised := rfl
@[simp] theorem answer_origPtr (a : Answer) (s : State) : (answer a s).origPtr = s.origPtr := rfl
@[simp] theorem answer_blockCRC (a : Answer) (s : State) : (answer a s).blockCRC = s.blockCRC := rfl
@[simp] theorem answer_inUse16 (a : Answer) (s : State) : (answer a s).inUse16 = s.inUse16 := rfl
@[simp] theorem answer_inUse (a : Answer) (s : State) : (answer a s).inUse = s.inUse := rfl
@[simp] theorem answer_seqToUnseq (a : Answer) (s : State) : (answer a s).seqToUnseq = s.seqToUnseq := rfl
@[simp] theorem answer_nInUse (a : Answer) (s : State) : (answer a s).nInUse = s.nInUse := rfl
@[simp] theorem answer_alphaSize (a : Answer) (s : State) : (answer a s).alphaSize = s.alphaSize := rfl
@[simp] theorem answer_nGroups (a : Answer) (s : State) : (answer a s).nGroups = s.nGroups := rfl
@[simp] theorem answer_nSelectors (a : Answer) (s : State) : (answer a s).nSelectors = s.nSelectors := rfl
@[simp] theorem answer_selPos (a : Answer) (s : State) : (answer a s).selPos = s.selPos := rfl
@[simp] theorem answer_tables (a : Answer) (s : State) : (answer a s).tables = s.tables := rfl
@[simp] theorem answer_mtfSym (a : Answer) (s : State) : (answer a s).mtfSym = s.mtfSym := rfl
@[simp] theorem answer_groupNo (a : Answer) (s : State) : (answer a s).groupNo = s.groupNo := rfl
@[simp] theorem answer_groupPos (a : Answer) (s : State) : (answer a s).groupPos = s.groupPos := rfl
@[simp] theorem answer_curTable (a : Answer) (s : State) : (answer a s).curTable = s.curTable := rfl
@[simp] theorem answer_runS (a : Answer) (s : State) : (answer a s).runS = s.runS := rfl
@[simp] theorem answer_runN (a : Answer) (s : State) : (answer a s).runN = s.runN := rfl
@[simp] theorem answer_nblock (a : Answer) (s : State) : (answer a s).nblock = s.nblock := rfl
@[simp] theorem answer_tPos (a : Answer) (s : State) : (answer a s).tPos = s.tPos := rfl
@[simp] theorem answer_i2 (a : Answer) (s : State) : (answer a s).i2 = s.i2 := rfl
@[simp] theorem answer_rleCount (a : Answer) (s : State) : (answer a s).rleCount = s.rleCount := rfl
@[simp] theorem answer_rlePrev (a : Answer) (s : State) : (answer a s).rlePrev = s.rlePrev := rfl
@[simp] theorem answer_repLeft (a : Answer) (s : State) : (answer a s).repLeft = s.repLeft := rfl
@[simp] theorem answer_rNToGo (a : Answer) (s : State) : (answer a s).rNToGo = s.rNToGo := rfl
@[simp] theorem answer_rTPos (a : Answer) (s : State) : (answer a s).rTPos = s.rTPos := rfl
@[simp] theorem answer_errCode (a : Answer) (s : State) : (answer a s).errCode = s.errCode := rfl
@[simp] theorem answer_errReason (a : Answer) (s : State) : (answer a s).errReason = s.errReason := rfl
@[simp] theorem answer_ll8 (a : Answer) (s : State) : (answer a s).ll8 = s.ll8 := rfl
@[simp] theorem answer_tt (a : Answer) (s : State) : (answer a s).tt = s.tt := rfl
@[simp] theorem answer_selectorMtf (a : Answer) (s : State) : (answer a s).selectorMtf = s.selectorMtf := rfl
@[simp] theorem answer_selector (a : Answer) (s : State) : (answer a s).selector = s.selector := rfl
@[simp] theorem answer_unzftab (a : Answer) (s : State) : (answer a s).unzftab = s.unzftab := rfl
@[simp] theorem answer_cftab (a : Answer) (s : State) : (answer a s).cftab = s.cftab := rfl
@[simp] theorem answer_part (a : Answer) (s : State) : (answer a s).part = s.part := rfl
@[simp] theorem answer_curr (a : Answer) (s : State) : (answer a s).curr = s.curr := rfl
@[simp] theorem answer_mapRange (a : Answer) (s : State) : (answer a s).mapRange = s.mapRange := rfl
@[simp] theorem answer_selIdx (a : Answer) (s : State) : (answer a s).selIdx = s.selIdx := rfl
@[simp] theorem answer_tblIdx (a : Answer) (s : State) : (answer a s).tblIdx = s.tblIdx := rfl
@[simp] theorem answer_symIdx (a : Answer) (s : State) : (answer a s).symIdx = s.symIdx := rfl
@[simp] theorem answer_source (a : Answer) (s : State) : (answer a s).source = s.source := rfl
@[simp] theorem answer_job (a : Answer) (s : State) : (answer a s).job = s.job := rfl
@[simp] theorem answer_refusalMark (a : Answer) (s : State) : (answer a s).refusalMark = s.refusalMark := rfl
@[simp] theorem answer_answers (a : Answer) (s : State) : (answer a s).answers = s.answers ++ [a] := rfl
@[simp] theorem answer_port (a : Answer) (s : State) : (answer a s).port = s.port := rfl
@[simp] theorem answer_handover (a : Answer) (s : State) : (answer a s).handover = s.handover := rfl
@[simp] theorem answer_rbBuf (a : Answer) (s : State) : (answer a s).rbBuf = s.rbBuf := rfl
@[simp] theorem answer_rbReturns (a : Answer) (s : State) : (answer a s).rbReturns = s.rbReturns := rfl

/-! `returnReadBytes` -/

@[simp] theorem returnReadBytes_cfg (r : ReadBytesReturn) (s : State) : (returnReadBytes r s).cfg = s.cfg := rfl
@[simp] theorem returnReadBytes_phase (r : ReadBytesReturn) (s : State) : (returnReadBytes r s).phase = s.phase := rfl
@[simp] theorem returnReadBytes_bsBuff (r : ReadBytesReturn) (s : State) : (returnReadBytes r s).bsBuff = s.bsBuff := rfl
@[simp] theorem returnReadBytes_bsLive (r : ReadBytesReturn) (s : State) : (returnReadBytes r s).bsLive = s.bsLive := rfl
@[simp] theorem returnReadBytes_inCount (r : ReadBytesReturn) (s : State) : (returnReadBytes r s).inCount = s.inCount := rfl
@[simp] theorem returnReadBytes_blockSize100k (r : ReadBytesReturn) (s : State) : (returnReadBytes r s).blockSize100k = s.blockSize100k := rfl
@[simp] theorem returnReadBytes_combinedCRC (r : ReadBytesReturn) (s : State) : (returnReadBytes r s).combinedCRC = s.combinedCRC := rfl
@[simp] theorem returnReadBytes_storedCombinedCRC (r : ReadBytesReturn) (s : State) : (returnReadBytes r s).storedCombinedCRC = s.storedCombinedCRC := rfl
@[simp] theorem returnReadBytes_blockCount (r : ReadBytesReturn) (s : State) : (returnReadBytes r s).blockCount = s.blockCount := rfl
@[simp] theorem returnReadBytes_outCount (r : ReadBytesReturn) (s : State) : (returnReadBytes r s).outCount = s.outCount := rfl
@[simp] theorem returnReadBytes_storedBlockCRC (r : ReadBytesReturn) (s : State) : (returnReadBytes r s).storedBlockCRC = s.storedBlockCRC := rfl
@[simp] theorem returnReadBytes_randomised (r : ReadBytesReturn) (s : State) : (returnReadBytes r s).randomised = s.randomised := rfl
@[simp] theorem returnReadBytes_origPtr (r : ReadBytesReturn) (s : State) : (returnReadBytes r s).origPtr = s.origPtr := rfl
@[simp] theorem returnReadBytes_blockCRC (r : ReadBytesReturn) (s : State) : (returnReadBytes r s).blockCRC = s.blockCRC := rfl
@[simp] theorem returnReadBytes_inUse16 (r : ReadBytesReturn) (s : State) : (returnReadBytes r s).inUse16 = s.inUse16 := rfl
@[simp] theorem returnReadBytes_inUse (r : ReadBytesReturn) (s : State) : (returnReadBytes r s).inUse = s.inUse := rfl
@[simp] theorem returnReadBytes_seqToUnseq (r : ReadBytesReturn) (s : State) : (returnReadBytes r s).seqToUnseq = s.seqToUnseq := rfl
@[simp] theorem returnReadBytes_nInUse (r : ReadBytesReturn) (s : State) : (returnReadBytes r s).nInUse = s.nInUse := rfl
@[simp] theorem returnReadBytes_alphaSize (r : ReadBytesReturn) (s : State) : (returnReadBytes r s).alphaSize = s.alphaSize := rfl
@[simp] theorem returnReadBytes_nGroups (r : ReadBytesReturn) (s : State) : (returnReadBytes r s).nGroups = s.nGroups := rfl
@[simp] theorem returnReadBytes_nSelectors (r : ReadBytesReturn) (s : State) : (returnReadBytes r s).nSelectors = s.nSelectors := rfl
@[simp] theorem returnReadBytes_selPos (r : ReadBytesReturn) (s : State) : (returnReadBytes r s).selPos = s.selPos := rfl
@[simp] theorem returnReadBytes_tables (r : ReadBytesReturn) (s : State) : (returnReadBytes r s).tables = s.tables := rfl
@[simp] theorem returnReadBytes_mtfSym (r : ReadBytesReturn) (s : State) : (returnReadBytes r s).mtfSym = s.mtfSym := rfl
@[simp] theorem returnReadBytes_groupNo (r : ReadBytesReturn) (s : State) : (returnReadBytes r s).groupNo = s.groupNo := rfl
@[simp] theorem returnReadBytes_groupPos (r : ReadBytesReturn) (s : State) : (returnReadBytes r s).groupPos = s.groupPos := rfl
@[simp] theorem returnReadBytes_curTable (r : ReadBytesReturn) (s : State) : (returnReadBytes r s).curTable = s.curTable := rfl
@[simp] theorem returnReadBytes_runS (r : ReadBytesReturn) (s : State) : (returnReadBytes r s).runS = s.runS := rfl
@[simp] theorem returnReadBytes_runN (r : ReadBytesReturn) (s : State) : (returnReadBytes r s).runN = s.runN := rfl
@[simp] theorem returnReadBytes_nblock (r : ReadBytesReturn) (s : State) : (returnReadBytes r s).nblock = s.nblock := rfl
@[simp] theorem returnReadBytes_tPos (r : ReadBytesReturn) (s : State) : (returnReadBytes r s).tPos = s.tPos := rfl
@[simp] theorem returnReadBytes_i2 (r : ReadBytesReturn) (s : State) : (returnReadBytes r s).i2 = s.i2 := rfl
@[simp] theorem returnReadBytes_rleCount (r : ReadBytesReturn) (s : State) : (returnReadBytes r s).rleCount = s.rleCount := rfl
@[simp] theorem returnReadBytes_rlePrev (r : ReadBytesReturn) (s : State) : (returnReadBytes r s).rlePrev = s.rlePrev := rfl
@[simp] theorem returnReadBytes_repLeft (r : ReadBytesReturn) (s : State) : (returnReadBytes r s).repLeft = s.repLeft := rfl
@[simp] theorem returnReadBytes_rNToGo (r : ReadBytesReturn) (s : State) : (returnReadBytes r s).rNToGo = s.rNToGo := rfl
@[simp] theorem returnReadBytes_rTPos (r : ReadBytesReturn) (s : State) : (returnReadBytes r s).rTPos = s.rTPos := rfl
@[simp] theorem returnReadBytes_errCode (r : ReadBytesReturn) (s : State) : (returnReadBytes r s).errCode = s.errCode := rfl
@[simp] theorem returnReadBytes_errReason (r : ReadBytesReturn) (s : State) : (returnReadBytes r s).errReason = s.errReason := rfl
@[simp] theorem returnReadBytes_ll8 (r : ReadBytesReturn) (s : State) : (returnReadBytes r s).ll8 = s.ll8 := rfl
@[simp] theorem returnReadBytes_tt (r : ReadBytesReturn) (s : State) : (returnReadBytes r s).tt = s.tt := rfl
@[simp] theorem returnReadBytes_selectorMtf (r : ReadBytesReturn) (s : State) : (returnReadBytes r s).selectorMtf = s.selectorMtf := rfl
@[simp] theorem returnReadBytes_selector (r : ReadBytesReturn) (s : State) : (returnReadBytes r s).selector = s.selector := rfl
@[simp] theorem returnReadBytes_unzftab (r : ReadBytesReturn) (s : State) : (returnReadBytes r s).unzftab = s.unzftab := rfl
@[simp] theorem returnReadBytes_cftab (r : ReadBytesReturn) (s : State) : (returnReadBytes r s).cftab = s.cftab := rfl
@[simp] theorem returnReadBytes_part (r : ReadBytesReturn) (s : State) : (returnReadBytes r s).part = s.part := rfl
@[simp] theorem returnReadBytes_curr (r : ReadBytesReturn) (s : State) : (returnReadBytes r s).curr = s.curr := rfl
@[simp] theorem returnReadBytes_mapRange (r : ReadBytesReturn) (s : State) : (returnReadBytes r s).mapRange = s.mapRange := rfl
@[simp] theorem returnReadBytes_selIdx (r : ReadBytesReturn) (s : State) : (returnReadBytes r s).selIdx = s.selIdx := rfl
@[simp] theorem returnReadBytes_tblIdx (r : ReadBytesReturn) (s : State) : (returnReadBytes r s).tblIdx = s.tblIdx := rfl
@[simp] theorem returnReadBytes_symIdx (r : ReadBytesReturn) (s : State) : (returnReadBytes r s).symIdx = s.symIdx := rfl
@[simp] theorem returnReadBytes_source (r : ReadBytesReturn) (s : State) : (returnReadBytes r s).source = s.source := rfl
@[simp] theorem returnReadBytes_job (r : ReadBytesReturn) (s : State) : (returnReadBytes r s).job = none := rfl
@[simp] theorem returnReadBytes_refusalMark (r : ReadBytesReturn) (s : State) : (returnReadBytes r s).refusalMark = s.refusalMark := rfl
@[simp] theorem returnReadBytes_answers (r : ReadBytesReturn) (s : State) : (returnReadBytes r s).answers = s.answers := rfl
@[simp] theorem returnReadBytes_port (r : ReadBytesReturn) (s : State) : (returnReadBytes r s).port = s.port := rfl
@[simp] theorem returnReadBytes_handover (r : ReadBytesReturn) (s : State) : (returnReadBytes r s).handover = s.handover := rfl
@[simp] theorem returnReadBytes_rbBuf (r : ReadBytesReturn) (s : State) : (returnReadBytes r s).rbBuf = s.rbBuf := rfl
@[simp] theorem returnReadBytes_rbReturns (r : ReadBytesReturn) (s : State) : (returnReadBytes r s).rbReturns = s.rbReturns ++ [r] := rfl

/-! `absorbByte` -/

@[simp] theorem absorbByte_cfg (b : BitVec 8) (s : State) : (absorbByte b s).cfg = s.cfg := rfl
@[simp] theorem absorbByte_phase (b : BitVec 8) (s : State) : (absorbByte b s).phase = s.phase := rfl
@[simp] theorem absorbByte_bsBuff (b : BitVec 8) (s : State) : (absorbByte b s).bsBuff = (s.bsBuff <<< 8) ||| b.zeroExtend 32 := rfl
@[simp] theorem absorbByte_bsLive (b : BitVec 8) (s : State) : (absorbByte b s).bsLive = s.bsLive + 8#5 := rfl
@[simp] theorem absorbByte_inCount (b : BitVec 8) (s : State) : (absorbByte b s).inCount = s.inCount + 1 := rfl
@[simp] theorem absorbByte_blockSize100k (b : BitVec 8) (s : State) : (absorbByte b s).blockSize100k = s.blockSize100k := rfl
@[simp] theorem absorbByte_combinedCRC (b : BitVec 8) (s : State) : (absorbByte b s).combinedCRC = s.combinedCRC := rfl
@[simp] theorem absorbByte_storedCombinedCRC (b : BitVec 8) (s : State) : (absorbByte b s).storedCombinedCRC = s.storedCombinedCRC := rfl
@[simp] theorem absorbByte_blockCount (b : BitVec 8) (s : State) : (absorbByte b s).blockCount = s.blockCount := rfl
@[simp] theorem absorbByte_outCount (b : BitVec 8) (s : State) : (absorbByte b s).outCount = s.outCount := rfl
@[simp] theorem absorbByte_storedBlockCRC (b : BitVec 8) (s : State) : (absorbByte b s).storedBlockCRC = s.storedBlockCRC := rfl
@[simp] theorem absorbByte_randomised (b : BitVec 8) (s : State) : (absorbByte b s).randomised = s.randomised := rfl
@[simp] theorem absorbByte_origPtr (b : BitVec 8) (s : State) : (absorbByte b s).origPtr = s.origPtr := rfl
@[simp] theorem absorbByte_blockCRC (b : BitVec 8) (s : State) : (absorbByte b s).blockCRC = s.blockCRC := rfl
@[simp] theorem absorbByte_inUse16 (b : BitVec 8) (s : State) : (absorbByte b s).inUse16 = s.inUse16 := rfl
@[simp] theorem absorbByte_inUse (b : BitVec 8) (s : State) : (absorbByte b s).inUse = s.inUse := rfl
@[simp] theorem absorbByte_seqToUnseq (b : BitVec 8) (s : State) : (absorbByte b s).seqToUnseq = s.seqToUnseq := rfl
@[simp] theorem absorbByte_nInUse (b : BitVec 8) (s : State) : (absorbByte b s).nInUse = s.nInUse := rfl
@[simp] theorem absorbByte_alphaSize (b : BitVec 8) (s : State) : (absorbByte b s).alphaSize = s.alphaSize := rfl
@[simp] theorem absorbByte_nGroups (b : BitVec 8) (s : State) : (absorbByte b s).nGroups = s.nGroups := rfl
@[simp] theorem absorbByte_nSelectors (b : BitVec 8) (s : State) : (absorbByte b s).nSelectors = s.nSelectors := rfl
@[simp] theorem absorbByte_selPos (b : BitVec 8) (s : State) : (absorbByte b s).selPos = s.selPos := rfl
@[simp] theorem absorbByte_tables (b : BitVec 8) (s : State) : (absorbByte b s).tables = s.tables := rfl
@[simp] theorem absorbByte_mtfSym (b : BitVec 8) (s : State) : (absorbByte b s).mtfSym = s.mtfSym := rfl
@[simp] theorem absorbByte_groupNo (b : BitVec 8) (s : State) : (absorbByte b s).groupNo = s.groupNo := rfl
@[simp] theorem absorbByte_groupPos (b : BitVec 8) (s : State) : (absorbByte b s).groupPos = s.groupPos := rfl
@[simp] theorem absorbByte_curTable (b : BitVec 8) (s : State) : (absorbByte b s).curTable = s.curTable := rfl
@[simp] theorem absorbByte_runS (b : BitVec 8) (s : State) : (absorbByte b s).runS = s.runS := rfl
@[simp] theorem absorbByte_runN (b : BitVec 8) (s : State) : (absorbByte b s).runN = s.runN := rfl
@[simp] theorem absorbByte_nblock (b : BitVec 8) (s : State) : (absorbByte b s).nblock = s.nblock := rfl
@[simp] theorem absorbByte_tPos (b : BitVec 8) (s : State) : (absorbByte b s).tPos = s.tPos := rfl
@[simp] theorem absorbByte_i2 (b : BitVec 8) (s : State) : (absorbByte b s).i2 = s.i2 := rfl
@[simp] theorem absorbByte_rleCount (b : BitVec 8) (s : State) : (absorbByte b s).rleCount = s.rleCount := rfl
@[simp] theorem absorbByte_rlePrev (b : BitVec 8) (s : State) : (absorbByte b s).rlePrev = s.rlePrev := rfl
@[simp] theorem absorbByte_repLeft (b : BitVec 8) (s : State) : (absorbByte b s).repLeft = s.repLeft := rfl
@[simp] theorem absorbByte_rNToGo (b : BitVec 8) (s : State) : (absorbByte b s).rNToGo = s.rNToGo := rfl
@[simp] theorem absorbByte_rTPos (b : BitVec 8) (s : State) : (absorbByte b s).rTPos = s.rTPos := rfl
@[simp] theorem absorbByte_errCode (b : BitVec 8) (s : State) : (absorbByte b s).errCode = s.errCode := rfl
@[simp] theorem absorbByte_errReason (b : BitVec 8) (s : State) : (absorbByte b s).errReason = s.errReason := rfl
@[simp] theorem absorbByte_ll8 (b : BitVec 8) (s : State) : (absorbByte b s).ll8 = s.ll8 := rfl
@[simp] theorem absorbByte_tt (b : BitVec 8) (s : State) : (absorbByte b s).tt = s.tt := rfl
@[simp] theorem absorbByte_selectorMtf (b : BitVec 8) (s : State) : (absorbByte b s).selectorMtf = s.selectorMtf := rfl
@[simp] theorem absorbByte_selector (b : BitVec 8) (s : State) : (absorbByte b s).selector = s.selector := rfl
@[simp] theorem absorbByte_unzftab (b : BitVec 8) (s : State) : (absorbByte b s).unzftab = s.unzftab := rfl
@[simp] theorem absorbByte_cftab (b : BitVec 8) (s : State) : (absorbByte b s).cftab = s.cftab := rfl
@[simp] theorem absorbByte_part (b : BitVec 8) (s : State) : (absorbByte b s).part = s.part := rfl
@[simp] theorem absorbByte_curr (b : BitVec 8) (s : State) : (absorbByte b s).curr = s.curr := rfl
@[simp] theorem absorbByte_mapRange (b : BitVec 8) (s : State) : (absorbByte b s).mapRange = s.mapRange := rfl
@[simp] theorem absorbByte_selIdx (b : BitVec 8) (s : State) : (absorbByte b s).selIdx = s.selIdx := rfl
@[simp] theorem absorbByte_tblIdx (b : BitVec 8) (s : State) : (absorbByte b s).tblIdx = s.tblIdx := rfl
@[simp] theorem absorbByte_symIdx (b : BitVec 8) (s : State) : (absorbByte b s).symIdx = s.symIdx := rfl
@[simp] theorem absorbByte_source (b : BitVec 8) (s : State) : (absorbByte b s).source = s.source := rfl
@[simp] theorem absorbByte_job (b : BitVec 8) (s : State) : (absorbByte b s).job = s.job := rfl
@[simp] theorem absorbByte_refusalMark (b : BitVec 8) (s : State) : (absorbByte b s).refusalMark = s.refusalMark := rfl
@[simp] theorem absorbByte_answers (b : BitVec 8) (s : State) : (absorbByte b s).answers = s.answers := rfl
@[simp] theorem absorbByte_port (b : BitVec 8) (s : State) : (absorbByte b s).port = s.port := rfl
@[simp] theorem absorbByte_handover (b : BitVec 8) (s : State) : (absorbByte b s).handover = s.handover := rfl
@[simp] theorem absorbByte_rbBuf (b : BitVec 8) (s : State) : (absorbByte b s).rbBuf = s.rbBuf := rfl
@[simp] theorem absorbByte_rbReturns (b : BitVec 8) (s : State) : (absorbByte b s).rbReturns = s.rbReturns := rfl

/-! `takeBits` -/

@[simp] theorem takeBits_cfg (n : Nat) (s : State) : (takeBits n s).2.cfg = s.cfg := rfl
@[simp] theorem takeBits_phase (n : Nat) (s : State) : (takeBits n s).2.phase = s.phase := rfl
@[simp] theorem takeBits_bsBuff (n : Nat) (s : State) : (takeBits n s).2.bsBuff = s.bsBuff := rfl
@[simp] theorem takeBits_bsLive (n : Nat) (s : State) : (takeBits n s).2.bsLive = BitVec.ofNat 5 (s.bsLive.toNat - n) := rfl
@[simp] theorem takeBits_inCount (n : Nat) (s : State) : (takeBits n s).2.inCount = s.inCount := rfl
@[simp] theorem takeBits_blockSize100k (n : Nat) (s : State) : (takeBits n s).2.blockSize100k = s.blockSize100k := rfl
@[simp] theorem takeBits_combinedCRC (n : Nat) (s : State) : (takeBits n s).2.combinedCRC = s.combinedCRC := rfl
@[simp] theorem takeBits_storedCombinedCRC (n : Nat) (s : State) : (takeBits n s).2.storedCombinedCRC = s.storedCombinedCRC := rfl
@[simp] theorem takeBits_blockCount (n : Nat) (s : State) : (takeBits n s).2.blockCount = s.blockCount := rfl
@[simp] theorem takeBits_outCount (n : Nat) (s : State) : (takeBits n s).2.outCount = s.outCount := rfl
@[simp] theorem takeBits_storedBlockCRC (n : Nat) (s : State) : (takeBits n s).2.storedBlockCRC = s.storedBlockCRC := rfl
@[simp] theorem takeBits_randomised (n : Nat) (s : State) : (takeBits n s).2.randomised = s.randomised := rfl
@[simp] theorem takeBits_origPtr (n : Nat) (s : State) : (takeBits n s).2.origPtr = s.origPtr := rfl
@[simp] theorem takeBits_blockCRC (n : Nat) (s : State) : (takeBits n s).2.blockCRC = s.blockCRC := rfl
@[simp] theorem takeBits_inUse16 (n : Nat) (s : State) : (takeBits n s).2.inUse16 = s.inUse16 := rfl
@[simp] theorem takeBits_inUse (n : Nat) (s : State) : (takeBits n s).2.inUse = s.inUse := rfl
@[simp] theorem takeBits_seqToUnseq (n : Nat) (s : State) : (takeBits n s).2.seqToUnseq = s.seqToUnseq := rfl
@[simp] theorem takeBits_nInUse (n : Nat) (s : State) : (takeBits n s).2.nInUse = s.nInUse := rfl
@[simp] theorem takeBits_alphaSize (n : Nat) (s : State) : (takeBits n s).2.alphaSize = s.alphaSize := rfl
@[simp] theorem takeBits_nGroups (n : Nat) (s : State) : (takeBits n s).2.nGroups = s.nGroups := rfl
@[simp] theorem takeBits_nSelectors (n : Nat) (s : State) : (takeBits n s).2.nSelectors = s.nSelectors := rfl
@[simp] theorem takeBits_selPos (n : Nat) (s : State) : (takeBits n s).2.selPos = s.selPos := rfl
@[simp] theorem takeBits_tables (n : Nat) (s : State) : (takeBits n s).2.tables = s.tables := rfl
@[simp] theorem takeBits_mtfSym (n : Nat) (s : State) : (takeBits n s).2.mtfSym = s.mtfSym := rfl
@[simp] theorem takeBits_groupNo (n : Nat) (s : State) : (takeBits n s).2.groupNo = s.groupNo := rfl
@[simp] theorem takeBits_groupPos (n : Nat) (s : State) : (takeBits n s).2.groupPos = s.groupPos := rfl
@[simp] theorem takeBits_curTable (n : Nat) (s : State) : (takeBits n s).2.curTable = s.curTable := rfl
@[simp] theorem takeBits_runS (n : Nat) (s : State) : (takeBits n s).2.runS = s.runS := rfl
@[simp] theorem takeBits_runN (n : Nat) (s : State) : (takeBits n s).2.runN = s.runN := rfl
@[simp] theorem takeBits_nblock (n : Nat) (s : State) : (takeBits n s).2.nblock = s.nblock := rfl
@[simp] theorem takeBits_tPos (n : Nat) (s : State) : (takeBits n s).2.tPos = s.tPos := rfl
@[simp] theorem takeBits_i2 (n : Nat) (s : State) : (takeBits n s).2.i2 = s.i2 := rfl
@[simp] theorem takeBits_rleCount (n : Nat) (s : State) : (takeBits n s).2.rleCount = s.rleCount := rfl
@[simp] theorem takeBits_rlePrev (n : Nat) (s : State) : (takeBits n s).2.rlePrev = s.rlePrev := rfl
@[simp] theorem takeBits_repLeft (n : Nat) (s : State) : (takeBits n s).2.repLeft = s.repLeft := rfl
@[simp] theorem takeBits_rNToGo (n : Nat) (s : State) : (takeBits n s).2.rNToGo = s.rNToGo := rfl
@[simp] theorem takeBits_rTPos (n : Nat) (s : State) : (takeBits n s).2.rTPos = s.rTPos := rfl
@[simp] theorem takeBits_errCode (n : Nat) (s : State) : (takeBits n s).2.errCode = s.errCode := rfl
@[simp] theorem takeBits_errReason (n : Nat) (s : State) : (takeBits n s).2.errReason = s.errReason := rfl
@[simp] theorem takeBits_ll8 (n : Nat) (s : State) : (takeBits n s).2.ll8 = s.ll8 := rfl
@[simp] theorem takeBits_tt (n : Nat) (s : State) : (takeBits n s).2.tt = s.tt := rfl
@[simp] theorem takeBits_selectorMtf (n : Nat) (s : State) : (takeBits n s).2.selectorMtf = s.selectorMtf := rfl
@[simp] theorem takeBits_selector (n : Nat) (s : State) : (takeBits n s).2.selector = s.selector := rfl
@[simp] theorem takeBits_unzftab (n : Nat) (s : State) : (takeBits n s).2.unzftab = s.unzftab := rfl
@[simp] theorem takeBits_cftab (n : Nat) (s : State) : (takeBits n s).2.cftab = s.cftab := rfl
@[simp] theorem takeBits_part (n : Nat) (s : State) : (takeBits n s).2.part = s.part := rfl
@[simp] theorem takeBits_curr (n : Nat) (s : State) : (takeBits n s).2.curr = s.curr := rfl
@[simp] theorem takeBits_mapRange (n : Nat) (s : State) : (takeBits n s).2.mapRange = s.mapRange := rfl
@[simp] theorem takeBits_selIdx (n : Nat) (s : State) : (takeBits n s).2.selIdx = s.selIdx := rfl
@[simp] theorem takeBits_tblIdx (n : Nat) (s : State) : (takeBits n s).2.tblIdx = s.tblIdx := rfl
@[simp] theorem takeBits_symIdx (n : Nat) (s : State) : (takeBits n s).2.symIdx = s.symIdx := rfl
@[simp] theorem takeBits_source (n : Nat) (s : State) : (takeBits n s).2.source = s.source := rfl
@[simp] theorem takeBits_job (n : Nat) (s : State) : (takeBits n s).2.job = s.job := rfl
@[simp] theorem takeBits_refusalMark (n : Nat) (s : State) : (takeBits n s).2.refusalMark = s.refusalMark := rfl
@[simp] theorem takeBits_answers (n : Nat) (s : State) : (takeBits n s).2.answers = s.answers := rfl
@[simp] theorem takeBits_port (n : Nat) (s : State) : (takeBits n s).2.port = s.port := rfl
@[simp] theorem takeBits_handover (n : Nat) (s : State) : (takeBits n s).2.handover = s.handover := rfl
@[simp] theorem takeBits_rbBuf (n : Nat) (s : State) : (takeBits n s).2.rbBuf = s.rbBuf := rfl
@[simp] theorem takeBits_rbReturns (n : Nat) (s : State) : (takeBits n s).2.rbReturns = s.rbReturns := rfl

/-! `blockInit` -/

@[simp] theorem blockInit_cfg (s : State) : (blockInit s).cfg = s.cfg := rfl
@[simp] theorem blockInit_phase (s : State) : (blockInit s).phase = s.phase := rfl
@[simp] theorem blockInit_bsBuff (s : State) : (blockInit s).bsBuff = s.bsBuff := rfl
@[simp] theorem blockInit_bsLive (s : State) : (blockInit s).bsLive = s.bsLive := rfl
@[simp] theorem blockInit_inCount (s : State) : (blockInit s).inCount = s.inCount := rfl
@[simp] theorem blockInit_blockSize100k (s : State) : (blockInit s).blockSize100k = s.blockSize100k := rfl
@[simp] theorem blockInit_combinedCRC (s : State) : (blockInit s).combinedCRC = s.combinedCRC := rfl
@[simp] theorem blockInit_storedCombinedCRC (s : State) : (blockInit s).storedCombinedCRC = s.storedCombinedCRC := rfl
@[simp] theorem blockInit_blockCount (s : State) : (blockInit s).blockCount = s.blockCount := rfl
@[simp] theorem blockInit_outCount (s : State) : (blockInit s).outCount = s.outCount := rfl
@[simp] theorem blockInit_storedBlockCRC (s : State) : (blockInit s).storedBlockCRC = s.storedBlockCRC := rfl
@[simp] theorem blockInit_randomised (s : State) : (blockInit s).randomised = s.randomised := rfl
@[simp] theorem blockInit_origPtr (s : State) : (blockInit s).origPtr = s.origPtr := rfl
@[simp] theorem blockInit_blockCRC (s : State) : (blockInit s).blockCRC = crcInit := rfl
@[simp] theorem blockInit_inUse16 (s : State) : (blockInit s).inUse16 = s.inUse16 := rfl
@[simp] theorem blockInit_inUse (s : State) : (blockInit s).inUse = Vector.replicate 256 false := rfl
@[simp] theorem blockInit_seqToUnseq (s : State) : (blockInit s).seqToUnseq = s.seqToUnseq := rfl
@[simp] theorem blockInit_nInUse (s : State) : (blockInit s).nInUse = 0#9 := rfl
@[simp] theorem blockInit_alphaSize (s : State) : (blockInit s).alphaSize = 0#9 := rfl
@[simp] theorem blockInit_nGroups (s : State) : (blockInit s).nGroups = 0#3 := rfl
@[simp] theorem blockInit_nSelectors (s : State) : (blockInit s).nSelectors = 0#15 := rfl
@[simp] theorem blockInit_selPos (s : State) : (blockInit s).selPos = s.selPos := rfl
@[simp] theorem blockInit_tables (s : State) : (blockInit s).tables = s.tables := rfl
@[simp] theorem blockInit_mtfSym (s : State) : (blockInit s).mtfSym = s.mtfSym := rfl
@[simp] theorem blockInit_groupNo (s : State) : (blockInit s).groupNo = 0#15 := rfl
@[simp] theorem blockInit_groupPos (s : State) : (blockInit s).groupPos = 0#6 := rfl
@[simp] theorem blockInit_curTable (s : State) : (blockInit s).curTable = 0#3 := rfl
@[simp] theorem blockInit_runS (s : State) : (blockInit s).runS = 0#20 := rfl
@[simp] theorem blockInit_runN (s : State) : (blockInit s).runN = 1#20 := rfl
@[simp] theorem blockInit_nblock (s : State) : (blockInit s).nblock = 0#20 := rfl
@[simp] theorem blockInit_tPos (s : State) : (blockInit s).tPos = 0#20 := rfl
@[simp] theorem blockInit_i2 (s : State) : (blockInit s).i2 = 0#20 := rfl
@[simp] theorem blockInit_rleCount (s : State) : (blockInit s).rleCount = 0#3 := rfl
@[simp] theorem blockInit_rlePrev (s : State) : (blockInit s).rlePrev = 0#8 := rfl
@[simp] theorem blockInit_repLeft (s : State) : (blockInit s).repLeft = 0#8 := rfl
@[simp] theorem blockInit_rNToGo (s : State) : (blockInit s).rNToGo = 0#10 := rfl
@[simp] theorem blockInit_rTPos (s : State) : (blockInit s).rTPos = 0#9 := rfl
@[simp] theorem blockInit_errCode (s : State) : (blockInit s).errCode = s.errCode := rfl
@[simp] theorem blockInit_errReason (s : State) : (blockInit s).errReason = s.errReason := rfl
@[simp] theorem blockInit_ll8 (s : State) : (blockInit s).ll8 = s.ll8 := rfl
@[simp] theorem blockInit_tt (s : State) : (blockInit s).tt = s.tt := rfl
@[simp] theorem blockInit_selectorMtf (s : State) : (blockInit s).selectorMtf = s.selectorMtf := rfl
@[simp] theorem blockInit_selector (s : State) : (blockInit s).selector = s.selector := rfl
@[simp] theorem blockInit_unzftab (s : State) : (blockInit s).unzftab = clearedCounts := rfl
@[simp] theorem blockInit_cftab (s : State) : (blockInit s).cftab = s.cftab := rfl
@[simp] theorem blockInit_part (s : State) : (blockInit s).part = s.part := rfl
@[simp] theorem blockInit_curr (s : State) : (blockInit s).curr = s.curr := rfl
@[simp] theorem blockInit_mapRange (s : State) : (blockInit s).mapRange = s.mapRange := rfl
@[simp] theorem blockInit_selIdx (s : State) : (blockInit s).selIdx = s.selIdx := rfl
@[simp] theorem blockInit_tblIdx (s : State) : (blockInit s).tblIdx = s.tblIdx := rfl
@[simp] theorem blockInit_symIdx (s : State) : (blockInit s).symIdx = s.symIdx := rfl
@[simp] theorem blockInit_source (s : State) : (blockInit s).source = s.source := rfl
@[simp] theorem blockInit_job (s : State) : (blockInit s).job = s.job := rfl
@[simp] theorem blockInit_refusalMark (s : State) : (blockInit s).refusalMark = s.refusalMark := rfl
@[simp] theorem blockInit_answers (s : State) : (blockInit s).answers = s.answers := rfl
@[simp] theorem blockInit_port (s : State) : (blockInit s).port = s.port := rfl
@[simp] theorem blockInit_handover (s : State) : (blockInit s).handover = s.handover := rfl
@[simp] theorem blockInit_rbBuf (s : State) : (blockInit s).rbBuf = s.rbBuf := rfl
@[simp] theorem blockInit_rbReturns (s : State) : (blockInit s).rbReturns = s.rbReturns := rfl

/-! `resetRegisters` -/

@[simp] theorem resetRegisters_cfg (s : State) : (resetRegisters s).cfg = s.cfg := rfl
@[simp] theorem resetRegisters_phase (s : State) : (resetRegisters s).phase = .closed := rfl
@[simp] theorem resetRegisters_bsBuff (s : State) : (resetRegisters s).bsBuff = 0#32 := rfl
@[simp] theorem resetRegisters_bsLive (s : State) : (resetRegisters s).bsLive = 0#5 := rfl
@[simp] theorem resetRegisters_inCount (s : State) : (resetRegisters s).inCount = 0 := rfl
@[simp] theorem resetRegisters_blockSize100k (s : State) : (resetRegisters s).blockSize100k = 0#4 := rfl
@[simp] theorem resetRegisters_combinedCRC (s : State) : (resetRegisters s).combinedCRC = 0#32 := rfl
@[simp] theorem resetRegisters_storedCombinedCRC (s : State) : (resetRegisters s).storedCombinedCRC = 0#32 := rfl
@[simp] theorem resetRegisters_blockCount (s : State) : (resetRegisters s).blockCount = 0 := rfl
@[simp] theorem resetRegisters_outCount (s : State) : (resetRegisters s).outCount = 0 := rfl
@[simp] theorem resetRegisters_storedBlockCRC (s : State) : (resetRegisters s).storedBlockCRC = 0#32 := rfl
@[simp] theorem resetRegisters_randomised (s : State) : (resetRegisters s).randomised = 0#1 := rfl
@[simp] theorem resetRegisters_origPtr (s : State) : (resetRegisters s).origPtr = 0#24 := rfl
@[simp] theorem resetRegisters_blockCRC (s : State) : (resetRegisters s).blockCRC = 0#32 := rfl
@[simp] theorem resetRegisters_inUse16 (s : State) : (resetRegisters s).inUse16 = 0#16 := rfl
@[simp] theorem resetRegisters_inUse (s : State) : (resetRegisters s).inUse = s.inUse := rfl
@[simp] theorem resetRegisters_seqToUnseq (s : State) : (resetRegisters s).seqToUnseq = s.seqToUnseq := rfl
@[simp] theorem resetRegisters_nInUse (s : State) : (resetRegisters s).nInUse = 0#9 := rfl
@[simp] theorem resetRegisters_alphaSize (s : State) : (resetRegisters s).alphaSize = 0#9 := rfl
@[simp] theorem resetRegisters_nGroups (s : State) : (resetRegisters s).nGroups = 0#3 := rfl
@[simp] theorem resetRegisters_nSelectors (s : State) : (resetRegisters s).nSelectors = 0#15 := rfl
@[simp] theorem resetRegisters_selPos (s : State) : (resetRegisters s).selPos = s.selPos := rfl
@[simp] theorem resetRegisters_tables (s : State) : (resetRegisters s).tables = s.tables := rfl
@[simp] theorem resetRegisters_mtfSym (s : State) : (resetRegisters s).mtfSym = s.mtfSym := rfl
@[simp] theorem resetRegisters_groupNo (s : State) : (resetRegisters s).groupNo = 0#15 := rfl
@[simp] theorem resetRegisters_groupPos (s : State) : (resetRegisters s).groupPos = 0#6 := rfl
@[simp] theorem resetRegisters_curTable (s : State) : (resetRegisters s).curTable = 0#3 := rfl
@[simp] theorem resetRegisters_runS (s : State) : (resetRegisters s).runS = 0#20 := rfl
@[simp] theorem resetRegisters_runN (s : State) : (resetRegisters s).runN = 0#20 := rfl
@[simp] theorem resetRegisters_nblock (s : State) : (resetRegisters s).nblock = 0#20 := rfl
@[simp] theorem resetRegisters_tPos (s : State) : (resetRegisters s).tPos = 0#20 := rfl
@[simp] theorem resetRegisters_i2 (s : State) : (resetRegisters s).i2 = 0#20 := rfl
@[simp] theorem resetRegisters_rleCount (s : State) : (resetRegisters s).rleCount = 0#3 := rfl
@[simp] theorem resetRegisters_rlePrev (s : State) : (resetRegisters s).rlePrev = 0#8 := rfl
@[simp] theorem resetRegisters_repLeft (s : State) : (resetRegisters s).repLeft = 0#8 := rfl
@[simp] theorem resetRegisters_rNToGo (s : State) : (resetRegisters s).rNToGo = 0#10 := rfl
@[simp] theorem resetRegisters_rTPos (s : State) : (resetRegisters s).rTPos = 0#9 := rfl
@[simp] theorem resetRegisters_errCode (s : State) : (resetRegisters s).errCode = 0#4 := rfl
@[simp] theorem resetRegisters_errReason (s : State) : (resetRegisters s).errReason = 0#8 := rfl
@[simp] theorem resetRegisters_ll8 (s : State) : (resetRegisters s).ll8 = s.ll8 := rfl
@[simp] theorem resetRegisters_tt (s : State) : (resetRegisters s).tt = s.tt := rfl
@[simp] theorem resetRegisters_selectorMtf (s : State) : (resetRegisters s).selectorMtf = s.selectorMtf := rfl
@[simp] theorem resetRegisters_selector (s : State) : (resetRegisters s).selector = s.selector := rfl
@[simp] theorem resetRegisters_unzftab (s : State) : (resetRegisters s).unzftab = s.unzftab := rfl
@[simp] theorem resetRegisters_cftab (s : State) : (resetRegisters s).cftab = s.cftab := rfl
@[simp] theorem resetRegisters_part (s : State) : (resetRegisters s).part = [] := rfl
@[simp] theorem resetRegisters_curr (s : State) : (resetRegisters s).curr = 0#5 := rfl
@[simp] theorem resetRegisters_mapRange (s : State) : (resetRegisters s).mapRange = 0#4 := rfl
@[simp] theorem resetRegisters_selIdx (s : State) : (resetRegisters s).selIdx = 0#15 := rfl
@[simp] theorem resetRegisters_tblIdx (s : State) : (resetRegisters s).tblIdx = 0#3 := rfl
@[simp] theorem resetRegisters_symIdx (s : State) : (resetRegisters s).symIdx = 0#9 := rfl
@[simp] theorem resetRegisters_source (s : State) : (resetRegisters s).source = s.source := rfl
@[simp] theorem resetRegisters_job (s : State) : (resetRegisters s).job = s.job := rfl
@[simp] theorem resetRegisters_refusalMark (s : State) : (resetRegisters s).refusalMark = s.refusalMark := rfl
@[simp] theorem resetRegisters_answers (s : State) : (resetRegisters s).answers = s.answers := rfl
@[simp] theorem resetRegisters_port (s : State) : (resetRegisters s).port = s.port := rfl
@[simp] theorem resetRegisters_handover (s : State) : (resetRegisters s).handover = s.handover := rfl
@[simp] theorem resetRegisters_rbBuf (s : State) : (resetRegisters s).rbBuf = s.rbBuf := rfl
@[simp] theorem resetRegisters_rbReturns (s : State) : (resetRegisters s).rbReturns = s.rbReturns := rfl

/-! `hardwareReset` -/

@[simp] theorem hardwareReset_cfg (s : State) : (hardwareReset s).cfg = s.cfg := rfl
@[simp] theorem hardwareReset_phase (s : State) : (hardwareReset s).phase = .closed := rfl
@[simp] theorem hardwareReset_bsBuff (s : State) : (hardwareReset s).bsBuff = 0#32 := rfl
@[simp] theorem hardwareReset_bsLive (s : State) : (hardwareReset s).bsLive = 0#5 := rfl
@[simp] theorem hardwareReset_inCount (s : State) : (hardwareReset s).inCount = 0 := rfl
@[simp] theorem hardwareReset_blockSize100k (s : State) : (hardwareReset s).blockSize100k = 0#4 := rfl
@[simp] theorem hardwareReset_combinedCRC (s : State) : (hardwareReset s).combinedCRC = 0#32 := rfl
@[simp] theorem hardwareReset_storedCombinedCRC (s : State) : (hardwareReset s).storedCombinedCRC = 0#32 := rfl
@[simp] theorem hardwareReset_blockCount (s : State) : (hardwareReset s).blockCount = 0 := rfl
@[simp] theorem hardwareReset_outCount (s : State) : (hardwareReset s).outCount = 0 := rfl
@[simp] theorem hardwareReset_storedBlockCRC (s : State) : (hardwareReset s).storedBlockCRC = 0#32 := rfl
@[simp] theorem hardwareReset_randomised (s : State) : (hardwareReset s).randomised = 0#1 := rfl
@[simp] theorem hardwareReset_origPtr (s : State) : (hardwareReset s).origPtr = 0#24 := rfl
@[simp] theorem hardwareReset_blockCRC (s : State) : (hardwareReset s).blockCRC = 0#32 := rfl
@[simp] theorem hardwareReset_inUse16 (s : State) : (hardwareReset s).inUse16 = 0#16 := rfl
@[simp] theorem hardwareReset_inUse (s : State) : (hardwareReset s).inUse = Vector.replicate 256 false := rfl
@[simp] theorem hardwareReset_seqToUnseq (s : State) : (hardwareReset s).seqToUnseq = Vector.replicate 256 0#8 := rfl
@[simp] theorem hardwareReset_nInUse (s : State) : (hardwareReset s).nInUse = 0#9 := rfl
@[simp] theorem hardwareReset_alphaSize (s : State) : (hardwareReset s).alphaSize = 0#9 := rfl
@[simp] theorem hardwareReset_nGroups (s : State) : (hardwareReset s).nGroups = 0#3 := rfl
@[simp] theorem hardwareReset_nSelectors (s : State) : (hardwareReset s).nSelectors = 0#15 := rfl
@[simp] theorem hardwareReset_selPos (s : State) : (hardwareReset s).selPos = Vector.replicate 6 0#3 := rfl
@[simp] theorem hardwareReset_tables (s : State) : (hardwareReset s).tables = Vector.replicate 6 huffTableReset := rfl
@[simp] theorem hardwareReset_mtfSym (s : State) : (hardwareReset s).mtfSym = Vector.replicate 256 0#8 := rfl
@[simp] theorem hardwareReset_groupNo (s : State) : (hardwareReset s).groupNo = 0#15 := rfl
@[simp] theorem hardwareReset_groupPos (s : State) : (hardwareReset s).groupPos = 0#6 := rfl
@[simp] theorem hardwareReset_curTable (s : State) : (hardwareReset s).curTable = 0#3 := rfl
@[simp] theorem hardwareReset_runS (s : State) : (hardwareReset s).runS = 0#20 := rfl
@[simp] theorem hardwareReset_runN (s : State) : (hardwareReset s).runN = 0#20 := rfl
@[simp] theorem hardwareReset_nblock (s : State) : (hardwareReset s).nblock = 0#20 := rfl
@[simp] theorem hardwareReset_tPos (s : State) : (hardwareReset s).tPos = 0#20 := rfl
@[simp] theorem hardwareReset_i2 (s : State) : (hardwareReset s).i2 = 0#20 := rfl
@[simp] theorem hardwareReset_rleCount (s : State) : (hardwareReset s).rleCount = 0#3 := rfl
@[simp] theorem hardwareReset_rlePrev (s : State) : (hardwareReset s).rlePrev = 0#8 := rfl
@[simp] theorem hardwareReset_repLeft (s : State) : (hardwareReset s).repLeft = 0#8 := rfl
@[simp] theorem hardwareReset_rNToGo (s : State) : (hardwareReset s).rNToGo = 0#10 := rfl
@[simp] theorem hardwareReset_rTPos (s : State) : (hardwareReset s).rTPos = 0#9 := rfl
@[simp] theorem hardwareReset_errCode (s : State) : (hardwareReset s).errCode = 0#4 := rfl
@[simp] theorem hardwareReset_errReason (s : State) : (hardwareReset s).errReason = 0#8 := rfl
@[simp] theorem hardwareReset_ll8 (s : State) : (hardwareReset s).ll8 = [] := rfl
@[simp] theorem hardwareReset_tt (s : State) : (hardwareReset s).tt = [] := rfl
@[simp] theorem hardwareReset_selectorMtf (s : State) : (hardwareReset s).selectorMtf = [] := rfl
@[simp] theorem hardwareReset_selector (s : State) : (hardwareReset s).selector = [] := rfl
@[simp] theorem hardwareReset_unzftab (s : State) : (hardwareReset s).unzftab = [] := rfl
@[simp] theorem hardwareReset_cftab (s : State) : (hardwareReset s).cftab = [] := rfl
@[simp] theorem hardwareReset_part (s : State) : (hardwareReset s).part = [] := rfl
@[simp] theorem hardwareReset_curr (s : State) : (hardwareReset s).curr = 0#5 := rfl
@[simp] theorem hardwareReset_mapRange (s : State) : (hardwareReset s).mapRange = 0#4 := rfl
@[simp] theorem hardwareReset_selIdx (s : State) : (hardwareReset s).selIdx = 0#15 := rfl
@[simp] theorem hardwareReset_tblIdx (s : State) : (hardwareReset s).tblIdx = 0#3 := rfl
@[simp] theorem hardwareReset_symIdx (s : State) : (hardwareReset s).symIdx = 0#9 := rfl
@[simp] theorem hardwareReset_source (s : State) : (hardwareReset s).source = none := rfl
@[simp] theorem hardwareReset_job (s : State) : (hardwareReset s).job = none := rfl
@[simp] theorem hardwareReset_refusalMark (s : State) : (hardwareReset s).refusalMark = false := rfl
@[simp] theorem hardwareReset_answers (s : State) : (hardwareReset s).answers = s.answers := rfl
@[simp] theorem hardwareReset_port (s : State) : (hardwareReset s).port = s.port := rfl
@[simp] theorem hardwareReset_handover (s : State) : (hardwareReset s).handover = s.handover := rfl
@[simp] theorem hardwareReset_rbBuf (s : State) : (hardwareReset s).rbBuf = s.rbBuf := rfl
@[simp] theorem hardwareReset_rbReturns (s : State) : (hardwareReset s).rbReturns = s.rbReturns := rfl

end Sys2Proof.Laws
end

