-- ==== Sys2Proof/Laws/Step.lean ====
section
/-! SUPPORT. What a step can do: one inversion lemma per shared operation of the step, so that no proof unfolds the
step again. -/

namespace Sys2Proof.Laws

open Sys2Proof.Machine

theorem finish_next {r : Except Fault State} {t : State} : finish r = .next t ↔ r = .ok t := by
  cases r <;> simp [finish]

theorem finish_fault {r : Except Fault State} {f : Fault} : finish r = .fault f ↔ r = .error f := by
  cases r <;> simp [finish]

theorem rejected_not_next (r : Reject) (t : State) : rejected r ≠ .next t := by
  cases r <;> simp [rejected]

/-- What a step that goes on is: a pass of the READ loop, or an event at the port; never from a marked state. -/
theorem step_next {s t : State} (h : step s = .next t) :
    s.refusalMark = false ∧ ((s.job ≠ none ∧ readPass s = .next t) ∨ (s.job = none ∧ portPass s = .next t)) := by
  unfold step at h
  split at h
  · cases h
  · rename_i hm
    refine ⟨by simpa using hm, ?_⟩
    split at h
    · rename_i hj; exact .inl ⟨by simp [hj], h⟩
    · rename_i hj; exact .inr ⟨hj, h⟩

theorem step_of_job {s : State} (hm : s.refusalMark = false) (hj : s.job ≠ none) : step s = readPass s := by
  unfold step
  cases h : s.job with
  | none => exact absurd h hj
  | some j => simp [hm]

theorem step_of_idle {s : State} (hm : s.refusalMark = false) (hj : s.job = none) : step s = portPass s := by
  unfold step
  simp [hm, hj]

/-- A source pass that goes on: a byte is absorbed, or the end of input raises its error. -/
theorem sourcePass_next {s t : State} (h : sourcePass s = .next t) :
    (∃ b rest, s.source = some (b :: rest) ∧ t = absorbByte b { s with source := some rest }) ∨
      (s.source = some [] ∧ t = raise (endOfInputError s.phase) { s with source := some [] }) := by
  unfold sourcePass at h
  split at h
  · cases h
  · rename_i bytes hs
    cases bytes with
    | nil =>
      refine .inr ⟨hs, ?_⟩
      have : decode .sourceAnswer (bitsOf 9 (0#9).toNat) = .instr .srcEoi [] := by decide
      simp only [sourceAnswer, this, exec, execSrcEoi] at h
      cases h
      rfl
    | cons b rest =>
      refine .inl ⟨b, rest, hs, ?_⟩
      have : ∀ b : BitVec 8, decode .sourceAnswer (bitsOf 9 (0x100#9 ||| b.zeroExtend 9).toNat) = .instr (.srcData b) [] := by
        decide +kernel
      simp only [sourceAnswer, this, exec, execSrcData] at h
      cases h
      rfl

theorem sourcePass_data {s : State} {b : BitVec 8} {rest : List (BitVec 8)} (h : s.source = some (b :: rest)) :
    sourcePass s = .next (absorbByte b { s with source := some rest }) := by
  have : ∀ b : BitVec 8, decode .sourceAnswer (bitsOf 9 (0x100#9 ||| b.zeroExtend 9).toNat) = .instr (.srcData b) [] := by
    decide +kernel
  simp only [sourcePass, h, sourceAnswer, this, exec, execSrcData]

theorem sourcePass_end {s : State} (h : s.source = some []) :
    sourcePass s = .next (raise (endOfInputError s.phase) { s with source := some [] }) := by
  have : decode .sourceAnswer (bitsOf 9 (0#9).toNat) = .instr .srcEoi [] := by decide
  simp only [sourcePass, h, sourceAnswer, this, exec, execSrcEoi]

/-- An accepted list of bits: kept, executed, or rejected with its error. -/
theorem acceptBits_next {e : Expect} {bits : List Bool} {s t : State} (h : acceptBits e bits s = .next t) :
    (∃ n, decode e bits = .need n ∧ t = { s with part := bits }) ∨
      (∃ i rest, decode e bits = .instr i rest ∧ exec i { s with part := [] } = .next t) ∨
        ∃ err, decode e bits = .illegal err ∧ t = rejectElement err { s with part := [] } := by
  unfold acceptBits at h
  split at h
  · rename_i n hd; cases h; exact .inl ⟨n, hd, rfl⟩
  · rename_i i rest hd; exact .inr (.inl ⟨i, rest, hd, h⟩)
  · rename_i err hd; cases h; exact .inr (.inr ⟨err, hd, rfl⟩)
  · exact absurd h (rejected_not_next _ _)

/-- One turn towards an element that goes on: a fetch, a `GetBits`, or (only from a state that holds a whole element
already) no read at all. -/
theorem elementPass_next {e : Expect} {s t : State} (h : elementPass e s = .next t) :
    (∃ n, decode e s.part = .need n ∧ 1 ≤ n ∧ n ≤ readMax ∧ s.bsLive.toNat < n ∧ sourcePass s = .next t) ∨
      (∃ n, decode e s.part = .need n ∧ 1 ≤ n ∧ n ≤ readMax ∧ n ≤ s.bsLive.toNat ∧
        acceptBits e (s.part ++ (takeBits n s).1) (takeBits n s).2 = .next t) ∨
        ((∀ n, decode e s.part ≠ .need n) ∧ acceptBits e s.part s = .next t) := by
  unfold elementPass at h
  split at h
  · rename_i n hd
    split at h
    · cases h
    · rename_i hn
      split at h
      · exact .inl ⟨n, hd, by omega, by omega, ‹_›, h⟩
      · exact .inr (.inl ⟨n, hd, by omega, by omega, by omega, h⟩)
  · rename_i hd; exact .inr (.inr ⟨by simp [hd], h⟩)
  · rename_i hd; exact .inr (.inr ⟨by simp [hd], h⟩)
  · rename_i hd; exact .inr (.inr ⟨by simp [hd], h⟩)

/-- The turn that completes an element executes it. -/
theorem elementPass_exec {e : Expect} {s : State} {n : Nat} {i : Instr} {rest : List Bool}
    (hn : decode e s.part = .need n) (h1 : 1 ≤ n) (h2 : n ≤ readMax) (h3 : n ≤ s.bsLive.toNat)
    (hi : decode e (s.part ++ (takeBits n s).1) = .instr i rest) :
    elementPass e s = exec i { (takeBits n s).2 with part := [] } := by
  unfold elementPass
  rw [hn]
  simp only
  rw [if_neg (by omega), if_neg (by omega)]
  simp only [acceptBits, hi]

/-- What the port can do between commands. -/
theorem portPass_next {s t : State} (h : portPass s = .next t) :
    (s.port = [] ∧ t = s) ∨
      (∃ w src rest, s.port = .command w src :: rest ∧
        commandPass w { s with port := rest, handover := src } = .next t) ∨
        (∃ n rest, s.port = .readBytes n :: rest ∧ execCmdReadBytes n { s with port := rest } = .next t) ∨
          ∃ rest, s.port = .reset :: rest ∧ t = hardwareReset { s with port := rest } := by
  unfold portPass at h
  split at h
  · cases h; exact .inl ⟨‹_›, rfl⟩
  · exact .inr (.inl ⟨_, _, _, ‹_›, h⟩)
  · exact .inr (.inr (.inl ⟨_, _, ‹_›, h⟩))
  · cases h; exact .inr (.inr (.inr ⟨_, ‹_›, rfl⟩))

theorem decode_command (w : BitVec 8) : decode .command (bitsOf 8 w.toNat) = decodeCommand w [] := by
  have : (bitsOf 8 w.toNat).length = 8 := bitsOf_length 8 _
  simp only [decode, fixedField, this, Nat.lt_irrefl, if_false]
  rw [List.take_of_length_le (by omega), List.drop_of_length_le (by omega), valueOf_bitsOf]
  congr 1
  apply BitVec.eq_of_toNat_eq
  have := w.isLt
  simp
  omega

/-- The commands a word can be (30_encoding.md R72). -/
theorem commandPass_next {w : BitVec 8} {s t : State} (h : commandPass w s = .next t) :
    (w = 0x10#8 ∧ execCmdOpen s = .next t) ∨ (w = 0x20#8 ∧ execCmdRead s = .next t) ∨
      (w = 0x30#8 ∧ execCmdClose s = .next t) ∨
        (w.extractLsb' 4 4 = 4#4 ∧ execCmdStatus (w.extractLsb' 0 4) s = .next t) := by
  unfold commandPass at h
  rw [decode_command] at h
  unfold decodeCommand at h
  by_cases h1 : w = 0x10#8
  · simp only [h1, if_true] at h; exact .inl ⟨h1, h⟩
  by_cases h2 : w = 0x20#8
  · simp [h2] at h; exact .inr (.inl ⟨h2, h⟩)
  by_cases h3 : w = 0x30#8
  · simp [h3] at h; exact .inr (.inr (.inl ⟨h3, h⟩))
  simp only [h1, h2, h3, if_false] at h
  split at h
  · rename_i i rest hd
    split at hd
    · cases hd; exact .inr (.inr (.inr ⟨‹_›, h⟩))
    · cases hd
  · exact absurd h (rejected_not_next _ _)
  · cases h
  · cases h

/-- OPEN goes on only from `CLOSED` with no command in progress. -/
theorem execCmdOpen_next {s t : State} (h : execCmdOpen s = .next t) :
    s.job = none ∧ s.phase = .closed ∧
      t = answer .ack { resetRegisters s with phase := .streamHeader .magic, source := some s.handover } := by
  unfold execCmdOpen at h
  split at h
  · cases h
  · cases h; exact ⟨‹_›, ‹_›, rfl⟩
  · cases h

theorem execCmdRead_next {s t : State} (h : execCmdRead s = .next t) :
    s.job = none ∧ s.phase ≠ .closed ∧ t = { s with job := some .read } := by
  unfold execCmdRead at h
  split at h
  · cases h
  · cases h
  · rename_i hj hp; cases h; exact ⟨hj, hp, rfl⟩

theorem execCmdReadBytes_next {n : Nat} {s t : State} (h : execCmdReadBytes n s = .next t) :
    s.job = none ∧ s.phase ≠ .closed ∧
      ((n = 0 ∧ t = returnReadBytes (.count 0) { s with rbBuf := [] }) ∨
        (n ≠ 0 ∧ t = { s with job := some (.readBytes n 0), rbBuf := [] })) := by
  unfold execCmdReadBytes at h
  split at h
  · cases h
  · cases h
  · rename_i hj hp
    refine ⟨hj, hp, ?_⟩
    split at h
    · cases h; exact .inl ⟨‹_›, rfl⟩
    · cases h; exact .inr ⟨‹_›, rfl⟩

theorem execCmdClose_next {s t : State} (h : execCmdClose s = .next t) :
    s.job = none ∧ t = answer .ack (leaveSession s) := by
  unfold execCmdClose at h
  split at h
  · cases h
  · cases h; exact ⟨‹_›, rfl⟩

theorem execCmdStatus_next {k : BitVec 4} {s t : State} (h : execCmdStatus k s = .next t) :
    s.job = none ∧ t = answer (.value (statusRegister s k)) s := by
  unfold execCmdStatus at h
  split at h
  · cases h
  · cases h; exact ⟨‹_›, rfl⟩

/-! What the meanings and the internal passes can do. -/

theorem storeSelector_ok {j : BitVec 3} {s t : State} (h : storeSelector j s = .ok t) :
    s.selIdx.toNat < maxSelectors ∧
      t = { s with
        selectorMtf := memSet s.selIdx.toNat j s.selectorMtf, selIdx := s.selIdx + 1#15
        phase := if s.selIdx.toNat + 1 = s.nSelectors.toNat then .blockTables .selectorList else .blockTables .selector } := by
  unfold storeSelector at h
  split at h
  · cases h
  · rename_i m hm
    obtain ⟨h1, rfl⟩ := memWrite_ok.mp hm
    refine ⟨h1, ?_⟩
    simp only at h
    split at h <;> cases h <;> simp [*]

theorem storeLength_ok {s t : State} (h : storeLength s = .ok t) :
    ∃ (hk : s.tblIdx.toNat < 6) (hs : s.symIdx.toNat < 258),
      t = { s with
        tables := s.tables.set s.tblIdx.toNat
          { s.tables[s.tblIdx.toNat] with len := s.tables[s.tblIdx.toNat].len.set s.symIdx.toNat s.curr hs } hk } := by
  unfold storeLength at h
  split at h
  · cases h
  · rename_i tb htb
    have htb := fileRead_ok.mp htb
    split at h
    · cases h
    · rename_i l hl
      obtain ⟨hs, rfl⟩ := fileWrite_ok.mp hl
      split at h
      · cases h
      · rename_i ts hts
        obtain ⟨hk, rfl⟩ := fileWrite_ok.mp hts
        cases h
        have : s.tables[s.tblIdx.toNat] = tb := by
          rw [Vector.getElem?_eq_getElem hk] at htb; exact Option.some.inj htb
        exact ⟨hk, hs, by rw [this]⟩

theorem countBytes_ok {b : BitVec 8} {k : Nat} {u u' : Mem 20} (h : countBytes b k u = .ok u') :
    ∃ c, memGet u b.toNat = some c ∧ u' = memSet b.toNat (c + BitVec.ofNat 20 k) u := by
  unfold countBytes at h
  split at h
  · cases h
  · rename_i c hc
    obtain ⟨_, rfl⟩ := memWrite_ok.mp h
    exact ⟨c, (memRead_ok.mp hc).2, rfl⟩

theorem appendLl8_ok {b : BitVec 8} {k : Nat} {s t : State} (h : appendLl8 b k s = .ok t) :
    s.nblock.toNat + k ≤ maxBlock ∧ ∃ c, memGet s.unzftab b.toNat = some c ∧
      t = { s with
        ll8 := memFill s.nblock.toNat k b s.ll8, unzftab := memSet b.toNat (c + BitVec.ofNat 20 k) s.unzftab
        nblock := s.nblock + BitVec.ofNat 20 k } := by
  unfold appendLl8 at h
  split at h
  · cases h
  · rename_i l hl
    obtain ⟨h1, rfl⟩ := memWriteRun_ok.mp hl
    split at h
    · cases h
    · rename_i u hu
      obtain ⟨c, hc, rfl⟩ := countBytes_ok hu
      cases h
      exact ⟨h1, c, hc, rfl⟩

/-- A flush writes nothing, or a run of the front byte (43_symbols.md R144). -/
theorem flushRun_ok {s t : State} (h : flushRun s = .ok t) :
    (s.runS = 0#20 ∧ t = { s with runS := 0#20, runN := 1#20 }) ∨
      (s.runS ≠ 0#20 ∧ ∃ u, appendLl8 s.mtfSym[0] s.runS.toNat s = .ok u ∧ t = { u with runS := 0#20, runN := 1#20 }) := by
  unfold flushRun at h
  split at h
  · cases h; exact .inl ⟨‹_›, rfl⟩
  · rename_i hr
    split at h
    · cases h
    · rename_i b hb
      have hb := fileRead_ok.mp hb
      have : s.mtfSym[0] = b := by
        rw [Vector.getElem?_eq_getElem (by omega)] at hb; exact Option.some.inj hb
      subst this
      split at h
      · cases h
      · rename_i u hu
        cases h
        exact .inr ⟨hr, u, hu, rfl⟩

theorem putLl8_ok {b : BitVec 8} {s t : State} (h : putLl8 b s = .ok t) :
    (s.nblock.toNat < blockLimit s ∧ ∃ u, appendLl8 b 1 s = .ok u ∧ t = { u with phase := .blockSymbols .group }) ∨
      (blockLimit s ≤ s.nblock.toNat ∧ t = raise .blockOverflow s) := by
  unfold putLl8 at h
  split at h
  · rename_i hl
    split at h
    · cases h
    · rename_i u hu; cases h; exact .inl ⟨hl, u, hu, rfl⟩
  · rename_i hl; cases h; exact .inr ⟨by omega, rfl⟩

theorem mtfSymbol_ok {n : Nat} {s t : State} (h : mtfSymbol n s = .ok t) :
    ∃ (u : State) (hn : n - 1 < 256), flushRun s = .ok u ∧
      putLl8 u.mtfSym[n - 1] { u with mtfSym := fileMoveToFront u.mtfSym (n - 1) hn } = .ok t := by
  unfold mtfSymbol at h
  split at h
  · cases h
  · rename_i u hu
    split at h
    · cases h
    · rename_i v list hm
      obtain ⟨hn, rfl, rfl⟩ := moveToFront_ok.mp hm
      exact ⟨u, hn, hu, h⟩

theorem endOfSymbols_ok {s t : State} (h : endOfSymbols s = .ok t) :
    ∃ u, flushRun s = .ok u ∧ t = { u with phase := .blockSetup } := by
  unfold endOfSymbols at h
  split at h
  · cases h
  · rename_i u hu; cases h; exact ⟨u, hu, rfl⟩

theorem groupPass_ok {s t : State} (h : groupPass s = .ok t) :
    (s.groupPos = 0#6 ∧ s.nSelectors.toNat ≤ s.groupNo.toNat ∧ t = raise .selectorOverrun s) ∨
      (s.groupPos = 0#6 ∧ s.groupNo.toNat < s.nSelectors.toNat ∧ ∃ k, memGet s.selector s.groupNo.toNat = some k ∧
        t = { s with curTable := k, groupNo := s.groupNo + 1#15, groupPos := 49#6, phase := .blockSymbols .code }) ∨
        (s.groupPos ≠ 0#6 ∧ t = { s with groupPos := s.groupPos - 1#6, phase := .blockSymbols .code }) := by
  unfold groupPass at h
  split at h
  · rename_i hp
    split at h
    · cases h; exact .inl ⟨hp, ‹_›, rfl⟩
    · rename_i hn
      split at h
      · cases h
      · rename_i k hk
        cases h
        exact .inr (.inl ⟨hp, by omega, k, (memRead_ok.mp hk).2, rfl⟩)
  · rename_i hp; cases h; exact .inr (.inr ⟨hp, rfl⟩)

/-- One walk step (45_output.md R166): where it reads, and what it changes. -/
theorem randMask_ok {s u : State} {m : BitVec 8} (h : randMask s = .ok (m, u)) :
    ∃ n p, u = { s with rNToGo := n, rTPos := p } ∧ m = if n = 1#10 then 1#8 else 0#8 := by
  unfold randMask at h
  split at h
  · split at h
    · cases h
    · cases h; exact ⟨_, _, rfl, rfl⟩
  · cases h; exact ⟨_, s.rTPos, rfl, rfl⟩

theorem walkByte_ok {s u : State} {b : BitVec 8} (h : walkByte s = .ok (b, u)) :
    ∃ c p, memGet s.ll8 s.tPos.toNat = some c ∧ memGet s.tt s.tPos.toNat = some p ∧
      ((s.randomised ≠ 1#1 ∧ b = c ∧ u = { s with tPos := p, i2 := s.i2 + 1#20 }) ∨
        (s.randomised = 1#1 ∧ ∃ m, randMask { s with tPos := p, i2 := s.i2 + 1#20 } = .ok (m, u) ∧ b = c ^^^ m)) := by
  unfold walkByte at h
  split at h
  · cases h
  · rename_i c hc
    split at h
    · cases h
    · rename_i p hp
      refine ⟨c, p, (memRead_ok.mp hc).2, (memRead_ok.mp hp).2, ?_⟩
      simp only at h
      split at h
      · rename_i hr
        split at h
        · cases h
        · rename_i m v hm
          cases h
          exact .inr ⟨hr, m, hm, rfl⟩
      · rename_i hr
        cases h
        exact .inl ⟨hr, rfl, rfl⟩

theorem outputPass_ok {s t : State} (h : outputPass s = .ok t) :
    (s.repLeft ≠ 0#8 ∧ t = emit s.rlePrev { s with repLeft := s.repLeft - 1#8 }) ∨
      (s.repLeft = 0#8 ∧ s.i2 = s.nblock ∧ s.rleCount = 4#3 ∧ t = raise .rleTruncated s) ∨
        (s.repLeft = 0#8 ∧ s.i2 = s.nblock ∧ s.rleCount ≠ 4#3 ∧ t = { s with phase := .blockEnd }) ∨
          (s.repLeft = 0#8 ∧ s.i2 ≠ s.nblock ∧ ∃ b u, walkByte s = .ok (b, u) ∧ t = expandByte b u) := by
  unfold outputPass at h
  split at h
  · cases h; exact .inl ⟨‹_›, rfl⟩
  · rename_i hr
    have hr : s.repLeft = 0#8 := by simpa using hr
    split at h
    · rename_i hi
      split at h
      · cases h; exact .inr (.inl ⟨hr, hi, ‹_›, rfl⟩)
      · cases h; exact .inr (.inr (.inl ⟨hr, hi, ‹_›, rfl⟩))
    · rename_i hi
      split at h
      · cases h
      · rename_i b u hw
        cases h
        exact .inr (.inr (.inr ⟨hr, hi, b, u, hw, rfl⟩))

theorem setupPass_ok {s t : State} (h : setupPass s = .ok t) :
    (s.nblock.toNat ≤ s.origPtr.toNat ∧ t = raise .badOrigPtr s) ∨
      (s.origPtr.toNat < s.nblock.toNat ∧ ∃ c c' m, cumulativeCounts s.unzftab = .ok c ∧
        successorLoop s.ll8 (List.range s.nblock.toNat) c s.tt = .ok (c', m) ∧
          outputInit { s with cftab := c', tt := m } = .ok t) := by
  unfold setupPass at h
  split at h
  · cases h; exact .inl ⟨‹_›, rfl⟩
  · rename_i ho
    split at h
    · cases h
    · rename_i c hc
      split at h
      · cases h
      · rename_i c' m hm
        exact .inr ⟨by omega, c, c', m, hc, hm, h⟩

theorem outputInit_ok {s t : State} (h : outputInit s = .ok t) :
    ∃ p, memGet s.tt s.origPtr.toNat = some p ∧
      t = { s with
        tPos := p, i2 := 0#20, rleCount := 0#3, rlePrev := 0#8, repLeft := 0#8, rNToGo := 0#10, rTPos := 0#9
        phase := .blockOutput } := by
  unfold outputInit at h
  split at h
  · cases h
  · rename_i p hp; cases h; exact ⟨p, (memRead_ok.mp hp).2, rfl⟩

theorem buildPass_ok {s t : State} (h : buildPass s = .ok t) :
    s.alphaSize.toNat ≤ 258 ∧ ∃ (hk : s.tblIdx.toNat < 6),
      (2 ^ 20 < codeSpace (s.tables[s.tblIdx.toNat].len.toList.take s.alphaSize.toNat) ∧
        t = raise .oversubscribed { s with
          tables := s.tables.set s.tblIdx.toNat
            (withCounts (s.tables[s.tblIdx.toNat].len.toList.take s.alphaSize.toNat) s.tables[s.tblIdx.toNat]) hk }) ∨
        (codeSpace (s.tables[s.tblIdx.toNat].len.toList.take s.alphaSize.toNat) ≤ 2 ^ 20 ∧
          t = advanceBuild { s with
            tables := s.tables.set s.tblIdx.toNat
              (withCodes (s.tables[s.tblIdx.toNat].len.toList.take s.alphaSize.toNat)
                (withCounts (s.tables[s.tblIdx.toNat].len.toList.take s.alphaSize.toNat) s.tables[s.tblIdx.toNat])) hk }) := by
  unfold buildPass at h
  split at h
  · cases h
  · rename_i ha
    refine ⟨by omega, ?_⟩
    split at h
    · cases h
    · rename_i tb htb
      have htb := fileRead_ok.mp htb
      obtain ⟨hk, hget⟩ := Vector.getElem?_eq_some_iff.mp htb
      subst hget
      refine ⟨hk, ?_⟩
      simp only at h
      split at h
      · rename_i hc
        split at h
        · cases h
        · rename_i ts hts
          obtain ⟨_, rfl⟩ := fileWrite_ok.mp hts
          cases h
          exact .inl ⟨hc, rfl⟩
      · rename_i hc
        split at h
        · cases h
        · rename_i ts hts
          obtain ⟨_, rfl⟩ := fileWrite_ok.mp hts
          cases h
          exact .inr ⟨by omega, rfl⟩

theorem symbolInitPass_ok {s t : State} (h : symbolInitPass s = .ok t) :
    s.nInUse.toNat ≤ 256 ∧
      t = { s with
        mtfSym := fileOverlay (s.seqToUnseq.toList.take s.nInUse.toNat) s.mtfSym
        unzftab := clearedCounts
        nblock := 0#20, runS := 0#20, runN := 1#20, groupNo := 0#15, groupPos := 0#6
        phase := .blockSymbols .group } := by
  unfold symbolInitPass at h
  split at h
  · cases h
  · cases h; exact ⟨by omega, rfl⟩

/-- The selector loop writes only the selector list and `selPos` (42_tables.md R127). -/
theorem selectorLoop_ok {is : List Nat} {s t : State} (h : selectorLoop is s = .ok t) :
    ∃ l m, t = { s with selPos := l, selector := m } ∧ (Mem.wf maxSelectors s.selector → Mem.wf maxSelectors m) := by
  induction is generalizing s with
  | nil => cases h; exact ⟨_, _, rfl, id⟩
  | cons i is ih =>
    unfold selectorLoop at h
    split at h
    · cases h
    · split at h
      · cases h
      · split at h
        · cases h
        · rename_i m hm
          obtain ⟨hi, rfl⟩ := memWrite_ok.mp hm
          obtain ⟨l', m', rfl, hwf⟩ := ih h
          exact ⟨l', m', rfl, fun hs => hwf (memSet_wf hs hi)⟩

theorem selectorListPass_ok {s t : State} (h : selectorListPass s = .ok t) :
    s.nGroups.toNat ≤ maxGroups ∧ ∃ l m, t = { s with selPos := l, selector := m, tblIdx := 0#3, phase := .blockTables .lenStart } ∧
      (Mem.wf maxSelectors s.selector → Mem.wf maxSelectors m) := by
  unfold selectorListPass at h
  split at h
  · cases h
  · rename_i hg
    simp only at h
    split at h
    · cases h
    · rename_i u hu
      obtain ⟨l, m, rfl, hwf⟩ := selectorLoop_ok hu
      cases h
      exact ⟨by omega, l, m, rfl, hwf⟩

theorem successorLoop_wf {l : Mem 8} {is : List Nat} {c c' : Mem 20} {m m' : Mem 20}
    (h : successorLoop l is c m = .ok (c', m')) (hc : Mem.wf cumulativeDepth c) (hm : Mem.wf maxBlock m) :
    Mem.wf cumulativeDepth c' ∧ Mem.wf maxBlock m' := by
  induction is generalizing c m with
  | nil => cases h; exact ⟨hc, hm⟩
  | cons i is ih =>
    unfold successorLoop at h
    split at h
    · cases h
    · split at h
      · cases h
      · split at h
        · cases h
        · rename_i hw
          obtain ⟨hi, rfl⟩ := memWrite_ok.mp hw
          split at h
          · cases h
          · rename_i hw2
            obtain ⟨hi2, rfl⟩ := memWrite_ok.mp hw2
            exact ih h (memSet_wf hc hi2) (memSet_wf hm hi)

theorem runningSums_length (a : BitVec 20) (cs : List (BitVec 20)) : (runningSums a cs).length = cs.length + 1 := by
  induction cs generalizing a with
  | nil => rfl
  | cons c cs ih => simp [runningSums, ih]

theorem memReadAll_length {w : Nat} {name : Store} {depth : Nat} {m : Mem w} {is : List Nat} {vs : List (BitVec w)}
    (h : memReadAll name depth m is = .ok vs) : vs.length = is.length := by
  induction is generalizing vs with
  | nil => cases h; rfl
  | cons i is ih =>
    unfold memReadAll at h
    split at h
    · cases h
    · split at h
      · cases h
      · rename_i vs' hvs; cases h; simp [ih hvs]

theorem cumulativeCounts_wf {u c : Mem 20} (h : cumulativeCounts u = .ok c) : Mem.wf cumulativeDepth c := by
  unfold cumulativeCounts at h
  split at h
  · cases h
  · rename_i vs hvs
    cases h
    have h1 := memReadAll_length hvs
    have h2 := memOfList_wf (runningSums 0#20 vs)
    rw [runningSums_length, h1, List.length_range] at h2
    exact h2

theorem clearedCounts_wf : Mem.wf countDepth clearedCounts := by
  have := memOfList_wf (List.replicate countDepth 0#20)
  rwa [List.length_replicate] at this

end Sys2Proof.Laws
end

