-- ==== Sys2Proof/Laws/Pass.lean ====
section
/-! SUPPORT. The cases of a step that goes on, each by its name: what a pass of the READ loop can be, what a turn
towards an element can be, and what each meaning with more than one outcome can answer. -/

namespace Sys2Proof.Laws

open Sys2Proof.Machine Sys2Proof.Safety

/-- The pad after `TR_CRC` changes nothing (41_framer.md R114). -/
theorem trailerPass_eq (s : State) : trailerPass s = elementPass .trCrc s := by
  unfold trailerPass
  cases elementPass .trCrc s with
  | next t => simp only; split <;> rfl
  | fault f => rfl
  | refused r => rfl

/-- A pass in a phase that reads an element is one turn towards that element. -/
theorem readPass_expected {s : State} {e : Expect} (h : expected s = some e) : readPass s = elementPass e s := by
  unfold expected at h
  unfold readPass
  split at h <;> rename_i hp
  case h_13 =>
    rw [hp]
    split at h
    · cases h
    · cases h; simp_all [tablesPass, lencodePass]
  case h_14 =>
    rw [hp]
    cases ht : s.tables[s.curTable.toNat]? with
    | none => simp [ht] at h
    | some t => simp [ht] at h; subst h; simp [symbolPass, currentTable, fileRead, ht]
  case h_15 => rw [hp]; cases h; exact trailerPass_eq s
  case h_16 => cases h
  all_goals rw [hp]; cases h; rfl

/-- What a turn towards the element `e` can be. -/
inductive ElementCase (e : Expect) (s t : State) : Prop where
  /-- `Fetch` answered a byte -/
  | fetch (n : Nat) (b : BitVec 8) (rest : List (BitVec 8)) (hn : decode e s.part = .need n) (h1 : 1 ≤ n)
      (h2 : n ≤ readMax) (h3 : s.bsLive.toNat < n) (hs : s.source = some (b :: rest))
      (ht : t = absorbByte b { s with source := some rest })
  /-- `Fetch` answered the end of the input -/
  | eoi (n : Nat) (hn : decode e s.part = .need n) (h1 : 1 ≤ n) (h2 : n ≤ readMax) (h3 : s.bsLive.toNat < n)
      (hs : s.source = some []) (ht : t = raise (endOfInputError s.phase) { s with source := some [] })
  /-- a `GetBits` that leaves the element incomplete -/
  | more (n m : Nat) (hn : decode e s.part = .need n) (h1 : 1 ≤ n) (h2 : n ≤ readMax) (h3 : n ≤ s.bsLive.toNat)
      (hd : decode e (s.part ++ (takeBits n s).1) = .need m)
      (ht : t = { (takeBits n s).2 with part := s.part ++ (takeBits n s).1 })
  /-- a `GetBits` that completes the element -/
  | run (n : Nat) (i : Instr) (rest : List Bool) (hn : decode e s.part = .need n) (h1 : 1 ≤ n) (h2 : n ≤ readMax)
      (h3 : n ≤ s.bsLive.toNat) (hd : decode e (s.part ++ (takeBits n s).1) = .instr i rest)
      (ht : exec i { (takeBits n s).2 with part := [] } = .next t)
  /-- a `GetBits` that makes the element illegal -/
  | bad (n : Nat) (err : StreamError) (hn : decode e s.part = .need n) (h1 : 1 ≤ n) (h2 : n ≤ readMax)
      (h3 : n ≤ s.bsLive.toNat) (hd : decode e (s.part ++ (takeBits n s).1) = .illegal err)
      (ht : t = rejectElement err { (takeBits n s).2 with part := [] })
  /-- the bits held already are a whole element (in no state a run reaches) -/
  | heldRun (i : Instr) (rest : List Bool) (hd : decode e s.part = .instr i rest)
      (ht : exec i { s with part := [] } = .next t)
  /-- the bits held already are illegal (in no state a run reaches) -/
  | heldBad (err : StreamError) (hd : decode e s.part = .illegal err) (ht : t = rejectElement err { s with part := [] })

theorem elementPass_cases {e : Expect} {s t : State} (h : elementPass e s = .next t) : ElementCase e s t := by
  rcases elementPass_next h with ⟨n, hn, h1, h2, h3, h⟩ | ⟨n, hn, h1, h2, h3, h⟩ | ⟨hn, h⟩
  · rcases sourcePass_next h with ⟨b, rest, hs, ht⟩ | ⟨hs, ht⟩
    · exact .fetch n b rest hn h1 h2 h3 hs ht
    · exact .eoi n hn h1 h2 h3 hs ht
  · rcases acceptBits_next h with ⟨m, hd, ht⟩ | ⟨i, rest, hd, ht⟩ | ⟨err, hd, ht⟩
    · exact .more n m hn h1 h2 h3 hd ht
    · exact .run n i rest hn h1 h2 h3 hd ht
    · exact .bad n err hn h1 h2 h3 hd ht
  · rcases acceptBits_next h with ⟨m, hd, ht⟩ | ⟨i, rest, hd, ht⟩ | ⟨err, hd, ht⟩
    · exact absurd hd (hn m)
    · exact .heldRun i rest hd ht
    · exact .heldBad err hd ht

/-- What a pass of the READ loop can be (46_host.md R178). -/
inductive ReadCase (s t : State) : Prop where
  | element (e : Expect) (he : expected s = some e) (h : ElementCase e s t)
  | badLength (hp : s.phase = .blockTables .lencode) (hl : lengthRefused s = true) (ht : t = raise .badLength s)
  | alphabet (hp : s.phase = .blockTables .alphabet) (ht : t = alphabetPass s)
  | selectorList (hp : s.phase = .blockTables .selectorList) (ht : selectorListPass s = .ok t)
  | build (hp : s.phase = .blockTables .build) (ht : buildPass s = .ok t)
  | symbolInit (hp : s.phase = .blockTables .symbolInit) (ht : symbolInitPass s = .ok t)
  | group (hp : s.phase = .blockSymbols .group) (ht : groupPass s = .ok t)
  | setup (hp : s.phase = .blockSetup) (ht : setupPass s = .ok t)
  | output (hp : s.phase = .blockOutput) (ht : outputPass s = .ok t)
  | blockEnd (hp : s.phase = .blockEnd) (ht : t = blockEndPass s)
  | endOfStream (hp : s.phase = .endOfStream) (ht : t = answerEndOfStream s)
  | failed (hp : s.phase = .failed) (ht : t = answerError s)

theorem readPass_cases {s t : State} (h : readPass s = .next t) : ReadCase s t := by
  cases he : expected s with
  | some e =>
    rw [readPass_expected he] at h
    exact .element e he (elementPass_cases h)
  | none =>
    unfold expected at he
    unfold readPass at h
    split at he <;> rename_i hp
    case h_13 =>
      rw [hp] at h
      split at he
      · rename_i hl
        simp only [tablesPass, lencodePass, hl, if_true] at h
        cases h; exact .badLength hp hl rfl
      · cases he
    case h_14 =>
      rw [hp] at h
      cases ht : s.tables[s.curTable.toNat]? with
      | none => simp [symbolPass, currentTable, fileRead, ht] at h
      | some t => simp [ht] at he
    case h_16 =>
      split at h
      case h_5 pos hp' =>
        cases pos <;> first | exact absurd hp' (by assumption) | skip
        · cases h; exact .alphabet hp' rfl
        · exact .selectorList hp' (finish_next.mp h)
        · exact .build hp' (finish_next.mp h)
        · exact .symbolInit hp' (finish_next.mp h)
      all_goals rename_i hp'
      all_goals first
        | exact absurd hp' (by assumption)
        | (cases h; done)
        | exact .group hp' (finish_next.mp h)
        | exact .setup hp' (finish_next.mp h)
        | exact .output hp' (finish_next.mp h)
        | (cases h; exact .blockEnd hp' rfl)
        | (cases h; exact .endOfStream hp' rfl)
        | (cases h; exact .failed hp' rfl)
    all_goals cases he

/-- What a step that goes on can be. -/
inductive StepCase (s t : State) : Prop where
  | read (hm : s.refusalMark = false) (hj : s.job ≠ none) (h : ReadCase s t)
  | idle (hm : s.refusalMark = false) (hj : s.job = none) (hp : s.port = []) (ht : t = s)
  | opens (src : List (BitVec 8)) (rest : List PortEvent) (hm : s.refusalMark = false) (hj : s.job = none)
      (hq : s.port = .command 0x10#8 src :: rest) (hp : s.phase = .closed)
      (ht : t = answer .ack
        { resetRegisters { s with port := rest, handover := src } with
          phase := .streamHeader .magic, source := some src })
  | reads (src : List (BitVec 8)) (rest : List PortEvent) (hm : s.refusalMark = false) (hj : s.job = none)
      (hq : s.port = .command 0x20#8 src :: rest) (hp : s.phase ≠ .closed)
      (ht : t = { s with port := rest, handover := src, job := some .read })
  | closes (src : List (BitVec 8)) (rest : List PortEvent) (hm : s.refusalMark = false) (hj : s.job = none)
      (hq : s.port = .command 0x30#8 src :: rest)
      (ht : t = answer .ack (leaveSession { s with port := rest, handover := src }))
  | status (src : List (BitVec 8)) (rest : List PortEvent) (w : BitVec 8) (hm : s.refusalMark = false)
      (hj : s.job = none) (hq : s.port = .command w src :: rest) (hw : w.extractLsb' 4 4 = 4#4)
      (ht : t = answer (.value (statusRegister s (w.extractLsb' 0 4))) { s with port := rest, handover := src })
  | readsNone (rest : List PortEvent) (hm : s.refusalMark = false) (hj : s.job = none)
      (hq : s.port = .readBytes 0 :: rest) (hp : s.phase ≠ .closed)
      (ht : t = returnReadBytes (.count 0) { s with port := rest, rbBuf := [] })
  | readsBytes (rest : List PortEvent) (n : Nat) (hn : n ≠ 0) (hm : s.refusalMark = false) (hj : s.job = none)
      (hq : s.port = .readBytes n :: rest) (hp : s.phase ≠ .closed)
      (ht : t = { s with port := rest, job := some (.readBytes n 0), rbBuf := [] })
  | resets (rest : List PortEvent) (hm : s.refusalMark = false) (hj : s.job = none) (hq : s.port = .reset :: rest)
      (ht : t = hardwareReset { s with port := rest })

/-- Say once what a step can do. -/
theorem step_cases {s t : State} (h : step s = .next t) : StepCase s t := by
  obtain ⟨hm, ⟨hj, h⟩ | ⟨hj, h⟩⟩ := step_next h
  · exact .read hm hj (readPass_cases h)
  · rcases portPass_next h with ⟨hp, ht⟩ | ⟨w, src, rest, hq, h⟩ | ⟨n, rest, hq, h⟩ | ⟨rest, hq, ht⟩
    · exact .idle hm hj hp ht
    · rcases commandPass_next h with ⟨rfl, h⟩ | ⟨rfl, h⟩ | ⟨rfl, h⟩ | ⟨hw, h⟩
      · obtain ⟨_, hp, ht⟩ := execCmdOpen_next h; exact .opens src rest hm hj hq hp ht
      · obtain ⟨_, hp, ht⟩ := execCmdRead_next h; exact .reads src rest hm hj hq hp ht
      · obtain ⟨_, ht⟩ := execCmdClose_next h; exact .closes src rest hm hj hq ht
      · obtain ⟨_, ht⟩ := execCmdStatus_next h; exact .status src rest w hm hj hq hw ht
    · obtain ⟨_, hp, ⟨rfl, ht⟩ | ⟨hn, ht⟩⟩ := execCmdReadBytes_next h
      · exact .readsNone rest hm hj hq hp ht
      · exact .readsBytes rest n hn hm hj hq hp ht
    · exact .resets rest hm hj hq ht

/-! The meanings with more than one outcome. -/

theorem execShLevel_next {d : BitVec 8} {s t : State} (h : execShLevel d s = .next t) :
    (levelLegal d = true ∧ t = { s with blockSize100k := levelValue d, phase := .blockHeader }) ∨
      (levelLegal d = false ∧ t = raise .headerLevel s) := by
  unfold execShLevel at h
  split at h <;> cases h
  · exact .inl ⟨‹_›, rfl⟩
  · exact .inr ⟨Bool.eq_false_iff.mpr ‹_›, rfl⟩

/-- What follows a bitmap word: the next marked range, or the in-use list. -/
theorem advanceMap_cases (i : Nat) (s : State) :
    (∃ k, advanceMap i s = { s with mapRange := k, phase := .blockTables .mapL2 }) ∨
      advanceMap i s = { s with phase := .blockTables .alphabet } := by
  unfold advanceMap
  split
  · exact .inl ⟨_, rfl⟩
  · exact .inr rfl

theorem execTbNgroups_next {g : BitVec 3} {s t : State} (h : execTbNgroups g s = .next t) :
    (groupsLegal g = true ∧ t = { s with nGroups := g, phase := .blockTables .nsel }) ∨
      (groupsLegal g = false ∧ t = raise .badGroups s) := by
  unfold execTbNgroups at h
  split at h <;> cases h
  · exact .inl ⟨‹_›, rfl⟩
  · exact .inr ⟨Bool.eq_false_iff.mpr ‹_›, rfl⟩

theorem execTbNsel_next {k : BitVec 15} {s t : State} (h : execTbNsel k s = .next t) :
    (k = 0#15 ∧ t = raise .badSelectors s) ∨
      (k ≠ 0#15 ∧ t = { s with nSelectors := k, selIdx := 0#15, phase := .blockTables .selector }) := by
  unfold execTbNsel at h
  split at h <;> cases h
  · exact .inl ⟨‹_›, rfl⟩
  · exact .inr ⟨‹_›, rfl⟩

theorem execTbSelector_next {j : BitVec 3} {s t : State} (h : execTbSelector j s = .next t) :
    (s.nGroups.toNat ≤ j.toNat ∧ t = raise .badSelector s) ∨ (j.toNat < s.nGroups.toNat ∧ storeSelector j s = .ok t) := by
  unfold execTbSelector at h
  split at h
  · cases h; exact .inl ⟨‹_›, rfl⟩
  · exact .inr ⟨by omega, finish_next.mp h⟩

theorem execTbLenStop_next {s t : State} (h : execTbLenStop s = .next t) :
    ∃ u, storeLength s = .ok u ∧ t = advanceLength u := by
  unfold execTbLenStop at h
  split at h <;> cases h
  exact ⟨_, ‹_›, rfl⟩

/-- What follows a symbol's length. -/
theorem advanceLength_cases (s : State) :
    (s.symIdx.toNat + 1 = s.alphaSize.toNat ∧ s.tblIdx.toNat + 1 = s.nGroups.toNat ∧
        advanceLength s = { s with tblIdx := 0#3, phase := .blockTables .build }) ∨
      (s.symIdx.toNat + 1 = s.alphaSize.toNat ∧ s.tblIdx.toNat + 1 ≠ s.nGroups.toNat ∧
        advanceLength s = { s with tblIdx := s.tblIdx + 1#3, phase := .blockTables .lenStart }) ∨
        (s.symIdx.toNat + 1 ≠ s.alphaSize.toNat ∧
          advanceLength s = { s with symIdx := s.symIdx + 1#9, phase := .blockTables .lencode }) := by
  unfold advanceLength
  split
  · split
    · exact .inl ⟨‹_›, ‹_›, rfl⟩
    · exact .inr (.inl ⟨‹_›, ‹_›, rfl⟩)
  · exact .inr (.inr ⟨‹_›, rfl⟩)

/-- What follows a built table. -/
theorem advanceBuild_cases (s : State) :
    (s.tblIdx.toNat + 1 = s.nGroups.toNat ∧ advanceBuild s = { s with phase := .blockTables .symbolInit }) ∨
      (s.tblIdx.toNat + 1 ≠ s.nGroups.toNat ∧
        advanceBuild s = { s with tblIdx := s.tblIdx + 1#3, phase := .blockTables .build }) := by
  unfold advanceBuild
  split
  · exact .inl ⟨‹_›, rfl⟩
  · exact .inr ⟨‹_›, rfl⟩

/-- The in-use list, or its error. -/
theorem alphabetPass_cases (s : State) :
    ((inUseBytes s.inUse).length = 0 ∧
        alphabetPass s = raise .noSymbols
          { s with seqToUnseq := fileOverlay (inUseBytes s.inUse) s.seqToUnseq, nInUse := 0#9 }) ∨
      ((inUseBytes s.inUse).length ≠ 0 ∧
        alphabetPass s =
          { s with
            seqToUnseq := fileOverlay (inUseBytes s.inUse) s.seqToUnseq
            nInUse := BitVec.ofNat 9 (inUseBytes s.inUse).length
            alphaSize := BitVec.ofNat 9 (inUseBytes s.inUse).length + 2#9, phase := .blockTables .ngroups }) := by
  unfold alphabetPass
  simp only
  split
  · rename_i h; exact .inl ⟨h, by simp [h]⟩
  · exact .inr ⟨‹_›, rfl⟩

theorem runDigit_cases (d : Nat) (s : State) :
    (blockLimit s < s.nblock.toNat + (s.runS.toNat + s.runN.toNat * d) ∧ runDigit d s = raise .blockOverflow s) ∨
      (s.nblock.toNat + (s.runS.toNat + s.runN.toNat * d) ≤ blockLimit s ∧
        runDigit d s =
          { s with
            runS := BitVec.ofNat 20 (s.runS.toNat + s.runN.toNat * d), runN := s.runN <<< 1
            phase := .blockSymbols .group }) := by
  unfold runDigit
  simp only
  split
  · exact .inl ⟨‹_›, rfl⟩
  · exact .inr ⟨by omega, rfl⟩

theorem execTrCrc_next {c : BitVec 32} {s t : State} (h : execTrCrc c s = .next t) :
    (c = s.combinedCRC ∧ t = { s with storedCombinedCRC := c, phase := .endOfStream }) ∨
      (c ≠ s.combinedCRC ∧ t = raise .crcCombined { s with storedCombinedCRC := c }) := by
  unfold execTrCrc at h
  simp only at h
  split at h <;> cases h
  · exact .inl ⟨‹_›, rfl⟩
  · exact .inr ⟨‹_›, rfl⟩

theorem blockEndPass_cases (s : State) :
    (crcComputed s.blockCRC = s.storedBlockCRC ∧
        blockEndPass s =
          { s with
            combinedCRC := crcCombine s.combinedCRC (crcComputed s.blockCRC), blockCount := s.blockCount + 1
            phase := .blockHeader }) ∨
      (crcComputed s.blockCRC ≠ s.storedBlockCRC ∧ blockEndPass s = raise .crcBlock s) := by
  unfold blockEndPass
  simp only
  split
  · exact .inl ⟨‹_›, rfl⟩
  · exact .inr ⟨‹_›, rfl⟩

/-- An illegal element raises its error, but for an unknown magic read leniently (41_framer.md R104). -/
theorem rejectElement_cases (err : StreamError) (s : State) :
    rejectElement err s = raise err s ∨
      (err = .blockMagic ∧ s.cfg.strictBlockMagic = false ∧ rejectElement err s = { s with phase := .endOfStream }) := by
  cases err
  case blockMagic =>
    cases h : s.cfg.strictBlockMagic with
    | true => exact .inl (by simp [rejectElement, unrecognisedMagic, h])
    | false => exact .inr ⟨rfl, rfl, by simp [rejectElement, unrecognisedMagic, h]⟩
  all_goals exact .inl rfl

/-- A byte emitted: what a READ's answer changes (45_output.md R168, 46_host.md R181). -/
theorem emit_eq (b : BitVec 8) (s : State) :
    ∃ j buf rs, emit b s =
      { s with
        blockCRC := crcByte s.blockCRC b, outCount := s.outCount + 1, answers := s.answers ++ [.byte b]
        job := j, rbBuf := buf, rbReturns := rs } := by
  unfold emit answerByte
  simp only
  split
  · split
    · exact ⟨_, _, _, rfl⟩
    · exact ⟨_, _, _, rfl⟩
  · exact ⟨_, _, _, rfl⟩

theorem answerEndOfStream_eq (s : State) :
    ∃ rs, answerEndOfStream s = { s with answers := s.answers ++ [.endOfStream], job := none, rbReturns := rs } := by
  unfold answerEndOfStream
  simp only
  split
  · exact ⟨_, rfl⟩
  · exact ⟨_, rfl⟩

theorem answerError_eq (s : State) :
    ∃ rs, answerError s =
      { s with answers := s.answers ++ [.error s.errCode s.errReason], job := none, rbReturns := rs } := by
  unfold answerError
  simp only
  split
  · exact ⟨_, rfl⟩
  · exact ⟨_, rfl⟩

/-- What a walk step changes (45_output.md R166). -/
theorem walkByte_form {s u : State} {b : BitVec 8} (h : walkByte s = .ok (b, u)) :
    ∃ p n q, u = { s with tPos := p, i2 := s.i2 + 1#20, rNToGo := n, rTPos := q } := by
  obtain ⟨c, p, _, _, ⟨_, _, rfl⟩ | ⟨_, m, hm, _⟩⟩ := walkByte_ok h
  · exact ⟨p, s.rNToGo, s.rTPos, rfl⟩
  · obtain ⟨n, q, rfl, _⟩ := randMask_ok hm
    exact ⟨p, n, q, rfl⟩

/-- A walk byte is a count byte, or is emitted (45_output.md R167). -/
theorem expandByte_cases (b : BitVec 8) (s : State) :
    (s.rleCount = 4#3 ∧ expandByte b s = { s with repLeft := b, rleCount := 0#3 }) ∨
      (s.rleCount ≠ 4#3 ∧ ∃ c p, expandByte b s = emit b { s with rleCount := c, rlePrev := p }) := by
  unfold expandByte
  split
  · exact .inl ⟨‹_›, rfl⟩
  · rename_i h4
    refine .inr ⟨h4, ?_⟩
    split
    · exact ⟨_, s.rlePrev, rfl⟩
    · exact ⟨_, _, rfl⟩

/-- A run flush changes the block written so far and the run, nothing else (43_symbols.md R144). -/
theorem flushRun_form {s u : State} (h : flushRun s = .ok u) :
    ∃ l z n, u = { s with ll8 := l, unzftab := z, nblock := n, runS := 0#20, runN := 1#20 } := by
  rcases flushRun_ok h with ⟨_, rfl⟩ | ⟨_, v, hv, rfl⟩
  · exact ⟨_, _, _, rfl⟩
  · obtain ⟨_, c, _, rfl⟩ := appendLl8_ok hv
    exact ⟨_, _, _, rfl⟩

/-- What an MTF symbol changes (43_symbols.md R146). -/
theorem mtfSymbol_form {n : Nat} {s t : State} (h : mtfSymbol n s = .ok t) :
    ∃ m l z k,
      t = { s with
        mtfSym := m, ll8 := l, unzftab := z, nblock := k, runS := 0#20, runN := 1#20, phase := .blockSymbols .group } ∨
      t = raise .blockOverflow
        { s with mtfSym := m, ll8 := l, unzftab := z, nblock := k, runS := 0#20, runN := 1#20 } := by
  obtain ⟨u, hn, hu, hp⟩ := mtfSymbol_ok h
  obtain ⟨l, z, k, rfl⟩ := flushRun_form hu
  rcases putLl8_ok hp with ⟨_, v, hv, rfl⟩ | ⟨_, rfl⟩
  · obtain ⟨_, c, _, rfl⟩ := appendLl8_ok hv
    exact ⟨_, _, _, _, .inl rfl⟩
  · exact ⟨_, _, _, _, .inr rfl⟩

theorem execSymMtf_next {n : BitVec 9} {s t : State} (h : execSymMtf n s = .next t) : mtfSymbol n.toNat s = .ok t := by
  unfold execSymMtf at h
  exact finish_next.mp h

/-- What EOB changes (43_symbols.md R148). -/
theorem execSymEob_next {s t : State} (h : execSymEob s = .next t) :
    ∃ u, flushRun s = .ok u ∧ t = { u with phase := .blockSetup } := by
  unfold execSymEob at h
  exact endOfSymbols_ok (finish_next.mp h)

/-- Every meaning of an element of the stream, as what it can leave (30_encoding.md R71). -/
inductive ExecCase (s t : State) : Instr → Prop where
  | shMagic (ht : t = { s with phase := .streamHeader .level }) : ExecCase s t .shMagic
  | shLevel (d : BitVec 8) (hl : levelLegal d = true)
      (ht : t = { s with blockSize100k := levelValue d, phase := .blockHeader }) : ExecCase s t (.shLevel d)
  | shLevelBad (d : BitVec 8) (ht : t = raise .headerLevel s) : ExecCase s t (.shLevel d)
  | bhMagic (ht : t = { s with phase := .blockTables .crc }) : ExecCase s t .bhMagic
  | eosMagic (ht : t = { s with phase := .streamTrailer }) : ExecCase s t .eosMagic
  | bhCrc (c : BitVec 32) (ht : t = { blockInit s with storedBlockCRC := c, phase := .blockTables .rand }) :
      ExecCase s t (.bhCrc c)
  | bhRand (r : BitVec 1)
      (ht : t = { s with
        randomised := r, refusalMark := s.refusalMark || randRefused r s, phase := .blockTables .origptr }) :
      ExecCase s t (.bhRand r)
  | bhOrigptr (p : BitVec 24) (ht : t = { s with origPtr := p, phase := .blockTables .mapL1 }) :
      ExecCase s t (.bhOrigptr p)
  | mapL1 (u : BitVec 16) (k : BitVec 4)
      (ht : t = { s with inUse16 := u, mapRange := k, phase := .blockTables .mapL2 }) : ExecCase s t (.mapL1 u)
  | mapL1Done (u : BitVec 16) (ht : t = { s with inUse16 := u, phase := .blockTables .alphabet }) :
      ExecCase s t (.mapL1 u)
  | mapL2 (v : BitVec 16) (k : BitVec 4)
      (ht : t = { s with inUse := markRange s.mapRange v s.inUse, mapRange := k, phase := .blockTables .mapL2 }) :
      ExecCase s t (.mapL2 v)
  | mapL2Done (v : BitVec 16)
      (ht : t = { s with inUse := markRange s.mapRange v s.inUse, phase := .blockTables .alphabet }) :
      ExecCase s t (.mapL2 v)
  | tbNgroups (g : BitVec 3) (hg : groupsLegal g = true) (ht : t = { s with nGroups := g, phase := .blockTables .nsel }) :
      ExecCase s t (.tbNgroups g)
  | tbNgroupsBad (g : BitVec 3) (ht : t = raise .badGroups s) : ExecCase s t (.tbNgroups g)
  | tbNsel (k : BitVec 15) (hk : k ≠ 0#15)
      (ht : t = { s with nSelectors := k, selIdx := 0#15, phase := .blockTables .selector }) : ExecCase s t (.tbNsel k)
  | tbNselBad (k : BitVec 15) (ht : t = raise .badSelectors s) : ExecCase s t (.tbNsel k)
  | tbSelector (j : BitVec 3) (hj : j.toNat < s.nGroups.toNat) (hs : s.selIdx.toNat < maxSelectors)
      (ht : t = { s with
        selectorMtf := memSet s.selIdx.toNat j s.selectorMtf, selIdx := s.selIdx + 1#15
        phase := if s.selIdx.toNat + 1 = s.nSelectors.toNat then .blockTables .selectorList else .blockTables .selector }) :
      ExecCase s t (.tbSelector j)
  | tbSelectorBad (j : BitVec 3) (ht : t = raise .badSelector s) : ExecCase s t (.tbSelector j)
  | tbLenStart (l : BitVec 5) (ht : t = { s with curr := l, symIdx := 0#9, phase := .blockTables .lencode }) :
      ExecCase s t (.tbLenStart l)
  | tbLenInc (ht : t = { s with curr := s.curr + 1#5 }) : ExecCase s t .tbLenInc
  | tbLenDec (ht : t = { s with curr := s.curr - 1#5 }) : ExecCase s t .tbLenDec
  | tbLenStop (hk : s.tblIdx.toNat < 6) (hs : s.symIdx.toNat < 258)
      (ht : t = advanceLength { s with
        tables := s.tables.set s.tblIdx.toNat
          { s.tables[s.tblIdx.toNat] with len := s.tables[s.tblIdx.toNat].len.set s.symIdx.toNat s.curr hs } hk }) :
      ExecCase s t .tbLenStop
  | symRun (i : Instr) (d : Nat) (hi : (i = .symRuna ∧ d = 1) ∨ (i = .symRunb ∧ d = 2))
      (hl : s.nblock.toNat + (s.runS.toNat + s.runN.toNat * d) ≤ blockLimit s)
      (ht : t = { s with
        runS := BitVec.ofNat 20 (s.runS.toNat + s.runN.toNat * d), runN := s.runN <<< 1
        phase := .blockSymbols .group }) : ExecCase s t i
  | symRunBad (i : Instr) (hi : i = .symRuna ∨ i = .symRunb) (ht : t = raise .blockOverflow s) : ExecCase s t i
  | symMtf (n : BitVec 9) (ht : mtfSymbol n.toNat s = .ok t) : ExecCase s t (.symMtf n)
  | symEob (u : State) (hu : flushRun s = .ok u) (ht : t = { u with phase := .blockSetup }) : ExecCase s t .symEob
  | trCrc (c : BitVec 32) (hc : c = s.combinedCRC)
      (ht : t = { s with storedCombinedCRC := c, phase := .endOfStream }) : ExecCase s t (.trCrc c)
  | trCrcBad (c : BitVec 32) (ht : t = raise .crcCombined { s with storedCombinedCRC := c }) : ExecCase s t (.trCrc c)
  | trPad (x : List Bool) (ht : t = s) : ExecCase s t (.trPad x)

/-- What an element of the stream can do, said once. -/
theorem exec_cases {i : Instr} {s t : State} (hi : isElement i = true) (h : exec i s = .next t) : ExecCase s t i := by
  cases i with
  | shMagic => cases h; exact .shMagic rfl
  | shLevel d =>
    rcases execShLevel_next h with ⟨hl, ht⟩ | ⟨_, ht⟩
    · exact .shLevel d hl ht
    · exact .shLevelBad d ht
  | bhMagic => cases h; exact .bhMagic rfl
  | eosMagic => cases h; exact .eosMagic rfl
  | bhCrc c =>
    simp only [exec, execBhCrc] at h
    injection h with h
    exact .bhCrc c h.symm
  | bhRand r => cases h; exact .bhRand r rfl
  | bhOrigptr p => cases h; exact .bhOrigptr p rfl
  | mapL1 u =>
    simp only [exec, execMapL1] at h
    injection h with h
    rcases advanceMap_cases 0 { s with inUse16 := u } with ⟨k, h'⟩ | h'
    · exact .mapL1 u k (h.symm.trans h')
    · exact .mapL1Done u (h.symm.trans h')
  | mapL2 v =>
    simp only [exec, execMapL2] at h
    injection h with h
    rcases advanceMap_cases (s.mapRange.toNat + 1) { s with inUse := markRange s.mapRange v s.inUse } with ⟨k, h'⟩ | h'
    · exact .mapL2 v k (h.symm.trans h')
    · exact .mapL2Done v (h.symm.trans h')
  | tbNgroups g =>
    rcases execTbNgroups_next h with ⟨hg, ht⟩ | ⟨_, ht⟩
    · exact .tbNgroups g hg ht
    · exact .tbNgroupsBad g ht
  | tbNsel k =>
    rcases execTbNsel_next h with ⟨_, ht⟩ | ⟨hk, ht⟩
    · exact .tbNselBad k ht
    · exact .tbNsel k hk ht
  | tbSelector j =>
    rcases execTbSelector_next h with ⟨_, ht⟩ | ⟨hj, h⟩
    · exact .tbSelectorBad j ht
    · obtain ⟨hs, ht⟩ := storeSelector_ok h
      exact .tbSelector j hj hs ht
  | tbLenStart l => cases h; exact .tbLenStart l rfl
  | tbLenInc => cases h; exact .tbLenInc rfl
  | tbLenDec => cases h; exact .tbLenDec rfl
  | tbLenStop =>
    obtain ⟨u, hu, ht⟩ := execTbLenStop_next h
    obtain ⟨hk, hs, hu⟩ := storeLength_ok hu
    exact .tbLenStop hk hs (by rw [ht, hu])
  | symRuna =>
    simp only [exec, execSymRuna] at h
    injection h with h
    rcases runDigit_cases 1 s with ⟨_, h'⟩ | ⟨hl, h'⟩
    · exact .symRunBad _ (.inl rfl) (h.symm.trans h')
    · exact .symRun _ 1 (.inl ⟨rfl, rfl⟩) hl (h.symm.trans h')
  | symRunb =>
    simp only [exec, execSymRunb] at h
    injection h with h
    rcases runDigit_cases 2 s with ⟨_, h'⟩ | ⟨hl, h'⟩
    · exact .symRunBad _ (.inr rfl) (h.symm.trans h')
    · exact .symRun _ 2 (.inr ⟨rfl, rfl⟩) hl (h.symm.trans h')
  | symMtf n =>
    simp only [exec] at h
    exact .symMtf n (execSymMtf_next h)
  | symEob =>
    simp only [exec] at h
    obtain ⟨u, hu, ht⟩ := execSymEob_next h
    exact .symEob u hu ht
  | trCrc c =>
    rcases execTrCrc_next h with ⟨hc, ht⟩ | ⟨_, ht⟩
    · exact .trCrc c hc ht
    · exact .trCrcBad c ht
  | trPad x => cases h; exact .trPad x rfl
  | cmdOpen => cases hi
  | cmdRead => cases hi
  | cmdReadBytes n => cases hi
  | cmdClose => cases hi
  | cmdStatus k => cases hi
  | srcData b => cases hi
  | srcEoi => cases hi

/-- What stands next in the stream is neither a command nor an answer of the source. -/
theorem expected_inStream {s : State} {e : Expect} (he : expected s = some e) : e ≠ .command ∧ e ≠ .sourceAnswer := by
  unfold expected at he
  split at he
  case h_13 => split at he <;> cases he; exact ⟨nofun, nofun⟩
  case h_14 =>
    cases ht : s.tables[s.curTable.toNat]? with
    | none => simp [ht] at he
    | some t => simp [ht] at he; subst he; exact ⟨nofun, nofun⟩
  case h_16 => cases he
  all_goals cases he; exact ⟨nofun, nofun⟩

theorem mayRead_isElement {e : Expect} {i : Instr} (hi : mayRead e i = true) (h1 : e ≠ .command)
    (h2 : e ≠ .sourceAnswer) : isElement i = true := by
  cases e
  case command => exact absurd rfl h1
  case sourceAnswer => exact absurd rfl h2
  all_goals cases i <;> first | rfl | cases hi

/-- A phase's element is an element of the stream. -/
theorem expected_isElement {s : State} {e : Expect} {i : Instr} (he : expected s = some e) (hi : mayRead e i = true) :
    isElement i = true :=
  mayRead_isElement hi (expected_inStream he).1 (expected_inStream he).2

end Sys2Proof.Laws
end

