-- ==== Sys2Proof/Laws/PerInstr.lean ====
section
/-! SUPPORT. One law for every instruction: its encoding has the width 30_encoding.md R65, R67 and R72 give its row. -/

namespace Sys2Proof.Laws.Widths

/-- The least and the greatest number of bits of an instruction (30_encoding.md R65, R67, R72); READ_BYTES has no
encoding of its own (46_host.md R181). -/
def bounds : Instr → Nat × Nat
  | .shMagic => (24, 24)
  | .shLevel _ => (8, 8)
  | .bhMagic => (48, 48)
  | .eosMagic => (48, 48)
  | .bhCrc _ => (32, 32)
  | .bhRand _ => (1, 1)
  | .bhOrigptr _ => (24, 24)
  | .mapL1 _ => (16, 16)
  | .mapL2 _ => (16, 16)
  | .tbNgroups _ => (3, 3)
  | .tbNsel _ => (15, 15)
  | .tbSelector _ => (1, 6)
  | .tbLenStart _ => (5, 5)
  | .tbLenInc => (2, 2)
  | .tbLenDec => (2, 2)
  | .tbLenStop => (1, 1)
  | .symRuna => (1, 20)
  | .symRunb => (1, 20)
  | .symMtf _ => (1, 20)
  | .symEob => (1, 20)
  | .trCrc _ => (32, 32)
  | .trPad _ => (0, 7)
  | .cmdOpen => (8, 8)
  | .cmdRead => (8, 8)
  | .cmdReadBytes _ => (0, 0)
  | .cmdClose => (8, 8)
  | .cmdStatus _ => (8, 8)
  | .srcData _ => (9, 9)
  | .srcEoi => (9, 9)

/-- The lengths of a table in use are 1 to 20 (42_tables.md R129). -/
def legalTable : Expect → Prop
  | .symbol t _ => ∀ (s : Nat) (n : BitVec 5), (t : HuffTable).len[s]? = some n → 1 ≤ n.toNat ∧ n.toNat ≤ 20
  | _ => True

/-- Every encoding of the well-formed instruction `i` has a width within the bounds of its row. -/
def Statement (i : Instr) : Prop :=
  WellFormed i = true → ∀ e bits, legalTable e → encode e i = some bits →
    (bounds i).1 ≤ bits.length ∧ bits.length ≤ (bounds i).2

theorem symbol_width {t : HuffTable} {k s : Nat} {bits : List Bool} (ht : legalTable (.symbol t k))
    (h : encodeSymbol t s = some bits) : 1 ≤ bits.length ∧ bits.length ≤ 20 := by
  unfold encodeSymbol at h
  split at h
  · cases h
  · rename_i n hn
    split at h
    · cases h
    · cases h
      unfold legalTable at ht
      simpa using ht s n hn

theorem shMagic : Statement .shMagic := by
  intro _ e bits _ h
  cases e <;> cases h
  simp [bounds]

theorem shLevel (d : BitVec 8) : Statement (.shLevel d) := by
  intro _ e bits _ h
  cases e <;> cases h
  simp [bounds]

theorem bhMagic : Statement .bhMagic := by
  intro _ e bits _ h
  cases e <;> cases h
  simp [bounds]

theorem eosMagic : Statement .eosMagic := by
  intro _ e bits _ h
  cases e <;> cases h
  simp [bounds]

theorem bhCrc (c : BitVec 32) : Statement (.bhCrc c) := by
  intro _ e bits _ h
  cases e <;> cases h
  simp [bounds]

theorem bhRand (r : BitVec 1) : Statement (.bhRand r) := by
  intro _ e bits _ h
  cases e <;> cases h
  simp [bounds]

theorem bhOrigptr (p : BitVec 24) : Statement (.bhOrigptr p) := by
  intro _ e bits _ h
  cases e <;> cases h
  simp [bounds]

theorem mapL1 (u : BitVec 16) : Statement (.mapL1 u) := by
  intro _ e bits _ h
  cases e <;> cases h
  simp [bounds]

theorem mapL2 (v : BitVec 16) : Statement (.mapL2 v) := by
  intro _ e bits _ h
  cases e <;> cases h
  simp [bounds]

theorem tbNgroups (g : BitVec 3) : Statement (.tbNgroups g) := by
  intro _ e bits _ h
  cases e <;> cases h
  simp [bounds]

theorem tbNsel (k : BitVec 15) : Statement (.tbNsel k) := by
  intro _ e bits _ h
  cases e <;> cases h
  simp [bounds]

theorem tbSelector (j : BitVec 3) : Statement (.tbSelector j) := by
  intro hw e bits _ h
  cases e
  case selector limit _ =>
    have h : (if j.toNat < limit then some (List.replicate j.toNat true ++ [false]) else none) = some bits := h
    split at h
    · cases h
      simp only [WellFormed, decide_eq_true_eq] at hw
      simp [bounds]
      omega
    · cases h
  all_goals cases h

theorem tbLenStart (l : BitVec 5) : Statement (.tbLenStart l) := by
  intro _ e bits _ h
  cases e <;> cases h
  simp [bounds]

theorem tbLenInc : Statement .tbLenInc := by
  intro _ e bits _ h
  cases e <;> cases h
  exact ⟨by decide, by decide⟩

theorem tbLenDec : Statement .tbLenDec := by
  intro _ e bits _ h
  cases e <;> cases h
  exact ⟨by decide, by decide⟩

theorem tbLenStop : Statement .tbLenStop := by
  intro _ e bits _ h
  cases e <;> cases h
  exact ⟨by decide, by decide⟩

theorem symRuna : Statement .symRuna := by
  intro _ e bits ht h
  cases e
  case symbol t k => exact symbol_width (t := t) (k := k) ht (show encodeSymbol t 0 = some bits from h)
  all_goals cases h

theorem symRunb : Statement .symRunb := by
  intro _ e bits ht h
  cases e
  case symbol t k => exact symbol_width (t := t) (k := k) ht (show encodeSymbol t 1 = some bits from h)
  all_goals cases h

theorem symMtf (n : BitVec 9) : Statement (.symMtf n) := by
  intro _ e bits ht h
  cases e
  case symbol t k =>
    have h : (if 2 ≤ n.toNat ∧ n.toNat ≤ k then encodeSymbol t n.toNat else none) = some bits := h
    split at h
    · exact symbol_width ht h
    · cases h
  all_goals cases h

theorem symEob : Statement .symEob := by
  intro _ e bits ht h
  cases e
  case symbol t k => exact symbol_width (t := t) (k := k) ht (show encodeSymbol t (k + 1) = some bits from h)
  all_goals cases h

theorem trCrc (c : BitVec 32) : Statement (.trCrc c) := by
  intro _ e bits _ h
  cases e <;> cases h
  simp [bounds]

theorem trPad (x : List Bool) : Statement (.trPad x) := by
  intro hw e bits _ h
  cases e <;> cases h
  simp only [WellFormed, decide_eq_true_eq] at hw
  exact ⟨Nat.zero_le _, hw⟩

theorem cmdOpen : Statement .cmdOpen := by
  intro _ e bits _ h
  cases e <;> cases h
  simp [bounds]

theorem cmdRead : Statement .cmdRead := by
  intro _ e bits _ h
  cases e <;> cases h
  simp [bounds]

theorem cmdReadBytes (n : Nat) : Statement (.cmdReadBytes n) := by
  intro _ e bits _ h
  cases e <;> cases h

theorem cmdClose : Statement .cmdClose := by
  intro _ e bits _ h
  cases e <;> cases h
  simp [bounds]

theorem cmdStatus (i : BitVec 4) : Statement (.cmdStatus i) := by
  intro _ e bits _ h
  cases e <;> cases h
  simp [bounds]

theorem srcData (b : BitVec 8) : Statement (.srcData b) := by
  intro _ e bits _ h
  cases e <;> cases h
  simp [bounds]

theorem srcEoi : Statement .srcEoi := by
  intro _ e bits _ h
  cases e <;> cases h
  simp [bounds]

end Sys2Proof.Laws.Widths
end

