-- ==== Sys2Proof/Laws/Tables.lean ====
section
/-! SUPPORT. The laws of the in-use bitmap, of the in-use list and of a table's counts, and the canonical form of the
memories after reset. -/

namespace Sys2Proof.Laws

open Sys2Proof.Machine

/-- The memories after reset are in canonical form (20_memory.md R55: nothing is written). -/
theorem reset_memories_wf :
    Mem.wf maxBlock State.reset.ll8 ∧ Mem.wf maxBlock State.reset.tt ∧ Mem.wf maxSelectors State.reset.selectorMtf ∧
      Mem.wf maxSelectors State.reset.selector ∧ Mem.wf countDepth State.reset.unzftab ∧
        Mem.wf cumulativeDepth State.reset.cftab := by
  refine ⟨?_, ?_, ?_, ?_, ?_, ?_⟩ <;> exact ⟨List.Pairwise.nil, nofun⟩

/-- No range at or after `i` is marked (42_tables.md R117). -/
theorem nextRange_none {u : BitVec 16} {i : Nat} (h : ∀ k < 16, i ≤ k → u.getLsbD (15 - k) = false) : nextRange u i = none := by
  unfold nextRange
  rw [Option.map_eq_none_iff, List.find?_eq_none]
  intro k hk
  have := List.mem_range.mp hk
  by_cases hi : i ≤ k
  · simp [rangePresent, h k this hi]
  · simp [hi]

/-- The first marked range at or after `i` (42_tables.md R118). -/
theorem nextRange_some {u : BitVec 16} {i k : Nat} (hk : k < 16) (hi : i ≤ k) (hu : u.getLsbD (15 - k) = true)
    (h : ∀ j < k, i ≤ j → u.getLsbD (15 - j) = false) : nextRange u i = some (BitVec.ofNat 4 k) := by
  unfold nextRange
  have : (List.range 16).find? (fun k => decide (i ≤ k) && rangePresent u k) = some k := by
    rw [List.find?_range_eq_some]
    refine ⟨by simp [hi, rangePresent, hu], by simpa using hk, ?_⟩
    intro j hj
    by_cases hij : i ≤ j
    · simp [rangePresent, h j hj hij]
    · simp [hij]
  rw [this]; rfl

/-- What a `MAP_L2` marks (42_tables.md R118). -/
theorem markRange_get (i : BitVec 4) (w : BitVec 16) (f : Vector Bool 256) (k : Nat) (h : k < 256) :
    (markRange i w f)[k] = (f[k] || (decide (k / 16 = i.toNat) && w.getLsbD (15 - k % 16))) := by
  have gen : ∀ (js : List Nat) (f : Vector Bool 256), (∀ j ∈ js, j < 16) →
    (js.foldl (fun g j => if w.getLsbD (15 - j) then g.setIfInBounds (16 * i.toNat + j) true else g) f)[k] =
      (f[k] || (decide (∃ j ∈ js, k = 16 * i.toNat + j ∧ w.getLsbD (15 - j) = true))) := by
    intro js
    induction js with
    | nil => intro f _; simp
    | cons j js ih =>
      intro f hj
      rw [List.foldl_cons, ih _ (fun j hj' => hj j (List.mem_cons_of_mem _ hj'))]
      by_cases hw : w.getLsbD (15 - j) = true
      · simp only [hw, if_true, Vector.getElem_setIfInBounds]
        by_cases he : 16 * i.toNat + j = k
        · subst he; simp [hw]
        · rw [if_neg he]
          congr 1
          apply decide_eq_decide.mpr
          simp only [List.mem_cons, exists_eq_or_imp]
          constructor
          · exact .inr
          · rintro (⟨h1, _⟩ | h2)
            · exact absurd h1.symm he
            · exact h2
      · simp only [hw]
        congr 1
        simp [hw]
  unfold markRange
  rw [gen _ _ (by simp)]
  congr 1
  have hi := i.isLt
  rw [Bool.eq_iff_iff]
  simp only [decide_eq_true_eq, List.mem_range, Bool.and_eq_true]
  constructor
  · rintro ⟨j, hj, hk, hw⟩
    have : k / 16 = i.toNat := by omega
    have h2 : k % 16 = j := by omega
    exact ⟨this, by rw [h2]; exact hw⟩
  · rintro ⟨h1, h2⟩
    exact ⟨k % 16, by omega, by omega, h2⟩

/-- The in-use list is ascending, holds the marked bytes, and has at most 256 entries (42_tables.md R119). -/
theorem inUseBytes_spec (f : Vector Bool 256) :
    ((inUseBytes f).map (·.toNat)).Pairwise (· < ·) ∧ (∀ b : BitVec 8, b ∈ inUseBytes f ↔ f[b.toNat]? = some true) ∧
      (inUseBytes f).length ≤ 256 := by
  have gen : ∀ (l : List Bool) (k : Nat), k + l.length ≤ 256 →
      (((l.zipIdx k).filterMap (fun e => if e.1 then some (BitVec.ofNat 8 e.2) else none)).map (·.toNat)).Pairwise (· < ·) ∧
      (∀ b : BitVec 8, b ∈ (l.zipIdx k).filterMap (fun e => if e.1 then some (BitVec.ofNat 8 e.2) else none) ↔ k ≤ b.toNat ∧ l[b.toNat - k]? = some true) ∧
      ((l.zipIdx k).filterMap (fun e => if e.1 then some (BitVec.ofNat 8 e.2) else none)).length ≤ l.length := by
    intro l
    induction l with
    | nil => intro k _; simp
    | cons b l ih =>
      intro k hk
      simp only [List.length_cons] at hk
      obtain ⟨h1, h2, h3⟩ := ih (k + 1) (by omega)
      have hget : ∀ x : BitVec 8, (k + 1 ≤ x.toNat ∧ l[x.toNat - (k + 1)]? = some true) ↔ (k + 1 ≤ x.toNat ∧ (b :: l)[x.toNat - k]? = some true) := by
        intro x
        constructor <;> rintro ⟨ha, hb⟩ <;> refine ⟨ha, ?_⟩ <;>
          (have : x.toNat - k = (x.toNat - (k + 1)) + 1 := by omega) <;> simpa [this] using hb
      cases b with
      | false =>
        simp only [List.zipIdx_cons, List.filterMap_cons, Bool.false_eq_true, if_false]
        refine ⟨h1, ?_, by simp only [List.length_cons]; omega⟩
        intro x
        rw [h2 x, hget]
        constructor
        · rintro ⟨ha, hb⟩; exact ⟨by omega, hb⟩
        · rintro ⟨ha, hb⟩
          refine ⟨?_, hb⟩
          by_contra hc
          have : x.toNat - k = 0 := by omega
          simp [this] at hb
      | true =>
        simp only [List.zipIdx_cons, List.filterMap_cons, if_true]
        have hkk : (BitVec.ofNat 8 k).toNat = k := by simp; omega
        refine ⟨?_, ?_, by simp only [List.length_cons]; omega⟩
        · rw [List.map_cons, List.pairwise_cons]
          refine ⟨?_, h1⟩
          intro x hx
          obtain ⟨y, hy, rfl⟩ := List.mem_map.mp hx
          have := ((h2 y).mp hy).1
          omega
        · intro x
          rw [List.mem_cons, h2 x, hget]
          constructor
          · rintro (rfl | ⟨ha, hb⟩)
            · simp [hkk]
            · exact ⟨by omega, hb⟩
          · rintro ⟨ha, hb⟩
            by_cases hc : k + 1 ≤ x.toNat
            · exact .inr ⟨hc, hb⟩
            · left; apply BitVec.eq_of_toNat_eq; omega
  obtain ⟨h1, h2, h3⟩ := gen f.toList 0 (by simp)
  refine ⟨h1, ?_, by unfold inUseBytes; simpa using h3⟩
  intro b
  unfold inUseBytes
  rw [h2 b]
  simp

/-! What the counts of a table are. -/

/-- The least of a list, with a bound. -/
theorem foldl_min_le (l : List Nat) (a : Nat) : l.foldl min a ≤ a ∧ (∀ x ∈ l, l.foldl min a ≤ x) ∧
    (l.foldl min a = a ∨ l.foldl min a ∈ l) := by
  induction l generalizing a with
  | nil => simp
  | cons y l ih =>
    obtain ⟨h1, h2, h3⟩ := ih (min a y)
    simp only [List.foldl_cons, List.mem_cons, forall_eq_or_imp]
    refine ⟨by omega, ⟨by omega, h2⟩, ?_⟩
    rcases h3 with h | h
    · rcases Nat.le_total a y with h' | h'
      · exact .inl (by omega)
      · exact .inr (.inl (by omega))
    · exact .inr (.inr h)

/-- The greatest of a list, with a bound. -/
theorem le_foldl_max (l : List Nat) (b : Nat) : b ≤ l.foldl max b ∧ (∀ x ∈ l, x ≤ l.foldl max b) ∧
    (l.foldl max b = b ∨ l.foldl max b ∈ l) := by
  induction l generalizing b with
  | nil => simp
  | cons y l ih =>
    obtain ⟨h1, h2, h3⟩ := ih (max b y)
    simp only [List.foldl_cons, List.mem_cons, forall_eq_or_imp]
    refine ⟨by omega, ⟨by omega, h2⟩, ?_⟩
    rcases h3 with h | h
    · rcases Nat.le_total b y with h' | h'
      · exact .inr (.inl (by omega))
      · exact .inl (by omega)
    · exact .inr (.inr h)

/-- `minLen` and `maxLen` are the least and the greatest length (42_tables.md R131). -/
theorem withCounts_bounds {lens : List (BitVec 5)} (t : HuffTable) (h : lens ≠ []) :
    (∀ l ∈ lens, (withCounts lens t).minLen.toNat ≤ l.toNat ∧ l.toNat ≤ (withCounts lens t).maxLen.toNat) ∧
      (withCounts lens t).minLen ∈ lens ∧ (withCounts lens t).maxLen ∈ lens := by
  obtain ⟨hm, hl, hi⟩ := foldl_min_le (lens.map (·.toNat)) 31
  obtain ⟨_, hg, hj⟩ := le_foldl_max (lens.map (·.toNat)) 0
  obtain ⟨y, hy⟩ := List.exists_mem_of_ne_nil lens h
  have ym : y.toNat ∈ lens.map (·.toNat) := List.mem_map_of_mem hy
  have y1 := hl _ ym
  have y2 := hg _ ym
  have hi : (lens.map (·.toNat)).foldl min 31 ∈ lens.map (·.toNat) := by
    rcases hi with e | e
    · rw [show (lens.map (·.toNat)).foldl min 31 = y.toNat by omega]; exact ym
    · exact e
  have hj : (lens.map (·.toNat)).foldl max 0 ∈ lens.map (·.toNat) := by
    rcases hj with e | e
    · rw [show (lens.map (·.toNat)).foldl max 0 = y.toNat by omega]; exact ym
    · exact e
  obtain ⟨a, ha, ea⟩ := List.mem_map.mp hi
  obtain ⟨b, hb, eb⟩ := List.mem_map.mp hj
  have e1 : (withCounts lens t).minLen = a := by simp [withCounts, ← ea]
  have e2 : (withCounts lens t).maxLen = b := by simp [withCounts, ← eb]
  rw [e1, e2]
  exact ⟨fun l hl' => by
    rw [ea, eb]; exact ⟨hl _ (List.mem_map_of_mem hl'), hg _ (List.mem_map_of_mem hl')⟩, ha, hb⟩

/-- `count` holds the number of lengths of each value (42_tables.md R131). -/
theorem withCounts_count {lens : List (BitVec 5)} (t : HuffTable) (h : lens.length < 512) {n : Nat} (h1 : 1 ≤ n)
    (hn : n < 21) : ((withCounts lens t).count[n]).toNat = lengthCount lens n := by
  have hc : lengthCount lens n ≤ lens.length := by unfold lengthCount; exact List.length_filter_le ..
  simp only [withCounts, fileOf_getElem]
  rw [if_neg (by omega), BitVec.toNat_ofNat, Nat.mod_eq_of_lt (by omega)]

end Sys2Proof.Laws
end

