-- ==== Sys2Proof/Tests/Slice0.lean ====
section
/-! SUPPORT. The package's own tests: ill-formed terms, words written out from the spec's encodings, one step on small
states with results the spec gives, and for every statement with hypotheses a state that meets them. -/

namespace Sys2Proof.Tests

open Sys2Proof.Machine Sys2Proof.Safety

/-! WellFormed refuses what has no encoding (30_encoding.md R65, R67, R69). -/

theorem test_ill_formed_selector : WellFormed (.tbSelector 6#3) = false ∧ WellFormed (.tbSelector 5#3) = true := by decide
theorem test_ill_formed_mtf_low : WellFormed (.symMtf 1#9) = false ∧ WellFormed (.symMtf 2#9) = true := by decide
theorem test_ill_formed_mtf_high : WellFormed (.symMtf 257#9) = false ∧ WellFormed (.symMtf 256#9) = true := by decide
theorem test_ill_formed_pad :
    WellFormed (.trPad (List.replicate 8 false)) = false ∧ WellFormed (.trPad (List.replicate 7 false)) = true := by decide

/-! Decoding, from bits written out from 30_encoding.md R65, R67 and R72. -/

/-- `'B' 'Z' 'h'`: 0x42 0x5A 0x68. -/
theorem test_decode_sh_magic :
    decode .shMagic
      [false, true, false, false, false, false, true, false, false, true, false, true, true, false, true, false,
        false, true, true, false, true, false, false, false] = .instr .shMagic [] := by decide

/-- A wrong first byte is refused before the second is read (41_framer.md R99). -/
theorem test_decode_sh_magic_wrong :
    decode .shMagic [false, true, false, false, false, false, true, true] = .illegal .headerMagic := by decide

/-- `'9'` is 0x39. -/
theorem test_decode_sh_level :
    decode .shLevel [false, false, true, true, true, false, false, true] = .instr (.shLevel 0x39#8) [] := by decide

theorem test_decode_bh_magic :
    decode .blockMagic
      [false, false, true, true, false, false, false, true, false, true, false, false, false, false, false, true,
        false, true, false, true, true, false, false, true, false, false, true, false, false, true, true, false,
        false, true, false, true, false, false, true, true, false, true, false, true, true, false, false, true] =
      .instr .bhMagic [] := by decide

theorem test_decode_eos_magic :
    decode .blockMagic
      [false, false, false, true, false, true, true, true, false, true, true, true, false, false, true, false,
        false, true, false, false, false, true, false, true, false, false, true, true, true, false, false, false,
        false, true, false, true, false, false, false, false, true, false, false, true, false, false, false, false] =
      .instr .eosMagic [] := by decide

/-- Program P2 stores 19 93 9B 6B (41_framer.md R106). -/
theorem test_decode_bh_crc :
    decode .bhCrc
      [false, false, false, true, true, false, false, true, true, false, false, true, false, false, true, true,
        true, false, false, true, true, false, true, true, false, true, true, false, true, false, true, true] =
      .instr (.bhCrc 0x19939B6B#32) [] := by decide

theorem test_decode_bh_rand : decode .bhRand [true, false] = .instr (.bhRand 1#1) [false] := by decide

/-- Program P4 has `origPtr = 2` (41_framer.md R108). -/
theorem test_decode_bh_origptr :
    decode .bhOrigptr (List.replicate 22 false ++ [true, false]) = .instr (.bhOrigptr 2#24) [] := by decide

/-- Program P4: 0x0300, then 0x7800 (42_tables.md R117, R118). -/
theorem test_decode_bitmap :
    decode .mapL1
        [false, false, false, false, false, false, true, true, false, false, false, false, false, false, false, false] =
      .instr (.mapL1 0x0300#16) [] ∧
    decode .mapL2
        [false, true, true, true, true, false, false, false, false, false, false, false, false, false, false, false] =
      .instr (.mapL2 0x7800#16) [] := by decide

/-- Program P4: two groups, one selector, `"10"` (42_tables.md R124 to R126). -/
theorem test_decode_counts :
    decode .tbNgroups [false, true, false] = .instr (.tbNgroups 2#3) [] ∧
    decode .tbNsel [false, false, false, false, false, false, false, false, false, false, false, false, false, false, true] =
      .instr (.tbNsel 1#15) [] ∧
    decode (.selector 2) [true, false] = .instr (.tbSelector 1#3) [] ∧
    decode (.selector 2) [true, true] = .illegal .badSelector ∧
    decode (.selector 6) [true, true, true, true, true, false] = .instr (.tbSelector 5#3) [] := by decide

theorem test_decode_lengths :
    decode .tbLenStart [false, false, false, true, false] = .instr (.tbLenStart 2#5) [] ∧
    decode .lencode [true, false, true] = .instr .tbLenInc [true] ∧
    decode .lencode [true, true] = .instr .tbLenDec [] ∧ decode .lencode [false, true] = .instr .tbLenStop [true] ∧
    decode .lencode [true] = .need 1 := by decide

/-- The lengths of program P4's table 1 (42_tables.md R135). -/
def lensP4 : List (BitVec 5) := [2#5, 4#5, 4#5, 2#5, 4#5, 2#5, 4#5]

/-- Table 1 of program P4, built from its lengths. -/
def tableP4 : HuffTable :=
  withCodes lensP4 (withCounts lensP4 { huffTableReset with len := fileOverlay lensP4 huffTableReset.len })

/-- The codes 42_tables.md R135 lists for it: symbol 0 is `"00"`, 1 is `"1100"`, 5 is `"10"`, 6 (EOB) is `"1111"`. -/
theorem test_decode_symbols :
    decode (.symbol tableP4 5) [false, false, true] = .instr .symRuna [true] ∧
    decode (.symbol tableP4 5) [true, true, false, false] = .instr .symRunb [] ∧
    decode (.symbol tableP4 5) [true, false] = .instr (.symMtf 5#9) [] ∧
    decode (.symbol tableP4 5) [true, true, true, true, false] = .instr .symEob [false] := by decide +kernel

/-- An incomplete code: lengths 2, 2, 2 leave `"11"` unused (42_tables.md R133). -/
theorem test_decode_bad_code :
    decode (.symbol (withCodes [2#5, 2#5, 2#5]
        (withCounts [2#5, 2#5, 2#5] { huffTableReset with len := fileOverlay [2#5, 2#5, 2#5] huffTableReset.len })) 1)
      [true, true] = .illegal .badCode := by decide +kernel

theorem test_decode_trailer :
    decode .trCrc (List.replicate 31 false ++ [true]) = .instr (.trCrc 1#32) [] ∧
    decode .trPad [true, false] = .instr (.trPad [true, false]) [] := by decide

theorem test_decode_commands :
    decode .command [false, false, false, true, false, false, false, false] = .instr .cmdOpen [] ∧
    decode .command [false, false, true, false, false, false, false, false] = .instr .cmdRead [] ∧
    decode .command [false, false, true, true, false, false, false, false] = .instr .cmdClose [] ∧
    decode .command [false, true, false, false, true, false, true, true] = .instr (.cmdStatus 11#4) [] ∧
    decode .command [false, false, false, true, false, false, false, true] = .reject (.illegalCommand 0x11#8) := by decide

theorem test_decode_source_answers :
    decode .sourceAnswer [true, false, true, false, false, false, false, true, false] = .instr (.srcData 0x42#8) [] ∧
    decode .sourceAnswer [false, false, false, false, false, false, false, false, false] = .instr .srcEoi [] := by decide

/-- Encodings are the same bits (30_encoding.md R67, R72). -/
theorem test_encode :
    encode (.selector 6) (.tbSelector 3#3) = some [true, true, true, false] ∧
    encode .command (.cmdStatus 2#4) = some [false, true, false, false, false, false, true, false] ∧
    encode (.symbol tableP4 5) (.symMtf 4#9) = some [true, true, true, false] := by decide +kernel

/-! One step on a small state. -/

/-- Whether an outcome is a next state with the property `p`. -/
def goes (o : Host.Outcome State Fault Refusal) (p : State → Bool) : Bool :=
  match o with
  | .next t => p t
  | _ => false

/-- A READ in progress in phase `p`, with nothing live and the source `bytes`. -/
def reading (p : Phase) (bytes : List (BitVec 8)) : State :=
  { State.reset with phase := p, job := some .read, source := some bytes }

/-- A READ in progress in phase `p`, with the bits `bits` live. -/
def live (p : Phase) (bits : List Bool) : State :=
  { reading p [] with bsBuff := BitVec.ofNat 32 (valueOf bits), bsLive := BitVec.ofNat 5 bits.length }

/-- The worked example of 40_bitreader.md R95: 0xA5 0x3C give 5, 10 and 60. -/
theorem test_reader_example :
    (let s := absorbByte 0xA5#8 State.reset
     let a := takeBits 3 s
     let b := takeBits 6 (absorbByte 0x3C#8 a.2)
     let c := takeBits 7 b.2
     (valueOf a.1, a.2.bsLive, valueOf b.1, b.2.bsLive, valueOf c.1, c.2.bsLive, c.2.inCount)) =
      (5, 5#5, 10, 7#5, 60, 0#5, 2) := by decide

theorem test_fetch_then_end :
    goes (step (reading (.streamHeader .magic) [0x42#8])) (fun t => t.bsLive == 8#5 && t.inCount == 1) = true ∧
    goes (step (reading (.streamHeader .magic) [])) (fun t => t.errCode == 1#4 && t.errReason == 3#8) = true ∧
    goes (step (reading .blockHeader [])) (fun t => t.errCode == 4#4 && t.errReason == 0#8) = true := by decide

/-- 41_framer.md R102: 0x30 and 0x3A are `LEVEL`, 0x31 is accepted. -/
theorem test_level :
    goes (exec (.shLevel 0x30#8) State.reset) (fun t => t.errCode == 1#4 && t.errReason == 2#8) = true ∧
    goes (exec (.shLevel 0x3A#8) State.reset) (fun t => t.errReason == 2#8) = true ∧
    goes (exec (.shLevel 0x31#8) State.reset) (fun t => t.blockSize100k == 1#4 && blockLimit t == 100000) = true := by
  decide

/-- `BH_CRC` initialises the block (41_framer.md R106). -/
theorem test_bh_crc :
    goes (exec (.bhCrc 7#32) { State.reset with runS := 3#20, nGroups := 2#3 })
      (fun t => t.storedBlockCRC == 7#32 && t.blockCRC == 0xFFFFFFFF#32 && t.runS == 0#20 && t.runN == 1#20 &&
        t.nGroups == 0#3) = true := by decide

theorem test_bh_rand_untrusted :
    goes (exec (.bhRand 1#1) { State.reset with cfg := { Config.default with rnumsTrusted := false } })
      (fun t => t.refusalMark) = true ∧
    goes (exec (.bhRand 1#1) State.reset) (fun t => t.randomised == 1#1 && !t.refusalMark) = true := by decide

/-- 42_tables.md R117, R118 on program P4: ranges 6 and 7, bytes `a b c d` and `r`. -/
theorem test_bitmap :
    goes (exec (.mapL1 0x0300#16) State.reset) (fun t => t.mapRange == 6#4 && t.phase == .blockTables .mapL2) = true ∧
    goes (exec (.mapL2 0x7800#16) { State.reset with inUse16 := 0x0300#16, mapRange := 6#4 })
      (fun t => t.mapRange == 7#4 && inUseBytes t.inUse == [0x61#8, 0x62#8, 0x63#8, 0x64#8]) = true := by
  decide +kernel

/-- The bytes of program P4 in use. -/
def usedP4 : State :=
  { reading (.blockTables .alphabet) [] with
    inUse := markRange 7#4 0x2000#16 (markRange 6#4 0x7800#16 (Vector.replicate 256 false)) }

theorem test_in_use_list :
    goes (step usedP4) (fun t => t.nInUse == 5#9 && t.alphaSize == 7#9 && t.seqToUnseq[4] == 0x72#8) = true ∧
    goes (step (reading (.blockTables .alphabet) [])) (fun t => t.errCode == 5#4 && t.errReason == 1#8) = true := by
  decide +kernel

theorem test_counts :
    goes (exec (.tbNgroups 7#3) State.reset) (fun t => t.errReason == 2#8) = true ∧
    goes (exec (.tbNgroups 6#3) State.reset) (fun t => t.nGroups == 6#3) = true ∧
    goes (exec (.tbNsel 0#15) State.reset) (fun t => t.errReason == 3#8) = true := by decide

/-- The example of 42_tables.md R127: 0, 2, 2, 0, 1 gives 0, 2, 1, 1, 2. -/
def selectorsR127 : State :=
  { reading (.blockTables .selectorList) [] with
    nGroups := 3#3, nSelectors := 5#15, selectorMtf := [(0, 0#3), (1, 2#3), (2, 2#3), (3, 0#3), (4, 1#3)] }

theorem test_selector_list :
    goes (step selectorsR127)
      (fun t => t.selector == [(0, 0#3), (1, 2#3), (2, 1#3), (3, 1#3), (4, 2#3)] && t.phase == .blockTables .lenStart) =
      true := by decide

theorem test_selector_store :
    goes (exec (.tbSelector 1#3) { State.reset with nGroups := 2#3, nSelectors := 1#15 })
      (fun t => t.selectorMtf == [(0, 1#3)] && t.phase == .blockTables .selectorList) = true ∧
    goes (exec (.tbSelector 2#3) { State.reset with nGroups := 2#3, nSelectors := 1#15 })
      (fun t => t.errReason == 4#8) = true := by decide

/-- 42_tables.md R129: from 20, `"10" "11" "0"` fails after its first two bits. -/
theorem test_length_codes :
    goes (exec .tbLenInc { State.reset with curr := 20#5 }) (fun t => t.curr == 21#5) = true ∧
    goes (exec .tbLenDec { State.reset with curr := 3#5 }) (fun t => t.curr == 2#5) = true ∧
    goes (exec (.tbLenStart 31#5) State.reset) (fun t => t.curr == 31#5) = true ∧
    goes (step { reading (.blockTables .lencode) [0xFF#8] with curr := 21#5 })
      (fun t => t.errReason == 5#8 && t.inCount == 0) = true := by decide

theorem test_length_stop :
    goes (exec .tbLenStop { State.reset with curr := 4#5, tblIdx := 1#3, symIdx := 6#9, alphaSize := 7#9, nGroups := 2#3 })
      (fun t => (t.tables[1].len)[6] == 4#5 && t.tblIdx == 0#3 && t.phase == .blockTables .build) = true := by
  decide +kernel

/-- Table 1 of program P4 before it is built. -/
def buildP4 : State :=
  { reading (.blockTables .build) [] with
    alphaSize := 7#9, nInUse := 5#9, nGroups := 2#3, tblIdx := 1#3
    tables := State.reset.tables.set 1 { huffTableReset with len := fileOverlay lensP4 huffTableReset.len } }

/-- 42_tables.md R135: `perm = [0, 3, 5, 1, 2, 4, 6]`, `firstCode[4] = 12`, `firstIdx[4] = 3`, lengths 2 to 4. -/
theorem test_build :
    goes (step buildP4)
      (fun t => (t.tables[1].perm.toList.take 7 == [0#9, 3#9, 5#9, 1#9, 2#9, 4#9, 6#9]) &&
        t.tables[1].firstCode[3] == 6#21 && t.tables[1].firstCode[4] == 12#21 && t.tables[1].firstIdx[4] == 3#9 &&
        t.tables[1].minLen == 2#5 && t.tables[1].maxLen == 4#5 && t.phase == .blockTables .symbolInit) = true := by
  decide +kernel

/-- Three codes of length 1 are over-subscribed (42_tables.md R133). -/
def overP : State :=
  { reading (.blockTables .build) [] with
    alphaSize := 3#9, nInUse := 1#9, nGroups := 2#3
    tables := State.reset.tables.set 0 { huffTableReset with len := fileOverlay [1#5, 1#5, 1#5] huffTableReset.len } }

theorem test_oversubscribed : goes (step overP) (fun t => t.errReason == 6#8) = true := by decide +kernel

/-- Program P4's symbols start with the in-use bytes `a b c d r` (43_symbols.md R138, R147). -/
def symbolsP4 : State :=
  { reading (.blockSymbols .code) [] with
    blockSize100k := 1#4, runN := 1#20, nInUse := 5#9, alphaSize := 7#9, nGroups := 2#3, nSelectors := 1#15
    mtfSym := fileOverlay [0x61#8, 0x62#8, 0x63#8, 0x64#8, 0x72#8] State.reset.mtfSym, unzftab := clearedCounts }

/-- 43_symbols.md R147: symbol 5 writes `r` and moves it to the front. -/
theorem test_sym_mtf :
    goes (exec (.symMtf 5#9) symbolsP4)
      (fun t => t.ll8 == [(0, 0x72#8)] && t.nblock == 1#20 && t.mtfSym[0] == 0x72#8 && t.mtfSym[1] == 0x61#8 &&
        t.mtfSym[4] == 0x64#8 && memGet t.unzftab 0x72 == some 1#20) = true := by decide +kernel

/-- 43_symbols.md R145: `B A` writes 4; R147: RUNA twice writes 3. -/
theorem test_runs :
    goes (execDigits [true, false] symbolsP4) (fun t => t.runS == 4#20 && t.runN == 4#20) = true ∧
    goes (execDigits [false, false] symbolsP4) (fun t => t.runS == 3#20 && t.phase == .blockSymbols .group) = true ∧
    goes (exec .symRunb { symbolsP4 with nblock := 99999#20 }) (fun t => t.errReason == 9#8 && t.runS == 0#20) = true := by
  decide +kernel

/-- 43_symbols.md R148: EOB flushes the run (here three `a`). -/
theorem test_sym_eob :
    goes (exec .symEob { symbolsP4 with runS := 3#20, runN := 4#20 })
      (fun t => t.ll8 == [(0, 0x61#8), (1, 0x61#8), (2, 0x61#8)] && t.nblock == 3#20 && t.phase == .blockSetup &&
        memGet t.unzftab 0x61 == some 3#20 && t.runN == 1#20) = true := by decide +kernel

/-- A full block refuses one more byte (43_symbols.md R143). -/
theorem test_block_overflow :
    goes (exec (.symMtf 2#9) { symbolsP4 with nblock := 100000#20 }) (fun t => t.errReason == 9#8) = true := by
  decide +kernel

theorem test_groups :
    goes (step { symbolsP4 with phase := .blockSymbols .group, selector := [(0, 1#3)] })
      (fun t => t.curTable == 1#3 && t.groupPos == 49#6 && t.groupNo == 1#15) = true ∧
    goes (step { symbolsP4 with phase := .blockSymbols .group, groupNo := 1#15 }) (fun t => t.errReason == 7#8) = true := by
  decide

/-- The block `ab` with its counts, as 44_inverse_bwt.md R158 uses it. -/
def blockAb : State :=
  { reading .blockSetup [] with
    ll8 := [(0, 0x61#8), (1, 0x62#8)], nblock := 2#20
    unzftab := memSet 0x61 1#20 (memSet 0x62 1#20 clearedCounts) }

/-- 44_inverse_bwt.md R158: `tt = [0, 1]`, and the walk starts at 0. -/
theorem test_setup :
    goes (step blockAb) (fun t => t.tt == [(0, 0#20), (1, 1#20)] && t.tPos == 0#20 && t.phase == .blockOutput) = true ∧
    goes (step { blockAb with origPtr := 2#24 }) (fun t => t.errReason == 10#8) = true := by decide +kernel

/-- A block of one `a`, as program P2 has it, being output. -/
def outputA : State :=
  { reading .blockOutput [] with
    ll8 := [(0, 0x61#8)], tt := [(0, 0#20)], nblock := 1#20, blockCRC := crcInit, storedBlockCRC := 0x19939B6B#32 }

/-- 45_output.md R174: the CRC of `a`; R173: the count byte after four equal bytes. -/
theorem test_output :
    goes (step outputA)
      (fun t => t.answers == [.byte 0x61#8] && crcComputed t.blockCRC == 0x19939B6B#32 && t.job == none) = true ∧
    goes (step { outputA with rleCount := 4#3, rlePrev := 0x61#8 }) (fun t => t.repLeft == 0x61#8 && t.answers == []) =
      true ∧
    goes (step { outputA with rleCount := 4#3, i2 := 1#20 }) (fun t => t.errReason == 11#8) = true := by decide

/-- The check values of 45_output.md R169. -/
theorem test_crc :
    crcTable 1#8 = 0x04C11DB7#32 ∧ crcTable 2#8 = 0x09823B6E#32 ∧ crcTable 128#8 = 0x690CE0EE#32 ∧
    crcTable 255#8 = 0xB1F740B4#32 ∧
    crcComputed ([0x31#8, 0x32#8, 0x33#8, 0x34#8, 0x35#8, 0x36#8, 0x37#8, 0x38#8, 0x39#8].foldl crcByte crcInit) =
      0xFC891918#32 := by decide +kernel

/-- The check values of 45_output.md R162. -/
theorem test_rnums :
    rnums.length = 512 ∧ rnums.sum = 278212 ∧ rnums[0]? = some 619 ∧ rnums[1]? = some 720 ∧ rnums[511]? = some 638 := by
  decide +kernel

theorem test_block_end :
    goes (step { outputA with phase := .blockEnd, blockCRC := 0xE66C6494#32 })
      (fun t => t.combinedCRC == 0x19939B6B#32 && t.blockCount == 1 && t.phase == .blockHeader) = true ∧
    goes (step { outputA with phase := .blockEnd }) (fun t => t.errCode == 3#4 && t.errReason == 1#8) = true := by decide

/-- The second half of a stored combined CRC of 0, with one pad bit after it, which is not read (41_framer.md R114). -/
def trailerEnd : State :=
  { live .streamTrailer (List.replicate 16 false ++ [true]) with part := List.replicate 16 false }

theorem test_trailer :
    goes (exec (.trCrc 0#32) State.reset) (fun t => t.phase == .endOfStream) = true ∧
    goes (exec (.trCrc 1#32) State.reset)
      (fun t => t.errCode == 3#4 && t.errReason == 2#8 && t.storedCombinedCRC == 1#32) = true ∧
    goes (step trailerEnd) (fun t => t.phase == .endOfStream && t.bsLive == 1#5 && t.answers == []) = true := by
  decide

/-- 46_host.md R176: after OPEN `S_STATUS` reads 0x81. -/
theorem test_open :
    goes (exec .cmdOpen { State.reset with handover := [1#8] })
      (fun t => statusRegister t 0#4 == 0x81#32 && t.answers == [.ack] && t.source == some [1#8]) = true ∧
    exec .cmdRead State.reset = .refused .readWhileClosed := ⟨by decide, rfl⟩

theorem test_close_keeps_the_error :
    goes (exec .cmdClose { State.reset with phase := .failed, errCode := 3#4, errReason := 1#8 })
      (fun t => t.phase == .closed && statusRegister t 1#4 == 0x13#32) = true := by decide

/-- 95_test_vectors.md section 3.15: after OPEN, READ, CLOSE on program P2, `S0` reads 0x1900: RLECNT is still 1. -/
theorem test_close_keeps_the_run_count :
    goes (exec .cmdClose { outputA with blockSize100k := 9#4, rleCount := 1#3, job := none })
      (fun t => statusRegister t 0#4 == 0x1900#32) = true := by decide

/-- 46_host.md R184: on program P4 `STATUS(11)` answers 0x0014000A. -/
theorem test_status :
    goes (exec (.cmdStatus 11#4) { symbolsP4 with job := none }) (fun t => t.answers == [.value 0x0014000A#32]) = true := by
  decide

/-- 46_host.md R181: a short count, then `EndOfStream`. -/
theorem test_read_bytes :
    goes (step { reading (.endOfStream) [] with job := some (.readBytes 8 3) })
      (fun t => t.rbReturns == [.count 3] && t.job == none) = true ∧
    goes (step { reading (.endOfStream) [] with job := some (.readBytes 8 0) })
      (fun t => t.rbReturns == [.endOfStream]) = true ∧
    goes (exec (.cmdReadBytes 0) { State.reset with phase := .failed }) (fun t => t.rbReturns == [.count 0]) = true := by
  decide

/-! The host's question about the opcode table (log entry 11). -/

theorem test_table_words :
    decodeTableWord 24 0x425A68 = some .shMagic ∧ decodeTableWord 48 0x314159265359 = some .bhMagic ∧
    decodeTableWord 48 0x177245385090 = some .eosMagic ∧ decodeTableWord 2 0b10 = some .tbLenInc ∧
    decodeTableWord 2 0b11 = some .tbLenDec ∧ decodeTableWord 8 0x10 = some .cmdOpen ∧
    decodeTableWord 8 0x45 = some (.cmdStatus 5#4) ∧ decodeTableWord 16 0x142 = some (.srcData 0x42#8) := by decide

theorem test_first_step_runs_the_placed_word :
    goes (step (State.reset.withFetchWord 24 0x425A68)) (fun t => t.phase == .streamHeader .level) = true ∧
    goes (step (State.reset.withFetchWord 32 0x19939B6B)) (fun t => t.storedBlockCRC == 0x19939B6B#32) = true ∧
    goes (step (State.reset.withFetchWord 8 0x10)) (fun t => t.answers == [.ack]) = true ∧
    goes (step (State.reset.withFetchWord 16 0x142)) (fun t => t.inCount == 1) = true := by decide

/-! Witnesses: for every statement with hypotheses, states and operands that meet them all, one for each clause, at the
boundaries of its range. -/

/-- An outcome with a property is a next state with it. -/
theorem goes_next {o : Host.Outcome State Fault Refusal} {p : State → Bool} (h : goes o p = true) :
    ∃ t, o = .next t ∧ p t = true := by
  cases o with
  | next t => exact ⟨t, rfl, h⟩
  | fault f => exact absurd h (by simp [goes])
  | refused r => exact absurd h (by simp [goes])

theorem some_of_any {α : Type} {o : Option α} {p : α → Bool} (h : o.any p = true) : ∃ c, o = some c ∧ p c = true := by
  cases o with
  | none => exact absurd h (by simp)
  | some c => exact ⟨c, rfl, h⟩

/-- A session that failed, with a reset and a command still to come. -/
def failedThenReset : State :=
  { State.reset with phase := .failed, errCode := 3#4, errReason := 1#8, port := [.reset, .command 0x10#8 [1#8]] }

/-- A closed session with counts left, and OPEN next at the port. -/
def reopened : State :=
  { State.reset with blockCount := 2, outCount := 2, combinedCRC := 7#32, port := [.command 0x10#8 [1#8]] }

theorem witness_HardwareResetClearsTheMachine :
    failedThenReset.refusalMark = false ∧ failedThenReset.job = none ∧
      failedThenReset.port = .reset :: [.command 0x10#8 [1#8]] := by decide

theorem witness_OpenStartsASession :
    (let s := { failedThenReset with phase := .closed }
     s.job = none ∧ s.phase = .closed) ∧ State.reset.job = none ∧ State.reset.phase = .closed := by decide

theorem witness_ReadBeginsInAnOpenSession :
    failedThenReset.job = none ∧ failedThenReset.phase ≠ .closed ∧ 0 < 1 := by decide

theorem witness_CloseOnlyClosesThePhase : failedThenReset.job = none ∧ State.reset.job = none := by decide

theorem witness_StatusAnswersTheRegister :
    failedThenReset.job = none ∧ 12 ≤ (12#4).toNat ∧ 12 ≤ (15#4).toNat ∧ ¬ 12 ≤ (11#4).toNat := by decide

theorem witness_RefusedInteractionsHaveNoTransition :
    (failedThenReset.job = none ∧ failedThenReset.phase ≠ .closed) ∧
    (State.reset.job = none ∧ State.reset.phase = .closed) ∧ (reading .blockEnd []).job ≠ none ∧
    ({ State.reset with refusalMark := true } : State).refusalMark = true ∧
    ∀ w ∈ [0#8, 0x11#8, 0x3F#8, 0x50#8, 0xFF#8],
      let s : State := { State.reset with port := [.command w []] }
      s.refusalMark = false ∧ s.job = none ∧ s.port = .command w [] :: [] ∧
        ¬ (w = 0x10#8 ∨ w = 0x20#8 ∨ w = 0x30#8 ∨ (0x40 ≤ w.toNat ∧ w.toNat ≤ 0x4F)) := by decide

theorem witness_IdleMachineKeepsItsState :
    State.reset.refusalMark = false ∧ State.reset.job = none ∧ State.reset.port = [] := by decide

/-- A complete element, one not complete, and an illegal one, each with exactly the bits its `GetBits` asks for. -/
theorem witness_StepRunsTheDecodedInstruction :
    (let s := live (.streamHeader .level) (bitsOf 8 0x39)
     s.refusalMark = false ∧ s.job ≠ none ∧ expected s = some .shLevel ∧ decode .shLevel s.part = .need 8 ∧
      8 ≤ s.bsLive.toNat ∧ decode .shLevel (s.part ++ (takeBits 8 s).1) = .instr (.shLevel 0x39#8) []) ∧
    (let s := live .blockHeader (bitsOf 24 0x314159)
     s.refusalMark = false ∧ s.job ≠ none ∧ expected s = some .blockMagic ∧ decode .blockMagic s.part = .need 24 ∧
      24 ≤ s.bsLive.toNat ∧ decode .blockMagic (s.part ++ (takeBits 24 s).1) = .need 24) ∧
    (let s := live (.streamHeader .magic) (bitsOf 8 0x43)
     s.refusalMark = false ∧ s.job ≠ none ∧ expected s = some .shMagic ∧ decode .shMagic s.part = .need 8 ∧
      8 ≤ s.bsLive.toNat ∧ decode .shMagic (s.part ++ (takeBits 8 s).1) = .illegal .headerMagic) := by decide

/-- Too few live bits, with a byte and with none at the source; the pad; a command and a READ_BYTES at the port. -/
theorem witness_StepRunsTheDecodedInstruction_ports :
    (let s := { live (.streamHeader .level) (bitsOf 7 0) with source := some [1#8] }
     s.job ≠ none ∧ expected s = some .shLevel ∧ decode .shLevel s.part = .need 8 ∧ s.bsLive.toNat < 8 ∧
      s.source = some (1#8 :: [])) ∧
    (let s := live (.streamHeader .level) (bitsOf 7 0)
     s.job ≠ none ∧ expected s = some .shLevel ∧ decode .shLevel s.part = .need 8 ∧ s.bsLive.toNat < 8 ∧
      s.source = some []) ∧
    (let s := trailerEnd
     s.job ≠ none ∧ expected s = some .trCrc ∧ decode .trCrc s.part = .need 16 ∧ 16 ≤ s.bsLive.toNat ∧
      decode .trCrc (s.part ++ (takeBits 16 s).1) = .instr (.trCrc 0#32) [] ∧ s.phase = .streamTrailer ∧
      goes (exec (.trCrc 0#32) { (takeBits 16 s).2 with part := [] }) (fun t => decide (t.phase = .endOfStream)) = true) ∧
    (let s := { State.reset with port := [.command 0x10#8 [2#8]] }
     s.job = none ∧ s.port = .command 0x10#8 [2#8] :: [] ∧
      decode .command (bitsOf 8 (0x10#8).toNat) = .instr .cmdOpen []) ∧
    (let s := { State.reset with port := [.readBytes 0] }
     s.job = none ∧ s.port = .readBytes 0 :: []) := by decide

theorem witness_SourceAnswersEnterTheReader :
    State.reset.bsLive.toNat ≤ 23 ∧ (live .blockHeader (bitsOf 23 5)).bsLive.toNat = 23 := by decide

theorem witness_GetBitsTakesTheFirstLiveBits :
    0 ≤ State.reset.bsLive.toNat ∧ 31 ≤ (live .blockHeader (bitsOf 31 5)).bsLive.toNat := by decide

/-- A pass that fetches, one that takes 24 bits, and an internal action that takes none. -/
theorem witness_StreamIsReadForward :
    (∃ t, step (reading .blockHeader [1#8]) = .next t ∧ (t.bsLive == 8#5) = true) ∧
    (∃ t, step (live .blockHeader (bitsOf 24 0x314159)) = .next t ∧ (t.bsLive == 0#5) = true) ∧
    (∃ t, step (reading .blockSetup []) = .next t ∧ (t.bsLive == 0#5) = true) ∧
    (reading .blockHeader [1#8]).job ≠ none ∧ (live .blockHeader (bitsOf 24 0x314159)).job ≠ none ∧
      (reading .blockSetup []).job ≠ none :=
  ⟨goes_next (by decide), goes_next (by decide), goes_next (by decide), by decide, by decide, by decide⟩

/-- Seven live bits between elements, and 31 inside a `GetBits(24)`. -/
theorem witness_LiveBitsStayBounded :
    (readerBound (live .blockSetup (bitsOf 7 0)) ∧
      ∃ t, step (live .blockSetup (bitsOf 7 0)) = .next t ∧ (t.errReason == 10#8) = true) ∧
    (readerBound (live .blockHeader (bitsOf 31 0)) ∧
      ∃ t, step (live .blockHeader (bitsOf 31 0)) = .next t ∧ (t.bsLive == 7#5) = true) :=
  ⟨⟨.inl (by decide), goes_next (by decide)⟩,
    .inr (.inr (.inr ⟨.blockMagic, 24, by decide, by decide, by decide, by decide⟩)), goes_next (by decide)⟩

/-- A table of the lengths `lens`, built. -/
def built (lens : List (BitVec 5)) : HuffTable :=
  withCodes lens (withCounts lens { huffTableReset with len := fileOverlay lens huffTableReset.len })

theorem fileOverlay_twice {α : Type} {n : Nat} (xs : List α) (f : Vector α n) :
    fileOverlay xs (fileOverlay xs f) = fileOverlay xs f := by
  apply Vector.ext
  intro i hi
  rw [Laws.fileOverlay_getElem, Laws.fileOverlay_getElem]
  split <;> rfl

theorem built_again (lens : List (BitVec 5)) : withCodes lens (withCounts lens (built lens)) = built lens := by
  simp only [built, withCodes, withCounts]
  simp [fileOverlay_twice]

theorem built_len (lens : List (BitVec 5)) (h : lens.length ≤ 258) :
    (built lens).len.toList.take lens.length = lens := by
  show (fileOverlay lens huffTableReset.len).toList.take lens.length = lens
  simp [fileOverlay, List.take_of_length_le h]

theorem built_canonical {lens : List (BitVec 5)} {n : Nat} (hn : lens.length = n) (h : n ≤ 258)
    (hl : ∀ l ∈ lens, lengthLegal l = true) (hc : codeSpace lens ≤ 2 ^ 20) :
    canonicalTable ((built lens).len.toList.take n) (built lens) := by
  subst hn
  rw [built_len lens h]
  exact ⟨built_len lens h, hl, hc, built_again lens⟩

/-- The table of program P4 with five bytes in use, a complete code of three symbols, and the widest alphabet. -/
theorem witness_canonicalTable :
    canonicalTable ((built lensP4).len.toList.take 7) (built lensP4) ∧
    canonicalTable ((built [1#5, 2#5, 2#5]).len.toList.take 3) (built [1#5, 2#5, 2#5]) ∧
    canonicalTable ((built (List.replicate 258 9#5)).len.toList.take 258) (built (List.replicate 258 9#5)) :=
  ⟨built_canonical rfl (by decide) (by decide) (by decide), built_canonical rfl (by decide) (by decide) (by decide),
    built_canonical List.length_replicate (by decide) (by decide +kernel) (by decide +kernel)⟩

/-- Seven bits of a symbol stream of program P4's table 1. -/
def symbolStream : State :=
  { live (.blockSymbols .code) (bitsOf 7 0b1111001) with
    nInUse := 5#9, alphaSize := 7#9, curTable := 1#3, tables := State.reset.tables.set 1 (built lensP4) }

theorem witness_ElementNextInTheStreamIsExecuted :
    (let s := reading (.streamHeader .magic) [0x42#8, 0x5A#8, 0x68#8, 0x39#8]
     s.refusalMark = false ∧ s.job ≠ none ∧ expected s = some .shMagic ∧ WellFormed .shMagic = true ∧
      encode .shMagic .shMagic = some (bitsOf 24 0x425A68) ∧ s.part = [] ∧ s.bsLive.toNat < 8 ∧
      pendingBits s = bitsOf 24 0x425A68 ++ bitsOf 8 0x39) ∧
    (symbolStream.refusalMark = false ∧ symbolStream.job ≠ none ∧
      WellFormed .symEob = true ∧
      encode (.symbol (built lensP4) 5) .symEob = some [true, true, true, true] ∧ symbolStream.part = [] ∧
      symbolStream.bsLive.toNat < 8 ∧ pendingBits symbolStream = [true, true, true, true] ++ [false, false, true] ∧
      1 ≤ 5 ∧ 5 ≤ 256) ∧
    expected symbolStream = some (.symbol (built lensP4) 5) :=
  ⟨by decide, by decide +kernel, rfl⟩

theorem witness_DecodingInvertsEncoding :
    ((∀ t k, Expect.selector 6 ≠ .symbol t k) ∧ Expect.selector 6 ≠ .trPad ∧ WellFormed (.tbSelector 5#3) = true ∧
      encode (.selector 6) (.tbSelector 5#3) = some [true, true, true, true, true, false]) ∧
    ((∀ t k, Expect.command ≠ .symbol t k) ∧ Expect.command ≠ .trPad ∧ WellFormed (.cmdStatus 15#4) = true ∧
      encode .command (.cmdStatus 15#4) = some (bitsOf 8 0x4F)) :=
  ⟨⟨(by intro _ _ h; cases h), by decide, by decide, by decide⟩, ⟨(by intro _ _ h; cases h), by decide, by decide, by decide⟩⟩

theorem witness_EncodingInvertsDecoding :
    ((∀ t k, Expect.selector 1 ≠ .symbol t k) ∧ (∀ limit, Expect.selector 1 = .selector limit → 1 ≤ limit ∧ limit ≤ 6) ∧
      decode (.selector 1) [false, true] = .instr (.tbSelector 0#3) [true]) ∧
    ((∀ t k, Expect.selector 6 ≠ .symbol t k) ∧ (∀ limit, Expect.selector 6 = .selector limit → 1 ≤ limit ∧ limit ≤ 6) ∧
      decode (.selector 6) [true, true, true, true, true, false] = .instr (.tbSelector 5#3) []) :=
  ⟨⟨(by intro _ _ h; cases h), (by intro l h; cases h; decide), by decide⟩,
    ⟨(by intro _ _ h; cases h), (by intro l h; cases h; decide), by decide⟩⟩

/-- The other illegal elements: the second 1-bit of a selector of two groups, the bits `11` under a table of three codes of
two bits, and the second half of a magic one below `BH_MAGIC`, under each reading. -/
theorem witness_StepRunsTheDecodedInstruction_illegal :
    (let s := { live (.blockTables .selector) [true] with nGroups := 2#3, part := [true] }
     s.refusalMark = false ∧ s.job ≠ none ∧ expected s = some (.selector 2) ∧ decode (.selector 2) s.part = .need 1 ∧
      1 ≤ s.bsLive.toNat ∧ decode (.selector 2) (s.part ++ (takeBits 1 s).1) = .illegal .badSelector) ∧
    (let e := .symbol (built [2#5, 2#5, 2#5]) 1
     let s := { live (.blockSymbols .code) [true, true] with
                nInUse := 1#9, tables := State.reset.tables.set 0 (built [2#5, 2#5, 2#5]) }
     s.refusalMark = false ∧ s.job ≠ none ∧ expected s = some e ∧ decode e s.part = .need 2 ∧ 2 ≤ s.bsLive.toNat ∧
      decode e (s.part ++ (takeBits 2 s).1) = .illegal .badCode) ∧
    ∀ strict : Bool,
      let s := { live .blockHeader (bitsOf 24 0x265358) with
                 part := bitsOf 24 0x314159, cfg := { Config.default with strictBlockMagic := strict } }
      s.refusalMark = false ∧ s.job ≠ none ∧ expected s = some .blockMagic ∧ decode .blockMagic s.part = .need 24 ∧
        24 ≤ s.bsLive.toNat ∧ decode .blockMagic (s.part ++ (takeBits 24 s).1) = .illegal .blockMagic ∧
        s.cfg.strictBlockMagic = strict := by decide +kernel

/-- What is refused: a wrong third byte of the signature (41_framer.md R99), the greatest word that is no magic, and `11`
as a selector of two groups (42_tables.md R126). -/
theorem witness_EncodingInvertsDecoding_refused :
    (0x30#8 ≠ 0x5A#8 ∧ 0x30#8 ≠ 0x68#8 ∧
      decode .shMagic (bitsOf 8 0x42 ++ bitsOf 8 0x5A ++ bitsOf 8 0x30) = .illegal .headerMagic) ∧
    ((bitsOf 24 0).length < 48 ∧ (bitsOf 47 0).length < 48 ∧ 2 ^ 48 - 1 < 2 ^ 48 ∧ 2 ^ 48 - 1 ≠ 0x314159265359 ∧
      2 ^ 48 - 1 ≠ 0x177245385090 ∧ decode .blockMagic (bitsOf 48 (2 ^ 48 - 1)) = .illegal .blockMagic) ∧
    (1 ≤ 2 ∧ decode (.selector 2) [true] = .need 1 ∧ decode (.selector 2) [true, true] = .illegal .badSelector ∧
      decode (.selector 1) [true] = .illegal .badSelector) := by decide

/-- Both directions, at one and at 256 bytes in use; `witness_canonicalTable` has the tables. -/
theorem witness_CanonicalCodesDecode :
    (1 ≤ 1 ∧ 1 ≤ 256 ∧ encode (.symbol (built [1#5, 2#5, 2#5]) 1) .symEob = some [true, true] ∧
      decode (.symbol (built [1#5, 2#5, 2#5]) 1) [true, true, false] = .instr .symEob [false]) ∧
    (1 ≤ 256 ∧ 256 ≤ 256 ∧
      encode (.symbol (built (List.replicate 258 9#5)) 256) (.symMtf 256#9) = some (bitsOf 9 256) ∧
      decode (.symbol (built (List.replicate 258 9#5)) 256) (bitsOf 9 256) = .instr (.symMtf 256#9) []) := by
  decide +kernel

/-- With one byte in use a table has three codes. -/
theorem encode_symbol_one {t : HuffTable} {j : Instr} {word : List Bool} (h : encode (.symbol t 1) j = some word) :
    ∃ s < 3, encodeSymbol t s = some word := by
  cases j
  case symRuna => exact ⟨0, by decide, h⟩
  case symRunb => exact ⟨1, by decide, h⟩
  case symEob => exact ⟨2, by decide, h⟩
  case symMtf n =>
    have h : (if 2 ≤ n.toNat ∧ n.toNat ≤ 1 then encodeSymbol t n.toNat else none) = some word := h
    rw [if_neg (fun hn => absurd (Nat.le_trans hn.1 hn.2) (by decide))] at h
    exact nomatch h
  all_goals exact nomatch (h : none = some word)

theorem no_code {t : HuffTable} {bits : List Bool}
    (h : ∀ s < 3, (encodeSymbol t s).all (fun w => !w.isPrefixOf bits) = true) :
    ∀ j word, encode (.symbol t 1) j = some word → ¬ word <+: bits := by
  intro j word hj
  obtain ⟨s, hs, hw⟩ := encode_symbol_one hj
  have hp : word.isPrefixOf bits = false := by simpa [hw] using h s hs
  simp [← List.isPrefixOf_iff_prefix, hp]

/-- The incomplete code of error program E17 (95_test_vectors.md section 4): `11` begins with no symbol's code, and a
first bit is not yet refused; with lengths 1, 3 and 3, `11` asks for one more bit. -/
theorem witness_CanonicalCodesDecode_badCode :
    (let t := built [2#5, 2#5, 2#5]
     canonicalTable (t.len.toList.take 3) t ∧ t.minLen.toNat = 2 ∧ t.maxLen.toNat = 2 ∧
      (∀ j word, encode (.symbol t 1) j = some word → ¬ word <+: [true, true]) ∧
      (∀ j word, encode (.symbol t 1) j = some word → ¬ word <+: [true]) ∧
      decode (.symbol t 1) [true, true] = .illegal .badCode ∧ decode (.symbol t 1) [true] = .need 1) ∧
    (let t := built [1#5, 3#5, 3#5]
     canonicalTable (t.len.toList.take 3) t ∧ t.minLen.toNat = 1 ∧ t.maxLen.toNat = 3 ∧
      (∀ j word, encode (.symbol t 1) j = some word → ¬ word <+: [true, true]) ∧
      decode (.symbol t 1) [true, true] = .need 1) :=
  ⟨⟨built_canonical rfl (by decide) (by decide) (by decide), by decide +kernel, by decide +kernel,
      no_code (by decide +kernel), no_code (by decide +kernel), by decide +kernel, by decide +kernel⟩,
    ⟨built_canonical rfl (by decide) (by decide) (by decide), by decide +kernel, by decide +kernel,
      no_code (by decide +kernel), by decide +kernel⟩⟩

/-- A complete code, whose space is full, at the least and the greatest length. -/
theorem witness_CodeSpaceBoundsTheCodes :
    codeSpace [1#5, 1#5] = 2 ^ 20 ∧ codeSpace [20#5, 20#5] ≤ 2 ^ 20 ∧ 1 ≤ 1 ∧ 1 ≤ 20 ∧ 20 ≤ 20 := by decide

theorem witness_HeaderSetsTheBlockSize :
    (0x31 ≤ (0x31#8).toNat ∧ (0x31#8).toNat ≤ 0x39) ∧ (0x31 ≤ (0x39#8).toNat ∧ (0x39#8).toNat ≤ 0x39) ∧
    ((0x30#8).toNat < 0x31 ∨ 0x39 < (0x30#8).toNat) ∧ ((0x3A#8).toNat < 0x31 ∨ 0x39 < (0x3A#8).toNat) := by decide

theorem witness_BlockHeaderFieldsAreStored :
    (0#1 = 0#1 ∨ State.reset.cfg.rnumsTrusted = true) ∧ (1#1 = 0#1 ∨ State.reset.cfg.rnumsTrusted = true) ∧
    ({ State.reset with cfg := { Config.default with rnumsTrusted := false } } : State).cfg.rnumsTrusted = false := by
  decide

/-- The second half of a magic one below `BH_MAGIC`, under each reading, and of the greatest 48-bit word. -/
theorem witness_UnrecognisedMagicEndsTheStream :
    (let s := { live .blockHeader (bitsOf 24 0x265358) with part := bitsOf 24 0x314159 }
     s.refusalMark = false ∧ s.job = some .read ∧ s.phase = .blockHeader ∧ decode .blockMagic s.part = .need 24 ∧
      24 ≤ s.bsLive.toNat ∧ s.part ++ (takeBits 24 s).1 = bitsOf 48 0x314159265358 ∧ 0x314159265358 < 2 ^ 48 ∧
      s.cfg.strictBlockMagic = true) ∧
    (let s := { live .blockHeader (bitsOf 24 0xFFFFFF) with
                part := bitsOf 24 0xFFFFFF, cfg := { Config.default with strictBlockMagic := false } }
     s.refusalMark = false ∧ s.job = some .read ∧ s.phase = .blockHeader ∧ decode .blockMagic s.part = .need 24 ∧
      24 ≤ s.bsLive.toNat ∧ s.part ++ (takeBits 24 s).1 = bitsOf 48 (2 ^ 48 - 1) ∧ 2 ^ 48 - 1 < 2 ^ 48 ∧
      2 ^ 48 - 1 ≠ 0x314159265359 ∧ 2 ^ 48 - 1 ≠ 0x177245385090 ∧ s.cfg.strictBlockMagic = false ∧
      s.job = some .read ∧ ({ s with job := some (.readBytes 8 0) } : State).job = some (.readBytes 8 0)) := by decide

theorem witness_TrailerChecksTheCombinedCrc :
    0#32 = State.reset.combinedCRC ∧ 1#32 ≠ State.reset.combinedCRC ∧ 0xFFFFFFFF#32 ≠ State.reset.combinedCRC := by decide

/-- No range, the first range and the last one only; after range 15, after range 0, and the last range after 14. -/
theorem witness_BitmapMarksTheBytesInUse :
    (∀ i < 16, (0#16).getLsbD (15 - i) = false) ∧ ((0x8000#16).getLsbD (15 - 0) = true) ∧
    ((1#16).getLsbD (15 - 15) = true ∧ ∀ k < 15, (1#16).getLsbD (15 - k) = false) ∧
    (let s := { State.reset with inUse16 := 1#16, mapRange := 15#4 }
     ∀ i < 16, s.mapRange.toNat < i → s.inUse16.getLsbD (15 - i) = false) ∧
    (let s := { State.reset with inUse16 := 0xC000#16, mapRange := 0#4 }
     s.mapRange.toNat < 1 ∧ s.inUse16.getLsbD (15 - 1) = true ∧
      ∀ k < 1, s.mapRange.toNat < k → s.inUse16.getLsbD (15 - k) = false) ∧
    (let s := { State.reset with inUse16 := 3#16, mapRange := 14#4 }
     s.mapRange.toNat < 15 ∧ s.inUse16.getLsbD (15 - 15) = true ∧
      ∀ k < 15, s.mapRange.toNat < k → s.inUse16.getLsbD (15 - k) = false) := by decide

/-- No byte in use, and all of them. -/
theorem witness_InUseListIsAscending :
    ∀ s ∈ [reading (.blockTables .alphabet) [],
        { reading (.blockTables .alphabet) [] with inUse := Vector.replicate 256 true }],
      s.refusalMark = false ∧ s.job ≠ none ∧ s.phase = .blockTables .alphabet := by decide

theorem witness_GroupAndSelectorCountsAreChecked :
    (2 ≤ (2#3).toNat ∧ (2#3).toNat ≤ 6) ∧ (2 ≤ (6#3).toNat ∧ (6#3).toNat ≤ 6) ∧
    ((1#3).toNat < 2 ∨ 6 < (1#3).toNat) ∧ ((7#3).toNat < 2 ∨ 6 < (7#3).toNat) ∧ 1 ≤ (1#15).toNat ∧
    1 ≤ (32767#15).toNat := by decide

/-- The last selector of the longest list, the largest value that is legal, and the first that is not. -/
theorem witness_SelectorIsStoredAtItsIndex :
    (let s := { State.reset with nGroups := 6#3, nSelectors := 32767#15, selIdx := 32766#15 }
     (5#3).toNat < s.nGroups.toNat ∧ s.selIdx.toNat < s.nSelectors.toNat ∧
      s.selIdx.toNat + 1 = s.nSelectors.toNat ∧ s.nGroups.toNat ≤ (6#3).toNat) ∧
    (let s := { State.reset with nGroups := 2#3, nSelectors := 2#15 }
     (0#3).toNat < s.nGroups.toNat ∧ s.selIdx.toNat < s.nSelectors.toNat ∧
      s.selIdx.toNat + 1 ≠ s.nSelectors.toNat ∧ s.nGroups.toNat ≤ (2#3).toNat) := by decide

theorem witness_SelectorsAreMtfDecoded :
    selectorsR127.refusalMark = false ∧ selectorsR127.job ≠ none ∧ selectorsR127.phase = .blockTables .selectorList ∧
      selectorsR127.nGroups.toNat ≤ 6 ∧ [0, 2, 2, 0, 1].length = selectorsR127.nSelectors.toNat ∧
      ∀ i, (h : i < [0, 2, 2, 0, 1].length) → [0, 2, 2, 0, 1][i] < selectorsR127.nGroups.toNat ∧
        memGet selectorsR127.selectorMtf i = some (BitVec.ofNat 3 [0, 2, 2, 0, 1][i]) := by decide

/-- Six groups, the last of them named. -/
theorem witness_SelectorsAreMtfDecoded_six :
    let s := { reading (.blockTables .selectorList) [] with nGroups := 6#3, nSelectors := 1#15, selectorMtf := [(0, 5#3)] }
    s.refusalMark = false ∧ s.job ≠ none ∧ s.phase = .blockTables .selectorList ∧ s.nGroups.toNat ≤ 6 ∧
      [5].length = s.nSelectors.toNat ∧
      ∀ i, (h : i < [5].length) → [5][i] < s.nGroups.toNat ∧ memGet s.selectorMtf i = some (BitVec.ofNat 3 [5][i]) := by
  decide

theorem witness_LengthCodesMoveTheRunningLength :
    ∀ s ∈ [{ State.reset with curr := 1#5 }, { State.reset with curr := 20#5 }], 1 ≤ s.curr.toNat ∧ s.curr.toNat ≤ 20 := by
  decide

/-- The last symbol of the last table, the last symbol of an earlier one, and an earlier symbol. -/
theorem witness_LengthStopStoresTheLength :
    (let s := { State.reset with tblIdx := 5#3, symIdx := 257#9, alphaSize := 258#9, nGroups := 6#3 }
     s.tblIdx.toNat < 6 ∧ s.symIdx.toNat < 258 ∧ s.symIdx.toNat + 1 = s.alphaSize.toNat ∧
      s.tblIdx.toNat + 1 = s.nGroups.toNat) ∧
    (let s := { State.reset with tblIdx := 0#3, symIdx := 2#9, alphaSize := 3#9, nGroups := 2#3 }
     s.tblIdx.toNat < 6 ∧ s.symIdx.toNat < 258 ∧ s.symIdx.toNat + 1 = s.alphaSize.toNat ∧
      s.tblIdx.toNat + 1 ≠ s.nGroups.toNat) ∧
    (let s := { State.reset with tblIdx := 5#3, symIdx := 256#9, alphaSize := 258#9, nGroups := 6#3 }
     s.tblIdx.toNat < 6 ∧ s.symIdx.toNat < 258 ∧ s.symIdx.toNat + 1 ≠ s.alphaSize.toNat) := by decide

/-- The last table of program P4, and the first of six with the widest alphabet. -/
theorem witness_DecodeTableIsCanonical :
    (buildP4.refusalMark = false ∧ buildP4.job ≠ none ∧ buildP4.phase = .blockTables .build ∧
      1 ≤ buildP4.alphaSize.toNat ∧ buildP4.alphaSize.toNat ≤ 258 ∧ buildP4.tblIdx.toNat < 6 ∧
      (∀ l ∈ tableLens buildP4 buildP4.tables[1], lengthLegal l = true) ∧
      codeSpace (tableLens buildP4 buildP4.tables[1]) ≤ 2 ^ 20 ∧ buildP4.tblIdx.toNat = 1 ∧
      buildP4.tblIdx.toNat + 1 = buildP4.nGroups.toNat) ∧
    (let s := { reading (.blockTables .build) [] with
                alphaSize := 258#9, nInUse := 256#9, nGroups := 6#3
                tables := Vector.replicate 6 { huffTableReset with len := Vector.replicate 258 20#5 } }
     s.refusalMark = false ∧ s.job ≠ none ∧ s.phase = .blockTables .build ∧ 1 ≤ s.alphaSize.toNat ∧
      s.alphaSize.toNat ≤ 258 ∧ s.tblIdx.toNat = 0 ∧ (∀ l ∈ tableLens s s.tables[0], lengthLegal l = true) ∧
      codeSpace (tableLens s s.tables[0]) ≤ 2 ^ 20 ∧ s.tblIdx.toNat + 1 ≠ s.nGroups.toNat) := by decide +kernel

/-- Running lengths 0 and 21, and three codes of length 1. -/
theorem witness_IllegalLengthsAreRefused :
    (∀ s ∈ [reading (.blockTables .lencode) [], { reading (.blockTables .lencode) [] with curr := 21#5 }],
      s.refusalMark = false ∧ s.job ≠ none ∧ s.phase = .blockTables .lencode ∧ s.part = [] ∧
        (s.curr.toNat < 1 ∨ 20 < s.curr.toNat)) ∧
    (overP.refusalMark = false ∧ overP.job ≠ none ∧ overP.phase = .blockTables .build ∧ overP.alphaSize.toNat ≤ 258 ∧
      overP.tblIdx.toNat = 0 ∧ 2 ^ 20 < codeSpace (tableLens overP overP.tables[0])) := by decide +kernel

theorem witness_SymbolDecoderStarts :
    ∀ s ∈ [reading (.blockTables .symbolInit) [], { reading (.blockTables .symbolInit) [] with nInUse := 256#9 }],
      s.refusalMark = false ∧ s.job ≠ none ∧ s.phase = .blockTables .symbolInit ∧ s.nInUse.toNat ≤ 256 := by decide

/-- Inside a group, at the last selector, and past it. -/
theorem witness_GroupSelectsItsTable :
    (let s := { reading (.blockSymbols .group) [] with groupPos := 1#6 }
     s.refusalMark = false ∧ s.job ≠ none ∧ s.phase = .blockSymbols .group ∧ s.groupPos ≠ 0#6) ∧
    (let s := { reading (.blockSymbols .group) [] with nSelectors := 1#15, selector := [(0, 5#3)] }
     s.refusalMark = false ∧ s.job ≠ none ∧ s.phase = .blockSymbols .group ∧ s.groupPos = 0#6 ∧
      s.groupNo.toNat < s.nSelectors.toNat ∧ memGet s.selector s.groupNo.toNat = some 5#3) ∧
    (let s := { reading (.blockSymbols .group) [] with nSelectors := 1#15, groupNo := 1#15 }
     s.refusalMark = false ∧ s.job ≠ none ∧ s.phase = .blockSymbols .group ∧ s.groupPos = 0#6 ∧
      s.nSelectors.toNat ≤ s.groupNo.toNat) := by decide

/-- A run that fills the block, and one byte more. -/
theorem witness_RunDigitAddsItsWeight :
    (let s := { State.reset with blockSize100k := 9#4, nblock := 899998#20, runN := 1#20 }
     s.blockSize100k.toNat ≤ 9 ∧ s.nblock.toNat + (s.runS.toNat + s.runN.toNat * 2) = blockLimit s) ∧
    (let s := { State.reset with blockSize100k := 9#4, nblock := 899999#20, runN := 1#20 }
     s.blockSize100k.toNat ≤ 9 ∧ blockLimit s < s.nblock.toNat + (s.runS.toNat + s.runN.toNat * 2)) := by decide

theorem witness_DigitStringsWriteTheRunLength :
    (let s := { State.reset with blockSize100k := 1#4, runN := 1#20, nblock := 99996#20 }
     [true, false] ≠ [] ∧ s.blockSize100k.toNat ≤ 9 ∧ s.runS = 0#20 ∧ s.runN = 1#20 ∧
      s.nblock.toNat + digitsValue [true, false] = blockLimit s) ∧
    (let s := { State.reset with blockSize100k := 9#4, runN := 1#20 }
     [false] ≠ [] ∧ s.blockSize100k.toNat ≤ 9 ∧ s.runS = 0#20 ∧ s.runN = 1#20 ∧
      s.nblock.toNat + digitsValue [false] ≤ blockLimit s) := by decide

/-- No run, and one that ends at the last entry. -/
theorem witness_RunFlushWritesTheFrontByte :
    (Mem.wf maxBlock symbolsP4.ll8 ∧ symbolsP4.nblock.toNat + symbolsP4.runS.toNat ≤ maxBlock ∧
      memGet symbolsP4.unzftab (symbolsP4.mtfSym[0]).toNat = some 0#20) ∧
    (let s := { symbolsP4 with nblock := 899999#20, runS := 1#20 }
     Mem.wf maxBlock s.ll8 ∧ s.nblock.toNat + s.runS.toNat = maxBlock ∧
      memGet s.unzftab (s.mtfSym[0]).toNat = some 0#20) := by decide +kernel

/-- The least and the greatest symbol, in an empty and in a full block. -/
theorem witness_MtfSymbolWritesItsByte :
    2 ≤ (2#9).toNat ∧ (2#9).toNat ≤ 256 ∧ 2 ≤ (256#9).toNat ∧ (256#9).toNat ≤ 256 ∧
    (Mem.wf maxBlock symbolsP4.ll8 ∧ symbolsP4.blockSize100k.toNat ≤ 9 ∧
      (∀ v < 256, (memGet symbolsP4.unzftab v).isSome = true) ∧
      symbolsP4.nblock.toNat + symbolsP4.runS.toNat < blockLimit symbolsP4) ∧
    (let s := { symbolsP4 with nblock := 99999#20, runS := 1#20 }
     Mem.wf maxBlock s.ll8 ∧ s.blockSize100k.toNat ≤ 9 ∧ s.nblock.toNat + s.runS.toNat = blockLimit s ∧
      s.unzftab = symbolsP4.unzftab) :=
  ⟨by decide, by decide, by decide, by decide, by decide +kernel, by decide, by decide, by decide, rfl⟩

theorem witness_BadOriginPointerIsRefused :
    (let s := { blockAb with origPtr := 2#24 }
     s.refusalMark = false ∧ s.job ≠ none ∧ s.phase = .blockSetup ∧ s.nblock.toNat = s.origPtr.toNat) ∧
    (let s := { blockAb with nblock := 0#20 }
     s.refusalMark = false ∧ s.job ≠ none ∧ s.phase = .blockSetup ∧ s.nblock = 0#20) := by decide

/-- `ab` with the last legal origin pointer. -/
theorem witness_SetupSortsThePositions :
    let s := { blockAb with origPtr := 1#24 }
    s.refusalMark = false ∧ s.job ≠ none ∧ s.phase = .blockSetup ∧ blockWritten s ∧ s.nblock.toNat ≤ maxBlock ∧
      s.origPtr.toNat < s.nblock.toNat := by
  refine ⟨rfl, nofun, rfl, ⟨by decide, fun v => ?_⟩, by decide, by decide⟩
  have h : ∀ v : BitVec 8, (memGet blockAb.unzftab v.toNat).any
      (fun c => decide (c.toNat = occurrences blockAb.ll8 v 2)) = true := by decide +kernel
  obtain ⟨c, hc, hd⟩ := some_of_any (h v)
  exact ⟨c, hc, of_decide_eq_true hd⟩

/-- Masks 1 and 0, the last random number, and the last entry of the memories, plain and randomised. -/
theorem witness_WalkStepFollowsTheSuccessor :
    (({ State.reset with rNToGo := 2#10 } : State).rNToGo ≠ 0#10) ∧
    (({ State.reset with rNToGo := 1#10 } : State).rNToGo ≠ 0#10) ∧
    (let s := { State.reset with rTPos := 511#9 }
     s.rNToGo = 0#10 ∧ rnums[s.rTPos.toNat]? = some 638) ∧
    ∀ r : BitVec 1,
      let s := { State.reset with tPos := 899999#20, ll8 := [(899999, 1#8)], tt := [(899999, 0#20)], randomised := r }
      s.tPos.toNat < maxBlock ∧ memGet s.ll8 s.tPos.toNat = some 1#8 ∧ memGet s.tt s.tPos.toNat = some 0#20 ∧
        (s.randomised = 0#1 ∨ s.randomised = 1#1) := by decide +kernel

/-- A READ, and READ_BYTES with room for two bytes, before its first and before its last. -/
theorem witness_EmitAnswersTheRead :
    outputA.job = some .read ∧
    ({ outputA with job := some (.readBytes 2 0) } : State).job = some (.readBytes 2 0) ∧ 0 + 1 < 2 ∧
    ({ outputA with job := some (.readBytes 2 1) } : State).job = some (.readBytes 2 1) ∧ 2 ≤ 1 + 1 := by decide

/-- A pending copy, both ends of the walk, and the three uses of a walk byte. -/
theorem witness_OutputStepExpandsRuns :
    (outputA.refusalMark = false ∧ outputA.job ≠ none ∧ outputA.phase = .blockOutput) ∧
    0 < ({ outputA with repLeft := 1#8 } : State).repLeft.toNat ∧
    (let s := { outputA with i2 := 1#20, rleCount := 4#3 }
     s.repLeft = 0#8 ∧ s.i2 = s.nblock ∧ s.rleCount = 4#3) ∧
    (let s := { outputA with i2 := 1#20, rleCount := 3#3 }
     s.repLeft = 0#8 ∧ s.i2 = s.nblock ∧ s.rleCount ≠ 4#3) ∧
    (outputA.repLeft = 0#8 ∧ outputA.i2 ≠ outputA.nblock ∧ outputA.rleCount = 0#3 ∧
      (walkByte outputA).map Prod.fst = .ok 0x61#8) ∧
    (let s := { outputA with rleCount := 4#3 }
     s.rleCount = 4#3 ∧ (walkByte s).map Prod.fst = .ok 0x61#8) ∧
    (let s := { outputA with rleCount := 3#3, rlePrev := 0x61#8 }
     s.rleCount ≠ 4#3 ∧ 0 < s.rleCount.toNat ∧ (walkByte s).map Prod.fst = .ok s.rlePrev) := by decide

theorem witness_BlockEndChecksAndCombinesTheCrc :
    (let s := { outputA with phase := .blockEnd, blockCRC := 0xE66C6494#32 }
     s.refusalMark = false ∧ s.job ≠ none ∧ s.phase = .blockEnd ∧ s.blockCRC ^^^ 0xFFFFFFFF#32 = s.storedBlockCRC) ∧
    (let s := { outputA with phase := .blockEnd }
     s.refusalMark = false ∧ s.job ≠ none ∧ s.phase = .blockEnd ∧ s.blockCRC ^^^ 0xFFFFFFFF#32 ≠ s.storedBlockCRC) := by
  decide

theorem witness_TerminalPhasesAnswerTheSameEvent :
    ∀ p ∈ [Phase.failed, Phase.endOfStream],
      (reading p []).refusalMark = false ∧ (reading p []).job = some .read ∧ (reading p []).phase = p ∧
        ∀ k < 2, ({ reading p [] with job := some (.readBytes 8 k) } : State).job = some (.readBytes 8 k) := by decide

/-- The last byte of the buffer, and the one before it. -/
theorem witness_ReadBytesPlacesAnswers :
    let s := { reading .blockOutput [] with job := some (.readBytes 2 0) }
    s.job = some (.readBytes 2 0) ∧ 0 + 1 < 2 ∧
      ({ s with job := some (.readBytes 2 1) } : State).job = some (.readBytes 2 1) ∧ 2 ≤ 1 + 1 := by decide

theorem witness_PhaseRaisesOnlyItsErrors :
    (∃ t, step (reading (.streamHeader .magic) []) = .next t ∧ (t.phase == .failed) = true) ∧
    (reading (.streamHeader .magic) []).phase ≠ .failed ∧
    (∃ t, step (reading .blockSetup []) = .next t ∧ (t.phase == .failed) = true) ∧
    (reading .blockSetup []).phase ≠ .failed :=
  ⟨goes_next (by decide), by decide, goes_next (by decide), by decide⟩

theorem witness_PhaseTakesOnlyItsTransitions :
    (∃ t, step { outputA with phase := .blockEnd, blockCRC := 0xE66C6494#32 } = .next t ∧
      (t.phase == .blockHeader) = true) ∧
    (∃ t, step { State.reset with port := [.command 0x10#8 []] } = .next t ∧ (t.phase == .streamHeader .magic) = true) ∧
    (∃ t, step { live .blockHeader (bitsOf 24 0xFFFFFF) with
                 part := bitsOf 24 0xFFFFFF, cfg := { Config.default with strictBlockMagic := false } } = .next t ∧
      (t.phase == .endOfStream) = true) ∧
    (∃ t, step (reading .blockSetup []) = .next t ∧ (t.phase == .failed) = true) ∧
    ∃ t, step failedThenReset = .next t ∧ (t.phase == .closed) = true :=
  ⟨goes_next (by decide), goes_next (by decide), goes_next (by decide), goes_next (by decide), goes_next (by decide)⟩

/-- A step that ends its command, and one in the middle of a READ with part of an element read. -/
theorem witness_PhasesBetweenCommandsAreFive :
    (betweenCommands outputA ∧ ∃ t, step outputA = .next t ∧ (t.job == none) = true) ∧
    betweenCommands (live .blockHeader (bitsOf 24 0x314159)) ∧
      ∃ t, step (live .blockHeader (bitsOf 24 0x314159)) = .next t ∧ (t.part != []) = true :=
  ⟨⟨by unfold betweenCommands; decide, goes_next (by decide)⟩, by unfold betweenCommands; decide, goes_next (by decide)⟩

theorem witness_ConfigurationIsConstant : ∃ t, step failedThenReset = .next t ∧ (t.phase == .closed) = true :=
  goes_next (by decide)

theorem witness_MemoriesStayCanonical :
    memoriesWf selectorsR127 ∧ ∃ t, step selectorsR127 = .next t ∧ (t.selector != []) = true :=
  ⟨by unfold memoriesWf; decide, goes_next (by decide)⟩

/-- A failure, and an end of stream whose combined CRC matches. -/
theorem witness_TerminalPhasesStayJustified :
    ((∃ t, step (reading .blockSetup []) = .next t ∧ (t.phase == .failed) = true) ∧ errorLatch (reading .blockSetup []) ∧
      endVerified (reading .blockSetup [])) ∧
    (∃ t, step trailerEnd = .next t ∧ (t.phase == .endOfStream) = true) ∧ errorLatch trailerEnd ∧ endVerified trailerEnd ∧
      trailerEnd.phase = .streamTrailer :=
  ⟨⟨goes_next (by decide), ⟨nofun, by decide⟩, by unfold endVerified; decide⟩,
    goes_next (by decide), ⟨nofun, by decide⟩, by unfold endVerified; decide, rfl⟩

/-- No change, a block that matched, a reset, and OPEN of a closed stream. -/
theorem witness_CombinedCrcCountsOnlyMatchedBlocks :
    (∃ t, step outputA = .next t ∧ (t.blockCount == 0) = true) ∧
    (∃ t, step { outputA with phase := .blockEnd, blockCRC := 0xE66C6494#32 } = .next t ∧ (t.blockCount == 1) = true) ∧
    (∃ t, step { failedThenReset with blockCount := 2 } = .next t ∧ (t.blockCount == 0) = true) ∧
    (∃ t, step reopened = .next t ∧ (t.blockCount == 0) = true) ∧ startsAgain failedThenReset ∧ startsAgain reopened :=
  ⟨goes_next (by decide), goes_next (by decide), goes_next (by decide), goes_next (by decide),
    ⟨rfl, .inl ⟨_, rfl⟩⟩, ⟨rfl, .inr ⟨⟨_, _, rfl⟩, rfl⟩⟩⟩

/-- No byte, one byte, a reset, and OPEN of a closed stream. -/
theorem witness_OutputIsCountedAndSummed :
    (∃ t, step (reading .blockSetup []) = .next t ∧ (t.outCount == 0) = true) ∧
    (∃ t, step outputA = .next t ∧ (t.outCount == 1) = true) ∧
    (∃ t, step { failedThenReset with outCount := 2 } = .next t ∧ (t.outCount == 0) = true) ∧
    ∃ t, step reopened = .next t ∧ (t.outCount == 0) = true :=
  ⟨goes_next (by decide), goes_next (by decide), goes_next (by decide), goes_next (by decide)⟩

/-- An element that writes no block, one that does, and one that raises an error. -/
theorem witness_ElementsKeepTheReaderAndThePorts :
    (isElement (.mapL1 1#16) = true ∧ writesBlock (.mapL1 1#16) = false ∧ writesSelectorMtf (.mapL1 1#16) = false ∧
      ∃ t, exec (.mapL1 1#16) State.reset = .next t ∧ (t.mapRange == 15#4) = true) ∧
    (isElement (.symMtf 5#9) = true ∧ writesSelectorMtf (.symMtf 5#9) = false ∧
      ∃ t, exec (.symMtf 5#9) symbolsP4 = .next t ∧ (t.nblock == 1#20) = true) ∧
    (isElement (.tbSelector 1#3) = true ∧ writesBlock (.tbSelector 1#3) = false ∧
      ∃ t, exec (.tbSelector 1#3) { State.reset with nGroups := 2#3, nSelectors := 1#15 } = .next t ∧
        (t.selectorMtf == [(0, 1#3)]) = true) ∧
    (isElement (.tbNsel 0#15) = true ∧ ∃ t, exec (.tbNsel 0#15) State.reset = .next t ∧ (t.errReason == 3#8) = true) :=
  ⟨⟨rfl, rfl, rfl, goes_next (by decide)⟩, ⟨rfl, rfl, goes_next (by decide +kernel)⟩,
    ⟨rfl, rfl, goes_next (by decide)⟩, ⟨rfl, goes_next (by decide)⟩⟩

/-- The middle of a group of the second of two tables, with nothing decoded yet. -/
def insideGroup : State :=
  { reading (.blockSymbols .group) [] with
    blockSize100k := 1#4, runN := 1#20, nInUse := 1#9, alphaSize := 3#9, nGroups := 2#3, nSelectors := 1#15
    groupNo := 1#15, groupPos := 5#6, curTable := 1#3, selector := [(0, 1#3)], unzftab := clearedCounts
    tables := (State.reset.tables.set 0 (built [1#5, 2#5, 2#5])).set 1 (built [1#5, 2#5, 2#5]) }

/-- The tables of `insideGroup` are canonical. -/
theorem insideGroup_tables : ∀ k < 2, ∀ t, insideGroup.tables[k]? = some t → t = built [1#5, 2#5, 2#5]
  | 0, _, _, h => (Option.some.inj h).symm
  | 1, _, _, h => (Option.some.inj h).symm

/-- The output of a one-byte block, and the middle of a group. -/
theorem witness_NoStepMeetsAFault :
    (noFaultInv outputA ∧ ∃ t, step outputA = .next t ∧ (t.outCount == 1) = true) ∧
    (noFaultInv insideGroup ∧ ∃ t, step insideGroup = .next t ∧ (t.groupPos == 4#6) = true) := by
  refine ⟨⟨⟨by unfold memoriesWf; decide, by decide, by decide, by decide, by decide, fun i hi => ?_⟩,
      goes_next (by decide)⟩,
    ⟨⟨by unfold memoriesWf; decide +kernel, by decide, by decide, by unfold alphabetKnown; decide,
      by unfold groupsKnown; decide, fun i hi => ?_, fun k hk t ht => ?_, fun k hk t ht => ?_, ⟨nofun, fun v => ?_⟩,
      by decide, by decide⟩, goes_next (by decide)⟩⟩
  · have hi : i = 0 := by have : i < 1 := hi; omega
    subst hi
    exact ⟨by decide, 0#20, by decide, by decide⟩
  · have hi : i = 0 := by have : i < 1 := hi; omega
    subst hi
    exact ⟨1#3, rfl, by decide⟩
  · exact insideGroup_tables k hk t ht ▸ by decide
  · exact insideGroup_tables k hk t ht ▸ ⟨by decide, built_again [1#5, 2#5, 2#5]⟩
  · have h : ∀ v : BitVec 8, (memGet clearedCounts v.toNat).any
        (fun c => decide (c.toNat = occurrences [] v 0)) = true := by decide +kernel
    obtain ⟨c, hc, hd⟩ := some_of_any (h v)
    exact ⟨c, hc, of_decide_eq_true hd⟩

/-- A READ right after OPEN, one at the end of the stream, one of READ_BYTES that has failed, and one whose randomised
block the parameters do not trust. -/
theorem witness_EveryReadAnswersOnce :
    ∀ s ∈ [reading (.streamHeader .magic) [0x42#8], reading (.endOfStream) [],
        { reading .failed [] with job := some (.readBytes 2 1) },
        { reading (.blockTables .rand) [0x80#8] with cfg := { Config.default with rnumsTrusted := false } }],
      noFaultInv s ∧ s.refusalMark = false ∧ s.job ≠ none ∧ s.phase ≠ .closed := by
  intro s h
  simp only [List.mem_cons, List.not_mem_nil, or_false] at h
  obtain rfl | rfl | rfl | rfl := h <;>
    exact ⟨⟨by unfold memoriesWf; decide, by decide, by decide, trivial⟩, rfl, nofun, nofun⟩

end Sys2Proof.Tests
end

section
/-! What a step keeps of the session (the phase, the latched error, the combined CRC, the element being read), and the
status registers as views of the registers. -/

namespace Sys2Proof.Proofs

open Sys2Proof.Machine Sys2Proof.Safety Sys2Proof.Laws

/-! What one pass of the READ loop does to the session. -/

/-- The phases in which a READ decodes (41_framer.md R98): all but `CLOSED`, `END_OF_STREAM` and `FAILED`. -/
def decodes : Phase → Bool
  | .closed => false
  | .endOfStream => false
  | .failed => false
  | _ => true

/-- What a pass makes of the phase, of the latched error and of what the end of the stream verifies. -/
inductive PhaseMove (s t : State) : Prop where
  /-- nothing of them changes -/
  | stays (hp : t.phase = s.phase) (hc : t.errCode = s.errCode) (hr : t.errReason = s.errReason)
      (hcfg : t.cfg = s.cfg) (hcrc : t.combinedCRC = s.combinedCRC)
      (hs : t.storedCombinedCRC = s.storedCombinedCRC)
  /-- from a decoding phase to a decoding phase, no error latched -/
  | goesOn (hs : decodes s.phase = true) (ht : decodes t.phase = true) (hc : t.errCode = s.errCode)
  /-- the trailer's CRC matched (41_framer.md R113) -/
  | verified (hs : decodes s.phase = true) (hp : t.phase = .endOfStream) (hv : t.combinedCRC = t.storedCombinedCRC)
      (hc : t.errCode = s.errCode)
  /-- an unknown magic read leniently (41_framer.md R104) -/
  | lenient (hs : s.phase = .blockHeader) (hp : t.phase = .endOfStream) (hl : t.cfg.strictBlockMagic = false)
      (hc : t.errCode = s.errCode)
  /-- an error of 60_exceptions.md R188 is raised -/
  | fails (e : StreamError) (hp : t.phase = .failed) (hc : t.errCode = errorCode e) (hr : t.errReason = errorReason e)

/-- What every pass keeps but one that counts a block or leaves an element half read: the parameters, the combined CRC,
the block count; the command in progress, unless it answers in a phase that may stand between commands. -/
structure PassKeeps (s t : State) : Prop where
  cfg : t.cfg = s.cfg
  combinedCRC : t.combinedCRC = s.combinedCRC
  blockCount : t.blockCount = s.blockCount
  job : t.job = s.job ∨ idlePhase t.phase = true
  part : t.part = [] ∨ t.part = s.part
  move : PhaseMove s t

/-- An error raised is such a pass, whatever registers else were written before (60_exceptions.md R190). -/
theorem raise_keeps (e : StreamError) {s u : State} (hcfg : u.cfg = s.cfg) (hcrc : u.combinedCRC = s.combinedCRC)
    (hcount : u.blockCount = s.blockCount) (hjob : u.job = s.job) : PassKeeps s (raise e u) :=
  ⟨hcfg, hcrc, hcount, .inl hjob, .inl rfl, .fails e rfl rfl rfl⟩

/-- The bits a `GetBits` takes play no part in it. -/
theorem PassKeeps.of_takeBits {s t : State} {live : BitVec 5}
    (h : PassKeeps { s with bsLive := live, part := [] } t) : PassKeeps s t :=
  ⟨h.cfg, h.combinedCRC, h.blockCount, h.job, .inl (h.part.elim id id), by
    cases h.move with
    | stays hp hc hr hcfg hcrc hs => exact .stays hp hc hr hcfg hcrc hs
    | goesOn hs ht hc => exact .goesOn hs ht hc
    | verified hs hp hv hc => exact .verified hs hp hv hc
    | lenient hs hp hl hc => exact .lenient hs hp hl hc
    | fails e hp hc hr => exact .fails e hp hc hr⟩

/-- An element of the stream, executed in a phase that decodes. -/
theorem exec_keeps {i : Instr} {s t : State} (hi : isElement i = true) (hs : decodes s.phase = true)
    (h : exec i s = .next t) : PassKeeps s t := by
  cases exec_cases hi h with
  | trPad _ ht | tbLenInc ht | tbLenDec ht =>
    subst ht; exact ⟨rfl, rfl, rfl, .inl rfl, .inr rfl, .stays rfl rfl rfl rfl rfl rfl⟩
  | shLevelBad _ ht | tbNgroupsBad _ ht | tbNselBad _ ht | tbSelectorBad _ ht | symRunBad _ _ ht | trCrcBad _ ht =>
    subst ht; exact raise_keeps _ rfl rfl rfl rfl
  | trCrc c hc ht => subst ht; exact ⟨rfl, rfl, rfl, .inl rfl, .inr rfl, .verified hs rfl hc.symm rfl⟩
  | tbSelector _ _ _ ht =>
    subst ht; exact ⟨rfl, rfl, rfl, .inl rfl, .inr rfl, .goesOn hs (by dsimp only; split <;> rfl) rfl⟩
  | tbLenStop _ _ ht =>
    rcases advanceLength_cases _ with ⟨_, _, h'⟩ | ⟨_, _, h'⟩ | ⟨_, h'⟩ <;> rw [ht, h'] <;>
      exact ⟨rfl, rfl, rfl, .inl rfl, .inr rfl, .goesOn hs rfl rfl⟩
  | symMtf _ ht =>
    obtain ⟨_, _, _, _, rfl | rfl⟩ := mtfSymbol_form ht
    · exact ⟨rfl, rfl, rfl, .inl rfl, .inr rfl, .goesOn hs rfl rfl⟩
    · exact raise_keeps _ rfl rfl rfl rfl
  | symEob u hu ht =>
    obtain ⟨_, _, _, rfl⟩ := flushRun_form hu
    subst ht; exact ⟨rfl, rfl, rfl, .inl rfl, .inr rfl, .goesOn hs rfl rfl⟩
  | symRun _ _ _ _ ht => subst ht; exact ⟨rfl, rfl, rfl, .inl rfl, .inr rfl, .goesOn hs rfl rfl⟩
  | _ => rename_i ht; subst ht; exact ⟨rfl, rfl, rfl, .inl rfl, .inr rfl, .goesOn hs rfl rfl⟩

/-- A phase that reads an element decodes. -/
theorem expected_decodes {s : State} {e : Expect} (he : expected s = some e) : decodes s.phase = true := by
  cases hp : s.phase <;> simp_all [expected, decodes]

/-- An unknown magic is met in `BLOCK_HEADER` only. -/
theorem expected_of_blockMagic {s : State} {e : Expect} {bits : List Bool} (he : expected s = some e)
    (hd : decode e bits = .illegal .blockMagic) : s.phase = .blockHeader := by
  have hm := decode_illegal hd
  have hmagic : e = .blockMagic := by cases e <;> simp [mayReject] at hm ⊢
  unfold expected at he
  split at he <;> simp_all

/-- What an illegal element does, an unknown magic in `BLOCK_HEADER` only. -/
theorem rejectElement_keeps {err : StreamError} {s : State} (hb : err = .blockMagic → s.phase = .blockHeader) :
    PassKeeps s (rejectElement err s) := by
  rcases rejectElement_cases err s with h | ⟨he, hl, h⟩ <;> rw [h]
  · exact raise_keeps _ rfl rfl rfl rfl
  · exact ⟨rfl, rfl, rfl, .inl rfl, .inr rfl, .lenient (hb he) rfl hl rfl⟩

/-! Every pass of the READ loop, by its cases. -/

theorem takeBits_ne_nil {n : Nat} (h : 1 ≤ n) (p : List Bool) (s : State) : p ++ (takeBits n s).1 ≠ [] := by
  have hl : (takeBits n s).1.length = n := bitsOf_length _ _
  intro hp
  have := congrArg List.length hp
  simp only [List.length_append, List.length_nil] at this
  omega

/-- While bits of an element are held, the phase goes on reading it. -/
theorem expected_held {s : State} {e : Expect} (he : expected s = some e) {p : List Bool} (hp : p ≠ [])
    (live : BitVec 5) : (expected { s with bsLive := live, part := p }).isSome = true := by
  have hr : lengthRefused { s with bsLive := live, part := p } = false := by simp [lengthRefused, hp]
  unfold expected at he ⊢
  split at he
  case h_14 hq =>
    obtain ⟨tb, htb, _⟩ := Option.map_eq_some_iff.mp he
    simp [hq, htb]
  all_goals simp_all

/-- What a pass of the READ loop does to the session. -/
inductive ReadEffect (s t : State) : Prop where
  /-- the element being read is not complete: the reader and the bits held change -/
  | reading (he : (expected t).isSome = true)
      (ht : t = { s with
        bsBuff := t.bsBuff, bsLive := t.bsLive, inCount := t.inCount, source := t.source, part := t.part })
  /-- the block's CRC matched (45_output.md R170, R171) -/
  | counted (hp : s.phase = .blockEnd) (hc : crcComputed s.blockCRC = s.storedBlockCRC)
      (ht : t = { s with
        combinedCRC := crcCombine s.combinedCRC (crcComputed s.blockCRC), blockCount := s.blockCount + 1
        phase := .blockHeader })
  /-- anything else; no bits of an element are left over, unless there were some where none is read -/
  | passes (h : PassKeeps s t) (hpart : (expected s = none → s.part = []) → t.part = [])

/-- The pass that executes or rejects an element leaves no bits of it held. -/
theorem ReadEffect.of_element {s t : State} {live : BitVec 5}
    (h : PassKeeps { s with bsLive := live, part := [] } t) : ReadEffect s t :=
  .passes h.of_takeBits fun _ => h.part.elim id id

theorem elementCase_effect {e : Expect} {s t : State} (he : expected s = some e) (h : ElementCase e s t) :
    ReadEffect s t := by
  have hs := expected_decodes he
  have exec_effect {i bits rest live} (hd : decode e bits = .instr i rest)
      (h : exec i { s with bsLive := live, part := [] } = .next t) : ReadEffect s t :=
    .of_element (exec_keeps (s := { s with bsLive := live, part := [] })
      (expected_isElement he (decode_instr hd)) hs h)
  have reject_effect {err bits} (live : BitVec 5) (hd : decode e bits = .illegal err) :
      ReadEffect s (rejectElement err { s with bsLive := live, part := [] }) :=
    .of_element (rejectElement_keeps (s := { s with bsLive := live, part := [] })
      fun hb => show s.phase = .blockHeader from expected_of_blockMagic he (hb ▸ hd))
  cases h with
  | fetch n b rest _ _ _ _ _ ht =>
    subst ht
    have hsame : expected (absorbByte b { s with source := some rest }) = some e := he
    exact .reading (by rw [hsame]; rfl) rfl
  | eoi n _ _ _ _ _ ht => subst ht; exact .passes (raise_keeps _ rfl rfl rfl rfl) fun _ => rfl
  | more n m _ h1 _ _ _ ht => subst ht; exact .reading (expected_held he (takeBits_ne_nil h1 _ _) _) rfl
  | run n i rest _ _ _ _ hd ht => exact exec_effect hd ht
  | bad n err _ _ _ _ hd ht => subst ht; exact reject_effect _ hd
  | heldRun i rest hd ht => exact exec_effect hd ht
  | heldBad err hd ht => subst ht; exact reject_effect _ hd

/-- A pass in a phase that reads no element begins and leaves none. -/
theorem ReadEffect.of_internal {s t : State} (he : expected s = none) (h : PassKeeps s t) : ReadEffect s t :=
  .passes h fun hn => h.part.elim id (·.trans (hn he))

theorem outputPass_keeps {s t : State} (hp : s.phase = .blockOutput) (h : outputPass s = .ok t) : PassKeeps s t := by
  have hs : decodes s.phase = true := by rw [hp]; rfl
  have hidle : idlePhase s.phase = true := by rw [hp]; rfl
  rcases outputPass_ok h with ⟨_, rfl⟩ | ⟨_, _, _, rfl⟩ | ⟨_, _, _, rfl⟩ | ⟨_, _, b, u, hw, rfl⟩
  · obtain ⟨j, buf, rs, ht⟩ := emit_eq s.rlePrev { s with repLeft := s.repLeft - 1#8 }
    rw [ht]
    exact ⟨rfl, rfl, rfl, .inr hidle, .inr rfl, .stays rfl rfl rfl rfl rfl rfl⟩
  · exact raise_keeps _ rfl rfl rfl rfl
  · exact ⟨rfl, rfl, rfl, .inl rfl, .inr rfl, .goesOn hs rfl rfl⟩
  · obtain ⟨p, n, q, rfl⟩ := walkByte_form hw
    rcases expandByte_cases b _ with ⟨_, ht⟩ | ⟨_, c, v, ht⟩
    · rw [ht]
      exact ⟨rfl, rfl, rfl, .inl rfl, .inr rfl, .stays rfl rfl rfl rfl rfl rfl⟩
    · obtain ⟨j, buf, rs, ht'⟩ := emit_eq b { s with
        tPos := p, i2 := s.i2 + 1#20, rNToGo := n, rTPos := q, rleCount := c, rlePrev := v }
      rw [ht, ht']
      exact ⟨rfl, rfl, rfl, .inr hidle, .inr rfl, .stays rfl rfl rfl rfl rfl rfl⟩

theorem setupPass_keeps {s t : State} (hs : decodes s.phase = true) (h : setupPass s = .ok t) : PassKeeps s t := by
  rcases setupPass_ok h with ⟨_, rfl⟩ | ⟨_, c, c', m, _, _, h⟩
  · exact raise_keeps _ rfl rfl rfl rfl
  · obtain ⟨p, _, rfl⟩ := outputInit_ok h
    exact ⟨rfl, rfl, rfl, .inl rfl, .inr rfl, .goesOn hs rfl rfl⟩

theorem groupPass_keeps {s t : State} (hs : decodes s.phase = true) (h : groupPass s = .ok t) : PassKeeps s t := by
  rcases groupPass_ok h with ⟨_, _, rfl⟩ | ⟨_, _, k, _, rfl⟩ | ⟨_, rfl⟩
  · exact raise_keeps _ rfl rfl rfl rfl
  · exact ⟨rfl, rfl, rfl, .inl rfl, .inr rfl, .goesOn hs rfl rfl⟩
  · exact ⟨rfl, rfl, rfl, .inl rfl, .inr rfl, .goesOn hs rfl rfl⟩

theorem buildPass_keeps {s t : State} (hs : decodes s.phase = true) (h : buildPass s = .ok t) : PassKeeps s t := by
  obtain ⟨_, _, ⟨_, rfl⟩ | ⟨_, rfl⟩⟩ := buildPass_ok h
  · exact raise_keeps _ rfl rfl rfl rfl
  · rcases advanceBuild_cases _ with ⟨_, ht⟩ | ⟨_, ht⟩ <;> rw [ht] <;>
      exact ⟨rfl, rfl, rfl, .inl rfl, .inr rfl, .goesOn hs rfl rfl⟩

theorem alphabetPass_keeps {s : State} (hs : decodes s.phase = true) : PassKeeps s (alphabetPass s) := by
  rcases alphabetPass_cases s with ⟨_, ht⟩ | ⟨_, ht⟩ <;> rw [ht]
  · exact raise_keeps _ rfl rfl rfl rfl
  · exact ⟨rfl, rfl, rfl, .inl rfl, .inr rfl, .goesOn hs rfl rfl⟩

theorem readCase_effect {s t : State} (h : ReadCase s t) : ReadEffect s t := by
  cases h with
  | element e he h => exact elementCase_effect he h
  | badLength hp hl ht =>
    subst ht
    exact .of_internal (by simp [expected, hp, hl]) (raise_keeps _ rfl rfl rfl rfl)
  | alphabet hp ht =>
    subst ht
    exact .of_internal (by simp [expected, hp]) (alphabetPass_keeps (by rw [hp]; rfl))
  | selectorList hp ht =>
    obtain ⟨_, l, m, rfl, _⟩ := selectorListPass_ok ht
    exact .of_internal (by simp [expected, hp])
      ⟨rfl, rfl, rfl, .inl rfl, .inr rfl, .goesOn (by rw [hp]; rfl) rfl rfl⟩
  | build hp ht => exact .of_internal (by simp [expected, hp]) (buildPass_keeps (by rw [hp]; rfl) ht)
  | symbolInit hp ht =>
    obtain ⟨_, rfl⟩ := symbolInitPass_ok ht
    exact .of_internal (by simp [expected, hp])
      ⟨rfl, rfl, rfl, .inl rfl, .inr rfl, .goesOn (by rw [hp]; rfl) rfl rfl⟩
  | group hp ht => exact .of_internal (by simp [expected, hp]) (groupPass_keeps (by rw [hp]; rfl) ht)
  | setup hp ht => exact .of_internal (by simp [expected, hp]) (setupPass_keeps (by rw [hp]; rfl) ht)
  | output hp ht => exact .of_internal (by simp [expected, hp]) (outputPass_keeps hp ht)
  | blockEnd hp ht =>
    rcases blockEndPass_cases s with ⟨hc, h⟩ | ⟨_, h⟩
    · exact .counted hp hc (ht.trans h)
    · rw [ht, h]
      exact .of_internal (by simp [expected, hp]) (raise_keeps _ rfl rfl rfl rfl)
  | endOfStream hp ht =>
    obtain ⟨rs, h⟩ := answerEndOfStream_eq s
    rw [ht, h]
    exact .of_internal (by simp [expected, hp])
      ⟨rfl, rfl, rfl, .inr (by simp [hp, idlePhase]), .inr rfl, .stays rfl rfl rfl rfl rfl rfl⟩
  | failed hp ht =>
    obtain ⟨rs, h⟩ := answerError_eq s
    rw [ht, h]
    exact .of_internal (by simp [expected, hp])
      ⟨rfl, rfl, rfl, .inr (by simp [hp, idlePhase]), .inr rfl, .stays rfl rfl rfl rfl rfl rfl⟩

/-! Every step, by its cases. -/

/-- What a step does to the session. -/
inductive StepEffect (s t : State) : Prop where
  /-- a pass of the READ loop -/
  | read (hj : s.job ≠ none) (h : ReadEffect s t)
  /-- between commands, nothing is done or a command begins or answers: only the ports and the host's side change -/
  | host (hj : s.job = none)
      (ht : t = { s with
        job := t.job, port := t.port, handover := t.handover, answers := t.answers, rbBuf := t.rbBuf
        rbReturns := t.rbReturns })
  /-- OPEN of a closed stream, or reset: the session starts again (46_host.md R176, 70_reset_and_hazards.md R206) -/
  | starts (hs : startsAgain s) (hp : t.phase = .streamHeader .magic ∨ t.phase = .closed) (hj : t.job = none)
      (hpart : t.part = []) (hc : t.errCode = 0#4) (hcrc : t.combinedCRC = 0#32) (hcount : t.blockCount = 0)
  /-- CLOSE (46_host.md R182) -/
  | closes (hj : s.job = none)
      (ht : t = { s with
        phase := .closed, source := t.source, port := t.port, handover := t.handover, answers := t.answers })

theorem step_effect {s t : State} (h : step s = .next t) : StepEffect s t := by
  cases step_cases h with
  | read _ hj h => exact .read hj (readCase_effect h)
  | opens src rest _ hj hq hp ht =>
    subst ht
    exact .starts ⟨hj, .inr ⟨⟨src, rest, hq⟩, hp⟩⟩ (.inl rfl) hj rfl rfl rfl rfl
  | resets rest _ hj hq ht => subst ht; exact .starts ⟨hj, .inl ⟨rest, hq⟩⟩ (.inr rfl) rfl rfl rfl rfl rfl
  | closes _ _ _ hj _ ht => subst ht; exact .closes hj rfl
  | idle _ hj _ ht | reads _ _ _ hj _ _ ht | status _ _ _ _ hj _ _ ht | readsNone _ _ hj _ _ ht
  | readsBytes _ _ _ _ hj _ _ ht => subst ht; exact .host hj rfl

/-! Between two commands. -/

/-- No bits of an element are held between commands, nor where the phase reads none. -/
theorem part_nil_of_betweenCommands {s : State} (hs : betweenCommands s) (h : s.job = none ∨ expected s = none) :
    s.part = [] := by
  by_contra hp
  obtain ⟨hj, he⟩ := hs.2 hp
  rcases h with h | h
  · exact hj h
  · simp [h] at he

theorem betweenCommands_step {s t : State} (hs : betweenCommands s) (h : step s = .next t) : betweenCommands t := by
  have hpart := part_nil_of_betweenCommands hs
  cases step_effect h with
  | read hj h =>
    cases h with
    | reading he ht =>
      have hjob : t.job = s.job := by rw [ht]
      exact ⟨fun h' => absurd (hjob ▸ h') hj, fun _ => ⟨hjob ▸ hj, he⟩⟩
    | counted hp _ ht =>
      have hnil : s.part = [] := hpart (.inr (by simp [expected, hp]))
      subst ht
      exact ⟨fun h' => absurd h' hj, fun h' => absurd hnil h'⟩
    | passes hk hnil =>
      refine ⟨fun h' => ?_, fun h' => absurd (hnil fun he => hpart (.inr he)) h'⟩
      rcases hk.job with hjob | hidle
      · exact absurd (hjob ▸ h') hj
      · exact hidle
  | host hj ht =>
    have hphase : t.phase = s.phase := by rw [ht]
    have hnil : t.part = [] := by rw [ht]; exact hpart (.inl hj)
    exact ⟨fun _ => hphase ▸ hs.1 hj, fun h' => absurd hnil h'⟩
  | starts _ hp _ hnil =>
    refine ⟨fun _ => ?_, fun h' => absurd hnil h'⟩
    rcases hp with hp | hp <;> rw [hp] <;> rfl
  | closes hj ht =>
    have hphase : t.phase = .closed := by rw [ht]
    have hnil : t.part = [] := by rw [ht]; exact hpart (.inl hj)
    exact ⟨fun _ => by rw [hphase]; rfl, fun h' => absurd hnil h'⟩

/-- Settles O51: a READ keeps its command until a phase that may stand between commands answers, and holds bits of an
element only while its phase reads one. -/
theorem phasesBetweenCommandsAreFive : Obligations.PhasesBetweenCommandsAreFive :=
  fun _ _ => betweenCommands_step

/-! What the terminal phases stand for. -/

theorem decodes_not_terminal {p : Phase} (h : decodes p = true) : p ≠ .closed ∧ p ≠ .endOfStream ∧ p ≠ .failed := by
  refine ⟨?_, ?_, ?_⟩ <;> rintro rfl <;> cases h

theorem ReadEffect.move {s t : State} (h : ReadEffect s t) : PhaseMove s t := by
  cases h with
  | reading _ ht => rw [ht]; exact .stays rfl rfl rfl rfl rfl rfl
  | counted hp _ ht => rw [ht]; exact .goesOn (by rw [hp]; rfl) rfl rfl
  | passes h _ => exact h.move

theorem PhaseMove.errorLatch {s t : State} (h : PhaseMove s t) (hs : errorLatch s) : errorLatch t := by
  obtain ⟨hfailed, hcode⟩ := hs
  have code_kept (hd : decodes s.phase = true) (hc : t.errCode = s.errCode) : t.errCode = 0#4 := by
    by_contra hne
    obtain ⟨hclosed, _, hf⟩ := decodes_not_terminal hd
    exact (hcode (hc ▸ hne)).elim hf hclosed
  cases h with
  | stays hp hc hr => unfold Safety.errorLatch; rw [hp, hc, hr]; exact ⟨hfailed, hcode⟩
  | goesOn hd ht hc => exact ⟨fun hp => absurd hp (decodes_not_terminal ht).2.2, fun h' => absurd (code_kept hd hc) h'⟩
  | verified hd hp _ hc =>
    exact ⟨fun hp' => absurd (hp.symm.trans hp') nofun, fun h' => absurd (code_kept hd hc) h'⟩
  | lenient hb hp _ hc =>
    exact ⟨fun hp' => absurd (hp.symm.trans hp') nofun, fun h' => absurd (code_kept (by rw [hb]; rfl) hc) h'⟩
  | fails e hp hc hr => exact ⟨fun _ => ⟨e, hc, hr⟩, fun _ => .inl hp⟩

theorem PhaseMove.endVerified {s t : State} (h : PhaseMove s t) (hs : endVerified s) : endVerified t := by
  cases h with
  | stays hp _ _ hcfg hcrc hst => unfold Safety.endVerified; rw [hp, hcfg, hcrc, hst]; exact hs
  | goesOn _ ht => exact fun hp => absurd hp (decodes_not_terminal ht).2.1
  | verified _ _ hv => exact fun _ _ => hv
  | lenient _ _ hl => exact fun _ hstrict => by rw [hl] at hstrict; cases hstrict
  | fails _ hp => exact fun hp' => absurd (hp.symm.trans hp') nofun

/-- From the trailer the stream ends verified only. -/
theorem PhaseMove.trailer_verified {s t : State} (h : PhaseMove s t) (hs : s.phase = .streamTrailer)
    (ht : t.phase = .endOfStream) : t.combinedCRC = t.storedCombinedCRC := by
  cases h with
  | stays hp => exact absurd (ht.symm.trans (hp.trans hs)) nofun
  | goesOn _ hd => exact absurd ht (decodes_not_terminal hd).2.1
  | verified _ _ hv => exact hv
  | lenient hb => exact absurd (hs.symm.trans hb) nofun
  | fails _ hp => exact absurd (ht.symm.trans hp) nofun

/-- A step moves the phase as a pass does, or opens or closes the session. -/
theorem step_move {s t : State} (h : step s = .next t) :
    PhaseMove s t ∨ (t.phase = .streamHeader .magic ∧ t.errCode = 0#4) ∨ t.phase = .closed := by
  cases step_effect h with
  | read _ h => exact .inl h.move
  | host _ ht => rw [ht]; exact .inl (.stays rfl rfl rfl rfl rfl rfl)
  | starts _ hp _ _ hc => exact .inr (hp.imp_left (⟨·, hc⟩))
  | closes _ ht => exact .inr (.inr (by rw [ht]))

/-- Settles O54: each of the three follows from what a step makes of the phase. -/
theorem terminalPhasesStayJustified : Obligations.TerminalPhasesStayJustified := by
  intro s t h
  rcases step_move h with hm | ⟨hp, hc⟩ | hp
  · exact ⟨hm.errorLatch, hm.endVerified, hm.trailer_verified⟩
  · exact ⟨fun _ => ⟨fun hf => absurd (hp.symm.trans hf) nofun, fun hne => absurd hc hne⟩,
      fun _ hf => absurd (hp.symm.trans hf) nofun, fun _ hf => absurd (hp.symm.trans hf) nofun⟩
  · exact ⟨fun _ => ⟨fun hf => absurd (hp.symm.trans hf) nofun, fun _ => .inr hp⟩,
      fun _ hf => absurd (hp.symm.trans hf) nofun, fun _ hf => absurd (hp.symm.trans hf) nofun⟩

/-! The combined CRC. -/

theorem rotl1_eq (v : BitVec 32) : rotl1 v = v.rotateLeft 1 := rfl

/-- Settles O55: of what a step can do, only a matched block end and the start of a session write the two. -/
theorem combinedCrcCountsOnlyMatchedBlocks : Obligations.CombinedCrcCountsOnlyMatchedBlocks := by
  intro s t h
  cases step_effect h with
  | read hj h =>
    cases h with
    | reading _ ht => exact .inl ⟨by rw [ht], by rw [ht]⟩
    | counted hp hc ht =>
      refine .inr (.inl ⟨hj, hp, hc, by rw [ht], ?_, by rw [ht]⟩)
      rw [ht, ← hc, ← rotl1_eq]
      rfl
    | passes h _ => exact .inl ⟨h.combinedCRC, h.blockCount⟩
  | host _ ht => exact .inl ⟨by rw [ht], by rw [ht]⟩
  | starts hs _ _ _ _ hcrc hcount => exact .inr (.inr ⟨hs, hcrc, hcount⟩)
  | closes _ ht => exact .inl ⟨by rw [ht], by rw [ht]⟩

/-! The status registers (10_state.md R30 to R33). -/

/-- The fields of `S_STATUS`, from the lowest bit up (10_state.md R31). -/
theorem statusWord_fields (s : State) :
    (statusWord s).extractLsb' 0 4 = s.phase.code ∧ (statusWord s).extractLsb' 4 1 = flagEos s ∧
      (statusWord s).extractLsb' 5 1 = flagErr s ∧ (statusWord s).extractLsb' 6 1 = s.randomised ∧
        (statusWord s).extractLsb' 7 1 = flagOpen s ∧ (statusWord s).extractLsb' 8 4 = s.blockSize100k ∧
          (statusWord s).extractLsb' 12 3 = s.rleCount ∧ (statusWord s).extractLsb' 15 1 = flagPend s ∧
            (statusWord s).extractLsb' 16 16 = 0#16 := by
  unfold statusWord
  refine ⟨?_, ?_, ?_, ?_, ?_, ?_, ?_, ?_, ?_⟩
  all_goals
    repeat rw [BitVec.extractLsb'_append_eq_of_le (by decide)]
  case refine_9 => exact BitVec.extractLsb'_eq_self
  all_goals exact BitVec.extractLsb'_append_eq_right

/-- The fields of `S_ERROR` (10_state.md R32). -/
theorem errorWord_fields (s : State) :
    (errorWord s).extractLsb' 0 4 = s.errCode ∧ (errorWord s).extractLsb' 4 8 = s.errReason ∧
      (errorWord s).extractLsb' 12 20 = 0#20 := by
  unfold errorWord
  refine ⟨?_, ?_, ?_⟩
  all_goals
    repeat rw [BitVec.extractLsb'_append_eq_of_le (by decide)]
  case refine_3 => exact BitVec.extractLsb'_eq_self
  all_goals exact BitVec.extractLsb'_append_eq_right

/-- The fields of `S_TABLES` (10_state.md R33). -/
theorem tablesWord_fields (s : State) :
    (tablesWord s).extractLsb' 0 3 = s.nGroups ∧ (tablesWord s).extractLsb' 3 15 = s.nSelectors ∧
      (tablesWord s).extractLsb' 18 9 = s.nInUse ∧ (tablesWord s).extractLsb' 27 5 = 0#5 := by
  unfold tablesWord
  refine ⟨?_, ?_, ?_, ?_⟩
  all_goals
    repeat rw [BitVec.extractLsb'_append_eq_of_le (by decide)]
  case refine_4 => exact BitVec.extractLsb'_eq_self
  all_goals exact BitVec.extractLsb'_append_eq_right

/-- A register shown with zeros above it keeps its value. -/
theorem toNat_zero_append {v w : Nat} (x : BitVec w) : (0#v ++ x).toNat = x.toNat := by
  simp [BitVec.toNat_append]

theorem flagEos_set (s : State) : (flagEos s == 1#1) = decide (s.phase.code = 9#4) := by
  unfold flagEos
  split <;> simp [*]

theorem flagErr_set (s : State) : (flagErr s == 1#1) = decide (s.phase.code = 10#4) := by
  unfold flagErr
  split <;> simp [*]

theorem code_eq_zero (p : Phase) : p.code = 0#4 ↔ p = .closed := by
  cases p <;> simp [Phase.code]

theorem flagOpen_set (s : State) : (flagOpen s == 1#1) = decide (s.phase ≠ .closed) := by
  unfold flagOpen
  simp only [code_eq_zero]
  split <;> simp [*]

theorem flagPend_set (s : State) : (flagPend s == 1#1) = decide (0 < s.repLeft.toNat) := by
  have hpos : 0 < s.repLeft.toNat ↔ s.repLeft ≠ 0#8 := by
    rw [Nat.pos_iff_ne_zero, ne_eq, ne_eq, BitVec.toNat_eq]; rfl
  unfold flagPend
  simp only [hpos]
  split <;> simp [*]

/-- Settles O7: the packed words field by field, a one-bit flag being the predicate it shows; the other registers are
shown whole. -/
theorem statusRegistersShowTheFields : Obligations.StatusRegistersShowTheFields := by
  intro s
  obtain ⟨hcode, heos, herr, hrand, hopen, hblock, hrle, hpend, hstatus0⟩ := statusWord_fields s
  obtain ⟨herrCode, herrReason, herror0⟩ := errorWord_fields s
  obtain ⟨hgroups, hselectors, hinUse, htables0⟩ := tablesWord_fields s
  have bit {i : Nat} {f : BitVec 1} {p : Bool} (hf : (statusWord s).extractLsb' i 1 = f) (hp : (f == 1#1) = p) :
      (statusWord s).getLsbD i = p := by rw [BitVec.getLsbD_eq_extractLsb', hf, hp]
  exact ⟨hcode, bit heos (flagEos_set s), bit herr (flagErr_set s), hrand, bit hopen (flagOpen_set s), hblock, hrle,
    bit hpend (flagPend_set s), hstatus0, herrCode, herrReason, herror0, rfl, rfl, rfl, rfl, BitVec.toNat_ofNat _ _,
    toNat_zero_append s.origPtr, toNat_zero_append s.nblock, BitVec.toNat_ofNat _ _, BitVec.toNat_ofNat _ _,
    hgroups, hselectors, hinUse, htables0⟩

end Sys2Proof.Proofs
end

section
/-! What one pass of the READ loop keeps of the memories (20_memory.md R50 to R54), the block size and the source, and
what it does to the output (45_output.md R168): one case analysis, from which the statements about every step follow. -/

namespace Sys2Proof.Proofs

open Sys2Proof.Machine Sys2Proof.Safety Sys2Proof.Laws

/-- What a pass does to the output: nothing, or in `BLOCK_OUTPUT` it emits one byte. -/
def emitsAtMostOne (s t : State) : Prop :=
  (outputOf t.answers = outputOf s.answers ∧ t.outCount = s.outCount) ∨
    ∃ b, s.phase = .blockOutput ∧ outputOf t.answers = outputOf s.answers ++ [b] ∧ t.outCount = s.outCount + 1 ∧
      t.blockCRC = crcByte s.blockCRC b

/-- What every pass keeps: memories in canonical form, a legal block size, the source bound; and the output. -/
def passFrame (s t : State) : Prop :=
  (memoriesWf s → memoriesWf t) ∧ (s.blockSize100k.toNat ≤ 9 → t.blockSize100k.toNat ≤ 9) ∧
    (s.source.isSome = true → t.source.isSome = true) ∧ emitsAtMostOne s t

theorem passFrame_refl (s : State) : passFrame s s := ⟨id, id, id, .inl ⟨rfl, rfl⟩⟩

/-! The elements. -/

theorem appendLl8_memoriesWf {b : BitVec 8} {k : Nat} {s t : State} (h : appendLl8 b k s = .ok t)
    (hs : memoriesWf s) : memoriesWf t := by
  obtain ⟨hll8, htt, hmtf, hsel, hcount, hcf⟩ := hs
  obtain ⟨hk, c, _, rfl⟩ := appendLl8_ok h
  exact ⟨memFill_wf hll8 hk, htt, hmtf, hsel, memSet_wf hcount b.isLt, hcf⟩

theorem flushRun_memoriesWf {s t : State} (h : flushRun s = .ok t) (hs : memoriesWf s) : memoriesWf t := by
  rcases flushRun_ok h with ⟨_, rfl⟩ | ⟨_, u, hu, rfl⟩
  · exact hs
  · exact (appendLl8_memoriesWf hu hs :)

theorem mtfSymbol_memoriesWf {n : Nat} {s t : State} (h : mtfSymbol n s = .ok t) (hs : memoriesWf s) :
    memoriesWf t := by
  obtain ⟨u, _, hu, hp⟩ := mtfSymbol_ok h
  have hu := flushRun_memoriesWf hu hs
  rcases putLl8_ok hp with ⟨_, v, hv, rfl⟩ | ⟨_, rfl⟩
  · exact (appendLl8_memoriesWf hv hu :)
  · exact hu

theorem levelValue_le {d : BitVec 8} (h : levelLegal d = true) : (levelValue d).toNat ≤ 9 := by
  unfold levelLegal at h
  rw [Bool.and_eq_true] at h
  have hlow := of_decide_eq_true h.1
  have hhigh := of_decide_eq_true h.2
  unfold levelValue
  rw [BitVec.toNat_ofNat]
  omega

theorem exec_passFrame {i : Instr} {s t : State} (hi : isElement i = true) (h : exec i s = .next t) :
    passFrame s t := by
  have same := passFrame_refl s
  have ⟨_, size, source, output⟩ := same
  cases exec_cases hi h with
  | shLevel d hl ht => subst ht; exact ⟨id, fun _ => levelValue_le hl, source, output⟩
  | bhCrc _ ht =>
    subst ht
    exact ⟨fun ⟨hll8, htt, hmtf, hsel, _, hcf⟩ => ⟨hll8, htt, hmtf, hsel, clearedCounts_wf, hcf⟩, size, source,
      .inl ⟨rfl, rfl⟩⟩
  | tbSelector _ _ hidx ht =>
    subst ht
    exact ⟨fun ⟨hll8, htt, hmtf, hrest⟩ => ⟨hll8, htt, memSet_wf hmtf hidx, hrest⟩, size, source, output⟩
  | tbLenStop _ _ ht =>
    rcases advanceLength_cases _ with ⟨_, _, h'⟩ | ⟨_, _, h'⟩ | ⟨_, h'⟩ <;> rw [ht, h'] <;> exact same
  | symMtf _ ht =>
    have memories := mtfSymbol_memoriesWf ht
    obtain ⟨_, _, _, _, rfl | rfl⟩ := mtfSymbol_form ht <;> exact ⟨memories, size, source, output⟩
  | symEob u hu ht =>
    have memories := flushRun_memoriesWf hu
    obtain ⟨_, _, _, rfl⟩ := flushRun_form hu
    subst ht; exact ⟨memories, size, source, output⟩
  | symRun _ _ _ _ ht | symRunBad _ _ ht => subst ht; exact same
  | _ => rename_i ht; subst ht; exact same

theorem rejectElement_passFrame (err : StreamError) (s : State) : passFrame s (rejectElement err s) := by
  have same := passFrame_refl s
  rcases rejectElement_cases err s with h | ⟨_, _, h⟩ <;> rw [h] <;> exact same

theorem elementCase_passFrame {e : Expect} {s t : State} (he : expected s = some e) (h : ElementCase e s t) :
    passFrame s t := by
  have ⟨memories, size, source, output⟩ := passFrame_refl s
  have rejected (err : StreamError) (live : BitVec 5) :
      passFrame s (rejectElement err { s with bsLive := live, part := [] }) :=
    rejectElement_passFrame err { s with bsLive := live, part := [] }
  cases h with
  | fetch _ _ _ _ _ _ _ _ ht | eoi _ _ _ _ _ _ ht => subst ht; exact ⟨memories, size, fun _ => rfl, output⟩
  | more _ _ _ _ _ _ _ ht => subst ht; exact ⟨memories, size, source, output⟩
  | run _ i _ _ _ _ _ hd ht | heldRun i _ hd ht =>
    exact (exec_passFrame (expected_isElement he (decode_instr hd)) ht :)
  | bad _ err _ _ _ _ _ ht | heldBad err _ ht =>
    subst ht; exact rejected err _

/-! The output stage and the setup. -/

/-- The answers that are no byte give none. -/
theorem outputOf_append_none {as : List Answer} {a : Answer} (ha : ∀ b, a ≠ .byte b) :
    outputOf (as ++ [a]) = outputOf as := by
  cases a with
  | byte b => exact absurd rfl (ha b)
  | _ => simp [outputOf]

theorem outputOf_append_byte (as : List Answer) (b : BitVec 8) : outputOf (as ++ [.byte b]) = outputOf as ++ [b] := by
  simp [outputOf]

theorem emit_passFrame (b : BitVec 8) {s : State} (hp : s.phase = .blockOutput) : passFrame s (emit b s) := by
  obtain ⟨_, _, _, h⟩ := emit_eq b s
  rw [h]
  exact ⟨id, id, id, .inr ⟨b, hp, outputOf_append_byte _ _, rfl, rfl⟩⟩

theorem outputPass_passFrame {s t : State} (hp : s.phase = .blockOutput) (h : outputPass s = .ok t) :
    passFrame s t := by
  have same := passFrame_refl s
  rcases outputPass_ok h with ⟨_, rfl⟩ | ⟨_, _, _, rfl⟩ | ⟨_, _, _, rfl⟩ | ⟨_, _, b, u, hw, rfl⟩
  · exact (emit_passFrame s.rlePrev (s := { s with repLeft := s.repLeft - 1#8 }) hp :)
  · exact same
  · exact same
  · obtain ⟨p, n, q, rfl⟩ := walkByte_form hw
    rcases expandByte_cases b _ with ⟨_, h⟩ | ⟨_, c, r, h⟩ <;> rw [h]
    · exact same
    · exact (emit_passFrame b (s := { s with
        tPos := p, i2 := s.i2 + 1#20, rNToGo := n, rTPos := q, rleCount := c, rlePrev := r }) hp :)

theorem setupPass_passFrame {s t : State} (h : setupPass s = .ok t) : passFrame s t := by
  have ⟨memories, size, source, output⟩ := passFrame_refl s
  rcases setupPass_ok h with ⟨_, rfl⟩ | ⟨_, c, c', m, hc, hm, h⟩
  · exact ⟨memories, size, source, output⟩
  · obtain ⟨p, _, rfl⟩ := outputInit_ok h
    refine ⟨fun ⟨hll8, htt, hmtf, hsel, hcount, _⟩ => ?_, size, source, output⟩
    obtain ⟨hc', hm'⟩ := successorLoop_wf hm (cumulativeCounts_wf hc) htt
    exact ⟨hll8, hm', hmtf, hsel, hcount, hc'⟩

/-! Every pass. -/

theorem readCase_passFrame {s t : State} (h : ReadCase s t) : passFrame s t := by
  have same := passFrame_refl s
  have ⟨memories, size, source, output⟩ := same
  cases h with
  | element e he h => exact elementCase_passFrame he h
  | badLength _ _ ht => subst ht; exact same
  | alphabet _ ht => rcases alphabetPass_cases s with ⟨_, h⟩ | ⟨_, h⟩ <;> rw [ht, h] <;> exact same
  | selectorList _ ht =>
    obtain ⟨_, l, m, rfl, hm⟩ := selectorListPass_ok ht
    exact ⟨fun ⟨hll8, htt, hmtf, hsel, hrest⟩ => ⟨hll8, htt, hmtf, hm hsel, hrest⟩, size, source, output⟩
  | build _ ht =>
    obtain ⟨_, _, ⟨_, rfl⟩ | ⟨_, rfl⟩⟩ := buildPass_ok ht
    · exact same
    · rcases advanceBuild_cases _ with ⟨_, h⟩ | ⟨_, h⟩ <;> rw [h] <;> exact same
  | symbolInit _ ht =>
    obtain ⟨_, rfl⟩ := symbolInitPass_ok ht
    exact ⟨fun ⟨hll8, htt, hmtf, hsel, _, hcf⟩ => ⟨hll8, htt, hmtf, hsel, clearedCounts_wf, hcf⟩, size, source, output⟩
  | group _ ht => rcases groupPass_ok ht with ⟨_, _, rfl⟩ | ⟨_, _, _, _, rfl⟩ | ⟨_, rfl⟩ <;> exact same
  | setup _ ht => exact setupPass_passFrame ht
  | output hp ht => exact outputPass_passFrame hp ht
  | blockEnd _ ht => rcases blockEndPass_cases s with ⟨_, h⟩ | ⟨_, h⟩ <;> rw [ht, h] <;> exact same
  | endOfStream _ ht =>
    obtain ⟨_, h⟩ := answerEndOfStream_eq s
    rw [ht, h]; exact ⟨memories, size, source, .inl ⟨outputOf_append_none nofun, rfl⟩⟩
  | failed _ ht =>
    obtain ⟨_, h⟩ := answerError_eq s
    rw [ht, h]; exact ⟨memories, size, source, .inl ⟨outputOf_append_none nofun, rfl⟩⟩

/-- Settles O53: every write of a memory is checked against its depth and keeps the indices rising, a memory written
whole is in canonical form, and after reset nothing is written. -/
theorem memoriesStayCanonical : Obligations.MemoriesStayCanonical := by
  intro s t hs h
  cases step_cases h with
  | read _ _ h => exact (readCase_passFrame h).1 hs
  | resets _ _ _ _ ht => subst ht; exact reset_memories_wf
  | _ => rename_i ht; subst ht; exact hs

/-- Settles O56: of what a READ does only `Emit` gives a byte, counts it and sums it; the host's commands answer no byte,
and only OPEN and reset write the counter. -/
theorem outputIsCountedAndSummed : Obligations.OutputIsCountedAndSummed := by
  intro s t h
  cases step_cases h with
  | read _ hj h =>
    obtain ⟨_, _, _, ⟨ha, hc⟩ | ⟨b, hp, hrest⟩⟩ := readCase_passFrame h
    · exact .inl ⟨ha, .inl hc⟩
    · exact .inr ⟨b, hp, hj, hrest⟩
  | idle _ _ _ ht | reads _ _ _ _ _ _ ht | readsNone _ _ _ _ _ ht | readsBytes _ _ _ _ _ _ _ ht =>
    subst ht; exact .inl ⟨rfl, .inl rfl⟩
  | closes _ _ _ _ _ ht | status _ _ _ _ _ _ _ ht =>
    subst ht; exact .inl ⟨outputOf_append_none nofun, .inl rfl⟩
  | opens src rest _ hj hq hp ht =>
    subst ht; exact .inl ⟨outputOf_append_none nofun, .inr ⟨⟨hj, .inr ⟨⟨src, rest, hq⟩, hp⟩⟩, rfl⟩⟩
  | resets rest _ hj hq ht => subst ht; exact .inl ⟨rfl, .inr ⟨⟨hj, .inl ⟨rest, hq⟩⟩, rfl⟩⟩

end Sys2Proof.Proofs
end

section
/-! The block being written: `unzftab` counts the entries of `ll8` up to `nblock` (20_memory.md R51, R54), and a run or
a byte appended keeps it so. -/

namespace Sys2Proof.Proofs

open Sys2Proof.Machine Sys2Proof.Safety Sys2Proof.Laws

/-! Counting the entries of `ll8`. -/

@[simp] theorem occurrences_zero (l : Mem 8) (v : BitVec 8) : occurrences l v 0 = 0 := rfl

theorem occurrences_succ (l : Mem 8) (v : BitVec 8) (n : Nat) :
    occurrences l v (n + 1) = occurrences l v n + if memGet l n = some v then 1 else 0 := by
  unfold occurrences
  rw [List.range_succ, List.filter_append, List.length_append]
  by_cases h : memGet l n = some v <;> simp [h]

theorem occurrences_le (l : Mem 8) (v : BitVec 8) (n : Nat) : occurrences l v n ≤ n := by
  unfold occurrences
  simpa using List.length_filter_le (fun i => memGet l i == some v) (List.range n)

/-- Appending a run counts it for its byte, and for no other. -/
theorem occurrences_memFill {l : Mem 8} (hl : (l.map Prod.fst).Pairwise (· < ·)) (n k : Nat) (b v : BitVec 8) :
    occurrences (memFill n k b l) v (n + k) = occurrences l v n + if b = v then k else 0 := by
  have below (m : Nat) (hm : m ≤ n) : occurrences (memFill n k b l) v m = occurrences l v m := by
    induction m with
    | zero => rfl
    | succ m ih =>
      have hout : ¬(n ≤ m ∧ m < n + k) := by omega
      rw [occurrences_succ, occurrences_succ, ih (by omega), memGet_memFill n k b l hl, if_neg hout]
  have inside (j : Nat) (hj : j ≤ k) :
      occurrences (memFill n k b l) v (n + j) = occurrences l v n + if b = v then j else 0 := by
    induction j with
    | zero => simpa using below n (Nat.le_refl n)
    | succ j ih =>
      have hin : n ≤ n + j ∧ n + j < n + k := by omega
      rw [← Nat.add_assoc, occurrences_succ, ih (by omega), memGet_memFill n k b l hl, if_pos hin]
      by_cases h : b = v <;> simp [h, Nat.add_assoc]
  exact inside k (Nat.le_refl k)

theorem blockLimit_le {s : State} (h : s.blockSize100k.toNat ≤ 9) : blockLimit s ≤ maxBlock := by
  unfold blockLimit blockUnit maxBlock
  omega

/-! What is appended to a written block. -/

theorem appendLl8_eq {b : BitVec 8} {k : Nat} {s : State} {c : BitVec 20} (hk : s.nblock.toNat + k ≤ maxBlock)
    (hc : memGet s.unzftab b.toNat = some c) :
    appendLl8 b k s = .ok
      { s with
        ll8 := memFill s.nblock.toNat k b s.ll8, unzftab := memSet b.toNat (c + BitVec.ofNat 20 k) s.unzftab
        nblock := s.nblock + BitVec.ofNat 20 k } := by
  have hl : memWriteRun .ll8 maxBlock s.ll8 s.nblock.toNat k b = .ok _ := memWriteRun_ok.mpr ⟨hk, rfl⟩
  have hread : memRead .unzftab countDepth s.unzftab b.toNat = .ok c := memRead_ok.mpr ⟨b.isLt, hc⟩
  have hwrite : memWrite .unzftab countDepth s.unzftab b.toNat (c + BitVec.ofNat 20 k) = .ok _ :=
    memWrite_ok.mpr ⟨b.isLt, rfl⟩
  unfold appendLl8 countBytes
  rw [hl, hread]
  simp only [hwrite]

/-- A run of the front byte, or one byte, fits below `maxBlock` and is counted. -/
theorem appendLl8_blockWritten {b : BitVec 8} {k : Nat} {s : State} (hwf : memoriesWf s) (hs : blockWritten s)
    (hk : s.nblock.toNat + k ≤ maxBlock) :
    ∃ l z n, appendLl8 b k s = .ok { s with ll8 := l, unzftab := z, nblock := n } ∧
      blockWritten { s with ll8 := l, unzftab := z, nblock := n } ∧ n.toNat = s.nblock.toNat + k := by
  obtain ⟨hwritten, hcount⟩ := hs
  obtain ⟨c, hc, hcv⟩ := hcount b
  have hdepth : maxBlock < 2 ^ 20 := by decide
  have hn : (s.nblock + BitVec.ofNat 20 k).toNat = s.nblock.toNat + k := by
    rw [BitVec.toNat_add, BitVec.toNat_ofNat]; omega
  have hle := occurrences_le s.ll8 b s.nblock.toNat
  have hck : (c + BitVec.ofNat 20 k).toNat = c.toNat + k := by
    rw [BitVec.toNat_add, BitVec.toNat_ofNat]; omega
  refine ⟨_, _, _, appendLl8_eq hk hc, ⟨fun i hi => ?_, fun v => ?_⟩, hn⟩
  · have hi : i < s.nblock.toNat + k := hn ▸ hi
    simp only [memGet_memFill _ _ _ _ hwf.1.1]
    split
    · rfl
    · exact hwritten i (by omega)
  · simp only [hn, occurrences_memFill hwf.1.1, memGet_memSet]
    by_cases hv : v = b
    · subst hv
      exact ⟨_, if_pos rfl, by rw [hck, hcv, if_pos rfl]⟩
    · obtain ⟨d, hd, hdv⟩ := hcount v
      have hne : v.toNat ≠ b.toNat := fun h => hv (BitVec.eq_of_toNat_eq h)
      exact ⟨d, by simp [hne, hd], by simp [hdv, Ne.symm hv]⟩

/-- A flush finds room for the run. -/
theorem flushRun_blockWritten {s : State} (hwf : memoriesWf s) (hs : blockWritten s)
    (hk : s.nblock.toNat + s.runS.toNat ≤ maxBlock) :
    ∃ l z n, flushRun s = .ok { s with ll8 := l, unzftab := z, nblock := n, runS := 0#20, runN := 1#20 } ∧
      blockWritten { s with ll8 := l, unzftab := z, nblock := n } ∧ n.toNat = s.nblock.toNat + s.runS.toNat := by
  unfold flushRun
  by_cases hr : s.runS = 0#20
  · exact ⟨s.ll8, s.unzftab, s.nblock, by rw [if_pos hr], hs, by simp [hr]⟩
  · have hfront : fileRead .mtfSym s.mtfSym 0 = .ok s.mtfSym[0] := rfl
    obtain ⟨l, z, n, happ, hblock, hn⟩ := appendLl8_blockWritten (b := s.mtfSym[0]) hwf hs hk
    exact ⟨l, z, n, by rw [if_neg hr, hfront]; simp only [happ], hblock, hn⟩

end Sys2Proof.Proofs
end

section
/-! A table built from legal lengths (42_tables.md R131): every symbol decoded with it is one of the alphabet, no index
leaves a file, and `minLen` and `maxLen` are code lengths (43_symbols.md R140). -/

namespace Sys2Proof.Proofs

open Sys2Proof.Machine Sys2Proof.Safety Sys2Proof.Laws

/-! Counting the symbols by length. -/

theorem lengthCount_cons (l : BitVec 5) (lens : List (BitVec 5)) (n : Nat) :
    lengthCount (l :: lens) n = lengthCount lens n + if l.toNat = n then 1 else 0 := by
  unfold lengthCount
  by_cases h : l.toNat = n <;> simp [h]

/-- Each length is counted for one value only. -/
theorem sum_lengthCount_le (lens : List (BitVec 5)) {ns : List Nat} (hns : ns.Nodup) :
    (ns.map (lengthCount lens)).sum ≤ lens.length := by
  induction lens with
  | nil => simp [show lengthCount [] = fun _ => 0 from rfl]
  | cons l lens ih =>
    have hone : (ns.map fun n => if l.toNat = n then 1 else 0).sum ≤ 1 := by
      rw [← List.sum_toFinset _ hns, Finset.sum_ite_eq]
      split <;> omega
    have hsum : (ns.map (lengthCount (l :: lens))).sum =
        (ns.map (lengthCount lens)).sum + (ns.map fun n => if l.toNat = n then 1 else 0).sum := by
      rw [← List.sum_map_add]
      simp only [← lengthCount_cons]
    rw [hsum, List.length_cons]
    omega

theorem symbolsOfLength_length (lens : List (BitVec 5)) (n : Nat) :
    (symbolsOfLength lens n).length = lengthCount lens n := by
  have gen (k : Nat) :
      ((lens.zipIdx k).filterMap fun e => if e.1.toNat = n then some e.2 else none).length = lengthCount lens n := by
    induction lens generalizing k with
    | nil => rfl
    | cons l lens ih =>
      rw [lengthCount_cons, List.zipIdx_cons, List.filterMap_cons]
      by_cases h : l.toNat = n <;> simp [h, ih]
  exact gen 0

theorem mem_symbolsOfLength_lt {lens : List (BitVec 5)} {n s : Nat} (h : s ∈ symbolsOfLength lens n) :
    s < lens.length := by
  obtain ⟨e, he, hs⟩ := List.mem_filterMap.mp h
  have := (List.mem_zipIdx (x := e.1) (i := e.2) he).2.1
  split at hs <;> cases hs
  omega

theorem canonicalOrder_length (lens : List (BitVec 5)) :
    (canonicalOrder lens).length = (codeLengths.map (lengthCount lens)).sum := by
  unfold canonicalOrder
  rw [List.length_flatMap]
  simp only [symbolsOfLength_length]

theorem mem_canonicalOrder_lt {lens : List (BitVec 5)} {s : Nat} (h : s ∈ canonicalOrder lens) : s < lens.length := by
  obtain ⟨n, _, hs⟩ := List.mem_flatMap.mp h
  exact mem_symbolsOfLength_lt hs

theorem canonicalOrder_length_le (lens : List (BitVec 5)) : (canonicalOrder lens).length ≤ lens.length := by
  rw [canonicalOrder_length]
  exact sum_lengthCount_le lens List.nodup_range'

/-- The symbols of length `n` stand inside the canonical order. -/
theorem firstIndex_add_le (lens : List (BitVec 5)) {n : Nat} (h1 : 1 ≤ n) (h20 : n ≤ 20) :
    firstIndex lens n + lengthCount lens n ≤ (canonicalOrder lens).length := by
  have hsplit : codeLengths = List.range' 1 (n - 1) ++ (n :: List.range' (n + 1) (20 - n)) := by
    have hcons : n :: List.range' (n + 1) (20 - n) = List.range' (1 + (n - 1)) (20 - n + 1) := by
      rw [List.range'_succ]; congr 1 <;> congr 1 <;> omega
    rw [hcons, List.range'_append_1]
    unfold codeLengths
    congr 1; omega
  rw [canonicalOrder_length, hsplit]
  simp only [List.map_append, List.map_cons, List.sum_append, List.sum_cons]
  unfold firstIndex
  omega

theorem lengthLegal_iff {l : BitVec 5} : lengthLegal l = true ↔ 1 ≤ l.toNat ∧ l.toNat ≤ 20 := by
  unfold lengthLegal
  rw [Bool.and_eq_true]
  exact and_congr decide_eq_true_iff decide_eq_true_iff

/-! The files of a canonical table. -/

section Canonical

variable {lens : List (BitVec 5)} {t : HuffTable}

theorem canonicalTable_count (ht : canonicalTable lens t) (hlen : lens.length ≤ 258) {n : Nat} (h1 : 1 ≤ n)
    (hn : n < 21) : (t.count[n]).toNat = lengthCount lens n := by
  obtain ⟨_, _, _, hbuilt⟩ := ht
  have hcount : (withCounts lens t).count = t.count := by rw [← congrArg HuffTable.count hbuilt]; rfl
  rw [← withCounts_count t (by omega) h1 hn]
  simp only [hcount]

theorem canonicalTable_firstIdx (ht : canonicalTable lens t) (hlen : lens.length ≤ 258) {n : Nat} (h1 : 1 ≤ n)
    (hn : n < 21) : (t.firstIdx[n]).toNat = firstIndex lens n := by
  obtain ⟨_, _, _, hbuilt⟩ := ht
  have hidx : (withCodes lens (withCounts lens t)).firstIdx = t.firstIdx := congrArg HuffTable.firstIdx hbuilt
  have hle := firstIndex_add_le lens h1 (by omega)
  have hsum := canonicalOrder_length_le lens
  have h0 : ¬n = 0 := by omega
  simp only [← hidx, withCodes, fileOf_getElem, if_neg h0, BitVec.toNat_ofNat]
  omega

theorem canonicalTable_perm (ht : canonicalTable lens t) (hlen : lens.length ≤ 258) {i : Nat}
    (hi : i < (canonicalOrder lens).length) : ∃ s, t.perm[i]? = some s ∧ s.toNat < lens.length := by
  obtain ⟨_, _, _, hbuilt⟩ := ht
  have hperm : (withCodes lens (withCounts lens t)).perm = t.perm := congrArg HuffTable.perm hbuilt
  have hi' : i < 258 := by have := canonicalOrder_length_le lens; omega
  have hlt := mem_canonicalOrder_lt (List.getElem_mem hi)
  refine ⟨_, Vector.getElem?_eq_getElem hi', ?_⟩
  simp only [← hperm, withCodes, fileOverlay_getElem, List.length_map, hi, dif_pos, List.getElem_map,
    BitVec.toNat_ofNat]
  omega

/-- The bounds of a canonical table's codes (42_tables.md R129, R131). -/
theorem canonicalTable_bounds (ht : canonicalTable lens t) (hne : lens ≠ []) :
    1 ≤ t.minLen.toNat ∧ t.minLen.toNat ≤ t.maxLen.toNat ∧ t.maxLen.toNat ≤ 20 := by
  obtain ⟨_, hlegal, _, hbuilt⟩ := ht
  have hmin : (withCounts lens t).minLen = t.minLen := by rw [← congrArg HuffTable.minLen hbuilt]; rfl
  have hmax : (withCounts lens t).maxLen = t.maxLen := by rw [← congrArg HuffTable.maxLen hbuilt]; rfl
  obtain ⟨hbound, hminMem, hmaxMem⟩ := withCounts_bounds t hne
  rw [hmin] at hminMem
  rw [hmax] at hmaxMem
  have hlow := lengthLegal_iff.mp (hlegal _ hminMem)
  have hhigh := lengthLegal_iff.mp (hlegal _ hmaxMem)
  have hle := (hbound _ hmaxMem).1
  rw [hmin] at hle
  exact ⟨hlow.1, hle, hhigh.2⟩

/-! Decoding with it. -/

/-- One turn of the loop finds a symbol of the alphabet, or none; it ends at `maxLen` (43_symbols.md R140). -/
theorem probe_canonical (ht : canonicalTable lens t) (hlen : lens.length ≤ 258) {n : Nat} (h1 : 1 ≤ n)
    (h20 : n ≤ 20) (v : Nat) :
    (∃ s, probe t n v = .hit s ∧ s < lens.length) ∨ probe t n v = .last ∨
      (probe t n v = .miss ∧ n ≠ t.maxLen.toNat) := by
  have hn : n < 21 := by omega
  unfold probe
  simp only [Vector.getElem?_eq_getElem hn]
  split
  · rename_i hv
    have hpos : t.firstIdx[n].toNat + v - t.firstCode[n].toNat < (canonicalOrder lens).length := by
      have hle := firstIndex_add_le lens h1 h20
      rw [canonicalTable_count ht hlen h1 hn] at hv
      rw [canonicalTable_firstIdx ht hlen h1 hn]
      omega
    obtain ⟨s, hs, hlt⟩ := canonicalTable_perm ht hlen hpos
    simp only [hs]
    exact .inl ⟨_, rfl, hlt⟩
  · split
    · exact .inr (.inl rfl)
    · exact .inr (.inr ⟨rfl, ‹_›⟩)

/-- What the bits of a symbol can be in a block with `k` byte values: no rejection, and no MTF symbol above `k`. -/
def symbolRead (k : Nat) (v : Verdict) : Prop :=
  v = .need 1 ∨ v = .illegal .badCode ∨ ∃ i rest, v = .instr i rest ∧ ∀ n, i = .symMtf n → n.toNat ≤ k

theorem symbolVerdict_read {k s : Nat} (hs : s < k + 2) (hk : k ≤ 256) (rest : List Bool) :
    symbolRead k (symbolVerdict k s rest) := by
  unfold symbolVerdict
  split
  · exact .inr (.inr ⟨_, _, rfl, nofun⟩)
  split
  · exact .inr (.inr ⟨_, _, rfl, nofun⟩)
  split
  · refine .inr (.inr ⟨_, _, rfl, fun n hn => ?_⟩)
    cases hn
    rw [BitVec.toNat_ofNat]
    omega
  split
  · exact .inr (.inr ⟨_, _, rfl, nofun⟩)
  · omega

theorem decodeCode_read {k : Nat} (ht : canonicalTable lens t) (hlen : lens.length = k + 2) (hk : k ≤ 256)
    (bits : List Bool) {n : Nat} (h1 : 1 ≤ n) (hn : n ≤ t.maxLen.toNat) (v : Nat) :
    symbolRead k (decodeCode t k n v bits) := by
  have hmax : t.maxLen.toNat ≤ 20 :=
    (canonicalTable_bounds ht (List.ne_nil_of_length_pos (by omega))).2.2
  induction bits generalizing n v with
  | nil =>
    unfold decodeCode
    rcases probe_canonical ht (by omega) h1 (by omega) v with ⟨s, hp, hs⟩ | hp | ⟨hp, _⟩ <;> rw [hp]
    · exact symbolVerdict_read (by omega) hk _
    · exact .inr (.inl rfl)
    · exact .inl rfl
  | cons b bits ih =>
    unfold decodeCode
    rcases probe_canonical ht (by omega) h1 (by omega) v with ⟨s, hp, hs⟩ | hp | ⟨hp, hne⟩ <;> rw [hp]
    · exact symbolVerdict_read (by omega) hk _
    · exact .inr (.inl rfl)
    · exact ih (by omega) (by omega) _

/-- The bits of a symbol are incomplete, or what `symbolRead` says. -/
theorem decode_symbol_canonical {k : Nat} (ht : canonicalTable lens t) (hlen : lens.length = k + 2) (hk : k ≤ 256)
    (bits : List Bool) : (∃ n, decode (.symbol t k) bits = .need n) ∨ symbolRead k (decode (.symbol t k) bits) := by
  obtain ⟨hmin, hle, _⟩ := canonicalTable_bounds ht (List.ne_nil_of_length_pos (by omega))
  simp only [decode, decodeSymbol]
  split
  · exact .inl ⟨_, rfl⟩
  · exact .inr (decodeCode_read ht hlen hk _ hmin hle _)

end Canonical

/-! Building a table. -/

theorem fileOverlay_idem {α : Type} {n : Nat} (xs : List α) (f : Vector α n) :
    fileOverlay xs (fileOverlay xs f) = fileOverlay xs f := by
  apply Vector.ext
  intro i hi
  simp only [fileOverlay_getElem]
  split <;> rfl

/-- Built again from the same lengths, a table is the same. -/
theorem withCodes_withCounts_idem (lens : List (BitVec 5)) (t : HuffTable) :
    withCodes lens (withCounts lens (withCodes lens (withCounts lens t))) = withCodes lens (withCounts lens t) := by
  simp only [withCodes, withCounts, fileOverlay_idem, fileOf_getElem, if_true]

end Sys2Proof.Proofs
end

section
/-! The setup of the inverse transform meets no fault (44_inverse_bwt.md R153 to R155): the loop that fills `tt` writes
each position below `nblock` once, with a pointer below `nblock`. -/

namespace Sys2Proof.Proofs

open Sys2Proof.Machine Sys2Proof.Safety Sys2Proof.Laws

/-! Where the entries of a byte begin in the sorted block. -/

/-- The number of the first `n` entries of `ll8` that hold a byte below `v` (44_inverse_bwt.md R153). -/
def lowerCount (l : Mem 8) (n v : Nat) : Nat := ∑ w ∈ Finset.range v, occurrences l (BitVec.ofNat 8 w) n

@[simp] theorem lowerCount_zero (l : Mem 8) (n : Nat) : lowerCount l n 0 = 0 := rfl

theorem lowerCount_succ (l : Mem 8) (n v : Nat) :
    lowerCount l n (v + 1) = lowerCount l n v + occurrences l (BitVec.ofNat 8 v) n :=
  Finset.sum_range_succ _ _

/-- Every written entry holds one byte. -/
theorem lowerCount_all {l : Mem 8} {n : Nat} (hl : ∀ i < n, (memGet l i).isSome = true) : lowerCount l n 256 = n := by
  induction n with
  | zero => simp [lowerCount]
  | succ n ih =>
    obtain ⟨b, hb⟩ := Option.isSome_iff_exists.mp (hl n (by omega))
    have hone : ∑ w ∈ Finset.range 256, (if memGet l n = some (BitVec.ofNat 8 w) then 1 else 0) = 1 := by
      rw [Finset.sum_eq_single b.toNat]
      · simp [hb]
      · intro w hw hne
        have hw := Finset.mem_range.mp hw
        have : b ≠ BitVec.ofNat 8 w := by
          rintro rfl
          rw [BitVec.toNat_ofNat] at hne
          omega
        simp [hb, this]
      · intro h
        exact absurd (Finset.mem_range.mpr b.isLt) h
    have hrest : lowerCount l n 256 = n := ih fun i hi => hl i (by omega)
    unfold lowerCount at hrest ⊢
    simp only [occurrences_succ, Finset.sum_add_distrib, hone, hrest]

theorem occurrences_mono (l : Mem 8) (v : BitVec 8) {m n : Nat} (h : m ≤ n) :
    occurrences l v m ≤ occurrences l v n := by
  induction h with
  | refl => exact Nat.le_refl _
  | step _ ih => rw [occurrences_succ]; omega

/-- The entries of a byte end inside the block. -/
theorem lowerCount_add_occurrences_le {l : Mem 8} {n : Nat} (hl : ∀ i < n, (memGet l i).isSome = true)
    (v : BitVec 8) : lowerCount l n v.toNat + occurrences l v n ≤ n := by
  have hmono : lowerCount l n (v.toNat + 1) ≤ lowerCount l n 256 :=
    Finset.sum_le_sum_of_subset (Finset.range_mono v.isLt)
  rw [lowerCount_succ, BitVec.ofNat_toNat, BitVec.setWidth_eq, lowerCount_all hl] at hmono
  exact hmono

/-- Each position of the sorted block belongs to one byte. -/
theorem exists_byte_of_position {l : Mem 8} {n : Nat} (hl : ∀ i < n, (memGet l i).isSome = true) {q : Nat} (hq : q < n) :
    ∃ v : BitVec 8, lowerCount l n v.toNat ≤ q ∧ q < lowerCount l n v.toNat + occurrences l v n := by
  have cross (m : Nat) (hm : q < lowerCount l n m) :
      ∃ v < m, lowerCount l n v ≤ q ∧ q < lowerCount l n (v + 1) := by
    induction m with
    | zero => simp at hm
    | succ m ih =>
      by_cases h : q < lowerCount l n m
      · obtain ⟨v, hv, hvq⟩ := ih h
        exact ⟨v, by omega, hvq⟩
      · exact ⟨m, by omega, by omega, hm⟩
  obtain ⟨v, hv, hlow, hhigh⟩ := cross 256 (by rw [lowerCount_all hl]; exact hq)
  have hnat : (BitVec.ofNat 8 v).toNat = v := by rw [BitVec.toNat_ofNat]; omega
  rw [lowerCount_succ] at hhigh
  exact ⟨BitVec.ofNat 8 v, by rw [hnat]; exact hlow, by rw [hnat]; exact hhigh⟩

/-! The cumulative counts (R153). -/

theorem memReadAll_eq {w : Nat} {name : Store} {depth : Nat} {m : Mem w} {f : Nat → BitVec w} {is : List Nat}
    (h : ∀ i ∈ is, i < depth ∧ memGet m i = some (f i)) : memReadAll name depth m is = .ok (is.map f) := by
  induction is with
  | nil => rfl
  | cons i is ih =>
    unfold memReadAll
    rw [memRead_ok.mpr (h i (List.mem_cons_self ..)), ih fun j hj => h j (List.mem_cons_of_mem i hj)]
    rfl

theorem runningSums_occurrences (l : Mem 8) (n v k : Nat) :
    runningSums (BitVec.ofNat 20 (lowerCount l n v))
        ((List.range' v k).map fun w => BitVec.ofNat 20 (occurrences l (BitVec.ofNat 8 w) n)) =
      (List.range' v (k + 1)).map fun w => BitVec.ofNat 20 (lowerCount l n w) := by
  induction k generalizing v with
  | zero => rfl
  | succ k ih =>
    rw [List.range'_succ, List.range'_succ, List.map_cons, List.map_cons, runningSums, ← BitVec.ofNat_add,
      ← lowerCount_succ, ih]

/-- `cftab` before the loop: where each byte's entries begin. -/
theorem cumulativeCounts_eq {s : State} (hs : blockWritten s) :
    ∃ c, cumulativeCounts s.unzftab = .ok c ∧
      ∀ v : BitVec 8, memGet c v.toNat = some (BitVec.ofNat 20 (lowerCount s.ll8 s.nblock.toNat v.toNat)) := by
  obtain ⟨_, hcount⟩ := hs
  have hread : memReadAll .unzftab countDepth s.unzftab (List.range countDepth) = .ok ((List.range countDepth).map
      fun w => BitVec.ofNat 20 (occurrences s.ll8 (BitVec.ofNat 8 w) s.nblock.toNat)) := by
    refine memReadAll_eq fun i hi => ?_
    have hi : i < 256 := List.mem_range.mp hi
    obtain ⟨c, hc, hcv⟩ := hcount (BitVec.ofNat 8 i)
    rw [BitVec.toNat_ofNat, Nat.mod_eq_of_lt hi] at hc
    exact ⟨hi, by rw [hc, ← hcv, BitVec.ofNat_toNat, BitVec.setWidth_eq]⟩
  have hsums := runningSums_occurrences s.ll8 s.nblock.toNat 0 countDepth
  rw [lowerCount_zero, ← List.range_eq_range'] at hsums
  refine ⟨_, by unfold cumulativeCounts; rw [hread], fun v => ?_⟩
  have hv : v.toNat < countDepth + 1 := Nat.lt_succ_of_lt v.isLt
  rw [memGet_memOfList, hsums, List.getElem?_map, List.getElem?_range' hv]
  simp

/-! The successor loop (R154). -/

/-- After the positions below `i`: `cftab` has moved past the entries they filled, and those hold pointers below `n`. -/
structure SuccessorInv (l : Mem 8) (n i : Nat) (c t : Mem 20) : Prop where
  counts : ∀ v : BitVec 8,
    memGet c v.toNat = some (BitVec.ofNat 20 (lowerCount l n v.toNat + occurrences l v i))
  written : ∀ (v : BitVec 8) (q : Nat), lowerCount l n v.toNat ≤ q → q < lowerCount l n v.toNat + occurrences l v i →
    ∃ p, memGet t q = some p ∧ p.toNat < n

section Loop

variable {l : Mem 8} {n : Nat} (hl : ∀ i < n, (memGet l i).isSome = true) (hn : n ≤ maxBlock)
include hl hn

/-- One turn of the loop. -/
theorem successorLoop_cons {i : Nat} (hi : i < n) {c t : Mem 20} (h : SuccessorInv l n i c t) :
    ∃ c' t', (∀ is, successorLoop l (i :: is) c t = successorLoop l is c' t') ∧ SuccessorInv l n (i + 1) c' t' := by
  obtain ⟨b, hb⟩ := Option.isSome_iff_exists.mp (hl i hi)
  have hdepth : maxBlock < 2 ^ 20 := by decide
  have hsucc (v : BitVec 8) : occurrences l v (i + 1) = occurrences l v i + if b = v then 1 else 0 := by
    simp only [occurrences_succ, hb, Option.some_inj]
  have hslot : lowerCount l n b.toNat + occurrences l b i < n := by
    have hend := lowerCount_add_occurrences_le hl b
    have hmono : occurrences l b (i + 1) ≤ occurrences l b n := occurrences_mono l b hi
    rw [hsucc, if_pos rfl] at hmono
    omega
  have hk : (BitVec.ofNat 20 (lowerCount l n b.toNat + occurrences l b i)).toNat =
      lowerCount l n b.toNat + occurrences l b i := by
    rw [BitVec.toNat_ofNat]; omega
  have hbyte : memRead .ll8 maxBlock l i = .ok b := memRead_ok.mpr ⟨by omega, hb⟩
  have hbl : b.toNat < cumulativeDepth := Nat.lt_succ_of_lt b.isLt
  have hread : memRead .cftab cumulativeDepth c b.toNat = .ok _ := memRead_ok.mpr ⟨hbl, h.counts b⟩
  refine ⟨memSet b.toNat (BitVec.ofNat 20 (lowerCount l n b.toNat + occurrences l b i) + 1#20) c,
    memSet (lowerCount l n b.toNat + occurrences l b i) (BitVec.ofNat 20 i) t, fun is => ?_, ⟨fun v => ?_, ?_⟩⟩
  · rw [successorLoop, hbyte]
    simp only [hread, hk]
    rw [memWrite_ok.mpr ⟨by omega, rfl⟩]
    simp only [memWrite_ok.mpr ⟨hbl, rfl⟩]
  · rw [memGet_memSet, hsucc]
    by_cases hv : v = b
    · subst hv
      rw [if_pos rfl, if_pos rfl, ← Nat.add_assoc]
      exact congrArg some (BitVec.ofNat_add _ 1).symm
    · have hne : v.toNat ≠ b.toNat := fun h => hv (BitVec.eq_of_toNat_eq h)
      rw [if_neg hne, if_neg (Ne.symm hv), h.counts v, Nat.add_zero]
  · intro v q hlow hhigh
    rw [memGet_memSet]
    by_cases hq : q = lowerCount l n b.toNat + occurrences l b i
    · exact ⟨_, if_pos hq, by rw [BitVec.toNat_ofNat]; omega⟩
    · rw [if_neg hq]
      refine h.written v q hlow ?_
      rw [hsucc] at hhigh
      by_cases hv : b = v
      · subst hv; rw [if_pos rfl] at hhigh; omega
      · rw [if_neg hv] at hhigh; exact hhigh

theorem successorLoop_eq (k : Nat) {i : Nat} (hi : i + k = n) {c t : Mem 20} (h : SuccessorInv l n i c t) :
    ∃ c' t', successorLoop l (List.range' i k) c t = .ok (c', t') ∧ SuccessorInv l n n c' t' := by
  induction k generalizing i c t with
  | zero => cases hi; exact ⟨c, t, rfl, h⟩
  | succ k ih =>
    obtain ⟨c', t', heq, h'⟩ := successorLoop_cons hl hn (by omega) h
    rw [List.range'_succ, heq]
    exact ih (by omega) h'

end Loop

/-- The setup fills `tt` below `nblock` and starts the walk there. -/
theorem setupPass_safe {s : State} (hs : blockWritten s) (hn : s.nblock.toNat ≤ maxBlock) :
    ∃ t, setupPass s = .ok t ∧ phaseInv t := by
  have ⟨hl, _⟩ := hs
  unfold setupPass
  by_cases ho : s.nblock.toNat ≤ s.origPtr.toNat
  · exact ⟨_, if_pos ho, trivial⟩
  · obtain ⟨c, hc, hstart⟩ := cumulativeCounts_eq hs
    obtain ⟨c', m, hloop, hinv⟩ := successorLoop_eq hl hn s.nblock.toNat (i := 0) (Nat.zero_add _)
      (c := c) (t := s.tt) ⟨hstart, fun v q h1 h2 => by rw [occurrences_zero] at h2; omega⟩
    have htt (q : Nat) (hq : q < s.nblock.toNat) : ∃ p, memGet m q = some p ∧ p.toNat < s.nblock.toNat := by
      obtain ⟨v, hlow, hhigh⟩ := exists_byte_of_position hl hq
      exact hinv.written v q hlow hhigh
    obtain ⟨p, hp, hpn⟩ := htt s.origPtr.toNat (by omega)
    have hread : memRead .tt maxBlock m s.origPtr.toNat = .ok p := memRead_ok.mpr ⟨by omega, hp⟩
    rw [if_neg ho, hc, List.range_eq_range']
    simp only [hloop, outputInit, hread]
    exact ⟨_, rfl, hn, hpn, fun i hi => ⟨hl i hi, htt i hi⟩⟩

end Sys2Proof.Proofs
end

section
/-! The table parse meets no fault and establishes what the next position needs (42_tables.md R116): the selectors are
table numbers, the lengths of every table are code lengths, every table is built from its lengths. -/

namespace Sys2Proof.Proofs

open Sys2Proof.Machine Sys2Proof.Safety Sys2Proof.Laws

/-! The alphabet. -/

/-- The in-use list is empty, an error, or the alphabet is known. -/
theorem alphabetPass_phaseInv (s : State) : phaseInv (alphabetPass s) := by
  rcases alphabetPass_cases s with ⟨_, h⟩ | ⟨hne, h⟩ <;> rw [h]
  · trivial
  · have hle := (inUseBytes_spec s.inUse).2.2
    have hn : (BitVec.ofNat 9 (inUseBytes s.inUse).length).toNat = (inUseBytes s.inUse).length := by
      rw [BitVec.toNat_ofNat]; omega
    refine ⟨?_, ?_, ?_⟩
    · simp only [hn]; omega
    · simp only [hn]; omega
    · simp only [BitVec.toNat_add, hn, BitVec.toNat_ofNat]; omega

/-! The selectors (R126, R127). -/

theorem selectorsBelow_memSet {m : Mem 3} {i g : Nat} {v : BitVec 3} (h : selectorsBelow m i g) (hv : v.toNat < g) :
    selectorsBelow (memSet i v m) (i + 1) g := by
  intro j hj
  rw [memGet_memSet]
  by_cases hji : j = i
  · exact ⟨v, if_pos hji, hv⟩
  · rw [if_neg hji]; exact h j (by omega)

/-- The first `g` entries of the selector list are table numbers below `g`. -/
def selPosBelow (f : Vector (BitVec 3) 6) (g : Nat) : Prop := ∀ j (hj : j < 6), j < g → f[j].toNat < g

theorem selPosBelow_moveToFront {f : Vector (BitVec 3) 6} {g j : Nat} (h : selPosBelow f g) (hj : j < 6) (hjg : j < g) :
    selPosBelow (fileMoveToFront f j hj) g := by
  intro k hk hkg
  rw [fileMoveToFront_getElem]
  split
  · exact h j hj hjg
  split
  · exact h (k - 1) (by omega) (by omega)
  · exact h k hk hkg

theorem selPosBelow_start (f : Vector (BitVec 3) 6) (g : Nat) :
    selPosBelow (fileOverlay ((List.range g).map (BitVec.ofNat 3)) f) g := by
  intro j hj hjg
  simp only [fileOverlay_getElem, List.length_map, List.length_range, hjg, dif_pos, List.getElem_map,
    List.getElem_range, BitVec.toNat_ofNat]
  omega

/-- The MTF decode of selectors that are positions below `g` gives table numbers below `g`. -/
theorem selectorLoop_safe {g : Nat} (hg : g ≤ 6) (k : Nat) {i : Nat} {s : State} (hpos : selPosBelow s.selPos g)
    (hmtf : selectorsBelow s.selectorMtf (i + k) g) (hsel : selectorsBelow s.selector i g)
    (hdepth : i + k ≤ maxSelectors) :
    ∃ l m, selectorLoop (List.range' i k) s = .ok { s with selPos := l, selector := m } ∧
      selectorsBelow m (i + k) g := by
  induction k generalizing i s with
  | zero => exact ⟨_, _, rfl, hsel⟩
  | succ k ih =>
    obtain ⟨j, hj, hjg⟩ := hmtf i (by omega)
    have hj6 : j.toNat < 6 := by omega
    have hread : memRead .selectorMtf maxSelectors s.selectorMtf i = .ok j := memRead_ok.mpr ⟨by omega, hj⟩
    have hmove : moveToFront .selPos s.selPos j.toNat = .ok (s.selPos[j.toNat], fileMoveToFront s.selPos j.toNat hj6) :=
      moveToFront_ok.mpr ⟨hj6, rfl, rfl⟩
    have hwrite : memWrite .selector maxSelectors s.selector i s.selPos[j.toNat] = .ok _ :=
      memWrite_ok.mpr ⟨by omega, rfl⟩
    obtain ⟨l, m, heq, hm⟩ := ih (i := i + 1)
      (s := { s with
        selPos := fileMoveToFront s.selPos j.toNat hj6, selector := memSet i s.selPos[j.toNat] s.selector })
      (selPosBelow_moveToFront hpos hj6 hjg) (by rwa [Nat.add_right_comm])
      (selectorsBelow_memSet hsel (hpos _ hj6 hjg)) (by omega)
    refine ⟨l, m, ?_, by rwa [Nat.add_right_comm] at hm⟩
    rw [List.range'_succ, selectorLoop, hread]
    simp only [hmove, hwrite, heq]

theorem selectorListPass_safe {s : State} (hg : s.nGroups.toNat ≤ 6)
    (hmtf : selectorsBelow s.selectorMtf s.nSelectors.toNat s.nGroups.toNat) :
    ∃ l m, selectorListPass s = .ok { s with selPos := l, selector := m, tblIdx := 0#3, phase := .blockTables .lenStart } ∧
      selectorsBelow m s.nSelectors.toNat s.nGroups.toNat := by
  have hdepth : s.nSelectors.toNat ≤ maxSelectors := Nat.le_of_lt_succ s.nSelectors.isLt
  obtain ⟨l, m, heq, hm⟩ := selectorLoop_safe hg s.nSelectors.toNat (i := 0)
    (s := { s with selPos := fileOverlay ((List.range s.nGroups.toNat).map (BitVec.ofNat 3)) s.selPos })
    (selPosBelow_start _ _) (by rwa [Nat.zero_add]) (fun j hj => absurd hj (Nat.not_lt_zero j))
    (by rwa [Nat.zero_add])
  rw [Nat.zero_add] at hm
  have hgroups : ¬maxGroups < s.nGroups.toNat := Nat.not_lt.mpr hg
  refine ⟨l, m, ?_, hm⟩
  unfold selectorListPass
  rw [if_neg hgroups, List.range_eq_range' (n := s.nSelectors.toNat)]
  simp only [heq]

/-! The code lengths (R129, R130). -/

section Tables

variable {s : State} {k : Nat} (hk : k < 6)

/-- A table written is the one read at its number; the other tables stay. -/
theorem tables_set_cases {tb t : HuffTable} {j : Nat} (h : (s.tables.set k tb hk)[j]? = some t) :
    (j = k ∧ t = tb) ∨ (j ≠ k ∧ s.tables[j]? = some t) := by
  by_cases hj : j = k
  · subst hj
    rw [Vector.getElem?_set_self] at h
    exact .inl ⟨rfl, (Option.some.inj h).symm⟩
  · rw [Vector.getElem?_set_ne hk (Ne.symm hj)] at h
    exact .inr ⟨hj, h⟩

theorem lensLegal_set_other {j : Nat} (tb : HuffTable) (hj : j ≠ k) (h : lensLegal s j) :
    lensLegal { s with tables := s.tables.set k tb hk } j := by
  intro t ht
  rcases tables_set_cases hk ht with ⟨hjk, _⟩ | ⟨_, ht⟩
  · exact absurd hjk hj
  · exact h t ht

/-- A table written with the lengths it had. -/
theorem lensLegal_set_sameLens {j : Nat} {tb : HuffTable} (htb : tb.len = s.tables[k].len) (h : lensLegal s j) :
    lensLegal { s with tables := s.tables.set k tb hk } j := by
  intro t ht
  rcases tables_set_cases hk ht with ⟨rfl, rfl⟩ | ⟨_, ht⟩
  · have hold := h _ (Vector.getElem?_eq_getElem hk)
    unfold tableLens at hold ⊢
    rw [htb]
    exact hold
  · exact h t ht

theorem tableBuilt_set_other {j : Nat} (tb : HuffTable) (hj : j ≠ k) (h : tableBuilt s j) :
    tableBuilt { s with tables := s.tables.set k tb hk } j := by
  intro t ht
  rcases tables_set_cases hk ht with ⟨hjk, _⟩ | ⟨_, ht⟩
  · exact absurd hjk hj
  · exact h t ht

end Tables

/-- The lengths up to the one just stored: those before it, and it. -/
theorem mem_take_set_succ {n : Nat} {f : Vector (BitVec 5) n} {i : Nat} (hi : i < n) {c l : BitVec 5}
    (h : l ∈ (f.set i c hi).toList.take (i + 1)) : l ∈ f.toList.take i ∨ l = c := by
  obtain ⟨j, hj, rfl⟩ := List.mem_take_iff_getElem.mp h
  have hj' : j < i + 1 := by omega
  have hjn : j < n := by omega
  simp only [Vector.getElem_toList, Vector.getElem_set]
  split
  · exact .inr rfl
  · refine .inl (List.mem_take_iff_getElem.mpr ⟨j, ?_, by simp⟩)
    simp only [Vector.length_toList]
    omega

theorem storeLength_eq {s : State} (hk : s.tblIdx.toNat < 6) (hs : s.symIdx.toNat < 258) :
    storeLength s = .ok { s with
      tables := s.tables.set s.tblIdx.toNat
        { s.tables[s.tblIdx.toNat] with len := s.tables[s.tblIdx.toNat].len.set s.symIdx.toNat s.curr hs } hk } := by
  have hread : fileRead .tables s.tables s.tblIdx.toNat = .ok s.tables[s.tblIdx.toNat] :=
    fileRead_ok.mpr (Vector.getElem?_eq_getElem hk)
  have hlen : fileWrite .len s.tables[s.tblIdx.toNat].len s.symIdx.toNat s.curr = .ok _ := fileWrite_ok.mpr ⟨hs, rfl⟩
  unfold storeLength
  simp only [hread, hlen, fileWrite_ok.mpr ⟨hk, rfl⟩]

/-- What holds when the length of symbol `symIdx` of table `tblIdx` has been stored (R130). -/
structure LengthStored (s : State) : Prop where
  alphabet : alphabetKnown s
  groups : groupsKnown s
  selectors : selectorsBelow s.selector s.nSelectors.toNat s.nGroups.toNat
  table : s.tblIdx.toNat < s.nGroups.toNat
  symbol : s.symIdx.toNat < s.alphaSize.toNat
  part : s.part = []
  lens : ∀ k < s.tblIdx.toNat, lensLegal s k
  upTo : ∀ t, s.tables[s.tblIdx.toNat]? = some t → ∀ l ∈ t.len.toList.take (s.symIdx.toNat + 1), lengthLegal l = true

theorem storeLength_safe {s : State} (h : tablesInv s .lencode) (hcurr : lengthLegal s.curr = true)
    (hpart : s.part = []) : ∃ t, storeLength s = .ok t ∧ LengthStored t := by
  obtain ⟨halpha, hgroups, hsel, htbl, hlens, hsym, _, hprefix⟩ := h
  have hk : s.tblIdx.toNat < 6 := by have := hgroups.2; omega
  have hs : s.symIdx.toNat < 258 := by have := halpha.2; omega
  refine ⟨_, storeLength_eq hk hs, halpha, hgroups, hsel, htbl, hsym, hpart, fun j hj => ?_, fun t ht l hl => ?_⟩
  · exact lensLegal_set_other hk _ (Nat.ne_of_lt hj) (hlens j hj)
  · rcases tables_set_cases hk ht with ⟨_, rfl⟩ | ⟨hne, _⟩
    · rcases mem_take_set_succ hs hl with hl | rfl
      · exact hprefix _ (Vector.getElem?_eq_getElem hk) l hl
      · exact hcurr
    · exact absurd rfl hne

/-- After the last symbol's length all lengths of the table are legal. -/
theorem LengthStored.lensLegal_upTo {s : State} (h : LengthStored s) (hlast : s.symIdx.toNat + 1 = s.alphaSize.toNat)
    {k : Nat} (hk : k < s.tblIdx.toNat + 1) : lensLegal s k := by
  by_cases hkt : k = s.tblIdx.toNat
  · subst hkt
    unfold lensLegal tableLens
    rw [← hlast]
    exact h.upTo
  · exact h.lens k (by omega)

theorem advanceLength_phaseInv {s : State} (h : LengthStored s) : phaseInv (advanceLength s) := by
  have hsym := h.symbol
  have htable := h.table
  have halpha := h.alphabet.2
  have hgroups := h.groups
  unfold groupsKnown at hgroups
  rcases advanceLength_cases s with ⟨hlast, htab, heq⟩ | ⟨hlast, htab, heq⟩ | ⟨hmore, heq⟩ <;> rw [heq]
  · have hpos : 0 < s.nGroups.toNat := by omega
    exact ⟨h.alphabet, h.groups, h.selectors, hpos, fun k hk => h.lensLegal_upTo hlast (htab ▸ hk),
      fun k hk => absurd hk (Nat.not_lt_zero k)⟩
  · have hnext : (s.tblIdx + 1#3).toNat = s.tblIdx.toNat + 1 := by rw [BitVec.toNat_add, BitVec.toNat_ofNat]; omega
    refine ⟨h.alphabet, h.groups, h.selectors, ?_, fun k hk => h.lensLegal_upTo hlast (hnext ▸ hk)⟩
    simp only [hnext]
    omega
  · have hnext : (s.symIdx + 1#9).toNat = s.symIdx.toNat + 1 := by rw [BitVec.toNat_add, BitVec.toNat_ofNat]; omega
    refine ⟨h.alphabet, h.groups, h.selectors, h.table, h.lens, ?_, fun hne => absurd h.part hne, ?_⟩
    · simp only [hnext]
      omega
    · simp only [hnext]
      exact h.upTo

/-- A length stored within the alphabet, at the end of a code. -/
theorem execTbLenStop_safe {s : State} (h : tablesInv s .lencode) (hcurr : lengthLegal s.curr = true)
    (hpart : s.part = []) : ∃ t, execTbLenStop s = .next t ∧ phaseInv t := by
  obtain ⟨u, hu, hstored⟩ := storeLength_safe h hcurr hpart
  exact ⟨_, by unfold execTbLenStop; rw [hu], advanceLength_phaseInv hstored⟩

/-! The decode tables (R131, R132). -/

theorem buildPass_total {s : State} (ha : s.alphaSize.toNat ≤ 258) (hk : s.tblIdx.toNat < 6) :
    ∃ t, buildPass s = .ok t := by
  have hread : fileRead .tables s.tables s.tblIdx.toNat = .ok s.tables[s.tblIdx.toNat] :=
    fileRead_ok.mpr (Vector.getElem?_eq_getElem hk)
  have hsize : ¬258 < s.alphaSize.toNat := by omega
  unfold buildPass
  rw [if_neg hsize, hread]
  simp only [fileWrite_ok.mpr ⟨hk, rfl⟩]
  split <;> exact ⟨_, rfl⟩

/-- What holds when table `tblIdx` has been built. -/
structure TableStored (s : State) : Prop where
  alphabet : alphabetKnown s
  groups : groupsKnown s
  selectors : selectorsBelow s.selector s.nSelectors.toNat s.nGroups.toNat
  table : s.tblIdx.toNat < s.nGroups.toNat
  lens : ∀ k < s.nGroups.toNat, lensLegal s k
  built : ∀ k < s.tblIdx.toNat + 1, tableBuilt s k

theorem advanceBuild_phaseInv {s : State} (h : TableStored s) : phaseInv (advanceBuild s) := by
  have htable := h.table
  have hgroups := h.groups
  unfold groupsKnown at hgroups
  rcases advanceBuild_cases s with ⟨hlast, heq⟩ | ⟨hmore, heq⟩ <;> rw [heq]
  · exact ⟨h.alphabet, h.groups, h.selectors, h.lens, fun k hk => h.built k (hlast ▸ hk)⟩
  · have hnext : (s.tblIdx + 1#3).toNat = s.tblIdx.toNat + 1 := by rw [BitVec.toNat_add, BitVec.toNat_ofNat]; omega
    refine ⟨h.alphabet, h.groups, h.selectors, ?_, h.lens, fun k hk => h.built k (hnext ▸ hk)⟩
    simp only [hnext]
    omega

theorem buildPass_safe {s : State} (h : tablesInv s .build) : ∃ t, buildPass s = .ok t ∧ phaseInv t := by
  obtain ⟨halpha, hgroups, hsel, htbl, hlens, hbuilt⟩ := h
  have hsize : s.alphaSize.toNat ≤ 258 := by have := halpha.2; omega
  have hk6 : s.tblIdx.toNat < 6 := by have := hgroups.2; omega
  obtain ⟨t, ht⟩ := buildPass_total hsize hk6
  refine ⟨t, ht, ?_⟩
  obtain ⟨_, hk, ⟨_, rfl⟩ | ⟨hspace, rfl⟩⟩ := buildPass_ok ht
  · trivial
  · refine advanceBuild_phaseInv ⟨halpha, hgroups, hsel, htbl, fun j hj => ?_, fun j hj => ?_⟩
    · exact lensLegal_set_sameLens hk rfl (hlens j hj)
    · by_cases hjk : j = s.tblIdx.toNat
      · subst hjk
        intro tb htb
        rcases tables_set_cases hk htb with ⟨_, rfl⟩ | ⟨hne, _⟩
        · exact ⟨hspace, withCodes_withCounts_idem _ _⟩
        · exact absurd rfl hne
      · have hj : j < s.tblIdx.toNat := by have : j < s.tblIdx.toNat + 1 := hj; omega
        exact tableBuilt_set_other hk _ hjk (hbuilt j hj)

/-! The start of the symbol decoder (43_symbols.md R138). -/

theorem blockWritten_cleared {s : State} (hn : s.nblock = 0#20) (hu : s.unzftab = clearedCounts) : blockWritten s := by
  unfold blockWritten
  rw [hn, hu]
  refine ⟨fun i hi => absurd hi (Nat.not_lt_zero i), fun v => ⟨0#20, ?_, rfl⟩⟩
  rw [clearedCounts, memGet_memOfList, List.getElem?_replicate, if_pos (show v.toNat < countDepth from v.isLt)]

theorem symbolInitPass_safe {s : State} (h : tablesInv s .symbolInit) :
    ∃ t, symbolInitPass s = .ok t ∧ phaseInv t := by
  obtain ⟨halpha, hgroups, hsel, hlens, hbuilt⟩ := h
  have hsize : ¬256 < s.nInUse.toNat := by have := halpha.2.1; omega
  unfold symbolInitPass
  rw [if_neg hsize]
  exact ⟨_, rfl, halpha, hgroups, hsel, hlens, hbuilt, blockWritten_cleared rfl rfl, Nat.zero_le _, by simp⟩

end Sys2Proof.Proofs
end

section
/-! No step meets a fault (60_exceptions.md R204): under the invariant of each phase every pass of the READ loop goes
on, and leaves what the next phase needs. -/

namespace Sys2Proof.Proofs

open Sys2Proof.Machine Sys2Proof.Safety Sys2Proof.Laws

/-! What the phase says. -/

theorem tablesInv_of_phase {s : State} {pos : TablesPos} (hs : phaseInv s) (hp : s.phase = .blockTables pos) :
    tablesInv s pos := by
  unfold phaseInv at hs
  rw [hp] at hs
  exact hs

theorem symbolsInv_of_phase {s : State} {pos : SymbolsPos} (hs : phaseInv s) (hp : s.phase = .blockSymbols pos) :
    symbolsInv s := by
  unfold phaseInv at hs
  rw [hp] at hs
  exact hs

/-- The bits held and the running length play a part only between the two bits of a length code. -/
theorem phaseInv_reader {s : State} (hs : phaseInv s) (live : BitVec 5) (p : List Bool) (c : BitVec 5)
    (hp : p ≠ [] → s.phase = .blockTables .lencode → lengthLegal c = true) :
    phaseInv { s with bsLive := live, part := p, curr := c } := by
  obtain ⟨cfg, phase, _⟩ := s
  cases phase with
  | blockTables pos =>
    cases pos with
    | lencode =>
      obtain ⟨halpha, hgroups, hsel, htbl, hlens, hsym, _, hprefix⟩ := hs
      exact ⟨halpha, hgroups, hsel, htbl, hlens, hsym, fun hne => hp hne rfl, hprefix⟩
    | _ => exact hs
  | _ => exact hs

/-- The phase that reads the element `i` (30_encoding.md R71). -/
def phaseOf : Instr → Phase
  | .shMagic => .streamHeader .magic
  | .shLevel _ => .streamHeader .level
  | .bhMagic => .blockHeader
  | .eosMagic => .blockHeader
  | .bhCrc _ => .blockTables .crc
  | .bhRand _ => .blockTables .rand
  | .bhOrigptr _ => .blockTables .origptr
  | .mapL1 _ => .blockTables .mapL1
  | .mapL2 _ => .blockTables .mapL2
  | .tbNgroups _ => .blockTables .ngroups
  | .tbNsel _ => .blockTables .nsel
  | .tbSelector _ => .blockTables .selector
  | .tbLenStart _ => .blockTables .lenStart
  | .tbLenInc => .blockTables .lencode
  | .tbLenDec => .blockTables .lencode
  | .tbLenStop => .blockTables .lencode
  | .symRuna => .blockSymbols .code
  | .symRunb => .blockSymbols .code
  | .symMtf _ => .blockSymbols .code
  | .symEob => .blockSymbols .code
  | .trCrc _ => .streamTrailer
  | .trPad _ => .streamTrailer
  | .srcData _ => .streamHeader .magic
  | .srcEoi => .streamHeader .magic
  | _ => .closed

theorem phaseOf_of_mayRead {e : Expect} {i : Instr} (h : mayRead e i = true) : phaseOf i = (elementPlace e).1 := by
  cases e <;> cases i <;> cases h <;> rfl

theorem expected_place {s : State} {e : Expect} (he : expected s = some e) : s.phase = (elementPlace e).1 := by
  unfold expected at he
  split at he
  case h_13 hp => split at he <;> cases he; exact hp
  case h_14 hp => obtain ⟨t, _, rfl⟩ := Option.map_eq_some_iff.mp he; exact hp
  case h_16 => cases he
  all_goals cases he; assumption

/-! The elements, each in its phase. -/

theorem groupsLegal_iff {g : BitVec 3} : groupsLegal g = true ↔ 2 ≤ g.toNat ∧ g.toNat ≤ 6 := by
  unfold groupsLegal
  rw [Bool.and_eq_true]
  exact and_congr decide_eq_true_iff decide_eq_true_iff

theorem storeSelector_safe {s : State} {j : BitVec 3} (h : tablesInv s .selector) (hj : j.toNat < s.nGroups.toNat) :
    ∃ t, storeSelector j s = .ok t ∧ phaseInv t := by
  obtain ⟨halpha, hgroups, hidx, hbelow⟩ := h
  have hdepth : s.nSelectors.toNat ≤ maxSelectors := Nat.le_of_lt_succ s.nSelectors.isLt
  have hnext : (s.selIdx + 1#15).toNat = s.selIdx.toNat + 1 := by rw [BitVec.toNat_add, BitVec.toNat_ofNat]; omega
  have hbelow' := selectorsBelow_memSet hbelow hj
  unfold storeSelector
  rw [memWrite_ok.mpr ⟨by omega, rfl⟩]
  by_cases hlast : s.selIdx.toNat + 1 = s.nSelectors.toNat
  · exact ⟨_, if_pos hlast, halpha, hgroups, hlast ▸ hbelow'⟩
  · refine ⟨_, if_neg hlast, halpha, hgroups, ?_, ?_⟩
    · simp only [hnext]; omega
    · simp only [hnext]; exact hbelow'

theorem runDigit_phaseInv {s : State} (d : Nat) (hsize : s.blockSize100k.toNat ≤ 9) (hs : symbolsInv s)
    (hp : s.phase = .blockSymbols .code) : phaseInv (runDigit d s) := by
  obtain ⟨halpha, hgroups, hsel, hlens, hbuilt, hblock, _, hcur⟩ := hs
  have hdepth : maxBlock < 2 ^ 20 := by decide
  have hlimit := blockLimit_le hsize
  rcases runDigit_cases d s with ⟨_, heq⟩ | ⟨hle, heq⟩ <;> rw [heq]
  · trivial
  · refine ⟨halpha, hgroups, hsel, hlens, hbuilt, hblock, ?_, fun _ => hcur (.inr hp)⟩
    have hrun : (BitVec.ofNat 20 (s.runS.toNat + s.runN.toNat * d)).toNat = s.runS.toNat + s.runN.toNat * d := by
      rw [BitVec.toNat_ofNat]; omega
    simp only [hrun]
    exact hle

/-- A flush finds room for the run, and leaves none pending. -/
theorem flushRun_safe {s : State} (hwf : memoriesWf s) (hsize : s.blockSize100k.toNat ≤ 9) (hs : symbolsInv s) :
    ∃ u, flushRun s = .ok u ∧ symbolsInv u ∧ u.runS = 0#20 ∧ u.phase = s.phase ∧ u.blockSize100k = s.blockSize100k := by
  obtain ⟨halpha, hgroups, hsel, hlens, hbuilt, hblock, hrun, hcur⟩ := hs
  have hlimit := blockLimit_le hsize
  obtain ⟨l, z, n, hflush, hblock', hn⟩ := flushRun_blockWritten hwf hblock (by omega)
  exact ⟨_, hflush, ⟨halpha, hgroups, hsel, hlens, hbuilt, hblock', (Nat.le_of_eq hn).trans hrun, hcur⟩, rfl, rfl, rfl⟩

/-- A byte is put where the limit leaves room. -/
theorem putLl8_safe {s : State} {b : BitVec 8} (hwf : memoriesWf s) (hsize : s.blockSize100k.toNat ≤ 9)
    (hs : symbolsInv s) (hp : s.phase = .blockSymbols .code) (hrun : s.runS = 0#20) :
    ∃ t, putLl8 b s = .ok t ∧ phaseInv t := by
  obtain ⟨halpha, hgroups, hsel, hlens, hbuilt, hblock, _, hcur⟩ := hs
  have hlimit := blockLimit_le hsize
  unfold putLl8
  by_cases hroom : s.nblock.toNat < blockLimit s
  · obtain ⟨l, z, n, happ, hblock', hn⟩ := appendLl8_blockWritten (b := b) (k := 1) hwf hblock (by omega)
    have hlim : n.toNat + s.runS.toNat ≤ blockLimit s := by rw [hn, hrun]; exact hroom
    rw [if_pos hroom, happ]
    exact ⟨_, rfl, halpha, hgroups, hsel, hlens, hbuilt, hblock', hlim, fun _ => hcur (.inr hp)⟩
  · exact ⟨_, if_neg hroom, trivial⟩

/-- An MTF symbol of the alphabet finds its position in the list. -/
theorem mtfSymbol_safe {s : State} {n : Nat} (hwf : memoriesWf s) (hsize : s.blockSize100k.toNat ≤ 9)
    (hs : symbolsInv s) (hp : s.phase = .blockSymbols .code) (hn : n ≤ 256) :
    ∃ t, mtfSymbol n s = .ok t ∧ phaseInv t := by
  obtain ⟨u, hflush, hu, hrun, hphase, hblock⟩ := flushRun_safe hwf hsize hs
  have hwf' := flushRun_memoriesWf hflush hwf
  have hpos : n - 1 < 256 := by omega
  have hmove : moveToFront .mtfSym u.mtfSym (n - 1) = .ok (u.mtfSym[n - 1], fileMoveToFront u.mtfSym (n - 1) hpos) :=
    moveToFront_ok.mpr ⟨hpos, rfl, rfl⟩
  unfold mtfSymbol
  rw [hflush]
  simp only [hmove]
  exact putLl8_safe hwf' (hblock ▸ hsize) hu (hphase.trans hp) hrun

theorem endOfSymbols_safe {s : State} (hwf : memoriesWf s) (hsize : s.blockSize100k.toNat ≤ 9)
    (hs : symbolsInv s) : ∃ t, endOfSymbols s = .ok t ∧ phaseInv t := by
  obtain ⟨u, hflush, ⟨_, _, _, _, _, hblock, hlim, _⟩, _⟩ := flushRun_safe hwf hsize hs
  unfold endOfSymbols
  rw [hflush]
  exact ⟨_, rfl, hblock, (Nat.le_add_right _ _).trans hlim⟩

/-- An element executed in the phase that reads it. -/
theorem exec_safe {i : Instr} {s : State} (hwf : memoriesWf s) (hsize : s.blockSize100k.toNat ≤ 9) (hs : phaseInv s)
    (hi : isElement i = true) (hp : s.phase = phaseOf i) (hpart : s.part = [])
    (hcurr : s.phase = .blockTables .lencode → lengthLegal s.curr = true)
    (hmtf : ∀ n, i = .symMtf n → n.toNat ≤ 256) : ∃ t, exec i s = .next t ∧ phaseInv t := by
  cases i with
  | shLevel d => simp only [exec, execShLevel]; split <;> exact ⟨_, rfl, trivial⟩
  | mapL1 u =>
    refine ⟨_, rfl, ?_⟩
    rcases advanceMap_cases 0 { s with inUse16 := u } with ⟨_, h⟩ | h <;> rw [h] <;> trivial
  | mapL2 v =>
    refine ⟨_, rfl, ?_⟩
    rcases advanceMap_cases (s.mapRange.toNat + 1) { s with inUse := markRange s.mapRange v s.inUse } with
      ⟨_, h⟩ | h <;> rw [h] <;> trivial
  | tbNgroups g =>
    have halpha := tablesInv_of_phase hs hp
    simp only [exec, execTbNgroups]
    split
    · exact ⟨_, rfl, halpha, groupsLegal_iff.mp ‹_›⟩
    · exact ⟨_, rfl, trivial⟩
  | tbNsel k =>
    obtain ⟨halpha, hgroups⟩ := tablesInv_of_phase hs hp
    simp only [exec, execTbNsel]
    split
    · exact ⟨_, rfl, trivial⟩
    · rename_i hk
      have hpos : 0 < k.toNat := Nat.pos_of_ne_zero fun h0 => hk (BitVec.eq_of_toNat_eq h0)
      exact ⟨_, rfl, halpha, hgroups, hpos, fun i hi => absurd hi (Nat.not_lt_zero i)⟩
  | tbSelector j =>
    simp only [exec, execTbSelector]
    split
    · exact ⟨_, rfl, trivial⟩
    · obtain ⟨t, ht, hinv⟩ := storeSelector_safe (j := j) (tablesInv_of_phase hs hp) (by omega)
      exact ⟨t, by rw [ht]; rfl, hinv⟩
  | tbLenStart l =>
    obtain ⟨halpha, hgroups, hsel, htbl, hlens⟩ := tablesInv_of_phase hs hp
    have hpos : 0 < s.alphaSize.toNat := by have := halpha.2.2; omega
    exact ⟨_, rfl, halpha, hgroups, hsel, htbl, hlens, hpos, fun hne => absurd hpart hne, fun t _ l hl => nomatch hl⟩
  | tbLenInc | tbLenDec => exact ⟨_, rfl, phaseInv_reader hs s.bsLive s.part _ fun hne => absurd hpart hne⟩
  | tbLenStop => exact execTbLenStop_safe (tablesInv_of_phase hs hp) (hcurr hp) hpart
  | symRuna => exact ⟨_, rfl, runDigit_phaseInv 1 hsize (symbolsInv_of_phase hs hp) hp⟩
  | symRunb => exact ⟨_, rfl, runDigit_phaseInv 2 hsize (symbolsInv_of_phase hs hp) hp⟩
  | symMtf n =>
    obtain ⟨t, ht, hinv⟩ := mtfSymbol_safe hwf hsize (symbolsInv_of_phase hs hp) hp (hmtf n rfl)
    exact ⟨t, finish_next.mpr ht, hinv⟩
  | symEob =>
    obtain ⟨t, ht, hinv⟩ := endOfSymbols_safe hwf hsize (symbolsInv_of_phase hs hp)
    exact ⟨t, finish_next.mpr ht, hinv⟩
  | trCrc c => simp only [exec, execTrCrc]; split <;> exact ⟨_, rfl, trivial⟩
  | trPad x => exact ⟨_, rfl, hs⟩
  | cmdOpen | cmdRead | cmdReadBytes _ | cmdClose | cmdStatus _ | srcData _ | srcEoi => cases hi
  | _ => exact ⟨_, rfl, trivial⟩

end Sys2Proof.Proofs
end

section
/-! The passes of the READ loop, each under the invariant of its phase, and the step (46_host.md R178, R204 of
60_exceptions.md). -/

namespace Sys2Proof.Proofs

open Sys2Proof.Machine Sys2Proof.Safety Sys2Proof.Laws

/-! A turn towards an element. -/

/-- Only a word at a port, or a Huffman symbol, can be rejected by name. -/
theorem decode_reject {e : Expect} {bits : List Bool} {r : Reject} (h : decode e bits = .reject r) :
    e = .command ∨ e = .sourceAnswer ∨ ∃ t k, e = .symbol t k := by
  cases e with
  | command => exact .inl rfl
  | sourceAnswer => exact .inr (.inl rfl)
  | symbol t k => exact .inr (.inr ⟨t, k, rfl⟩)
  | shMagic =>
    simp only [decode, decodeShMagic] at h
    split at h
    · cases h
    split at h <;> cases h
  | blockMagic =>
    simp only [decode, decodeBlockMagic] at h
    rcases fixedField_eq h with ⟨_, h⟩ | ⟨_, h⟩
    · cases h
    · split at h
      · cases h
      split at h <;> cases h
  | selector limit =>
    rcases decodeSelector_cases limit 0 bits with h' | h' | ⟨k, rest, h'⟩ <;>
      (rw [decode, h'] at h; cases h)
  | lencode =>
    simp only [decode] at h
    unfold decodeLencode at h
    split at h <;> cases h
  | trPad => cases h
  | _ =>
    simp only [decode] at h
    rcases fixedField_eq h with ⟨_, h⟩ | ⟨_, h⟩ <;> cases h

theorem expected_symbol {s : State} {t : HuffTable} {k : Nat} (he : expected s = some (.symbol t k)) :
    s.phase = .blockSymbols .code ∧ s.tables[s.curTable.toNat]? = some t ∧ k = s.nInUse.toNat := by
  have hp := expected_place he
  refine ⟨hp, ?_⟩
  unfold expected at he
  rw [hp] at he
  obtain ⟨t', ht', heq⟩ := Option.map_eq_some_iff.mp he
  cases heq
  exact ⟨ht', rfl⟩

/-- The table that a symbol is read with is canonical for the lengths of the block's alphabet. -/
theorem expected_symbol_canonical {s : State} {t : HuffTable} {k : Nat} (hs : phaseInv s)
    (he : expected s = some (.symbol t k)) :
    canonicalTable (tableLens s t) t ∧ (tableLens s t).length = k + 2 ∧ k ≤ 256 := by
  obtain ⟨hp, ht, rfl⟩ := expected_symbol he
  obtain ⟨⟨_, hle, hsize⟩, _, _, hlens, hbuilt, _, _, hcur⟩ := symbolsInv_of_phase hs hp
  have hcur := hcur (.inr hp)
  obtain ⟨hspace, hbuilt⟩ := hbuilt _ hcur t ht
  have hlen : (tableLens s t).length = s.nInUse.toNat + 2 := by
    unfold tableLens
    rw [List.length_take, Vector.length_toList]
    omega
  refine ⟨⟨?_, hlens _ hcur t ht, hspace, hbuilt⟩, hlen, hle⟩
  rw [hlen, ← hsize]
  rfl

/-- While a length code is read the running length is legal (42_tables.md R129). -/
theorem lengthLegal_of_expected {s : State} {e : Expect} (hs : phaseInv s) (he : expected s = some e)
    (hp : s.phase = .blockTables .lencode) : lengthLegal s.curr = true := by
  obtain ⟨_, _, _, _, _, _, hlegal, _⟩ := tablesInv_of_phase hs hp
  unfold expected at he
  rw [hp] at he
  by_cases hpart : s.part = []
  · by_contra hc
    simp [lengthRefused, hpart, hc] at he
  · exact hlegal hpart

/-- Bits accepted in the phase that reads them. -/
theorem acceptBits_safe {s : State} {e : Expect} (hwf : memoriesWf s) (hsize : s.blockSize100k.toNat ≤ 9)
    (hs : phaseInv s) (he : expected s = some e) (bits : List Bool) (live : BitVec 5) :
    ∃ t, acceptBits e bits { s with bsLive := live } = .next t ∧ phaseInv t := by
  have hcurr := lengthLegal_of_expected hs he
  obtain ⟨hcommand, hanswer⟩ := expected_inStream he
  unfold acceptBits
  cases hd : decode e bits with
  | need n => exact ⟨_, rfl, phaseInv_reader hs live bits s.curr fun _ => hcurr⟩
  | instr i rest =>
    have hm := decode_instr hd
    refine exec_safe (s := { s with bsLive := live, part := [] }) hwf hsize
      (phaseInv_reader hs live [] s.curr fun _ => hcurr) (mayRead_isElement hm hcommand hanswer)
      ((expected_place he).trans (phaseOf_of_mayRead hm).symm) rfl hcurr fun n hn => ?_
    subst hn
    cases e with
    | symbol t k =>
      obtain ⟨hcan, hlen, hk⟩ := expected_symbol_canonical hs he
      rcases decode_symbol_canonical hcan hlen hk bits with ⟨m, h⟩ | h | h | ⟨i, rest', h, hle⟩ <;>
        rw [hd] at h <;> cases h
      exact (hle n rfl).trans hk
    | _ => cases hm
  | illegal err =>
    refine ⟨_, rfl, ?_⟩
    rcases rejectElement_cases err { s with bsLive := live, part := [] } with h | ⟨_, _, h⟩ <;> rw [h] <;> trivial
  | reject r =>
    rcases decode_reject hd with h | h | ⟨t, k, rfl⟩
    · exact absurd h hcommand
    · exact absurd h hanswer
    · obtain ⟨hcan, hlen, hk⟩ := expected_symbol_canonical hs he
      rcases decode_symbol_canonical hcan hlen hk bits with ⟨m, h⟩ | h | h | ⟨i, rest', h, _⟩ <;>
        rw [hd] at h <;> cases h

/-- A fetch, answered by a byte or by the end of the input. -/
theorem sourcePass_safe {s : State} (hs : phaseInv s) (hsrc : s.source.isSome = true) :
    ∃ t, sourcePass s = .next t ∧ phaseInv t := by
  obtain ⟨bytes, hbytes⟩ := Option.isSome_iff_exists.mp hsrc
  cases bytes with
  | nil => exact ⟨_, sourcePass_end hbytes, trivial⟩
  | cons b rest => exact ⟨_, sourcePass_data hbytes, hs⟩

theorem elementPass_safe {s : State} {e : Expect} (hs : noFaultInv s) (hp : s.phase ≠ .closed)
    (he : expected s = some e) : ∃ t, elementPass e s = .next t ∧ phaseInv t := by
  obtain ⟨hwf, hsize, hsrc, hinv⟩ := hs
  have haccept := acceptBits_safe hwf hsize hinv he
  unfold elementPass
  cases hd : decode e s.part with
  | need n =>
    have hwidth : 1 ≤ n ∧ n ≤ readMax := decode_need hd fun t k hsym => by
      subst hsym
      obtain ⟨hcan, hlen, _⟩ := expected_symbol_canonical hinv he
      obtain ⟨hmin, hle, hmax⟩ := canonicalTable_bounds hcan (List.ne_nil_of_length_pos (by omega))
      exact ⟨hmin, by unfold readMax; omega⟩
    have hok : ¬(n = 0 ∨ readMax < n) := by omega
    simp only [if_neg hok]
    by_cases hlive : s.bsLive.toNat < n
    · rw [if_pos hlive]; exact sourcePass_safe hinv (hsrc hp)
    · rw [if_neg hlive]; exact haccept _ _
  | instr i rest => exact haccept s.part s.bsLive
  | illegal err => exact haccept s.part s.bsLive
  | reject r => exact haccept s.part s.bsLive

/-! The passes that read no element. -/

theorem groupPass_safe {s : State} (hs : symbolsInv s) : ∃ t, groupPass s = .ok t ∧ phaseInv t := by
  obtain ⟨halpha, hgroups, hsel, hlens, hbuilt, hblock, hlim, hcur⟩ := hs
  unfold groupPass
  by_cases hpos : s.groupPos = 0#6
  · rw [if_pos hpos]
    by_cases hover : s.nSelectors.toNat ≤ s.groupNo.toNat
    · exact ⟨_, if_pos hover, trivial⟩
    · obtain ⟨k, hk, hkg⟩ := hsel s.groupNo.toNat (by omega)
      have hdepth : s.nSelectors.toNat ≤ maxSelectors := Nat.le_of_lt_succ s.nSelectors.isLt
      rw [if_neg hover, memRead_ok.mpr ⟨by omega, hk⟩]
      exact ⟨_, rfl, halpha, hgroups, hsel, hlens, hbuilt, hblock, hlim, fun _ => hkg⟩
  · exact ⟨_, if_neg hpos, halpha, hgroups, hsel, hlens, hbuilt, hblock, hlim, fun _ => hcur (.inl hpos)⟩

theorem rnums_length : rnums.length = 512 := by
  simp only [rnums, List.length_append]
  rfl

/-- `RNUMS` has an entry for every value of `rTPos` (45_output.md R162). -/
theorem rnumAt_total (i : BitVec 9) : ∃ n, rnumAt i.toNat = .ok n := by
  have hi : i.toNat < rnums.length := rnums_length ▸ i.isLt
  exact ⟨_, by unfold rnumAt; rw [List.getElem?_eq_getElem hi]⟩

theorem randMask_total (s : State) : ∃ r, randMask s = .ok r := by
  obtain ⟨n, hn⟩ := rnumAt_total s.rTPos
  unfold randMask
  split
  · exact ⟨_, by rw [hn]⟩
  · exact ⟨_, rfl⟩

/-- A walk step stays inside the block (44_inverse_bwt.md R156). -/
theorem walkByte_safe {s : State} (hs : outputInv s) :
    ∃ b u, walkByte s = .ok (b, u) ∧ outputInv u ∧ u.phase = s.phase := by
  obtain ⟨hn, hpos, hentries⟩ := hs
  obtain ⟨hbyte, p, hp, hpn⟩ := hentries _ hpos
  obtain ⟨c, hc⟩ := Option.isSome_iff_exists.mp hbyte
  obtain ⟨⟨m, u⟩, hm⟩ := randMask_total { s with tPos := p, i2 := s.i2 + 1#20 }
  unfold walkByte
  rw [memRead_ok.mpr ⟨by omega, hc⟩, memRead_ok.mpr ⟨by omega, hp⟩]
  simp only [hm]
  split
  · obtain ⟨_, _, rfl, _⟩ := randMask_ok hm
    exact ⟨_, _, rfl, ⟨hn, hpn, hentries⟩, rfl⟩
  · exact ⟨_, _, rfl, ⟨hn, hpn, hentries⟩, rfl⟩

theorem phaseInv_of_output {s : State} (hp : s.phase = .blockOutput) (hs : outputInv s) : phaseInv s := by
  unfold phaseInv
  rw [hp]
  exact hs

theorem emit_phaseInv (b : BitVec 8) {s : State} (hp : s.phase = .blockOutput) (hs : outputInv s) :
    phaseInv (emit b s) := by
  obtain ⟨_, _, _, h⟩ := emit_eq b s
  rw [h]
  exact phaseInv_of_output hp hs

theorem expandByte_phaseInv (b : BitVec 8) {s : State} (hp : s.phase = .blockOutput) (hs : outputInv s) :
    phaseInv (expandByte b s) := by
  rcases expandByte_cases b s with ⟨_, h⟩ | ⟨_, _, _, h⟩ <;> rw [h]
  · exact phaseInv_of_output hp hs
  · exact emit_phaseInv b hp hs

theorem outputPass_safe {s : State} (hp : s.phase = .blockOutput) (hs : outputInv s) :
    ∃ t, outputPass s = .ok t ∧ phaseInv t := by
  obtain ⟨b, u, hw, hu, hup⟩ := walkByte_safe hs
  unfold outputPass
  split
  · exact ⟨_, rfl, emit_phaseInv _ hp hs⟩
  split
  · split
    · exact ⟨_, rfl, trivial⟩
    · exact ⟨_, rfl, trivial⟩
  · rw [hw]
    exact ⟨_, rfl, expandByte_phaseInv b (hup.trans hp) hu⟩

theorem tablesPass_safe {s : State} {pos : TablesPos} (hs : phaseInv s) (hp : s.phase = .blockTables pos)
    (he : expected s = none) : ∃ t, tablesPass pos s = .next t ∧ phaseInv t := by
  have h := tablesInv_of_phase hs hp
  unfold expected at he
  rw [hp] at he
  cases pos with
  | alphabet => exact ⟨_, rfl, alphabetPass_phaseInv s⟩
  | selectorList =>
    obtain ⟨halpha, hgroups, hmtf⟩ := h
    have hg := hgroups.1
    obtain ⟨l, m, heq, hm⟩ := selectorListPass_safe hgroups.2 hmtf
    exact ⟨_, finish_next.mpr heq, halpha, hgroups, hm, (by omega : 0 < s.nGroups.toNat),
      fun k hk => absurd hk (Nat.not_lt_zero k)⟩
  | lencode =>
    have hl : lengthRefused s = true := by by_contra hl; simp [hl] at he
    exact ⟨_, if_pos hl, trivial⟩
  | build => obtain ⟨t, ht, hinv⟩ := buildPass_safe h; exact ⟨t, finish_next.mpr ht, hinv⟩
  | symbolInit => obtain ⟨t, ht, hinv⟩ := symbolInitPass_safe h; exact ⟨t, finish_next.mpr ht, hinv⟩
  | _ => cases he

/-- Every pass of the READ loop goes on in an open session. -/
theorem readPass_safe {s : State} (hs : noFaultInv s) (hclosed : s.phase ≠ .closed) :
    ∃ t, readPass s = .next t ∧ phaseInv t := by
  cases he : expected s with
  | some e => rw [readPass_expected he]; exact elementPass_safe hs hclosed he
  | none =>
    obtain ⟨_, hsize, _, hinv⟩ := hs
    have hlimit := blockLimit_le hsize
    have hnone := he
    unfold expected at hnone
    unfold readPass
    cases hp : s.phase with
    | closed => exact absurd hp hclosed
    | blockTables pos => exact tablesPass_safe hinv hp he
    | blockSymbols pos =>
      have h := symbolsInv_of_phase hinv hp
      cases pos with
      | group => obtain ⟨t, ht, hinv⟩ := groupPass_safe h; exact ⟨t, finish_next.mpr ht, hinv⟩
      | code =>
        obtain ⟨_, ⟨_, hg⟩, _, _, _, _, _, hcur⟩ := h
        have hk : s.curTable.toNat < 6 := (hcur (.inr hp)).trans_le hg
        simp [hp, Vector.getElem?_eq_getElem hk] at hnone
    | blockSetup =>
      unfold phaseInv at hinv
      rw [hp] at hinv
      obtain ⟨t, ht, hinv⟩ := setupPass_safe hinv.1 (hinv.2.trans hlimit)
      exact ⟨t, finish_next.mpr ht, hinv⟩
    | blockOutput =>
      unfold phaseInv at hinv
      rw [hp] at hinv
      obtain ⟨t, ht, hinv⟩ := outputPass_safe hp hinv
      exact ⟨t, finish_next.mpr ht, hinv⟩
    | blockEnd =>
      refine ⟨_, rfl, ?_⟩
      rcases blockEndPass_cases s with ⟨_, h⟩ | ⟨_, h⟩ <;> rw [h] <;> trivial
    | endOfStream =>
      refine ⟨_, rfl, ?_⟩
      obtain ⟨_, h⟩ := answerEndOfStream_eq s
      rw [h]; unfold phaseInv; simp only [hp]
    | failed =>
      refine ⟨_, rfl, ?_⟩
      obtain ⟨_, h⟩ := answerError_eq s
      rw [h]; unfold phaseInv; simp only [hp]
    | streamHeader pos => cases pos <;> simp [hp] at hnone
    | blockHeader => simp [hp] at hnone
    | streamTrailer => simp [hp] at hnone

/-! The step. -/

/-- A READ's pass keeps the invariant. -/
theorem readPass_noFaultInv {s t : State} (hs : noFaultInv s) (h : readPass s = .next t) : noFaultInv t := by
  have hclosed : s.phase ≠ .closed := by
    intro hp
    unfold readPass at h
    rw [hp] at h
    cases h
  obtain ⟨u, hu, hinv⟩ := readPass_safe hs hclosed
  obtain ⟨hwf, hsize, hsrc, _⟩ := hs
  cases hu.symm.trans h
  obtain ⟨memories, size, source, _⟩ := readCase_passFrame (readPass_cases h)
  exact ⟨memories hwf, size hsize, fun _ => source (hsrc hclosed), hinv⟩

theorem noFaultInv_step {s t : State} (hs : noFaultInv s) (h : step s = .next t) : noFaultInv t := by
  have ⟨hwf, hsize, hsrc, hinv⟩ := hs
  cases step_cases h with
  | read hm hj _ => exact readPass_noFaultInv hs (step_of_job hm hj ▸ h)
  | opens _ _ _ _ _ _ ht => subst ht; exact ⟨hwf, Nat.zero_le _, fun _ => rfl, trivial⟩
  | closes _ _ _ _ _ ht => subst ht; exact ⟨hwf, hsize, fun h => absurd rfl h, trivial⟩
  | resets _ _ _ _ ht => subst ht; exact ⟨reset_memories_wf, Nat.zero_le _, fun h => absurd rfl h, trivial⟩
  | _ => rename_i ht; subst ht; exact ⟨hwf, hsize, hsrc, hinv⟩

theorem execCmdReadBytes_no_fault (n : Nat) (s : State) (f : Fault) : execCmdReadBytes n s ≠ .fault f := by
  unfold execCmdReadBytes
  split
  · nofun
  · nofun
  · split <;> nofun

theorem exec_command_no_fault {i : Instr} (hi : mayRead .command i = true) (s : State) (f : Fault) :
    exec i s ≠ .fault f := by
  cases i with
  | cmdOpen => simp only [exec, execCmdOpen]; split <;> nofun
  | cmdRead => simp only [exec, execCmdRead]; split <;> nofun
  | cmdClose => simp only [exec, execCmdClose]; split <;> nofun
  | cmdStatus k => simp only [exec, execCmdStatus]; split <;> nofun
  | _ => cases hi

theorem decodeCommand_reject {w : BitVec 8} {rest : List Bool} {r : Reject} (h : decodeCommand w rest = .reject r) :
    r = .illegalCommand w := by
  unfold decodeCommand at h
  split at h
  · cases h
  split at h
  · cases h
  split at h
  · cases h
  split at h <;> cases h
  rfl

/-- A command word is executed or refused (46_host.md R185). -/
theorem commandPass_no_fault (w : BitVec 8) (s : State) (f : Fault) : commandPass w s ≠ .fault f := by
  unfold commandPass
  cases hd : decode .command (bitsOf 8 w.toNat) with
  | instr i rest => exact exec_command_no_fault (decode_instr hd) s f
  | reject r =>
    rw [decode_command] at hd
    rw [decodeCommand_reject hd]
    nofun
  | need n => nofun
  | illegal err => nofun

theorem portPass_no_fault (s : State) (f : Fault) : portPass s ≠ .fault f := by
  unfold portPass
  split
  · nofun
  · exact commandPass_no_fault _ _ f
  · exact execCmdReadBytes_no_fault _ _ f
  · nofun

/-- Settles O58: under the invariant of its phase every pass of a READ goes on and keeps the invariant; the host's events
never read a memory. -/
theorem noStepMeetsAFault : Obligations.NoStepMeetsAFault := by
  refine fun s hs => ⟨fun f h => ?_, fun t => noFaultInv_step hs⟩
  unfold step at h
  split at h
  · cases h
  split at h
  · by_cases hp : s.phase = .closed
    · unfold readPass at h
      rw [hp] at h
      cases h
    · obtain ⟨t, ht, _⟩ := readPass_safe hs hp
      cases ht.symm.trans h
  · exact portPass_no_fault s f h

end Sys2Proof.Proofs
end

section
/-! The encodings of 30_encoding.md: decoding inverts encoding and encoding inverts decoding, for every expectation but a
Huffman symbol; and the bits at which the signature, the 48-bit magic and a selector are refused. -/

namespace Sys2Proof.Proofs

open Sys2Proof.Laws

/-! Fixed fields. -/

/-- A word of `n` bits is written by its bits in one way. -/
theorem bitsOf_toNat_injective {n : Nat} {x y : BitVec n} (h : bitsOf n x.toNat = bitsOf n y.toNat) : x = y := by
  have hval := congrArg valueOf h
  rw [valueOf_bitsOf, valueOf_bitsOf, Nat.mod_eq_of_lt x.isLt, Nat.mod_eq_of_lt y.isLt] at hval
  exact BitVec.eq_of_toNat_eq hval

theorem fixedField_bitsOf {chunk total v : Nat} (hv : v < 2 ^ total) (rest : List Bool)
    (found : Nat → List Bool → Verdict) : fixedField chunk total (bitsOf total v ++ rest) found = found v rest := by
  have hlen : (bitsOf total v).length = total := bitsOf_length total v
  have hlong : ¬ (bitsOf total v ++ rest).length < total := by rw [List.length_append]; omega
  rw [fixedField, if_neg hlong, List.take_left' hlen, List.drop_left' hlen, valueOf_bitsOf, Nat.mod_eq_of_lt hv]

theorem fixedField_instr {chunk total : Nat} {bits rest : List Bool} {found : Nat → List Bool → Verdict} {i : Instr}
    (h : fixedField chunk total bits found = .instr i rest) :
    ∃ (w : BitVec total) (after : List Bool),
      bits = bitsOf total w.toNat ++ after ∧ found w.toNat after = .instr i rest := by
  rcases fixedField_eq h with ⟨_, h⟩ | ⟨hlong, h⟩
  · cases h
  · have hlen : (bits.take total).length = total := List.length_take_of_le hlong
    have hlt : valueOf (bits.take total) < 2 ^ total := by simpa only [hlen] using valueOf_lt (bits.take total)
    have hbits : bitsOf total (valueOf (bits.take total)) = bits.take total := by
      simpa only [hlen] using bitsOf_valueOf (bits.take total)
    refine ⟨⟨valueOf (bits.take total), hlt⟩, bits.drop total, ?_, h⟩
    exact (List.take_append_drop total bits).symm.trans (congrArg (· ++ bits.drop total) hbits.symm)

/-- A field whose word is the operand of its instruction is read back from the operand's bits. -/
theorem fixedField_operand {chunk n : Nat} (mk : BitVec n → Instr) (x : BitVec n) (rest : List Bool) :
    fixedField chunk n (bitsOf n x.toNat ++ rest) (fun v after => .instr (mk (BitVec.ofNat n v)) after) =
      .instr (mk x) rest := by
  rw [fixedField_bitsOf x.isLt, BitVec.ofNat_toNat, BitVec.setWidth_eq]

theorem fixedField_operand_instr {chunk n : Nat} {mk : BitVec n → Instr} {bits rest : List Bool} {i : Instr}
    (h : fixedField chunk n bits (fun v after => .instr (mk (BitVec.ofNat n v)) after) = .instr i rest) :
    ∃ x : BitVec n, i = mk x ∧ bits = bitsOf n x.toNat ++ rest := by
  obtain ⟨x, after, hbits, hx⟩ := fixedField_instr h
  rw [BitVec.ofNat_toNat, BitVec.setWidth_eq] at hx
  cases hx
  exact ⟨x, rfl, hbits⟩

/-! Command words (30_encoding.md R72). -/

theorem decode_command_word {v : Nat} (hv : v < 2 ^ 8) (rest : List Bool) :
    decode .command (bitsOf 8 v ++ rest) = decodeCommand (BitVec.ofNat 8 v) rest :=
  fixedField_bitsOf hv rest fun v after => decodeCommand (BitVec.ofNat 8 v) after

theorem decodeCommand_status (k : BitVec 4) (rest : List Bool) :
    decodeCommand (BitVec.ofNat 8 (0x40 + k.toNat)) rest = .instr (.cmdStatus k) rest := by
  have word : ∀ k : BitVec 4, BitVec.ofNat 8 (0x40 + k.toNat) ≠ 0x10#8 ∧ BitVec.ofNat 8 (0x40 + k.toNat) ≠ 0x20#8 ∧
      BitVec.ofNat 8 (0x40 + k.toNat) ≠ 0x30#8 ∧ (BitVec.ofNat 8 (0x40 + k.toNat)).extractLsb' 4 4 = 4#4 ∧
        (BitVec.ofNat 8 (0x40 + k.toNat)).extractLsb' 0 4 = k := by decide
  obtain ⟨hopen, hread, hclose, hrow, hindex⟩ := word k
  rw [decodeCommand, if_neg hopen, if_neg hread, if_neg hclose, if_pos hrow, hindex]

theorem decode_encode_command {i : Instr} {word : List Bool} (rest : List Bool) (h : encode .command i = some word) :
    decode .command (word ++ rest) = .instr i rest := by
  cases i <;> cases h
  case cmdOpen => exact decode_command_word (by decide) rest
  case cmdRead => exact decode_command_word (by decide) rest
  case cmdClose => exact decode_command_word (by decide) rest
  case cmdStatus k => exact (decode_command_word (by omega) rest).trans (decodeCommand_status k rest)

theorem decodeCommand_instr {w : BitVec 8} {after rest : List Bool} {i : Instr}
    (h : decodeCommand w after = .instr i rest) : encode .command i = some (bitsOf 8 w.toNat) ∧ after = rest := by
  unfold decodeCommand at h
  split at h
  next hw => cases h; subst hw; exact ⟨rfl, rfl⟩
  split at h
  next hw => cases h; subst hw; exact ⟨rfl, rfl⟩
  split at h
  next hw => cases h; subst hw; exact ⟨rfl, rfl⟩
  split at h
  next hrow =>
    cases h
    have hword : 0x40 + (w.extractLsb' 0 4).toNat = w.toNat := by
      have := congrArg BitVec.toNat hrow
      simp only [BitVec.extractLsb'_toNat, Nat.shiftRight_eq_div_pow, BitVec.toNat_ofNat] at this ⊢
      omega
    exact ⟨congrArg (fun v => some (bitsOf 8 v)) hword, rfl⟩
  · cases h

/-! The source's answers (30_encoding.md R72). -/

theorem decode_sourceAnswer_word {v : Nat} (hv : v < 2 ^ 9) (rest : List Bool) :
    decode .sourceAnswer (bitsOf 9 v ++ rest) = decodeAnswer (BitVec.ofNat 9 v) rest :=
  fixedField_bitsOf hv rest fun v after => decodeAnswer (BitVec.ofNat 9 v) after

theorem decodeAnswer_data (b : BitVec 8) (rest : List Bool) :
    decodeAnswer (BitVec.ofNat 9 (0x100 + b.toNat)) rest = .instr (.srcData b) rest := by
  have htag : (BitVec.ofNat 9 (0x100 + b.toNat)).getLsbD 8 = true := by
    have hbit := Nat.testBit_two_pow_add_eq b.toNat 8
    rw [Nat.testBit_lt_two_pow b.isLt] at hbit
    rw [BitVec.getLsbD_ofNat]
    exact hbit
  have hbyte : (BitVec.ofNat 9 (0x100 + b.toNat)).extractLsb' 0 8 = b := by
    apply BitVec.eq_of_toNat_eq
    simp only [BitVec.extractLsb'_toNat, BitVec.toNat_ofNat, Nat.shiftRight_zero]
    omega
  rw [decodeAnswer, if_pos htag, hbyte]

theorem decode_encode_sourceAnswer {i : Instr} {word : List Bool} (rest : List Bool)
    (h : encode .sourceAnswer i = some word) : decode .sourceAnswer (word ++ rest) = .instr i rest := by
  cases i <;> cases h
  case srcData b => exact (decode_sourceAnswer_word (by omega) rest).trans (decodeAnswer_data b rest)
  case srcEoi => exact decode_sourceAnswer_word (by decide) rest

theorem decodeAnswer_instr {w : BitVec 9} {after rest : List Bool} {i : Instr}
    (h : decodeAnswer w after = .instr i rest) : encode .sourceAnswer i = some (bitsOf 9 w.toNat) ∧ after = rest := by
  unfold decodeAnswer at h
  split at h
  next htag =>
    cases h
    have hword : 0x100 + (w.extractLsb' 0 8).toNat = w.toNat := by
      have := w.isLt
      rw [BitVec.getLsbD, Nat.testBit_eq_decide_div_mod_eq, decide_eq_true_eq] at htag
      simp only [BitVec.extractLsb'_toNat, Nat.shiftRight_zero]
      omega
    exact ⟨congrArg (fun v => some (bitsOf 9 v)) hword, rfl⟩
  split at h
  next hw => cases h; subst hw; exact ⟨rfl, rfl⟩
  · cases h

/-! The signature (41_framer.md R99). -/

theorem decodeShMagic_code (rest : List Bool) : decodeShMagic (bitsOf 24 shMagicCode ++ rest) = .instr .shMagic rest := by
  have hlen : (bitsOf 24 shMagicCode).length = 24 := rfl
  have hlong : 24 ≤ (bitsOf 24 shMagicCode ++ rest).length := by rw [List.length_append]; omega
  simp only [decodeShMagic, List.take_left' hlen, List.drop_left' hlen, List.take_of_length_le (hlen.trans_le hlong),
    bne_self_eq_false, Bool.false_eq_true, if_false, if_neg (Nat.not_lt.2 hlong)]

theorem decodeShMagic_instr {bits rest : List Bool} {i : Instr} (h : decodeShMagic bits = .instr i rest) :
    i = .shMagic ∧ bits = bitsOf 24 shMagicCode ++ rest := by
  simp only [decodeShMagic] at h
  split at h
  · cases h
  next hsame =>
    split at h
    · cases h
    next hlong =>
      cases h
      have hcode : bits.take 24 = bitsOf 24 shMagicCode := by
        rw [bne_iff_ne, not_not] at hsame
        rw [hsame, List.take_of_length_le (by rw [bitsOf_length]; omega)]
      exact ⟨rfl, by rw [← hcode, List.take_append_drop]⟩

/-- Bits that no signature begins with are refused, whatever follows. -/
theorem decodeShMagic_illegal {bits : List Bool} (hlen : bits.length ≤ 24)
    (hne : bits ≠ (bitsOf 24 shMagicCode).take bits.length) (rest : List Bool) :
    decodeShMagic (bits ++ rest) = .illegal .headerMagic := by
  have hdiff : (bits ++ rest).take 24 ≠ (bitsOf 24 shMagicCode).take (bits ++ rest).length := fun h =>
    hne (by simpa [List.take_take, hlen] using congrArg (List.take bits.length) h)
  simp only [decodeShMagic, bne_iff_ne.2 hdiff, if_true]

/-- A byte of the signature that differs from `good`, after bytes that agree. -/
theorem decodeShMagic_wrong_byte {read : List Bool} {good b : BitVec 8} (hlen : read.length + 8 ≤ 24)
    (hgood : (bitsOf 24 shMagicCode).take (read.length + 8) = read ++ bitsOf 8 good.toNat) (hb : b ≠ good)
    (rest : List Bool) : decodeShMagic (read ++ bitsOf 8 b.toNat ++ rest) = .illegal .headerMagic := by
  have hl : (read ++ bitsOf 8 b.toNat).length = read.length + 8 := by simp
  refine decodeShMagic_illegal (hl ▸ hlen) (fun h => hb ?_) rest
  rw [hl, hgood] at h
  exact bitsOf_toNat_injective (List.append_cancel_left h)

/-! The 48-bit magic (41_framer.md R103). -/

theorem decode_blockMagic_word {m : Nat} (hm : m < 2 ^ 48) (rest : List Bool) :
    decode .blockMagic (bitsOf 48 m ++ rest) =
      if m = blockMagicCode then .instr .bhMagic rest
      else if m = endMagicCode then .instr .eosMagic rest else .illegal .blockMagic := by
  rw [decode, decodeBlockMagic, fixedField_bitsOf hm]

theorem decode_encode_blockMagic {i : Instr} {word : List Bool} (rest : List Bool)
    (h : encode .blockMagic i = some word) : decode .blockMagic (word ++ rest) = .instr i rest := by
  cases i <;> cases h
  case bhMagic => exact decode_blockMagic_word (by decide) rest
  case eosMagic => exact decode_blockMagic_word (by decide) rest

theorem encode_decode_blockMagic {i : Instr} {bits rest : List Bool} (h : decode .blockMagic bits = .instr i rest) :
    ∃ word, encode .blockMagic i = some word ∧ bits = word ++ rest := by
  simp only [decode, decodeBlockMagic] at h
  obtain ⟨w, after, rfl, hw⟩ := fixedField_instr h
  split at hw
  next hblock => cases hw; exact ⟨_, rfl, by rw [hblock]⟩
  split at hw
  next hend => cases hw; exact ⟨_, rfl, by rw [hend]⟩
  · cases hw

theorem decode_blockMagic_short {bits : List Bool} (h : bits.length < 48) :
    decode .blockMagic bits = .need (min 24 (48 - bits.length)) := if_pos h

theorem decode_blockMagic_illegal {m : Nat} (hm : m < 2 ^ 48) (hblock : m ≠ blockMagicCode) (hend : m ≠ endMagicCode)
    (rest : List Bool) : decode .blockMagic (bitsOf 48 m ++ rest) = .illegal .blockMagic := by
  rw [decode_blockMagic_word hm, if_neg hblock, if_neg hend]

/-! A selector (42_tables.md R126). -/

/-- 1-bits below the limit are counted. -/
theorem decodeSelector_ones {limit : Nat} (k : Nat) {j : Nat} (h : j + k < limit) (bits : List Bool) :
    decodeSelector limit j (List.replicate k true ++ bits) = decodeSelector limit (j + k) bits := by
  induction k generalizing j with
  | zero => rfl
  | succ k ih =>
    rw [List.replicate_succ, List.cons_append, decodeSelector, if_neg (by omega), ih (by omega)]
    congr 1
    omega

theorem decode_selector_ones {limit k : Nat} (h : k < limit) :
    decode (.selector limit) (List.replicate k true) = .need 1 := by
  have := decodeSelector_ones k (j := 0) (limit := limit) (by omega) []
  rw [List.append_nil] at this
  exact this

theorem decode_selector_zero {limit k : Nat} (h : k < limit) (rest : List Bool) :
    decode (.selector limit) (List.replicate k true ++ false :: rest) = .instr (.tbSelector (BitVec.ofNat 3 k)) rest := by
  rw [decode, decodeSelector_ones k (by omega), Nat.zero_add, decodeSelector]

theorem decode_selector_limit {limit : Nat} (h : 1 ≤ limit) (rest : List Bool) :
    decode (.selector limit) (List.replicate limit true ++ rest) = .illegal .badSelector := by
  obtain ⟨k, rfl⟩ : ∃ k, limit = k + 1 := ⟨limit - 1, by omega⟩
  rw [decode, List.replicate_succ', List.append_assoc, decodeSelector_ones k (by omega), List.singleton_append,
    decodeSelector, if_pos (by omega)]

/-- Bits begin with `n` 1-bits, or end or have a 0-bit before the `n`-th. -/
theorem leading_ones (n : Nat) (bits : List Bool) :
    (∃ k < n, bits = List.replicate k true) ∨ (∃ k < n, ∃ rest, bits = List.replicate k true ++ false :: rest) ∨
      ∃ rest, bits = List.replicate n true ++ rest := by
  induction n generalizing bits with
  | zero => exact .inr (.inr ⟨bits, rfl⟩)
  | succ n ih =>
    match bits with
    | [] => exact .inl ⟨0, by omega, rfl⟩
    | false :: rest => exact .inr (.inl ⟨0, by omega, rest, rfl⟩)
    | true :: bits =>
      rcases ih bits with ⟨k, hk, rfl⟩ | ⟨k, hk, rest, rfl⟩ | ⟨rest, rfl⟩
      · exact .inl ⟨k + 1, by omega, rfl⟩
      · exact .inr (.inl ⟨k + 1, by omega, rest, rfl⟩)
      · exact .inr (.inr ⟨rest, rfl⟩)

/-- What a selector's bits are, by the verdict on them. -/
theorem decode_selector_cases {limit : Nat} (h : 1 ≤ limit) (bits : List Bool) :
    (∃ k < limit, bits = List.replicate k true ∧ decode (.selector limit) bits = .need 1) ∨
      (∃ k < limit, ∃ rest, bits = List.replicate k true ++ false :: rest ∧
        decode (.selector limit) bits = .instr (.tbSelector (BitVec.ofNat 3 k)) rest) ∨
        ∃ rest, bits = List.replicate limit true ++ rest ∧ decode (.selector limit) bits = .illegal .badSelector := by
  rcases leading_ones limit bits with ⟨k, hk, rfl⟩ | ⟨k, hk, rest, rfl⟩ | ⟨rest, rfl⟩
  · exact .inl ⟨k, hk, rfl, decode_selector_ones hk⟩
  · exact .inr (.inl ⟨k, hk, rest, rfl, decode_selector_zero hk rest⟩)
  · exact .inr (.inr ⟨rest, rfl, decode_selector_limit h rest⟩)

theorem decode_selector_illegal_iff {limit : Nat} (h : 1 ≤ limit) (bits : List Bool) :
    decode (.selector limit) bits = .illegal .badSelector ↔ List.replicate limit true <+: bits := by
  refine ⟨fun hd => ?_, ?_⟩
  · rcases decode_selector_cases h bits with ⟨k, _, _, hv⟩ | ⟨k, _, rest, _, hv⟩ | ⟨rest, hbits, _⟩
    · cases hd.symm.trans hv
    · cases hd.symm.trans hv
    · exact ⟨rest, hbits.symm⟩
  · rintro ⟨rest, rfl⟩
    exact decode_selector_limit h rest

theorem decode_selector_need_iff {limit : Nat} (h : 1 ≤ limit) (bits : List Bool) :
    decode (.selector limit) bits = .need 1 ↔ ∃ j < limit, bits = List.replicate j true := by
  refine ⟨fun hd => ?_, ?_⟩
  · rcases decode_selector_cases h bits with ⟨k, hk, hbits, _⟩ | ⟨k, _, rest, _, hv⟩ | ⟨rest, _, hv⟩
    · exact ⟨k, hk, hbits⟩
    · cases hd.symm.trans hv
    · cases hd.symm.trans hv
  · rintro ⟨j, hj, rfl⟩
    exact decode_selector_ones hj

theorem encode_tbSelector {limit : Nat} {j : BitVec 3} (h : j.toNat < limit) :
    encode (.selector limit) (.tbSelector j) = some (List.replicate j.toNat true ++ [false]) := if_pos h

theorem decode_encode_selector {limit : Nat} {i : Instr} {word : List Bool} (rest : List Bool)
    (h : encode (.selector limit) i = some word) : decode (.selector limit) (word ++ rest) = .instr i rest := by
  cases i
  case tbSelector j =>
    by_cases hj : j.toNat < limit
    · cases (encode_tbSelector hj).symm.trans h
      rw [List.append_assoc, List.singleton_append, decode_selector_zero hj, BitVec.ofNat_toNat, BitVec.setWidth_eq]
    · cases (if_neg hj : encode (.selector limit) (.tbSelector j) = none).symm.trans h
  all_goals cases h

/-- Up to six groups, the 1-bits of a selector fit its operand (30_encoding.md R67). -/
theorem encode_decode_selector {limit : Nat} {i : Instr} {bits rest : List Bool} (hlow : 1 ≤ limit) (hhigh : limit ≤ 6)
    (h : decode (.selector limit) bits = .instr i rest) :
    ∃ word, encode (.selector limit) i = some word ∧ bits = word ++ rest := by
  rcases decode_selector_cases hlow bits with ⟨k, _, _, hv⟩ | ⟨k, hk, after, hbits, hv⟩ | ⟨after, _, hv⟩
  · cases h.symm.trans hv
  · cases h.symm.trans hv
    have hj : (BitVec.ofNat 3 k).toNat = k := by
      rw [BitVec.toNat_ofNat]
      omega
    refine ⟨_, encode_tbSelector (hj.trans_lt hk), ?_⟩
    rw [hj, hbits, List.append_assoc, List.singleton_append]
  · cases h.symm.trans hv

/-! A code of a `lencode` (42_tables.md R129, R130). -/

theorem decode_encode_lencode {i : Instr} {word : List Bool} (rest : List Bool) (h : encode .lencode i = some word) :
    decode .lencode (word ++ rest) = .instr i rest := by
  cases i <;> cases h <;> rfl

theorem encode_decode_lencode {i : Instr} {bits rest : List Bool} (h : decodeLencode bits = .instr i rest) :
    ∃ word, encode .lencode i = some word ∧ bits = word ++ rest := by
  unfold decodeLencode at h
  split at h <;> cases h <;> exact ⟨_, rfl, rfl⟩

/-! Every expectation. -/

/-- The expectations left to the last case are the fields whose word is the operand. -/
theorem decode_encode {e : Expect} {i : Instr} {word : List Bool} (rest : List Bool) (hsym : ∀ t k, e ≠ .symbol t k)
    (hpad : e ≠ .trPad) (h : encode e i = some word) : decode e (word ++ rest) = .instr i rest := by
  cases e with
  | symbol t k => exact absurd rfl (hsym t k)
  | trPad => exact absurd rfl hpad
  | command => exact decode_encode_command rest h
  | sourceAnswer => exact decode_encode_sourceAnswer rest h
  | shMagic => cases i <;> cases h; exact decodeShMagic_code rest
  | blockMagic => exact decode_encode_blockMagic rest h
  | selector limit => exact decode_encode_selector rest h
  | lencode => exact decode_encode_lencode rest h
  | _ => cases i <;> cases h; exact fixedField_operand _ _ rest

theorem encode_decode {e : Expect} {i : Instr} {bits rest : List Bool} (hsym : ∀ t k, e ≠ .symbol t k)
    (hsel : ∀ limit, e = .selector limit → 1 ≤ limit ∧ limit ≤ 6) (h : decode e bits = .instr i rest) :
    ∃ word, encode e i = some word ∧ bits = word ++ rest := by
  cases e with
  | symbol t k => exact absurd rfl (hsym t k)
  | trPad => cases h; exact ⟨bits, rfl, (List.append_nil bits).symm⟩
  | command =>
    simp only [decode] at h
    obtain ⟨w, after, rfl, hw⟩ := fixedField_instr h
    rw [BitVec.ofNat_toNat, BitVec.setWidth_eq] at hw
    obtain ⟨hword, rfl⟩ := decodeCommand_instr hw
    exact ⟨_, hword, rfl⟩
  | sourceAnswer =>
    simp only [decode] at h
    obtain ⟨w, after, rfl, hw⟩ := fixedField_instr h
    rw [BitVec.ofNat_toNat, BitVec.setWidth_eq] at hw
    obtain ⟨hword, rfl⟩ := decodeAnswer_instr hw
    exact ⟨_, hword, rfl⟩
  | shMagic =>
    obtain ⟨rfl, rfl⟩ := decodeShMagic_instr h
    exact ⟨_, rfl, rfl⟩
  | blockMagic => exact encode_decode_blockMagic h
  | selector limit =>
    obtain ⟨hlow, hhigh⟩ := hsel limit rfl
    exact encode_decode_selector hlow hhigh h
  | lencode => exact encode_decode_lencode h
  | _ =>
    obtain ⟨x, rfl, rfl⟩ := fixedField_operand_instr h
    exact ⟨_, rfl, rfl⟩

theorem mayReject_cases {e : Expect} {err : StreamError} (h : mayReject e err = true) :
    (e = .shMagic ∧ err = .headerMagic) ∨ (e = .blockMagic ∧ err = .blockMagic) ∨
      (∃ groups, e = .selector groups ∧ err = .badSelector) ∨ ∃ t k, e = .symbol t k ∧ err = .badCode := by
  unfold mayReject at h
  split at h
  · exact .inl ⟨rfl, rfl⟩
  · exact .inr (.inl ⟨rfl, rfl⟩)
  · exact .inr (.inr (.inl ⟨_, rfl, rfl⟩))
  · exact .inr (.inr (.inr ⟨_, _, rfl, rfl⟩))
  · cases h

/-- Settles O17: a word of fixed bits is its operand's bits read back, a selector's 1-bits are counted up to its 0-bit,
and the pad is all that remains. -/
theorem decodingInvertsEncoding : Obligations.DecodingInvertsEncoding :=
  ⟨fun _ _ _ rest hsym hpad _ h => decode_encode rest hsym hpad h, fun _ => ⟨rfl, rfl⟩⟩

/-- Settles O18: each expectation's words are told apart by their bits, and the refusals are those of the signature's first
wrong byte, of a whole magic and of a selector's 1-bits at the limit. -/
theorem encodingInvertsDecoding : Obligations.EncodingInvertsDecoding := by
  refine ⟨fun _ _ _ _ => encode_decode, by decide, fun b rest => ⟨fun hb => ?_, fun hb => ?_, fun hb => ?_⟩,
    fun _ => decode_blockMagic_short, fun _ rest hm hblock hend => decode_blockMagic_illegal hm hblock hend rest,
    fun _ bits h => ⟨decode_selector_illegal_iff h bits, decode_selector_need_iff h bits⟩,
    fun _ _ _ h => mayReject_cases (decode_illegal h)⟩
  · exact decodeShMagic_wrong_byte (read := []) (good := 0x42#8) (by decide) rfl hb rest
  · exact decodeShMagic_wrong_byte (good := 0x5A#8) (by decide) rfl hb rest
  · exact decodeShMagic_wrong_byte (good := 0x68#8) (by decide) rfl hb rest

/-- Settles O11: the decoder run on each of the words. -/
theorem wordsOfTheSpecDecode : Obligations.WordsOfTheSpecDecode := by
  unfold Obligations.WordsOfTheSpecDecode
  decide

end Sys2Proof.Proofs
end

section
/-! The bit reader (40_bitreader.md R91): what a fetch and a `GetBits` make of the live bits, that nothing else in a
READ touches the reader, and what follows for the stream and for the count of live bits. -/

namespace Sys2Proof.Proofs

open Sys2Proof.Machine Sys2Proof.Safety Sys2Proof.Laws

/-! The bits of a number. -/

/-- The low `a + b` bits of a number are `a` bits and then the low `b`. -/
theorem bitsOf_add (a b v : Nat) : bitsOf (a + b) v = bitsOf a (v >>> b) ++ bitsOf b v := by
  induction a with
  | zero => rw [Nat.zero_add]; rfl
  | succ a ih => rw [Nat.succ_add, bitsOf, bitsOf, ih, Nat.testBit_shiftRight, Nat.add_comm a b, List.cons_append]

theorem bitsOf_mod (n v : Nat) : bitsOf n (v % 2 ^ n) = bitsOf n v := by
  simpa only [bitsOf_length, valueOf_bitsOf] using bitsOf_valueOf (bitsOf n v)

theorem bitsOf_congr {n v w : Nat} (h : ∀ i < n, v.testBit i = w.testBit i) : bitsOf n v = bitsOf n w := by
  induction n with
  | zero => rfl
  | succ n ih => rw [bitsOf, bitsOf, h n (by omega), ih fun i hi => h i (by omega)]

/-! `GetBits` and `Fetch` on the live bits. -/

@[simp] theorem liveBits_length (s : State) : (liveBits s).length = s.bsLive.toNat := bitsOf_length _ _

@[simp] theorem takeBits_length (n : Nat) (s : State) : (takeBits n s).1.length = n := bitsOf_length _ _

theorem takeBits_bsLive (n : Nat) (s : State) : (takeBits n s).2.bsLive.toNat = s.bsLive.toNat - n := by
  have := s.bsLive.isLt
  simp only [takeBits, BitVec.toNat_ofNat]
  omega

/-- The live bits are those a `GetBits` takes, and then those it leaves. -/
theorem liveBits_takeBits {n : Nat} {s : State} (h : n ≤ s.bsLive.toNat) :
    liveBits s = (takeBits n s).1 ++ liveBits (takeBits n s).2 := by
  have hsplit : s.bsLive.toNat = n + (s.bsLive.toNat - n) := by omega
  unfold liveBits
  rw [takeBits_bsLive, hsplit, bitsOf_add, ← hsplit]
  exact congrArg (· ++ _) (bitsOf_mod _ _).symm

theorem absorbByte_bsLive {b : BitVec 8} {s : State} (h : s.bsLive.toNat ≤ 23) :
    (absorbByte b s).bsLive.toNat = s.bsLive.toNat + 8 := by
  simp only [absorbByte, BitVec.toNat_add, BitVec.toNat_ofNat]
  omega

/-- An absorbed byte follows the live bits. -/
theorem liveBits_absorbByte {b : BitVec 8} {s : State} (h : s.bsLive.toNat ≤ 23) :
    liveBits (absorbByte b s) = liveBits s ++ bitsOf 8 b.toNat := by
  unfold liveBits
  rw [absorbByte_bsLive h, bitsOf_add]
  congr 1
  · refine bitsOf_congr fun i hi => ?_
    rw [Nat.testBit_shiftRight]
    change (s.bsBuff <<< 8 ||| b.zeroExtend 32).getLsbD (8 + i) = s.bsBuff.getLsbD i
    have hi : i < 32 := by omega
    simp [BitVec.getLsbD_eq_getElem hi, show 8 + i < 32 by omega]
  · refine bitsOf_congr fun i hi => ?_
    change (s.bsBuff <<< 8 ||| b.zeroExtend 32).getLsbD i = b.getLsbD i
    simp [hi, show i < 32 by omega]

/-- Settles O13: the live bits are those taken, then those left. -/
theorem getBitsTakesTheFirstLiveBits : Obligations.GetBitsTakesTheFirstLiveBits := by
  intro s n h
  have hsplit := liveBits_takeBits h
  have hlen := takeBits_length n s
  exact ⟨hsplit ▸ (List.take_left' hlen).symm, hsplit ▸ (List.drop_left' hlen).symm, rfl, rfl, rfl⟩

theorem endOfInputError_code (p : Phase) :
    errorCode (endOfInputError p) = (if p.code = 1#4 then 1#4 else 4#4) ∧
      errorReason (endOfInputError p) = if p.code = 1#4 then 3#8 else 0#8 := by
  cases p <;> exact ⟨rfl, rfl⟩

/-- Settles O12: a byte is shifted in below the live bits, and the end of the input raises its phase's error. -/
theorem sourceAnswersEnterTheReader : Obligations.SourceAnswersEnterTheReader := by
  intro s
  obtain ⟨hcode, hreason⟩ := endOfInputError_code s.phase
  refine ⟨fun hlive b => ⟨absorbByte b s, rfl, liveBits_absorbByte hlive, rfl⟩, ?_⟩
  rw [← hcode, ← hreason]
  rfl

/-! The elements of the stream. -/

theorem elementFrame_refl (s : State) : elementFrame s s :=
  ⟨rfl, rfl, rfl, rfl, rfl, rfl, rfl, rfl, rfl, rfl, rfl, rfl, rfl, rfl, rfl, rfl, rfl⟩

/-- Settles O57: no meaning of an element writes a part of the frame, and each memory is written by its own elements. -/
theorem elementsKeepTheReaderAndThePorts : Obligations.ElementsKeepTheReaderAndThePorts := by
  intro i s t hi h
  have frame := elementFrame_refl s
  cases exec_cases hi h with
  | bhCrc _ ht => subst ht; exact ⟨frame, nofun, fun _ => rfl⟩
  | tbSelector _ _ _ ht => subst ht; exact ⟨frame, fun _ => ⟨rfl, rfl⟩, nofun⟩
  | tbLenStop _ _ ht =>
    rcases advanceLength_cases _ with ⟨_, _, h'⟩ | ⟨_, _, h'⟩ | ⟨_, h'⟩ <;> rw [ht, h'] <;>
      exact ⟨frame, fun _ => ⟨rfl, rfl⟩, fun _ => rfl⟩
  | symMtf _ ht => obtain ⟨_, _, _, _, rfl | rfl⟩ := mtfSymbol_form ht <;> exact ⟨frame, nofun, fun _ => rfl⟩
  | symEob u hu ht =>
    obtain ⟨_, _, _, rfl⟩ := flushRun_form hu
    subst ht; exact ⟨frame, nofun, fun _ => rfl⟩
  | symRun _ _ _ _ ht | symRunBad _ _ ht => subst ht; exact ⟨frame, fun _ => ⟨rfl, rfl⟩, fun _ => rfl⟩
  | _ => rename_i ht; subst ht; exact ⟨frame, fun _ => ⟨rfl, rfl⟩, fun _ => rfl⟩

/-! What a pass of the READ loop does to the reader. -/

/-- The bit reader and the source are the same in both states. -/
def readerKept (s t : State) : Prop :=
  t.bsBuff = s.bsBuff ∧ t.bsLive = s.bsLive ∧ t.inCount = s.inCount ∧ t.source = s.source

theorem readerKept_refl (s : State) : readerKept s s := ⟨rfl, rfl, rfl, rfl⟩

theorem exec_readerKept {i : Instr} {s t : State} (hi : isElement i = true) (h : exec i s = .next t) :
    readerKept s t := by
  obtain ⟨⟨_, hbuff, hlive, hcount, hsource, _⟩, _⟩ := elementsKeepTheReaderAndThePorts i s t hi h
  exact ⟨hbuff, hlive, hcount, hsource⟩

theorem rejectElement_readerKept (err : StreamError) (s : State) : readerKept s (rejectElement err s) := by
  rcases rejectElement_cases err s with h | ⟨_, _, h⟩ <;> rw [h] <;> exact readerKept_refl s

/-- What a pass does to the reader: at most one `GetBits`, or one fetch for it (log entry 3). -/
inductive ReaderEffect (s t : State) : Prop where
  /-- a `GetBits` of the element expected -/
  | takes (e : Expect) (n : Nat) (he : expected s = some e) (hn : decode e s.part = .need n) (hmax : n ≤ readMax)
      (hlive : n ≤ s.bsLive.toNat) (ht : readerKept (takeBits n s).2 t)
  /-- a byte fetched for that `GetBits` -/
  | fetches (e : Expect) (n : Nat) (b : BitVec 8) (rest : List (BitVec 8)) (he : expected s = some e)
      (hn : decode e s.part = .need n) (hmax : n ≤ readMax) (hlive : s.bsLive.toNat < n)
      (hs : s.source = some (b :: rest)) (ht : t = absorbByte b { s with source := some rest })
  /-- no bit is taken and none enters: an error ends the READ's decoding, or no `GetBits` is due -/
  | keeps (ht : readerKept s t)
      (hend : t.phase = .failed ∨ ∀ e n, expected s = some e → decode e s.part ≠ .need n)

theorem elementCase_reader {e : Expect} {s t : State} (he : expected s = some e) (h : ElementCase e s t) :
    ReaderEffect s t := by
  have held {v : Verdict} (hd : decode e s.part = v) (hv : ∀ n, v ≠ .need n) :
      ∀ e' n, expected s = some e' → decode e' s.part ≠ .need n := fun e' n he' hn => by
    cases he.symm.trans he'
    exact hv n (hd.symm.trans hn)
  cases h with
  | fetch n b rest hn _ h2 h3 hs ht => exact .fetches e n b rest he hn h2 h3 hs ht
  | eoi _ _ _ _ _ hs ht => subst ht; exact .keeps ⟨rfl, rfl, rfl, hs.symm⟩ (.inl rfl)
  | more n _ hn _ h2 h3 _ ht => subst ht; exact .takes e n he hn h2 h3 (readerKept_refl _)
  | run n i rest hn _ h2 h3 hd ht =>
    exact .takes e n he hn h2 h3 (exec_readerKept (expected_isElement he (decode_instr hd)) ht :)
  | bad n err hn _ h2 h3 _ ht =>
    subst ht
    exact .takes e n he hn h2 h3 (rejectElement_readerKept err { (takeBits n s).2 with part := [] } :)
  | heldRun i rest hd ht =>
    exact .keeps (exec_readerKept (expected_isElement he (decode_instr hd)) ht :) (.inr (held hd nofun))
  | heldBad err hd ht =>
    subst ht
    exact .keeps (rejectElement_readerKept err { s with part := [] } :) (.inr (held hd nofun))

theorem emit_readerKept (b : BitVec 8) {s u : State} (h : readerKept s u) : readerKept s (emit b u) := by
  obtain ⟨_, _, _, ht⟩ := emit_eq b u
  rw [ht]; exact h

theorem outputPass_readerKept {s t : State} (h : outputPass s = .ok t) : readerKept s t := by
  have kept := readerKept_refl s
  rcases outputPass_ok h with ⟨_, rfl⟩ | ⟨_, _, _, rfl⟩ | ⟨_, _, _, rfl⟩ | ⟨_, _, b, u, hw, rfl⟩
  · exact emit_readerKept _ kept
  · exact kept
  · exact kept
  · obtain ⟨p, n, q, rfl⟩ := walkByte_form hw
    rcases expandByte_cases b _ with ⟨_, h⟩ | ⟨_, _, _, h⟩ <;> rw [h]
    · exact kept
    · exact emit_readerKept _ kept

theorem setupPass_readerKept {s t : State} (h : setupPass s = .ok t) : readerKept s t := by
  rcases setupPass_ok h with ⟨_, rfl⟩ | ⟨_, _, _, _, _, _, h⟩
  · exact readerKept_refl s
  · obtain ⟨_, _, rfl⟩ := outputInit_ok h
    exact readerKept_refl s

/-- Say once what a pass does to the reader. -/
theorem readCase_reader {s t : State} (h : ReadCase s t) : ReaderEffect s t := by
  have kept := readerKept_refl s
  have internal (he : expected s = none) (ht : readerKept s t) : ReaderEffect s t :=
    .keeps ht (.inr fun e n he' => by rw [he] at he'; cases he')
  cases h with
  | element e he h => exact elementCase_reader he h
  | badLength hp hl ht => subst ht; exact internal (by simp [expected, hp, hl]) kept
  | alphabet hp ht =>
    refine internal (by simp [expected, hp]) ?_
    rcases alphabetPass_cases s with ⟨_, h⟩ | ⟨_, h⟩ <;> rw [ht, h] <;> exact kept
  | selectorList hp ht =>
    obtain ⟨_, _, _, rfl, _⟩ := selectorListPass_ok ht
    exact internal (by simp [expected, hp]) kept
  | build hp ht =>
    refine internal (by simp [expected, hp]) ?_
    obtain ⟨_, _, ⟨_, rfl⟩ | ⟨_, rfl⟩⟩ := buildPass_ok ht
    · exact kept
    · rcases advanceBuild_cases _ with ⟨_, h⟩ | ⟨_, h⟩ <;> rw [h] <;> exact kept
  | symbolInit hp ht =>
    obtain ⟨_, rfl⟩ := symbolInitPass_ok ht
    exact internal (by simp [expected, hp]) kept
  | group hp ht =>
    refine internal (by simp [expected, hp]) ?_
    rcases groupPass_ok ht with ⟨_, _, rfl⟩ | ⟨_, _, _, _, rfl⟩ | ⟨_, rfl⟩ <;> exact kept
  | setup hp ht => exact internal (by simp [expected, hp]) (setupPass_readerKept ht)
  | output hp ht => exact internal (by simp [expected, hp]) (outputPass_readerKept ht)
  | blockEnd hp ht =>
    refine internal (by simp [expected, hp]) ?_
    rcases blockEndPass_cases s with ⟨_, h⟩ | ⟨_, h⟩ <;> rw [ht, h] <;> exact kept
  | endOfStream hp ht =>
    obtain ⟨_, h⟩ := answerEndOfStream_eq s
    exact internal (by simp [expected, hp]) (by rw [ht, h]; exact kept)
  | failed hp ht =>
    obtain ⟨_, h⟩ := answerError_eq s
    exact internal (by simp [expected, hp]) (by rw [ht, h]; exact kept)

/-! The stream is read forward. -/

theorem readerKept.pendingBits {s t : State} (h : readerKept s t) : pendingBits t = pendingBits s := by
  obtain ⟨hbuff, hlive, _, hsource⟩ := h
  simp only [Safety.pendingBits, liveBits, sourceBits, hbuff, hlive, hsource]

theorem readerKept.sessionBytes {s t : State} (h : readerKept s t) : sessionBytes t = sessionBytes s := by
  obtain ⟨_, _, hcount, hsource⟩ := h
  simp only [Safety.sessionBytes, hcount, hsource]

theorem pendingBits_takeBits {n : Nat} {s : State} (h : n ≤ s.bsLive.toNat) :
    pendingBits s = (takeBits n s).1 ++ pendingBits (takeBits n s).2 := by
  unfold pendingBits
  rw [liveBits_takeBits h, List.append_assoc]
  rfl

/-- A fetched byte only moves from the source to the reader. -/
theorem pendingBits_absorbByte {s : State} {b : BitVec 8} {rest : List (BitVec 8)} (hs : s.source = some (b :: rest))
    (h : s.bsLive.toNat ≤ 23) : pendingBits (absorbByte b { s with source := some rest }) = pendingBits s := by
  unfold pendingBits
  rw [liveBits_absorbByte (s := { s with source := some rest }) h, List.append_assoc]
  simp only [sourceBits, hs, Option.getD_some, List.flatMap_cons]
  rfl

theorem sessionBytes_absorbByte {s : State} {b : BitVec 8} {rest : List (BitVec 8)}
    (hs : s.source = some (b :: rest)) :
    sessionBytes (absorbByte b { s with source := some rest }) = sessionBytes s := by
  simp only [sessionBytes, absorbByte, hs, Option.getD_some, List.length_cons]
  omega

/-- Settles O14: of what a pass does to the reader, only a `GetBits` consumes bits, and a fetch moves one byte. -/
theorem streamIsReadForward : Obligations.StreamIsReadForward := by
  intro s t h hj
  obtain ⟨_, ⟨_, h⟩ | ⟨hidle, _⟩⟩ := step_next h
  · cases readCase_reader (readPass_cases h) with
    | takes e n _ _ hmax hlive ht =>
      refine ⟨⟨(takeBits n s).1, ?_, by rw [takeBits_length]; exact hmax⟩, ht.sessionBytes⟩
      rw [ht.pendingBits]
      exact pendingBits_takeBits hlive
    | fetches e n b rest _ _ hmax hlive hs ht =>
      have hroom : s.bsLive.toNat ≤ 23 := by unfold readMax at hmax; omega
      subst ht
      exact ⟨⟨[], (pendingBits_absorbByte hs hroom).symm, by simp⟩, sessionBytes_absorbByte hs⟩
    | keeps ht _ => exact ⟨⟨[], ht.pendingBits.symm, by simp⟩, ht.sessionBytes⟩
  · exact absurd hidle hj

/-! The bound on live bits. -/

/-- A phase that decodes nothing more is kept, but for an error. -/
theorem PhaseMove.failed_or_closed {s t : State} (h : PhaseMove s t) (hs : s.phase = .failed ∨ s.phase = .closed) :
    t.phase = .failed ∨ t.phase = .closed := by
  have notDecoding : ¬decodes s.phase = true := by rcases hs with h | h <;> rw [h] <;> nofun
  cases h with
  | stays hp => rwa [hp]
  | goesOn hd | verified hd => exact absurd hd notDecoding
  | lenient hb => rw [hb] at hs; exact hs.elim nofun nofun
  | fails _ hp => exact .inl hp

/-- In a phase that reads an element, the bound is that of the `GetBits` due. -/
theorem bsLive_lt_of_readerBound {s : State} {e : Expect} {n : Nat} (hs : readerBound s) (he : expected s = some e)
    (hn : decode e s.part = .need n) : s.bsLive.toNat < n + 8 := by
  have hterminal := decodes_not_terminal (expected_decodes he)
  rcases hs with hs | hp | hp | ⟨e', n', he', hn', _, hlt⟩
  · omega
  · exact absurd hp hterminal.2.2
  · exact absurd hp hterminal.1
  · cases he.symm.trans he'
    cases hn.symm.trans hn'
    exact hlt

theorem readCase_readerBound {s t : State} (hs : readerBound s) (h : ReadCase s t) : readerBound t := by
  have hmove := (readCase_effect h).move
  have terminal (hp : s.phase = .failed ∨ s.phase = .closed) : readerBound t :=
    .inr ((hmove.failed_or_closed hp).imp_right .inl)
  cases readCase_reader h with
  | takes e n he hn _ hlive ht =>
    obtain ⟨_, hkept, _, _⟩ := ht
    refine .inl ?_
    have hlt := bsLive_lt_of_readerBound hs he hn
    rw [hkept, takeBits_bsLive]
    omega
  | fetches e n b rest he hn hmax hlive _ ht =>
    have hroom : s.bsLive.toNat ≤ 23 := by unfold readMax at hmax; omega
    subst ht
    refine .inr (.inr (.inr ⟨e, n, he, hn, hmax, ?_⟩))
    rw [absorbByte_bsLive (s := { s with source := some rest }) hroom]
    exact Nat.add_lt_add_right hlive 8
  | keeps ht hend =>
    obtain ⟨_, hkept, _, _⟩ := ht
    rcases hend with hp | hend
    · exact .inr (.inl hp)
    rcases hs with hs | hp | hp | ⟨e, n, he, hn, _⟩
    · exact .inl (hkept ▸ hs)
    · exact terminal (.inl hp)
    · exact terminal (.inr hp)
    · exact absurd hn (hend e n he)

/-- Settles O15: a fetch is made only for a `GetBits` with too few live bits, and what that `GetBits` leaves is less than
a byte; OPEN and reset empty the reader, and the other commands do not touch it. -/
theorem liveBitsStayBounded : Obligations.LiveBitsStayBounded := by
  intro s t hs h
  cases step_cases h with
  | read _ _ h => exact readCase_readerBound hs h
  | opens _ _ _ _ _ _ ht | resets _ _ _ _ ht => subst ht; exact .inl (by decide : (0#5).toNat < 8)
  | closes _ _ _ _ _ ht => subst ht; exact .inr (.inr (.inl rfl))
  | _ => rename_i ht; subst ht; exact hs

end Sys2Proof.Proofs
end

section
/-! The step runs what is decoded: a turn towards the element that the phase expects, by what the reader holds, and the
events at the port (40_bitreader.md R91, R92, 46_host.md R186). -/

namespace Sys2Proof.Proofs

open Sys2Proof.Machine Sys2Proof.Safety Sys2Proof.Laws

theorem step_element {s : State} {e : Expect} (hm : s.refusalMark = false) (hj : s.job ≠ none)
    (he : expected s = some e) : step s = elementPass e s :=
  (step_of_job hm hj).trans (readPass_expected he)

section Element

variable {s : State} {e : Expect} {n : Nat} (hn : decode e s.part = .need n) (h1 : 1 ≤ n) (hmax : n ≤ readMax)
include hn h1 hmax

theorem elementPass_takes (hlive : n ≤ s.bsLive.toNat) :
    elementPass e s = acceptBits e (s.part ++ (takeBits n s).1) (takeBits n s).2 := by
  have hwidth : ¬(n = 0 ∨ readMax < n) := by omega
  simp only [elementPass, hn, if_neg hwidth, if_neg (Nat.not_lt.2 hlive)]

theorem elementPass_fetches (hlive : s.bsLive.toNat < n) : elementPass e s = sourcePass s := by
  have hwidth : ¬(n = 0 ∨ readMax < n) := by omega
  simp only [elementPass, hn, if_neg hwidth, if_pos hlive]

end Element

/-- Settles O10: a turn towards the element expected, unfolded down to the verdict on its bits, and the head of the
port. -/
theorem stepRunsTheDecodedInstruction : Obligations.StepRunsTheDecodedInstruction := by
  intro s hm
  refine ⟨fun hj e n he hn h1 hmax => ⟨fun hlive => ?_, fun hlive => ?_⟩, fun hj rest => ⟨?_, ?_⟩⟩
  · have hstep := (step_element hm hj he).trans (elementPass_takes hn h1 hmax hlive)
    have hrun {i after} (hd : decode e (s.part ++ (takeBits n s).1) = .instr i after) :
        step s = exec i { (takeBits n s).2 with part := [] } := by
      rw [hstep, acceptBits, hd]
    have hreject {err} (hd : decode e (s.part ++ (takeBits n s).1) = .illegal err) :
        step s = .next (rejectElement err { (takeBits n s).2 with part := [] }) := by
      rw [hstep, acceptBits, hd]
    refine ⟨fun _ _ => hrun, fun c after t hd _ ht _ => (hrun hd).trans ht, hreject, hreject, hreject,
      fun hd => ⟨fun hstrict => ?_, fun hlenient => ?_⟩, fun err hd => ?_, fun m hd => ?_⟩
    · exact (hreject hd).trans (congrArg _ (if_pos hstrict))
    · exact (hreject hd).trans (congrArg _ (if_neg (Bool.eq_false_iff.1 hlenient)))
    · rcases mayReject_cases (decode_illegal hd) with ⟨_, rfl⟩ | ⟨_, rfl⟩ | ⟨_, _, rfl⟩ | ⟨_, _, _, rfl⟩ <;> decide
    · rw [hstep, acceptBits, hd]
  · have hstep := (step_element hm hj he).trans (elementPass_fetches hn h1 hmax hlive)
    refine ⟨fun b after hs => hstep.trans (sourcePass_data hs), fun hs => ?_⟩
    rw [hstep, sourcePass_end hs, ← hs]
    rfl
  · intro w src i after hq hd
    rw [step_of_idle hm hj, portPass, hq]
    simp only [commandPass, hd]
  · intro n hq
    rw [step_of_idle hm hj, portPass, hq]

end Sys2Proof.Proofs
end

section
/-! The codes of a canonical table (42_tables.md R131, R132): a code fits in its bits, it lies above every shorter one,
and the loop of 43_symbols.md R140 finds it at its own length and nothing before. -/

namespace Sys2Proof.Proofs

open Sys2Proof.Machine Sys2Proof.Safety Sys2Proof.Laws

/-! The values of the codes. -/

theorem firstCodeAfter_succ (lens : List (BitVec 5)) (n : Nat) :
    firstCodeAfter lens (n + 1) = 2 * (firstCodeAfter lens n + lengthCount lens (n + 1)) := rfl

/-- The code after those of up to `n` bits, by the code space that these use. -/
theorem firstCodeAfter_scaled (lens : List (BitVec 5)) {n : Nat} (hn : n ≤ 20) :
    firstCodeAfter lens n * 2 ^ (20 - n) =
      2 * ((List.range' 1 n).map fun m => lengthCount lens m * 2 ^ (20 - m)).sum := by
  induction n with
  | zero => simp [firstCodeAfter]
  | succ n ih =>
    have hpow : 2 ^ (20 - n) = 2 * 2 ^ (20 - (n + 1)) := by
      rw [← pow_succ']; congr 1; omega
    have ih := ih (by omega)
    rw [hpow] at ih
    rw [List.range'_1_concat, List.map_append, List.sum_append, Nat.mul_add, ← ih, firstCodeAfter_succ,
      Nat.add_comm 1 n]
    simp only [List.map_cons, List.map_nil, List.sum_cons, List.sum_nil]
    ring

theorem firstCodeAfter_le {lens : List (BitVec 5)} (h : codeSpace lens ≤ 2 ^ 20) {n : Nat} (hn : n ≤ 20) :
    firstCodeAfter lens n ≤ 2 * 2 ^ n := by
  have hsplit : codeLengths = List.range' 1 n ++ List.range' (1 + n) (20 - n) := by
    rw [List.range'_append_1, Nat.add_sub_cancel' hn]; rfl
  have hspace : ((List.range' 1 n).map fun m => lengthCount lens m * 2 ^ (20 - m)).sum ≤ codeSpace lens := by
    rw [codeSpace, hsplit, List.map_append, List.sum_append]
    exact Nat.le_add_right _ _
  have hscaled := firstCodeAfter_scaled lens hn
  have hpow : 2 ^ n * 2 ^ (20 - n) = 2 ^ 20 := by rw [← pow_add, Nat.add_sub_cancel' hn]
  refine Nat.le_of_mul_le_mul_right ?_ (Nat.two_pow_pos (20 - n))
  rw [Nat.mul_assoc, hpow]
  omega

/-- The codes of `n` bits fit in `n` bits (42_tables.md R132). -/
theorem firstCodeAfter_add_count_le {lens : List (BitVec 5)} (h : codeSpace lens ≤ 2 ^ 20) {n : Nat} (h1 : 1 ≤ n)
    (hn : n ≤ 20) : firstCodeAfter lens (n - 1) + lengthCount lens n ≤ 2 ^ n := by
  have hle := firstCodeAfter_le h hn
  obtain ⟨m, rfl⟩ : ∃ m, n = m + 1 := ⟨n - 1, by omega⟩
  rw [firstCodeAfter_succ] at hle
  rw [Nat.add_sub_cancel]
  omega

/-- With every bit more the first code at least doubles. -/
theorem firstCodeAfter_growth (lens : List (BitVec 5)) (m d : Nat) :
    firstCodeAfter lens m * 2 ^ d ≤ firstCodeAfter lens (m + d) := by
  induction d with
  | zero => simp
  | succ d ih =>
    rw [← Nat.add_assoc, firstCodeAfter_succ, pow_succ, ← Nat.mul_assoc]
    omega

/-- The codes of `n` bits lie above every code of fewer bits, whatever bits follow it. -/
theorem codes_below {lens : List (BitVec 5)} {m n : Nat} (h1 : 1 ≤ m) (hmn : m < n) :
    (firstCodeAfter lens (m - 1) + lengthCount lens m) * 2 ^ (n - m) ≤ firstCodeAfter lens (n - 1) := by
  have hgrow := firstCodeAfter_growth lens m (n - 1 - m)
  obtain ⟨a, rfl⟩ : ∃ a, m = a + 1 := ⟨m - 1, by omega⟩
  have hpow : 2 ^ (n - (a + 1)) = 2 * 2 ^ (n - 1 - (a + 1)) := by rw [← pow_succ']; congr 1; omega
  rw [firstCodeAfter_succ, Nat.add_sub_cancel' (by omega)] at hgrow
  rw [Nat.add_sub_cancel, hpow, ← Nat.mul_assoc, Nat.mul_comm _ 2]
  exact hgrow

/-! Where a symbol stands in the canonical order. -/

/-- How many symbols below `s` have the length `l`. -/
def rankOf (lens : List (BitVec 5)) (l : BitVec 5) (s : Nat) : Nat := ((lens.take s).filter fun m => m = l).length

theorem symbolsOfLength_rankOf {lens : List (BitVec 5)} {l : BitVec 5} {s : Nat} (h : lens[s]? = some l) :
    (symbolsOfLength lens l.toNat)[rankOf lens l s]? = some s := by
  have gen (k : Nat) :
      ((lens.zipIdx k).filterMap fun e => if e.1.toNat = l.toNat then some e.2 else none)[rankOf lens l s]? =
        some (k + s) := by
    induction lens generalizing k s with
    | nil => cases h
    | cons m lens ih =>
      cases s with
      | zero =>
        rw [List.getElem?_cons_zero] at h
        cases h
        simp [rankOf]
      | succ s =>
        rw [List.getElem?_cons_succ] at h
        have ih := ih h (k + 1)
        by_cases hm : m = l
        · subst hm
          simp only [rankOf] at ih
          simp only [rankOf, List.zipIdx_cons, List.filterMap_cons, if_true, List.take_succ_cons, List.filter_cons,
            decide_true, List.length_cons, List.getElem?_cons_succ, ih]
          congr 1; omega
        · have hm' : ¬m.toNat = l.toNat := fun he => hm (BitVec.eq_of_toNat_eq he)
          simp only [rankOf] at ih
          simp only [rankOf, List.zipIdx_cons, List.filterMap_cons, if_neg hm', List.take_succ_cons, List.filter_cons,
            decide_eq_false hm, Bool.false_eq_true, if_false, ih]
          congr 1; omega
  simpa [symbolsOfLength] using gen 0

theorem rankOf_lt {lens : List (BitVec 5)} {l : BitVec 5} {s : Nat} (h : lens[s]? = some l) :
    rankOf lens l s < lengthCount lens l.toNat := by
  rw [← symbolsOfLength_length]
  exact (List.getElem?_eq_some_iff.mp (symbolsOfLength_rankOf h)).1

/-- The symbols of `n` bits stand behind those of fewer. -/
theorem canonicalOrder_get {lens : List (BitVec 5)} {n r s : Nat} (h1 : 1 ≤ n) (hn : n ≤ 20)
    (h : (symbolsOfLength lens n)[r]? = some s) : (canonicalOrder lens)[firstIndex lens n + r]? = some s := by
  have hsplit : codeLengths = List.range' 1 (n - 1) ++ (n :: List.range' (n + 1) (20 - n)) := by
    have hcons : n :: List.range' (n + 1) (20 - n) = List.range' (1 + (n - 1)) (20 - n + 1) := by
      rw [List.range'_succ, Nat.add_sub_cancel' h1]
    rw [hcons, List.range'_append_1]
    unfold codeLengths
    congr 1; omega
  have hlen : ((List.range' 1 (n - 1)).flatMap (symbolsOfLength lens)).length = firstIndex lens n := by
    rw [List.length_flatMap]
    simp only [symbolsOfLength_length]
    rfl
  rw [canonicalOrder, hsplit, List.flatMap_append, List.getElem?_append_right (by omega), hlen, Nat.add_sub_cancel_left,
    List.flatMap_cons, List.getElem?_append_left (List.getElem?_eq_some_iff.mp h).1, h]

/-! The files of a canonical table. -/

/-- The code of the symbol `s` of length `l`: the first code of that length, and the symbol's rank after it
(42_tables.md R131). -/
def codeOf (lens : List (BitVec 5)) (l : BitVec 5) (s : Nat) : Nat :=
  firstCodeAfter lens (l.toNat - 1) + rankOf lens l s

theorem decodeCode_hit {t : HuffTable} {k n v s : Nat} (h : probe t n v = .hit s) (bits : List Bool) :
    decodeCode t k n v bits = symbolVerdict k s bits := by
  unfold decodeCode
  rw [h]

section Canonical

variable {lens : List (BitVec 5)} {t : HuffTable} (ht : canonicalTable lens t)
include ht

theorem canonicalTable_firstCode {n : Nat} (h1 : 1 ≤ n) (hn : n < 21) :
    (t.firstCode[n]).toNat = firstCodeAfter lens (n - 1) := by
  obtain ⟨_, _, hspace, hbuilt⟩ := ht
  have hcode : (withCodes lens (withCounts lens t)).firstCode = t.firstCode := congrArg HuffTable.firstCode hbuilt
  have hle := firstCodeAfter_add_count_le hspace h1 (by omega)
  have hpow : 2 ^ n ≤ 2 ^ 20 := Nat.pow_le_pow_right (by omega) (by omega)
  have h0 : ¬n = 0 := by omega
  simp only [← hcode, withCodes, fileOf_getElem, if_neg h0, BitVec.toNat_ofNat]
  omega

section Symbol

variable {l : BitVec 5} {s : Nat} (hs : lens[s]? = some l)
include hs

/-- The length of a symbol of the alphabet lies in the range of the table (42_tables.md R129, R131). -/
theorem canonicalTable_length_bounds :
    1 ≤ l.toNat ∧ l.toNat ≤ 20 ∧ t.minLen.toNat ≤ l.toNat ∧ l.toNat ≤ t.maxLen.toNat := by
  obtain ⟨_, hlegal, _, hbuilt⟩ := ht
  have hl := List.mem_of_getElem? hs
  have hmin : (withCounts lens t).minLen = t.minLen := by rw [← congrArg HuffTable.minLen hbuilt]; rfl
  have hmax : (withCounts lens t).maxLen = t.maxLen := by rw [← congrArg HuffTable.maxLen hbuilt]; rfl
  have hbound := (withCounts_bounds t (List.ne_nil_of_mem hl)).1 l hl
  rw [hmin, hmax] at hbound
  obtain ⟨hlow, hhigh⟩ := lengthLegal_iff.mp (hlegal l hl)
  exact ⟨hlow, hhigh, hbound⟩

/-- A symbol's code fits in its bits. -/
theorem codeOf_lt : codeOf lens l s < 2 ^ l.toNat := by
  obtain ⟨h1, h20, _⟩ := canonicalTable_length_bounds ht hs
  obtain ⟨_, _, hspace, _⟩ := ht
  have hfit := firstCodeAfter_add_count_le hspace h1 h20
  have hrank := rankOf_lt hs
  unfold codeOf
  omega

theorem encodeSymbol_canonical : encodeSymbol t s = some (bitsOf l.toNat (codeOf lens l s)) := by
  obtain ⟨h1, h20, _⟩ := canonicalTable_length_bounds ht hs
  have hslt := (List.getElem?_eq_some_iff.mp hs).1
  have ⟨hprefix, _⟩ := ht
  have hget : t.len[s]? = some l := by
    rw [← hprefix, List.getElem?_take_of_lt hslt] at hs
    simpa using hs
  have htake : t.len.toList.take s = lens.take s := by
    conv_rhs => rw [← hprefix]
    rw [List.take_take, Nat.min_eq_left (by omega)]
  have hn : l.toNat < 21 := by omega
  simp only [encodeSymbol, hget, Vector.getElem?_eq_getElem hn, canonicalTable_firstCode ht h1 hn, htake]
  rfl

end Symbol

/-- The symbol that an instruction is encoded by. -/
theorem encode_symbol {k : Nat} (hk : 1 ≤ k) (hsize : lens.length = k + 2) {i : Instr} {word : List Bool}
    (h : encode (.symbol t k) i = some word) :
    ∃ s l, lens[s]? = some l ∧ word = bitsOf l.toNat (codeOf lens l s) ∧
      ∀ rest, symbolVerdict k s rest = .instr i rest := by
  have symbol {s : Nat} (hs : s < k + 2) (h : encodeSymbol t s = some word) :
      ∃ l, lens[s]? = some l ∧ word = bitsOf l.toNat (codeOf lens l s) := by
    have hget := List.getElem?_eq_getElem (show s < lens.length by omega)
    exact ⟨_, hget, Option.some.inj (h.symm.trans (encodeSymbol_canonical ht hget))⟩
  cases i with
  | symRuna =>
    obtain ⟨l, hget, hword⟩ := symbol (s := 0) (by omega) h
    exact ⟨0, l, hget, hword, fun _ => rfl⟩
  | symRunb =>
    obtain ⟨l, hget, hword⟩ := symbol (s := 1) (by omega) h
    exact ⟨1, l, hget, hword, fun _ => rfl⟩
  | symMtf n =>
    by_cases hn : 2 ≤ n.toNat ∧ n.toNat ≤ k
    · obtain ⟨l, hget, hword⟩ := symbol (s := n.toNat) (by omega) ((if_pos hn).symm.trans h)
      refine ⟨n.toNat, l, hget, hword, fun rest => ?_⟩
      rw [symbolVerdict, if_neg (by omega), if_neg (by omega), if_pos hn.2, BitVec.ofNat_toNat, BitVec.setWidth_eq]
    · cases (if_neg hn : encode (.symbol t k) (.symMtf n) = none).symm.trans h
  | symEob =>
    obtain ⟨l, hget, hword⟩ := symbol (s := k + 1) (by omega) h
    refine ⟨k + 1, l, hget, hword, fun rest => ?_⟩
    rw [symbolVerdict, if_neg (by omega), if_neg (by omega), if_neg (by omega), if_pos rfl]
  | _ => cases h

variable (hlen : lens.length ≤ 258)
include hlen

theorem canonicalTable_perm_get {i s : Nat} (h : (canonicalOrder lens)[i]? = some s) :
    ∃ x, t.perm[i]? = some x ∧ x.toNat = s := by
  obtain ⟨_, _, _, hbuilt⟩ := ht
  have hperm : (withCodes lens (withCounts lens t)).perm = t.perm := congrArg HuffTable.perm hbuilt
  obtain ⟨hi, rfl⟩ := List.getElem?_eq_some_iff.mp h
  have hi' : i < 258 := by have := canonicalOrder_length_le lens; omega
  have hlt := mem_canonicalOrder_lt (List.getElem_mem hi)
  refine ⟨_, Vector.getElem?_eq_getElem hi', ?_⟩
  simp only [← hperm, withCodes, fileOverlay_getElem, List.length_map, hi, dif_pos, List.getElem_map,
    BitVec.toNat_ofNat]
  omega

section Symbol

variable {l : BitVec 5} {s : Nat} (hs : lens[s]? = some l)
include hs

/-- At its own length the loop finds the symbol. -/
theorem probe_codeOf : probe t l.toNat (codeOf lens l s) = .hit s := by
  obtain ⟨h1, h20, _⟩ := canonicalTable_length_bounds ht hs
  have hn : l.toNat < 21 := by omega
  have hrank := rankOf_lt hs
  have hcode := canonicalTable_firstCode ht h1 hn
  have hin : 0 < (t.count[l.toNat]).toNat ∧ (t.firstCode[l.toNat]).toNat ≤ codeOf lens l s ∧
      codeOf lens l s < (t.firstCode[l.toNat]).toNat + (t.count[l.toNat]).toNat := by
    rw [hcode, canonicalTable_count ht hlen h1 hn]
    unfold codeOf
    omega
  have hpos : (t.firstIdx[l.toNat]).toNat + codeOf lens l s - (t.firstCode[l.toNat]).toNat =
      firstIndex lens l.toNat + rankOf lens l s := by
    rw [hcode, canonicalTable_firstIdx ht hlen h1 hn]
    unfold codeOf
    omega
  obtain ⟨x, hx, hxs⟩ := canonicalTable_perm_get ht hlen (canonicalOrder_get h1 h20 (symbolsOfLength_rankOf hs))
  simp only [probe, Vector.getElem?_eq_getElem hn, if_pos hin, hpos, hx, hxs]

/-- Before its own length the loop finds nothing, and goes on. -/
theorem probe_codeOf_prefix {p q : List Bool} (hword : p ++ q = bitsOf l.toNat (codeOf lens l s)) (hp : 1 ≤ p.length)
    (hq : q ≠ []) : probe t p.length (valueOf p) = .miss := by
  obtain ⟨h1, h20, _, hmax⟩ := canonicalTable_length_bounds ht hs
  have hlength : p.length + q.length = l.toNat := by
    rw [← List.length_append, hword, bitsOf_length]
  have hqpos := List.length_pos_iff.2 hq
  have hn : p.length < 21 := by omega
  have hvalue : valueOf p * 2 ^ q.length + valueOf q = codeOf lens l s := by
    rw [← valueOf_append, hword, valueOf_bitsOf, Nat.mod_eq_of_lt (codeOf_lt ht hs)]
  have habove : firstCodeAfter lens (p.length - 1) + lengthCount lens p.length ≤ valueOf p := by
    have hbelow := codes_below (lens := lens) hp (show p.length < l.toNat by omega)
    rw [show l.toNat - p.length = q.length by omega] at hbelow
    have hlt := valueOf_lt q
    unfold codeOf at hvalue
    refine Nat.le_of_lt_succ (Nat.lt_of_mul_lt_mul_right (a := 2 ^ q.length) ?_)
    rw [Nat.succ_mul]
    omega
  have hout : ¬(0 < (t.count[p.length]).toNat ∧ (t.firstCode[p.length]).toNat ≤ valueOf p ∧
      valueOf p < (t.firstCode[p.length]).toNat + (t.count[p.length]).toNat) := by
    rw [canonicalTable_firstCode ht hp hn, canonicalTable_count ht hlen hp hn]
    omega
  simp only [probe, Vector.getElem?_eq_getElem hn, if_neg hout, if_neg (show p.length ≠ t.maxLen.toNat by omega)]

/-! Reading a code (43_symbols.md R140). -/

/-- The loop reads on through the bits of a code. -/
theorem decodeCode_through (k : Nat) {p q r : List Bool} (hword : p ++ q ++ r = bitsOf l.toNat (codeOf lens l s))
    (hp : 1 ≤ p.length) (rest : List Bool) :
    decodeCode t k p.length (valueOf p) (q ++ rest) = decodeCode t k (p ++ q).length (valueOf (p ++ q)) rest := by
  induction q generalizing p with
  | nil => rw [List.append_nil, List.nil_append]
  | cons b q ih =>
    have hmiss := probe_codeOf_prefix ht hlen hs (p := p) (q := b :: q ++ r)
      (by rw [← hword, List.append_assoc]) hp (by simp)
    have hnext : p ++ b :: q = p ++ [b] ++ q := by simp
    have hvalue : valueOf (p ++ [b]) = 2 * valueOf p + b.toNat := by
      rw [valueOf_append, Nat.mul_comm]
      simp [valueOf]
    rw [hnext] at hword
    have ih := ih hword (by simp)
    rw [hvalue, List.length_append, List.length_singleton] at ih
    rw [List.cons_append, decodeCode, hmiss, hnext]
    exact ih

/-- Bits of a code that are not all of it ask for more, and no more than the code has. -/
theorem decode_symbol_prefix (k : Nat) {p q : List Bool} (hword : p ++ q = bitsOf l.toNat (codeOf lens l s))
    (hq : q ≠ []) : ∃ n, decode (.symbol t k) p = .need n ∧ n ≤ q.length := by
  obtain ⟨_, _, hmin, _⟩ := canonicalTable_length_bounds ht hs
  have hminpos := (canonicalTable_bounds ht (List.ne_nil_of_mem (List.mem_of_getElem? hs))).1
  have hlength : p.length + q.length = l.toNat := by
    rw [← List.length_append, hword, bitsOf_length]
  have hqpos := List.length_pos_iff.2 hq
  by_cases hshort : p.length < t.minLen.toNat
  · exact ⟨t.minLen.toNat - p.length, if_pos (.inl hshort), by omega⟩
  · have hfirst : (p.take t.minLen.toNat).length = t.minLen.toNat := List.length_take_of_le (by omega)
    have hsplit := List.take_append_drop t.minLen.toNat p
    have hthrough := decodeCode_through ht hlen hs k (p := p.take t.minLen.toNat) (q := p.drop t.minLen.toNat) (r := q)
      (by rw [hsplit, hword]) (by omega) []
    rw [List.append_nil, hfirst, hsplit, decodeCode, probe_codeOf_prefix ht hlen hs hword (by omega) hq] at hthrough
    exact ⟨1, (if_neg (by omega)).trans hthrough, hqpos⟩

/-- The bits of a code are read as its symbol, whatever follows. -/
theorem decode_symbol_codeOf (k : Nat) (rest : List Bool) :
    decode (.symbol t k) (bitsOf l.toNat (codeOf lens l s) ++ rest) = symbolVerdict k s rest := by
  obtain ⟨_, _, hmin, _⟩ := canonicalTable_length_bounds ht hs
  have hminpos := (canonicalTable_bounds ht (List.ne_nil_of_mem (List.mem_of_getElem? hs))).1
  obtain ⟨p, q, hword, hp⟩ : ∃ p q, p ++ q = bitsOf l.toNat (codeOf lens l s) ∧ p.length = t.minLen.toNat :=
    ⟨_, _, List.take_append_drop t.minLen.toNat _, List.length_take_of_le (by rw [bitsOf_length]; exact hmin)⟩
  have hthrough := decodeCode_through ht hlen hs k (p := p) (q := q) (r := [])
    (by rw [List.append_nil, hword]) (by omega) rest
  have hlong : ¬((p ++ (q ++ rest)).length < t.minLen.toNat ∨ t.minLen.toNat = 0) := by
    simp only [List.length_append]
    omega
  rw [hword, bitsOf_length, valueOf_bitsOf, Nat.mod_eq_of_lt (codeOf_lt ht hs),
    decodeCode_hit (probe_codeOf ht hlen hs), hp] at hthrough
  rw [← hword, List.append_assoc]
  simp only [decode, decodeSymbol, if_neg hlong, List.take_left' hp, List.drop_left' hp]
  exact hthrough

end Symbol

end Canonical

end Sys2Proof.Proofs
end

section
/-! An element that stands next in the stream is executed (40_bitreader.md R94): its bits are taken by one `GetBits`
after another, each with the fetches it needs, however many live bits the reading begins with. -/

namespace Sys2Proof.Proofs

open Sys2Proof.Machine Sys2Proof.Safety Sys2Proof.Laws

/-! How an element asks for its bits. -/

/-- The bits `word` are read as `i`: any part of them that is not all asks `GetBits` for bits that are still to come. -/
def readsAs (e : Expect) (i : Instr) (word : List Bool) : Prop :=
  decode e word = .instr i [] ∧
    ∀ p q, word = p ++ q → q ≠ [] → ∃ n, decode e p = .need n ∧ 1 ≤ n ∧ n ≤ readMax ∧ n ≤ q.length

theorem decode_nil {e : Expect} (hpad : e ≠ .trPad) : ∃ n, decode e [] = .need n := by
  cases e with
  | trPad => exact absurd rfl hpad
  | symbol t k => exact ⟨_, if_pos (by simp only [List.length_nil]; omega)⟩
  | _ => exact ⟨_, rfl⟩

theorem fixedField_prefix {chunk total : Nat} {p q : List Bool} (hlen : (p ++ q).length = total) (hq : q ≠ [])
    (found : Nat → List Bool → Verdict) : fixedField chunk total p found = .need (min chunk q.length) := by
  have hpos := List.length_pos_iff.2 hq
  rw [List.length_append] at hlen
  rw [fixedField, if_pos (by omega)]
  congr 2
  omega

theorem decodeShMagic_prefix {p q : List Bool} (hword : p ++ q = bitsOf 24 shMagicCode) (hq : q ≠ []) :
    decodeShMagic p = .need (min 8 q.length) := by
  have hpos := List.length_pos_iff.2 hq
  have hlen : p.length + q.length = 24 := by rw [← List.length_append, hword, bitsOf_length]
  have hsame : p.take 24 = (bitsOf 24 shMagicCode).take p.length := by
    rw [← hword, List.take_left, List.take_of_length_le (by omega)]
  have hshort : p.length < 24 := by omega
  simp only [decodeShMagic, hsame, bne_self_eq_false, Bool.false_eq_true, if_false, if_pos hshort]
  congr 2
  omega

theorem decode_selector_prefix {limit k : Nat} (hk : k < limit) {p q : List Bool}
    (hword : p ++ q = List.replicate k true ++ [false]) (hq : q ≠ []) : decode (.selector limit) p = .need 1 := by
  have hpos := List.length_pos_iff.2 hq
  have hlen : p.length + q.length = k + 1 := by rw [← List.length_append, hword]; simp
  have hp : p = List.replicate p.length true := by
    have htake := congrArg (List.take p.length) hword
    rwa [List.take_left, List.take_append_of_le_length (by rw [List.length_replicate]; omega), List.take_replicate,
      Nat.min_eq_left (by omega)] at htake
  rw [hp]
  exact decode_selector_ones (by omega)

theorem decode_lencode_prefix {i : Instr} {word p q : List Bool} (h : encode .lencode i = some word)
    (hword : p ++ q = word) (hq : q ≠ []) : decode .lencode p = .need 1 := by
  match p with
  | [] => rfl
  | [true] => rfl
  | false :: _ => cases i <;> cases h <;> simp_all
  | true :: _ :: _ => cases i <;> cases h <;> simp_all

/-- A part of an element's bits that is not all of them asks for bits that are still to come. -/
theorem decode_prefix {e : Expect} {i : Instr} {word p q : List Bool} (hsym : ∀ t k, e ≠ .symbol t k)
    (hpad : e ≠ .trPad) (h : encode e i = some word) (hword : p ++ q = word) (hq : q ≠ []) :
    ∃ n, decode e p = .need n ∧ n ≤ q.length := by
  have hpos := List.length_pos_iff.2 hq
  cases e with
  | symbol t k => exact absurd rfl (hsym t k)
  | trPad => exact absurd rfl hpad
  | shMagic => cases i <;> cases h; exact ⟨_, decodeShMagic_prefix hword hq, Nat.min_le_right _ _⟩
  | selector limit =>
    cases i with
    | tbSelector j =>
      by_cases hj : j.toNat < limit
      · cases (encode_tbSelector hj).symm.trans h
        exact ⟨1, decode_selector_prefix hj hword hq, hpos⟩
      · cases (if_neg hj : encode (.selector limit) (.tbSelector j) = none).symm.trans h
    | _ => cases h
  | lencode => exact ⟨1, decode_lencode_prefix h hword hq, hpos⟩
  | _ =>
    simp only [decode, decodeBlockMagic]
    cases i <;> cases h <;>
      exact ⟨_, fixedField_prefix ((congrArg List.length hword).trans (bitsOf_length _ _)) hq _, Nat.min_le_right _ _⟩

/-- The encoding of an element is read as that element; for a Huffman symbol, under a canonical table. -/
theorem readsAs_of_encode {e : Expect} {i : Instr} {word : List Bool} (hpad : e ≠ .trPad) (h : encode e i = some word)
    (hcan : ∀ t k, e = .symbol t k → 1 ≤ k ∧ k ≤ 256 ∧ canonicalTable (t.len.toList.take (k + 2)) t) :
    readsAs e i word := by
  by_cases hsym : ∃ t k, e = .symbol t k
  · obtain ⟨t, k, rfl⟩ := hsym
    obtain ⟨hk, hk256, ht⟩ := hcan t k rfl
    have hsize : (t.len.toList.take (k + 2)).length = k + 2 := by
      rw [List.length_take, Vector.length_toList]
      omega
    obtain ⟨s, l, hs, rfl, hverdict⟩ := encode_symbol ht hk hsize h
    have hbounds := canonicalTable_bounds ht (List.ne_nil_of_mem (List.mem_of_getElem? hs))
    refine ⟨?_, fun p q hword hq => ?_⟩
    · simpa only [List.append_nil, hverdict] using decode_symbol_codeOf ht (by omega) hs k []
    · obtain ⟨n, hn, hle⟩ := decode_symbol_prefix ht (by omega) hs k hword.symm hq
      obtain ⟨h1, hmax⟩ := decode_need hn fun t' k' he => by
        cases he
        unfold readMax
        omega
      exact ⟨n, hn, h1, hmax, hle⟩
  · have hsym : ∀ t k, e ≠ .symbol t k := fun t k he => hsym ⟨t, k, he⟩
    refine ⟨?_, fun p q hword hq => ?_⟩
    · simpa only [List.append_nil] using decode_encode [] hsym hpad h
    · obtain ⟨n, hn, hle⟩ := decode_prefix hsym hpad h hword.symm hq
      obtain ⟨h1, hmax⟩ := decode_need hn fun t k he => absurd he (hsym t k)
      exact ⟨n, hn, h1, hmax, hle⟩

theorem expected_ne_trPad {s : State} {e : Expect} (he : expected s = some e) : e ≠ .trPad := by
  rintro rfl
  have hp := expected_place he
  simp [expected, hp, elementPlace] at he

/-! A READ on its way to an element. -/

/-- Bits taken into the element being read leave the phase reading it. -/
theorem expected_more {s : State} {e : Expect} (he : expected s = some e) {p : List Bool} (hp : p ≠ [])
    (live : BitVec 5) : expected { s with bsLive := live, part := p } = some e := by
  have hr : lengthRefused { s with bsLive := live, part := p } = false := by simp [lengthRefused, hp]
  unfold expected at he ⊢
  split at he <;> simp_all

theorem onlyReaderDiffers_trans {s t u : State} (h : onlyReaderDiffers s t) (h' : onlyReaderDiffers t u) :
    onlyReaderDiffers s u := by
  unfold onlyReaderDiffers at *
  rw [h', h]

theorem run_one (s : State) : Host.Core.run core 1 s = step s := by
  simp only [Host.Core.run, core]
  cases step s <;> rfl

theorem run_succ {s t : State} (h : step s = .next t) (k : Nat) :
    Host.Core.run core (k + 1) s = Host.Core.run core k t := by
  simp only [Host.Core.run, core, h]

/-- A READ that holds a part of `word`, with the bits `q` of it and then `rest` still to come. -/
structure Reading (e : Expect) (word rest : List Bool) (s : State) (q : List Bool) : Prop where
  unmarked : s.refusalMark = false
  job : s.job ≠ none
  expects : expected s = some e
  held : word = s.part ++ q
  ahead : pendingBits s = q ++ rest
  bound : readerBound s

/-- `u` is `s` with the element's bits consumed: only the reader differs, and `rest` is what is still to come. -/
def consumedTo (rest : List Bool) (s u : State) : Prop :=
  onlyReaderDiffers { s with part := [] } u ∧ pendingBits u = rest ∧ sessionBytes u = sessionBytes s ∧
    u.bsLive.toNat < 8

section Reading

variable {e : Expect} {i : Instr} {word rest q : List Bool} {s : State} {n : Nat}
  (hr : Reading e word rest s q) (hn : decode e s.part = .need n) (h1 : 1 ≤ n) (hmax : n ≤ readMax)
include hr hn h1 hmax

/-- With too few bits live, a byte is fetched: the source has one, since the bits are still to come. -/
theorem Reading.fetches (hle : n ≤ q.length) (hlive : s.bsLive.toNat < n) :
    ∃ t, step s = .next t ∧ Reading e word rest t q ∧
      onlyReaderDiffers { s with part := [] } { t with part := [] } ∧ sessionBytes t = sessionBytes s ∧
        (t.source.getD []).length < (s.source.getD []).length := by
  have hstep := (step_element hr.unmarked hr.job hr.expects).trans (elementPass_fetches hn h1 hmax hlive)
  have hroom : s.bsLive.toNat ≤ 23 := by unfold readMax at hmax; omega
  have hsource : sourceBits s ≠ [] := fun h => by
    have hlength := congrArg List.length hr.ahead
    simp only [pendingBits, h, List.append_nil, liveBits_length, List.length_append] at hlength
    omega
  obtain ⟨b, after, hs⟩ : ∃ b after, s.source = some (b :: after) := by
    match h : s.source with
    | none | some [] => simp [sourceBits, h] at hsource
    | some (b :: after) => exact ⟨b, after, rfl⟩
  have hnext := hstep.trans (sourcePass_data hs)
  exact ⟨_, hnext,
    ⟨hr.unmarked, hr.job, hr.expects, hr.held, (pendingBits_absorbByte hs hroom).trans hr.ahead,
      liveBitsStayBounded _ _ hr.bound hnext⟩,
    rfl, sessionBytes_absorbByte hs, by simp [absorbByte, hs]⟩

/-- With enough bits live, the next of them are taken; the last of the element execute it. -/
theorem Reading.takes (hw : readsAs e i word) (hle : n ≤ q.length) (hlive : n ≤ s.bsLive.toNat) :
    (∃ u, step s = exec i u ∧ consumedTo rest s u) ∨
      ∃ t q', step s = .next t ∧ Reading e word rest t q' ∧ q' ≠ [] ∧ q'.length < q.length ∧
        onlyReaderDiffers { s with part := [] } { t with part := [] } ∧ sessionBytes t = sessionBytes s ∧
          t.source = s.source := by
  have hstep := (step_element hr.unmarked hr.job hr.expects).trans (elementPass_takes hn h1 hmax hlive)
  have hsplit := pendingBits_takeBits hlive
  rw [hr.ahead] at hsplit
  obtain ⟨q', rfl⟩ : (takeBits n s).1 <+: q :=
    List.prefix_of_prefix_length_le ⟨_, hsplit.symm⟩ (List.prefix_append q rest) (by rw [takeBits_length]; exact hle)
  rw [List.append_assoc] at hsplit
  have hahead := List.append_cancel_left hsplit
  obtain ⟨hinstr, hprefix⟩ := hw
  have hheld : word = s.part ++ (takeBits n s).1 ++ q' := by rw [List.append_assoc]; exact hr.held
  by_cases hq : q' = []
  · subst hq
    rw [List.append_nil] at hheld
    refine .inl ⟨{ (takeBits n s).2 with part := [] }, ?_, rfl, hahead.symm, rfl, ?_⟩
    · rw [hstep, acceptBits, ← hheld, hinstr]
    · have hlt := bsLive_lt_of_readerBound hr.bound hr.expects hn
      have hleft := takeBits_bsLive n s
      simp only [hleft]
      omega
  · obtain ⟨m, hm, _⟩ := hprefix _ _ hheld hq
    have hnext : step s = .next { (takeBits n s).2 with part := s.part ++ (takeBits n s).1 } := by
      rw [hstep, acceptBits, hm]
    exact .inr ⟨_, q', hnext,
      ⟨hr.unmarked, hr.job, expected_more hr.expects (takeBits_ne_nil h1 _ _) _, hheld, hahead.symm,
        liveBitsStayBounded _ _ hr.bound hnext⟩,
      hq, by rw [List.length_append, takeBits_length]; omega, rfl, rfl, rfl⟩

end Reading

theorem consumedTo.of_step {rest : List Bool} {s t u : State}
    (ht : onlyReaderDiffers { s with part := [] } { t with part := [] }) (hb : sessionBytes t = sessionBytes s)
    (h : consumedTo rest t u) : consumedTo rest s u := by
  obtain ⟨honly, hrest, hbytes, hlive⟩ := h
  exact ⟨onlyReaderDiffers_trans ht honly, hrest, hbytes.trans hb, hlive⟩

/-- The READ reaches the element's meaning: every step takes a byte from the source or bits from those to come. -/
theorem Reading.run {e : Expect} {i : Instr} {word rest q : List Bool} {s : State} (hw : readsAs e i word)
    (hr : Reading e word rest s q) (hq : q ≠ []) :
    ∃ k u, Host.Core.run core k s = exec i u ∧ consumedTo rest s u := by
  induction hsize : q.length + (s.source.getD []).length using Nat.strong_induction_on generalizing s q with
  | _ size ih =>
    have ⟨_, hprefix⟩ := hw
    obtain ⟨n, hn, h1, hmax, hle⟩ := hprefix _ _ hr.held hq
    by_cases hlive : s.bsLive.toNat < n
    · obtain ⟨t, hstep, ht, honly, hbytes, hless⟩ := hr.fetches hn h1 hmax hle hlive
      obtain ⟨k, u, hrun, hu⟩ := ih _ (by omega) ht hq rfl
      exact ⟨k + 1, u, (run_succ hstep k).trans hrun, hu.of_step honly hbytes⟩
    · rcases hr.takes hn h1 hmax hw hle (by omega) with
        ⟨u, hstep, hu⟩ | ⟨t, q', hstep, ht, hq', hless, honly, hbytes, hs⟩
      · exact ⟨1, u, (run_one s).trans hstep, hu⟩
      · obtain ⟨k, u, hrun, hu⟩ := ih _ (by rw [hs]; omega) ht hq' rfl
        exact ⟨k + 1, u, (run_succ hstep k).trans hrun, hu.of_step honly hbytes⟩

/-- Settles O16: the bits of the encoding are read as the element, and a READ that has them next reaches its meaning. -/
theorem elementNextInTheStreamIsExecuted : Obligations.ElementNextInTheStreamIsExecuted := by
  intro s e i word rest hm hj he _ hencode hpart hlive hahead hcan
  have hw := readsAs_of_encode (expected_ne_trPad he) hencode hcan
  have hne : word ≠ [] := by
    rintro rfl
    obtain ⟨hinstr, _⟩ := hw
    obtain ⟨n, hn⟩ := decode_nil (expected_ne_trPad he)
    exact absurd (hinstr.symm.trans hn) nofun
  have hr : Reading e word rest s word := ⟨hm, hj, he, by rw [hpart]; rfl, hahead, .inl hlive⟩
  obtain ⟨k, u, hrun, honly, hrest, hbytes, hlive⟩ := hr.run hw hne
  exact ⟨k, u, hrun, by rwa [← hpart] at honly, hrest, hbytes, hlive⟩

end Sys2Proof.Proofs
end

section
/-! The phase register (41_framer.md R98): what a pass of the READ loop makes of it, over its cases, and the edges that
OPEN, CLOSE and reset add between commands (46_host.md R176, R182, 70_reset_and_hazards.md R206). -/

namespace Sys2Proof.Proofs

open Sys2Proof.Machine Sys2Proof.Safety Sys2Proof.Laws

/-- How a READ may move the phase from `p` to `q`, with `strict` the parameter `STRICT_BLOCK_MAGIC`. -/
inductive PhaseStep (strict : Bool) (p q : Phase) : Prop where
  /-- the place inside the phase may change, its code does not -/
  | within (h : p.code = q.code)
  /-- an edge of the table of 41_framer.md R98 -/
  | edge (h : phaseEdges.contains (p.code.toNat, q.code.toNat) = true)
  /-- an unknown magic read leniently (41_framer.md R104) -/
  | lenient (hl : strict = false) (hp : p = .blockHeader) (hq : q = .endOfStream)
  /-- an error is raised where the READ decodes (60_exceptions.md R190) -/
  | fails (hp : decodes p = true) (hq : q = .failed)

/-- The codes of the phases that decode (10_state.md R15). -/
theorem code_of_decodes {p : Phase} (h : decodes p = true) : 1 ≤ p.code.toNat ∧ p.code.toNat ≤ 8 := by
  cases p <;> cases h <;> simp [Phase.code]

theorem PhaseStep.phaseMayGo {s t : State} (hj : s.job ≠ none)
    (h : PhaseStep s.cfg.strictBlockMagic s.phase t.phase) : phaseMayGo s t := by
  cases h with
  | within h => exact .inl h
  | edge h => exact .inr (.inl ⟨hj, .inl (List.contains_iff_mem.mp h)⟩)
  | lenient hl hp hq => exact .inr (.inl ⟨hj, .inr (.inl ⟨hl, by rw [hp]; rfl, by rw [hq]; rfl⟩)⟩)
  | fails hp hq =>
    obtain ⟨hlow, hhigh⟩ := code_of_decodes hp
    exact .inr (.inl ⟨hj, .inr (.inr ⟨hlow, hhigh, by rw [hq]; rfl⟩)⟩)

/-- An element executed in the phase that reads it goes on inside the phase, takes an edge where it is the last of its
phase, or fails. -/
theorem exec_phaseStep {i : Instr} {s t : State} (strict : Bool) (hi : isElement i = true) (hs : s.phase = phaseOf i)
    (h : exec i s = .next t) : PhaseStep strict s.phase t.phase := by
  rw [hs]
  cases exec_cases hi h with
  | shLevel _ _ ht | bhMagic ht | eosMagic ht | symEob _ _ ht | trCrc _ _ ht => subst ht; exact .edge rfl
  | shLevelBad _ ht | tbNgroupsBad _ ht | tbNselBad _ ht | tbSelectorBad _ ht | trCrcBad _ ht =>
    subst ht; exact .fails rfl rfl
  | symRunBad _ hrun ht => subst ht; rcases hrun with rfl | rfl <;> exact .fails rfl rfl
  | symRun _ _ hrun _ ht => subst ht; rcases hrun with ⟨rfl, _⟩ | ⟨rfl, _⟩ <;> exact .within rfl
  | symMtf _ ht =>
    obtain ⟨_, _, _, _, rfl | rfl⟩ := mtfSymbol_form ht
    · exact .within rfl
    · exact .fails rfl rfl
  | tbSelector _ _ _ ht => subst ht; exact .within (by dsimp only; split <;> rfl)
  | tbLenStop _ _ ht =>
    rcases advanceLength_cases _ with ⟨_, _, h'⟩ | ⟨_, _, h'⟩ | ⟨_, h'⟩ <;> rw [ht, h'] <;> exact .within rfl
  | trPad _ ht | tbLenInc ht | tbLenDec ht => subst ht; exact .within (congrArg Phase.code hs.symm)
  | _ => rename_i ht; subst ht; exact .within rfl

/-- An illegal element fails, but for an unknown magic read leniently. -/
theorem rejectElement_phaseStep {err : StreamError} {s : State} (hs : decodes s.phase = true)
    (hb : err = .blockMagic → s.phase = .blockHeader) :
    PhaseStep s.cfg.strictBlockMagic s.phase (rejectElement err s).phase := by
  rcases rejectElement_cases err s with h | ⟨he, hl, h⟩ <;> rw [h]
  · exact .fails hs rfl
  · exact .lenient hl (hb he) rfl

theorem elementCase_phaseStep {e : Expect} {s t : State} (he : expected s = some e) (h : ElementCase e s t) :
    PhaseStep s.cfg.strictBlockMagic s.phase t.phase := by
  have hs := expected_decodes he
  have exec_step {i bits rest live} (hd : decode e bits = .instr i rest)
      (h : exec i { s with bsLive := live, part := [] } = .next t) :
      PhaseStep s.cfg.strictBlockMagic s.phase t.phase :=
    exec_phaseStep (s := { s with bsLive := live, part := [] }) _ (expected_isElement he (decode_instr hd))
      ((expected_place he).trans (phaseOf_of_mayRead (decode_instr hd)).symm) h
  have reject_step {err bits} (live : BitVec 5) (hd : decode e bits = .illegal err) :
      PhaseStep s.cfg.strictBlockMagic s.phase (rejectElement err { s with bsLive := live, part := [] }).phase :=
    rejectElement_phaseStep (s := { s with bsLive := live, part := [] }) hs
      fun hb => show s.phase = .blockHeader from expected_of_blockMagic he (hb ▸ hd)
  cases h with
  | fetch _ _ _ _ _ _ _ _ ht | more _ _ _ _ _ _ _ ht => subst ht; exact .within rfl
  | eoi _ _ _ _ _ _ ht => subst ht; exact .fails hs rfl
  | run _ _ _ _ _ _ _ hd ht => exact exec_step hd ht
  | bad _ _ _ _ _ _ hd ht => subst ht; exact reject_step _ hd
  | heldRun _ _ hd ht => exact exec_step hd ht
  | heldBad _ hd ht => subst ht; exact reject_step _ hd

/-- The output stage stays until the block's last byte is out (45_output.md R167). -/
theorem outputPass_phaseStep {s t : State} (strict : Bool) (hs : s.phase = .blockOutput) (h : outputPass s = .ok t) :
    PhaseStep strict s.phase t.phase := by
  rcases outputPass_ok h with ⟨_, rfl⟩ | ⟨_, _, _, rfl⟩ | ⟨_, _, _, rfl⟩ | ⟨_, _, b, u, hw, rfl⟩
  · obtain ⟨_, _, _, ht⟩ := emit_eq s.rlePrev { s with repLeft := s.repLeft - 1#8 }
    rw [ht]; exact .within rfl
  · rw [hs]; exact .fails rfl rfl
  · rw [hs]; exact .edge rfl
  · obtain ⟨p, n, q, rfl⟩ := walkByte_form hw
    rcases expandByte_cases b _ with ⟨_, ht⟩ | ⟨_, _, _, ht⟩ <;> rw [ht]
    · exact .within rfl
    · obtain ⟨_, _, _, ht'⟩ := emit_eq b _
      rw [ht']; exact .within rfl

/-- Say once how a pass of the READ loop moves the phase. -/
theorem readCase_phaseStep {s t : State} (h : ReadCase s t) :
    PhaseStep s.cfg.strictBlockMagic s.phase t.phase := by
  cases h with
  | element e he h => exact elementCase_phaseStep he h
  | badLength hp _ ht => rw [hp, ht]; exact .fails rfl rfl
  | alphabet hp ht =>
    rw [hp, ht]
    rcases alphabetPass_cases s with ⟨_, h⟩ | ⟨_, h⟩ <;> rw [h]
    · exact .fails rfl rfl
    · exact .within rfl
  | selectorList hp ht =>
    rw [hp]
    obtain ⟨_, _, _, rfl, _⟩ := selectorListPass_ok ht
    exact .within rfl
  | build hp ht =>
    rw [hp]
    obtain ⟨_, _, ⟨_, rfl⟩ | ⟨_, rfl⟩⟩ := buildPass_ok ht
    · exact .fails rfl rfl
    · rcases advanceBuild_cases _ with ⟨_, h⟩ | ⟨_, h⟩ <;> rw [h] <;> exact .within rfl
  | symbolInit hp ht =>
    rw [hp]
    obtain ⟨_, rfl⟩ := symbolInitPass_ok ht
    exact .edge rfl
  | group hp ht =>
    rw [hp]
    rcases groupPass_ok ht with ⟨_, _, rfl⟩ | ⟨_, _, _, _, rfl⟩ | ⟨_, rfl⟩
    · exact .fails rfl rfl
    · exact .within rfl
    · exact .within rfl
  | setup hp ht =>
    rw [hp]
    rcases setupPass_ok ht with ⟨_, rfl⟩ | ⟨_, _, _, _, _, _, h⟩
    · exact .fails rfl rfl
    · obtain ⟨_, _, rfl⟩ := outputInit_ok h
      exact .edge rfl
  | output hp ht => exact outputPass_phaseStep _ hp ht
  | blockEnd hp ht =>
    rw [hp, ht]
    rcases blockEndPass_cases s with ⟨_, h⟩ | ⟨_, h⟩ <;> rw [h]
    · exact .edge rfl
    · exact .fails rfl rfl
  | endOfStream _ ht =>
    obtain ⟨_, h⟩ := answerEndOfStream_eq s
    rw [ht, h]; exact .within rfl
  | failed _ ht =>
    obtain ⟨_, h⟩ := answerError_eq s
    rw [ht, h]; exact .within rfl

/-- Settles O50: a pass of the READ loop moves the phase as `PhaseStep` says; between commands OPEN takes `CLOSED` to
`STREAM_HEADER`, CLOSE and reset lead to `CLOSED`, and the rest keep the phase. -/
theorem phaseTakesOnlyItsTransitions : Obligations.PhaseTakesOnlyItsTransitions := by
  intro s t h
  cases step_cases h with
  | read _ hj h => exact (readCase_phaseStep h).phaseMayGo hj
  | opens _ _ _ hj _ hp ht => subst ht; exact .inr (.inr ⟨hj, .inl ⟨congrArg Phase.code hp, rfl⟩⟩)
  | closes _ _ _ hj _ ht | resets _ _ hj _ ht => subst ht; exact .inr (.inr ⟨hj, .inr rfl⟩)
  | _ => rename_i ht; subst ht; exact .inl rfl

end Sys2Proof.Proofs
end

section
/-! The framer's elements (41_framer.md): what each header, block-header and trailer field stores, and how an unknown
magic is answered. -/

namespace Sys2Proof.Proofs

open Sys2Proof.Machine Sys2Proof.Safety Sys2Proof.Laws

theorem levelLegal_iff (d : BitVec 8) : levelLegal d = true ↔ 0x31 ≤ d.toNat ∧ d.toNat ≤ 0x39 := by
  rw [levelLegal, Bool.and_eq_true, decide_eq_true_iff, decide_eq_true_iff]

/-- The level digit's value fits its register (30_encoding.md R68). -/
theorem levelValue_toNat {d : BitVec 8} (h : levelLegal d = true) : (levelValue d).toNat = d.toNat - 0x30 := by
  obtain ⟨hlow, hhigh⟩ := (levelLegal_iff d).mp h
  rw [levelValue, BitVec.toNat_ofNat]
  omega

/-- Settles O21: a digit is legal exactly in 0x31..0x39, and then its value is the block size. -/
theorem headerSetsTheBlockSize : Obligations.HeaderSetsTheBlockSize := by
  refine fun s => ⟨rfl, fun d hlow hhigh => ?_, fun d hd => if_neg ?_⟩
  · have hd := (levelLegal_iff d).mpr ⟨hlow, hhigh⟩
    have hvalue := levelValue_toNat hd
    exact ⟨_, if_pos hd, rfl, hvalue, congrArg (100000 * ·) hvalue⟩
  · rw [levelLegal_iff]
    omega

theorem randRefused_of_trusted {r : BitVec 1} {s : State} (h : r = 0#1 ∨ s.cfg.rnumsTrusted = true) :
    randRefused r s = false := by
  rcases h with rfl | h
  · rfl
  · simp [randRefused, h]

theorem randRefused_of_untrusted {s : State} (h : s.cfg.rnumsTrusted = false) : randRefused 1#1 s = true := by
  simp [randRefused, h]

/-- Settles O22: each field writes its register; of the two values of `BH_RAND` only an untrusted 1 touches the refusal
mark, and a marked state has no step. -/
theorem blockHeaderFieldsAreStored : Obligations.BlockHeaderFieldsAreStored := by
  refine fun s => ⟨rfl, rfl, fun _ => rfl, fun r hr => ?_, fun hu => ⟨_, ?_, rfl, if_pos rfl⟩⟩
  · simp only [exec, execBhRand, randRefused_of_trusted hr, Bool.or_false]
  · simp only [exec, execBhRand, randRefused_of_untrusted hu, Bool.or_true]

/-- The cleared counts hold 0 in each of the 256 entries and nothing else (20_memory.md R54). -/
theorem memGet_clearedCounts (v : Nat) : memGet clearedCounts v = if v < 256 then some 0#20 else none := by
  rw [clearedCounts, memGet_memOfList, List.getElem?_replicate]
  rfl

/-- Settles O23: the per-block initialisation, with the cleared counts as `unzftab`. -/
theorem blockCrcFieldInitialisesTheBlock : Obligations.BlockCrcFieldInitialisesTheBlock :=
  fun _ _ => ⟨clearedCounts, memGet_clearedCounts, rfl⟩

theorem readPass_endOfStream {s : State} (hp : s.phase = .endOfStream) : readPass s = .next (answerEndOfStream s) := by
  simp only [readPass, hp]

/-- `END_OF_STREAM` answers a READ (46_host.md R178). -/
theorem step_endOfStream_read {s : State} (hm : s.refusalMark = false) (hj : s.job = some .read)
    (hp : s.phase = .endOfStream) :
    step s = .next { s with job := none, answers := s.answers ++ [.endOfStream] } := by
  rw [step_of_job hm (by simp [hj]), readPass_endOfStream hp]
  simp only [answerEndOfStream, hj]
  rfl

/-- Inside READ_BYTES the call then returns, with the bytes placed before if there are any (46_host.md R181). -/
theorem step_endOfStream_readBytes {s : State} {w k : Nat} (hm : s.refusalMark = false)
    (hj : s.job = some (.readBytes w k)) (hp : s.phase = .endOfStream) :
    step s = .next
      { s with
        job := none, answers := s.answers ++ [.endOfStream]
        rbReturns := s.rbReturns ++ [if k = 0 then .endOfStream else .count k] } := by
  rw [step_of_job hm (by simp [hj]), readPass_endOfStream hp]
  simp only [answerEndOfStream, hj]
  rfl

/-- Settles O24: the 48 bits are illegal, so the step rejects them by the parameter; in `END_OF_STREAM` the step after
answers. -/
theorem unrecognisedMagicEndsTheStream : Obligations.UnrecognisedMagicEndsTheStream := by
  refine ⟨rfl, fun s n m hm hj hp hn hlive hword hlt hblock hend => ?_⟩
  have he : expected s = some .blockMagic := by rw [expected, hp]
  obtain ⟨h1, hmax⟩ := decode_need hn nofun
  have hbad : decode .blockMagic (s.part ++ (takeBits n s).1) = .illegal .blockMagic := by
    rw [hword, ← List.append_nil (bitsOf 48 m)]
    exact decode_blockMagic_illegal hlt hblock hend []
  obtain ⟨hread, _⟩ := stepRunsTheDecodedInstruction s hm
  obtain ⟨htaken, _⟩ := hread hj _ n he hn h1 hmax
  obtain ⟨_, _, _, _, _, hmagic, _⟩ := htaken hlive
  obtain ⟨hstrict, hlenient⟩ := hmagic hbad
  exact ⟨hstrict, fun hl => ⟨_, hlenient hl, rfl, fun hj' => step_endOfStream_read hm hj' rfl,
    fun _ _ hj' => step_endOfStream_readBytes hm hj' rfl⟩⟩

/-- Settles O25: the stored CRC is written before it is compared, and the pad is no operation. -/
theorem trailerChecksTheCombinedCrc : Obligations.TrailerChecksTheCombinedCrc :=
  fun _ _ => ⟨fun hc => if_pos hc, fun hc => if_neg hc, fun _ => rfl⟩

end Sys2Proof.Proofs
end

section
/-! Reading with a canonical table (43_symbols.md R140): each turn of the loop finds the symbol whose code the bits so far
are, or none; so the bits are a code and what follows it, or they begin with no code. -/

namespace Sys2Proof.Proofs

open Sys2Proof.Machine Sys2Proof.Safety Sys2Proof.Laws

/-! The symbol that stands at a place of the canonical order. -/

theorem symbolsOfLength_eq (lens : List (BitVec 5)) (n : Nat) :
    symbolsOfLength lens n = (lens.zipIdx.filter fun e => e.1.toNat = n).map Prod.snd := by
  unfold symbolsOfLength
  rw [← List.filterMap_eq_map, List.filterMap_filter]
  simp

theorem symbolsOfLength_nodup (lens : List (BitVec 5)) (n : Nat) : (symbolsOfLength lens n).Nodup := by
  have hall : (lens.zipIdx.map Prod.snd).Nodup := by
    rw [List.zipIdx_map_snd]
    exact List.nodup_range'
  rw [symbolsOfLength_eq]
  exact (List.filter_sublist.map Prod.snd).nodup hall

theorem length_of_mem_symbolsOfLength {lens : List (BitVec 5)} {n s : Nat} (h : s ∈ symbolsOfLength lens n) :
    ∃ l, lens[s]? = some l ∧ l.toNat = n := by
  rw [symbolsOfLength_eq] at h
  obtain ⟨⟨l, i⟩, he, rfl⟩ := List.mem_map.mp h
  obtain ⟨hmem, hl⟩ := List.mem_filter.mp he
  exact ⟨l, List.mem_zipIdx_iff_getElem?.mp hmem, of_decide_eq_true hl⟩

/-- The symbols of a length stand in the order of their ranks. -/
theorem rankOf_of_symbolsOfLength {lens : List (BitVec 5)} {n r s : Nat} (h : (symbolsOfLength lens n)[r]? = some s) :
    ∃ l, lens[s]? = some l ∧ l.toNat = n ∧ rankOf lens l s = r := by
  obtain ⟨l, hl, rfl⟩ := length_of_mem_symbolsOfLength (List.mem_of_getElem? h)
  have hrank := symbolsOfLength_rankOf hl
  refine ⟨l, hl, rfl, ?_⟩
  exact (List.getElem?_inj (List.getElem?_eq_some_iff.mp hrank).1 (symbolsOfLength_nodup lens l.toNat)).mp
    (hrank.trans h.symm)

/-! The instruction of a symbol. -/

/-- Every symbol of the alphabet is an instruction, encoded by the symbol's code. -/
theorem exists_instr_of_symbol {t : HuffTable} {k s : Nat} (hk : k ≤ 256) (hs : s < k + 2) :
    ∃ i, encode (.symbol t k) i = encodeSymbol t s ∧ ∀ rest, symbolVerdict k s rest = .instr i rest := by
  unfold symbolVerdict
  by_cases h0 : s = 0
  · exact ⟨.symRuna, by rw [h0]; rfl, fun _ => if_pos h0⟩
  by_cases h1 : s = 1
  · exact ⟨.symRunb, by rw [h1]; rfl, fun _ => by rw [if_neg h0, if_pos h1]⟩
  by_cases hmtf : s ≤ k
  · have hn : (BitVec.ofNat 9 s).toNat = s := by rw [BitVec.toNat_ofNat]; omega
    have hin : 2 ≤ (BitVec.ofNat 9 s).toNat ∧ (BitVec.ofNat 9 s).toNat ≤ k := by omega
    exact ⟨.symMtf (BitVec.ofNat 9 s), (if_pos hin).trans (by rw [hn]),
      fun _ => by rw [if_neg h0, if_neg h1, if_pos hmtf]⟩
  · have heob : s = k + 1 := by omega
    exact ⟨.symEob, by rw [heob]; rfl, fun _ => by rw [if_neg h0, if_neg h1, if_neg hmtf, if_pos heob]⟩

theorem valueOf_concat (p : List Bool) (b : Bool) : valueOf (p ++ [b]) = 2 * valueOf p + b.toNat := by
  rw [valueOf_append, Nat.mul_comm]
  simp [valueOf]

section Canonical

variable {lens : List (BitVec 5)} {t : HuffTable} (ht : canonicalTable lens t) (hlen : lens.length ≤ 258)
include ht hlen

/-- One turn of the loop: the bits are a symbol's code, or no symbol is found and the loop ends at `maxLen`. -/
theorem probe_bits {p : List Bool} (h1 : 1 ≤ p.length) (h20 : p.length ≤ 20) :
    (∃ s l, probe t p.length (valueOf p) = .hit s ∧ lens[s]? = some l ∧ p = bitsOf l.toNat (codeOf lens l s)) ∨
      (p.length = t.maxLen.toNat ∧ probe t p.length (valueOf p) = .last) ∨
        (p.length ≠ t.maxLen.toNat ∧ probe t p.length (valueOf p) = .miss) := by
  have hn : p.length < 21 := by omega
  unfold probe
  simp only [Vector.getElem?_eq_getElem hn]
  split
  · rename_i hv
    rw [canonicalTable_count ht hlen h1 hn, canonicalTable_firstCode ht h1 hn] at hv
    obtain ⟨_, hlow, hhigh⟩ := hv
    obtain ⟨r, hr⟩ := Nat.exists_eq_add_of_le hlow
    have hr' : r < (symbolsOfLength lens p.length).length := by rw [symbolsOfLength_length]; omega
    have hget := List.getElem?_eq_getElem hr'
    obtain ⟨l, hs, hl, hrank⟩ := rankOf_of_symbolsOfLength hget
    obtain ⟨x, hx, hxs⟩ := canonicalTable_perm_get ht hlen (canonicalOrder_get h1 h20 hget)
    have hpos : (t.firstIdx[p.length]).toNat + valueOf p - (t.firstCode[p.length]).toNat =
        firstIndex lens p.length + r := by
      rw [canonicalTable_firstIdx ht hlen h1 hn, canonicalTable_firstCode ht h1 hn]
      omega
    have hcode : codeOf lens l (symbolsOfLength lens p.length)[r] = valueOf p := by
      unfold codeOf
      rw [hl, hrank, hr]
    simp only [hpos, hx, hxs]
    exact .inl ⟨_, l, rfl, hs, by rw [hcode, hl, bitsOf_valueOf]⟩
  · split
    · exact .inr (.inl ⟨‹_›, rfl⟩)
    · exact .inr (.inr ⟨‹_›, rfl⟩)

/-- The loop from `p` on: the bits are a symbol's code and what follows it, or no symbol is found in them up to
`maxLen` bits. -/
theorem decodeCode_bits (k : Nat) {p q : List Bool} (h1 : 1 ≤ p.length) (hmax : p.length ≤ t.maxLen.toNat)
    (h20 : t.maxLen.toNat ≤ 20) :
    (∃ s l rest, lens[s]? = some l ∧ p ++ q = bitsOf l.toNat (codeOf lens l s) ++ rest ∧
        decodeCode t k p.length (valueOf p) q = symbolVerdict k s rest) ∨
      ((p ++ q).length < t.maxLen.toNat ∧ decodeCode t k p.length (valueOf p) q = .need 1) ∨
        (t.maxLen.toNat ≤ (p ++ q).length ∧ decodeCode t k p.length (valueOf p) q = .illegal .badCode) := by
  induction q generalizing p with
  | nil =>
    unfold decodeCode
    rcases probe_bits ht hlen h1 (by omega) with ⟨s, l, hp, hs, hcode⟩ | ⟨heq, hp⟩ | ⟨hne, hp⟩ <;> rw [hp]
    · exact .inl ⟨s, l, [], hs, by rw [← hcode], rfl⟩
    · exact .inr (.inr ⟨by rw [List.append_nil]; omega, rfl⟩)
    · exact .inr (.inl ⟨by rw [List.append_nil]; omega, rfl⟩)
  | cons b q ih =>
    unfold decodeCode
    rcases probe_bits ht hlen h1 (by omega) with ⟨s, l, hp, hs, hcode⟩ | ⟨heq, hp⟩ | ⟨hne, hp⟩ <;> rw [hp]
    · exact .inl ⟨s, l, b :: q, hs, by rw [← hcode], rfl⟩
    · exact .inr (.inr ⟨by rw [List.length_append]; omega, rfl⟩)
    · have ih := ih (p := p ++ [b]) (by simp) (by rw [List.length_append, List.length_singleton]; omega)
      rwa [valueOf_concat, List.length_append, List.length_singleton, List.append_assoc, List.singleton_append] at ih

/-- What bits are under a canonical table: a code and what follows it, or bits that begin with no code. -/
theorem decode_symbol_bits (hne : lens ≠ []) (k : Nat) (bits : List Bool) :
    (bits.length < t.minLen.toNat ∧ decode (.symbol t k) bits = .need (t.minLen.toNat - bits.length)) ∨
      (∃ s l rest, lens[s]? = some l ∧ bits = bitsOf l.toNat (codeOf lens l s) ++ rest ∧
        decode (.symbol t k) bits = symbolVerdict k s rest) ∨
      (t.minLen.toNat ≤ bits.length ∧ bits.length < t.maxLen.toNat ∧ decode (.symbol t k) bits = .need 1) ∨
        (t.maxLen.toNat ≤ bits.length ∧ decode (.symbol t k) bits = .illegal .badCode) := by
  obtain ⟨hmin, hle, h20⟩ := canonicalTable_bounds ht hne
  by_cases hshort : bits.length < t.minLen.toNat
  · exact .inl ⟨hshort, if_pos (.inl hshort)⟩
  have hfirst : (bits.take t.minLen.toNat).length = t.minLen.toNat := List.length_take_of_le (by omega)
  have hdecode : decode (.symbol t k) bits =
      decodeCode t k t.minLen.toNat (valueOf (bits.take t.minLen.toNat)) (bits.drop t.minLen.toNat) :=
    if_neg (by omega)
  have hcases := decodeCode_bits ht hlen k (p := bits.take t.minLen.toNat) (q := bits.drop t.minLen.toNat)
    (by omega) (by omega) h20
  rw [List.take_append_drop, hfirst, ← hdecode] at hcases
  rcases hcases with hcode | ⟨hlt, hneed⟩ | hbad
  · exact .inr (.inl hcode)
  · exact .inr (.inr (.inl ⟨Nat.not_lt.mp hshort, hlt, hneed⟩))
  · exact .inr (.inr (.inr hbad))

end Canonical

/-- Settles O19: bits under a canonical table are a code and what follows it, which are then the symbol's, or begin with
no code. -/
theorem canonicalCodesDecode : Obligations.CanonicalCodesDecode := by
  intro t k i bits rest hk hk256 ht
  have hsize : (t.len.toList.take (k + 2)).length = k + 2 := by
    rw [List.length_take, Vector.length_toList]
    omega
  have hne : t.len.toList.take (k + 2) ≠ [] := List.ne_nil_of_length_pos (by omega)
  have hbounds := canonicalTable_bounds ht hne
  have hbits := decode_symbol_bits ht (by omega) hne k bits
  have hinstr {s l} (hs : (t.len.toList.take (k + 2))[s]? = some l) :
      ∃ i, encode (.symbol t k) i = some (bitsOf l.toNat (codeOf (t.len.toList.take (k + 2)) l s)) ∧
        ∀ rest, symbolVerdict k s rest = .instr i rest := by
    rw [← encodeSymbol_canonical ht hs]
    exact exists_instr_of_symbol hk256 (hsize ▸ (List.getElem?_eq_some_iff.mp hs).1)
  refine ⟨fun hencode => ?_, fun hdecode => ?_, fun hnone => ?_⟩
  · obtain ⟨s, l, hs, rfl, hverdict⟩ := encode_symbol ht hk hsize hencode
    rw [decode_symbol_codeOf ht (by omega) hs, hverdict]
  · rcases hbits with ⟨_, h⟩ | ⟨s, l, rest', hs, hword, h⟩ | ⟨_, _, h⟩ | ⟨_, h⟩ <;> rw [hdecode] at h
    · cases h
    · obtain ⟨j, hj, hverdict⟩ := hinstr hs
      rw [hverdict] at h
      cases h
      exact ⟨_, hj, hword⟩
    · cases h
    · cases h
  · rcases hbits with ⟨hlt, h⟩ | ⟨s, l, rest', hs, hword, _⟩ | ⟨hge, hlt, h⟩ | ⟨hge, h⟩
    · exact ⟨fun _ => h, fun _ => by omega, fun _ => by omega⟩
    · obtain ⟨j, hj, _⟩ := hinstr hs
      exact absurd ⟨_, hword.symm⟩ (hnone j _ hj)
    · exact ⟨fun _ => by omega, fun _ _ => h, fun _ => by omega⟩
    · exact ⟨fun _ => by omega, fun _ _ => by omega, fun _ => h⟩

/-- Settles O20: the bound that the code-space check puts on the codes of each length. -/
theorem codeSpaceBoundsTheCodes : Obligations.CodeSpaceBoundsTheCodes :=
  fun _ hspace _ h1 hn => firstCodeAfter_add_count_le hspace h1 hn

end Sys2Proof.Proofs
end

section
/-! The elements of the table parse (42_tables.md): what each of the bitmap, count, selector and length elements stores,
and where the parse goes on. -/

namespace Sys2Proof.Proofs

open Sys2Proof.Machine Sys2Proof.Safety Sys2Proof.Laws

/-! The in-use bitmap (R117, R118). -/

theorem advanceMap_none {i : Nat} {s : State} (h : ∀ k < 16, i ≤ k → s.inUse16.getLsbD (15 - k) = false) :
    advanceMap i s = { s with phase := .blockTables .alphabet } := by
  unfold advanceMap
  rw [nextRange_none h]

theorem advanceMap_some {i k : Nat} {s : State} (hk : k < 16) (hi : i ≤ k) (hu : s.inUse16.getLsbD (15 - k) = true)
    (h : ∀ j < k, i ≤ j → s.inUse16.getLsbD (15 - j) = false) :
    advanceMap i s = { s with mapRange := BitVec.ofNat 4 k, phase := .blockTables .mapL2 } := by
  unfold advanceMap
  rw [nextRange_some hk hi hu h]

theorem exec_mapL1 (u : BitVec 16) (s : State) : exec (.mapL1 u) s = .next (advanceMap 0 { s with inUse16 := u }) := rfl

theorem exec_mapL2 (v : BitVec 16) (s : State) :
    exec (.mapL2 v) s =
      .next (advanceMap (s.mapRange.toNat + 1) { s with inUse := markRange s.mapRange v s.inUse }) := rfl

/-- Advancing keeps all but the range and the phase. -/
theorem advanceMap_frame (i : Nat) (s : State) :
    advanceMap i s = { s with mapRange := (advanceMap i s).mapRange, phase := (advanceMap i s).phase } := by
  rcases advanceMap_cases i s with ⟨k, h⟩ | h <;> rw [h]

/-- Settles O26: a bitmap word is stored or marks its range, and the next marked range is looked for. -/
theorem bitmapMarksTheBytesInUse : Obligations.BitmapMarksTheBytesInUse := by
  refine fun s => ⟨fun u => ⟨fun hnone => ?_, fun i hi hu hfirst => ?_⟩, fun v => ?_⟩
  · rw [exec_mapL1, advanceMap_none fun k hk _ => hnone k hk]
  · rw [exec_mapL1, advanceMap_some hi (Nat.zero_le i) hu fun j hj _ => hfirst j hj]
  · have hframe := advanceMap_frame (s.mapRange.toNat + 1) { s with inUse := markRange s.mapRange v s.inUse }
    have hmarks := congrArg State.inUse hframe
    refine ⟨_, exec_mapL2 v s, ?_, fun k hk => ?_, fun hnone => ?_, fun i hi hlt hu hfirst => ?_⟩
    · rw [hmarks]
      exact hframe
    · simp only [hmarks, markRange_get]
    · have heq := advanceMap_none (i := s.mapRange.toNat + 1)
        (s := { s with inUse := markRange s.mapRange v s.inUse }) hnone
      rw [heq]
      exact ⟨rfl, rfl⟩
    · have heq := advanceMap_some (i := s.mapRange.toNat + 1)
        (s := { s with inUse := markRange s.mapRange v s.inUse }) hi hlt hu hfirst
      rw [heq]
      exact ⟨rfl, by rw [BitVec.toNat_ofNat]; omega⟩

/-! The counts (R124, R125). -/

/-- Settles O28: a group count is legal exactly in 2..6, and a selector count where it is not 0. -/
theorem groupAndSelectorCountsAreChecked : Obligations.GroupAndSelectorCountsAreChecked := by
  refine fun s => ⟨fun g hlow hhigh => if_pos (groupsLegal_iff.mpr ⟨hlow, hhigh⟩), fun g hg => if_neg ?_,
    fun k hk => if_neg ?_, rfl⟩
  · rw [groupsLegal_iff]
    omega
  · rintro rfl
    exact absurd hk (by decide)

/-! The selectors (R126). -/

theorem storeSelector_eq {s : State} (j : BitVec 3) (hidx : s.selIdx.toNat < maxSelectors) :
    storeSelector j s = .ok { s with
      selectorMtf := memSet s.selIdx.toNat j s.selectorMtf, selIdx := s.selIdx + 1#15
      phase :=
        if s.selIdx.toNat + 1 = s.nSelectors.toNat then .blockTables .selectorList else .blockTables .selector } := by
  unfold storeSelector
  rw [memWrite_ok.mpr ⟨hidx, rfl⟩]
  simp only
  split <;> rfl

/-- Settles O29: a selector below `nGroups` is written at its index, which is inside the memory. -/
theorem selectorIsStoredAtItsIndex : Obligations.SelectorIsStoredAtItsIndex := by
  refine fun s j => ⟨fun hj hidx => ⟨_, fun a => memGet_memSet s.selIdx.toNat a j s.selectorMtf, ?_⟩,
    fun hj => if_pos hj⟩
  have hdepth : s.nSelectors.toNat ≤ maxSelectors := Nat.le_of_lt_succ s.nSelectors.isLt
  have hstore := storeSelector_eq j (show s.selIdx.toNat < maxSelectors by omega)
  exact (if_neg (Nat.not_le.mpr hj)).trans (congrArg finish hstore)

/-! The code lengths (R128 to R130). -/

/-- Settles O31: a length of 1..20 goes up or down by one without leaving its 5 bits. -/
theorem lengthCodesMoveTheRunningLength : Obligations.LengthCodesMoveTheRunningLength := by
  refine fun s => ⟨fun _ => rfl, fun hlow hhigh => ⟨_, _, rfl, rfl, ?_, rfl, rfl, ?_⟩⟩
  · simp only [BitVec.toNat_add, BitVec.toNat_ofNat]
    omega
  · simp only [BitVec.toNat_sub, BitVec.toNat_ofNat]
    omega

/-- The state with the running length stored for the current symbol of the current table. -/
def lengthStored (s : State) (hk : s.tblIdx.toNat < 6) (hs : s.symIdx.toNat < 258) : State :=
  { s with
    tables := s.tables.set s.tblIdx.toNat
      { s.tables[s.tblIdx.toNat] with len := s.tables[s.tblIdx.toNat].len.set s.symIdx.toNat s.curr hs } hk }

section Stored

variable {s : State} (hk : s.tblIdx.toNat < 6) (hs : s.symIdx.toNat < 258)

theorem exec_tbLenStop : exec .tbLenStop s = .next (advanceLength (lengthStored s hk hs)) := by
  simp only [exec, execTbLenStop, storeLength_eq hk hs, lengthStored]

/-- Of each table only the lengths can differ, and of them only the one stored. -/
theorem lengthStored_tables (k : Nat) (h : k < 6) :
    (lengthStored s hk hs).tables[k] = { s.tables[k] with len := (lengthStored s hk hs).tables[k].len } ∧
      ∀ n, (h' : n < 258) → (lengthStored s hk hs).tables[k].len[n] =
        if k = s.tblIdx.toNat ∧ n = s.symIdx.toNat then s.curr else s.tables[k].len[n] := by
  by_cases hkt : k = s.tblIdx.toNat
  · subst hkt
    have hwritten : (lengthStored s hk hs).tables[s.tblIdx.toNat] =
        { s.tables[s.tblIdx.toNat] with len := s.tables[s.tblIdx.toNat].len.set s.symIdx.toNat s.curr hs } :=
      Vector.getElem_set_self hk
    refine ⟨by rw [hwritten], fun n h' => ?_⟩
    simp only [hwritten, true_and, Vector.getElem_set, eq_comm]
  · have hkept : (lengthStored s hk hs).tables[k] = s.tables[k] := Vector.getElem_set_ne hk h (Ne.symm hkt)
    exact ⟨by rw [hkept], fun n h' => by simp only [hkept, hkt, false_and, if_false]⟩

end Stored

/-- Settles O32: one entry of one table is written, and the parse goes on as `advanceLength` says. -/
theorem lengthStopStoresTheLength : Obligations.LengthStopStoresTheLength := by
  intro s hk hs
  have htables := lengthStored_tables hk hs
  refine ⟨_, exec_tbLenStop hk hs, ?_⟩
  rcases advanceLength_cases (lengthStored s hk hs) with
    ⟨hlast, htab, heq⟩ | ⟨hlast, htab, heq⟩ | ⟨hmore, heq⟩ <;> rw [heq]
  · exact ⟨rfl, htables, fun h => absurd hlast h, fun _ h => absurd htab h, fun _ _ => ⟨rfl, rfl, rfl⟩⟩
  · exact ⟨rfl, htables, fun h => absurd hlast h, fun _ _ => ⟨rfl, rfl, rfl⟩, fun _ h => absurd h htab⟩
  · exact ⟨rfl, htables, fun _ => ⟨rfl, rfl, rfl⟩, fun h => absurd h hmore, fun h => absurd h hmore⟩

end Sys2Proof.Proofs
end

section
/-! The selector list (42_tables.md R127): the loop over the selectors read is the MTF decode of their values, by the
correspondence of `selPos` with the list that the decode works on. -/

namespace Sys2Proof.Proofs

open Sys2Proof.Machine Sys2Proof.Safety Sys2Proof.Laws

/-- A step of the table parse (46_host.md R178). -/
theorem step_blockTables {s : State} {pos : TablesPos} (hm : s.refusalMark = false) (hj : s.job ≠ none)
    (hp : s.phase = .blockTables pos) : step s = tablesPass pos s := by
  rw [step_of_job hm hj, readPass, hp]

/-! The MTF decode. -/

theorem mtfDecode_cons {α : Type} {l : List α} {j : Nat} (hj : j < l.length) (js : List Nat) :
    mtfDecode l (j :: js) = (mtfDecode (l[j] :: l.eraseIdx j) js).map fun vs => l[j] :: vs := by
  rw [mtfDecode, List.getElem?_eq_getElem hj]

/-- Positions inside the list decode to as many values of the list. -/
theorem mtfDecode_total {α : Type} {l : List α} {js : List Nat} (h : ∀ j ∈ js, j < l.length) :
    ∃ vs, mtfDecode l js = some vs ∧ vs.length = js.length ∧ ∀ v ∈ vs, v ∈ l := by
  induction js generalizing l with
  | nil => exact ⟨[], rfl, rfl, nofun⟩
  | cons j js ih =>
    have hj : j < l.length := h j List.mem_cons_self
    have hsize : (l[j] :: l.eraseIdx j).length = l.length := List.length_eraseIdx_add_one hj
    obtain ⟨vs, hvs, hlen, hmem⟩ := ih (l := l[j] :: l.eraseIdx j) fun i hi => hsize ▸ h i (List.mem_cons_of_mem j hi)
    refine ⟨l[j] :: vs, by rw [mtfDecode_cons hj, hvs]; rfl, congrArg (· + 1) hlen, fun v hv => ?_⟩
    rcases List.mem_cons.mp hv with rfl | hv
    · exact List.getElem_mem hj
    · rcases List.mem_cons.mp (hmem v hv) with rfl | hv
      · exact List.getElem_mem hj
      · exact List.mem_of_mem_eraseIdx hv

/-! Values written one after another. -/

/-- `M[i] <- v_0; M[i+1] <- v_1; …`. -/
def memSetList {w : Nat} : Nat → List (BitVec w) → Mem w → Mem w
  | _, [], m => m
  | i, v :: vs, m => memSetList (i + 1) vs (memSet i v m)

theorem memGet_memSetList {w : Nat} (i : Nat) (vs : List (BitVec w)) (m : Mem w) (a : Nat) :
    memGet (memSetList i vs m) a = if i ≤ a ∧ a < i + vs.length then vs[a - i]? else memGet m a := by
  induction vs generalizing i m with
  | nil => exact (if_neg (by rw [List.length_nil]; omega)).symm
  | cons v vs ih =>
    rw [memSetList, ih, memGet_memSet, List.length_cons]
    by_cases ha : a = i
    · subst ha
      simp
    by_cases hin : i + 1 ≤ a ∧ a < i + 1 + vs.length
    · rw [if_pos hin, if_pos (by omega), show a - i = a - (i + 1) + 1 by omega, List.getElem?_cons_succ]
    · rw [if_neg hin, if_neg ha, if_neg (by omega)]

/-! The loop. -/

/-- The list `l` stands at the front of `selPos`. -/
def selPosHolds (f : Vector (BitVec 3) 6) (l : List Nat) : Prop :=
  ∀ k (h : k < l.length), f[k]? = some (BitVec.ofNat 3 l[k])

theorem selPosHolds_start (f : Vector (BitVec 3) 6) {g : Nat} (hg : g ≤ 6) :
    selPosHolds (fileOverlay ((List.range g).map (BitVec.ofNat 3)) f) (List.range g) := by
  intro k hk
  have hkg : k < g := by rwa [List.length_range] at hk
  have hk6 : k < 6 := by omega
  simp [Vector.getElem?_eq_getElem hk6, hkg]

theorem selPosHolds_moveToFront {f : Vector (BitVec 3) 6} {l : List Nat} (h : selPosHolds f l) (hl : l.length ≤ 6)
    {j : Nat} (hj : j < l.length) (hj6 : j < 6) :
    selPosHolds (fileMoveToFront f j hj6) (l[j] :: l.eraseIdx j) := by
  have hget (k : Nat) (hk : k < l.length) (hk6 : k < 6) : f[k] = BitVec.ofNat 3 l[k] :=
    Option.some.inj ((Vector.getElem?_eq_getElem hk6).symm.trans (h k hk))
  intro k hk
  rw [List.length_cons, List.length_eraseIdx_of_lt hj] at hk
  have hk6 : k < 6 := by omega
  rw [Vector.getElem?_eq_getElem hk6, fileMoveToFront_getElem]
  cases k with
  | zero => simp [hget j hj hj6]
  | succ k =>
    by_cases hkj : k < j
    · have hle : k + 1 ≤ j := hkj
      simp [hle, hkj, List.getElem_eraseIdx, hget k (by omega) (by omega)]
    · have hle : ¬k + 1 ≤ j := hkj
      simp [hle, hkj, List.getElem_eraseIdx, hget (k + 1) (by omega) hk6]

/-- The loop over the selectors `js`, read from index `i` on, writes their MTF decode at the same indices. -/
theorem selectorLoop_eq {l js vs : List Nat} (hdecode : mtfDecode l js = some vs) (hl : l.length ≤ 6) {i : Nat}
    {s : State} (hpos : selPosHolds s.selPos l)
    (hread : ∀ a (h : a < js.length), js[a] < l.length ∧ memGet s.selectorMtf (i + a) = some (BitVec.ofNat 3 js[a]))
    (hdepth : i + js.length ≤ maxSelectors) :
    ∃ f, selectorLoop (List.range' i js.length) s = .ok { s with
      selPos := f, selector := memSetList i (vs.map (BitVec.ofNat 3)) s.selector } := by
  induction js generalizing l vs i s with
  | nil =>
    cases hdecode
    exact ⟨s.selPos, rfl⟩
  | cons j js ih =>
    obtain ⟨hj, hjmem⟩ := hread 0 (Nat.succ_pos _)
    rw [List.getElem_cons_zero] at hj hjmem
    rw [List.length_cons] at hdepth
    rw [mtfDecode_cons hj] at hdecode
    obtain ⟨ws, hws, rfl⟩ := Option.map_eq_some_iff.mp hdecode
    have hj6 : j < 6 := by omega
    have hjv : (BitVec.ofNat 3 j).toNat = j := by rw [BitVec.toNat_ofNat]; omega
    have hfront : s.selPos[j] = BitVec.ofNat 3 l[j] :=
      Option.some.inj ((Vector.getElem?_eq_getElem hj6).symm.trans (hpos j hj))
    have hsize : (l[j] :: l.eraseIdx j).length = l.length := List.length_eraseIdx_add_one hj
    have hmtf : memRead .selectorMtf maxSelectors s.selectorMtf i = .ok (BitVec.ofNat 3 j) :=
      memRead_ok.mpr ⟨by omega, hjmem⟩
    have hmove : moveToFront .selPos s.selPos j = .ok (BitVec.ofNat 3 l[j], fileMoveToFront s.selPos j hj6) :=
      moveToFront_ok.mpr ⟨hj6, hfront.symm, rfl⟩
    have hwrite : memWrite .selector maxSelectors s.selector i (BitVec.ofNat 3 l[j]) = .ok _ :=
      memWrite_ok.mpr ⟨by omega, rfl⟩
    obtain ⟨f, hf⟩ := ih hws (by omega) (i := i + 1)
      (s := { s with
        selPos := fileMoveToFront s.selPos j hj6, selector := memSet i (BitVec.ofNat 3 l[j]) s.selector })
      (selPosHolds_moveToFront hpos hl hj hj6)
      (fun a ha => by
        have hnext := hread (a + 1) (Nat.succ_lt_succ ha)
        rw [List.getElem_cons_succ, ← Nat.add_assoc, Nat.add_right_comm] at hnext
        rwa [hsize])
      (by omega)
    refine ⟨f, ?_⟩
    rw [List.length_cons, List.range'_succ, selectorLoop, hmtf]
    simp only [hjv, hmove, hwrite, hf]
    rfl

theorem selectorListPass_eq {s : State} {js vs : List Nat} (hg : s.nGroups.toNat ≤ 6)
    (hsize : js.length = s.nSelectors.toNat)
    (hread : ∀ a (h : a < js.length),
      js[a] < s.nGroups.toNat ∧ memGet s.selectorMtf a = some (BitVec.ofNat 3 js[a]))
    (hdecode : mtfDecode (List.range s.nGroups.toNat) js = some vs) :
    ∃ f, selectorListPass s = .ok { s with
      selPos := f, selector := memSetList 0 (vs.map (BitVec.ofNat 3)) s.selector, tblIdx := 0#3
      phase := .blockTables .lenStart } := by
  have hdepth : s.nSelectors.toNat ≤ maxSelectors := Nat.le_of_lt_succ s.nSelectors.isLt
  obtain ⟨f, hf⟩ := selectorLoop_eq hdecode (by rwa [List.length_range]) (i := 0)
    (s := { s with selPos := fileOverlay ((List.range s.nGroups.toNat).map (BitVec.ofNat 3)) s.selPos })
    (selPosHolds_start _ hg) (fun a ha => by rw [List.length_range, Nat.zero_add]; exact hread a ha) (by omega)
  have hgroups : ¬maxGroups < s.nGroups.toNat := Nat.not_lt.mpr hg
  refine ⟨f, ?_⟩
  unfold selectorListPass
  rw [if_neg hgroups, List.range_eq_range' (n := s.nSelectors.toNat), ← hsize]
  simp only [hf]

/-- Settles O30: the selectors read decode, and the loop writes what they decode to. -/
theorem selectorsAreMtfDecoded : Obligations.SelectorsAreMtfDecoded := by
  intro s js hm hj hp hg hsize hread
  have hbelow : ∀ j ∈ js, j < (List.range s.nGroups.toNat).length := fun j hj => by
    obtain ⟨a, ha, rfl⟩ := List.getElem_of_mem hj
    rw [List.length_range]
    exact (hread a ha).1
  obtain ⟨vs, hdecode, hlen, hmem⟩ := mtfDecode_total hbelow
  obtain ⟨f, hf⟩ := selectorListPass_eq hg hsize hread hdecode
  refine ⟨_, vs, (step_blockTables hm hj hp).trans (congrArg finish hf), hdecode, hlen,
    fun v hv => List.mem_range.mp (hmem v hv), fun a => ?_, rfl⟩
  simp only [memGet_memSetList, Nat.zero_le, true_and, Nat.zero_add, Nat.sub_zero, List.length_map]
  by_cases ha : a < vs.length
  · rw [if_pos ha, dif_pos ha, List.getElem?_map, List.getElem?_eq_getElem ha]
    rfl
  · rw [if_neg ha, dif_neg ha]

end Sys2Proof.Proofs
end

section
/-! The passes of the table parse that read no bit (42_tables.md): the in-use list, the decode tables, the start of the
symbol decoder; and the range check before a length code. -/

namespace Sys2Proof.Proofs

open Sys2Proof.Machine Sys2Proof.Safety Sys2Proof.Laws

/-! The in-use list (R119, R120, R123). -/

/-- Settles O27: the pass stores the list of the marked bytes, and goes on unless it is empty. -/
theorem inUseListIsAscending : Obligations.InUseListIsAscending := by
  intro s hm hj hp
  obtain ⟨hascending, hmarked, hsize⟩ := inUseBytes_spec s.inUse
  have hcount : (BitVec.ofNat 9 (inUseBytes s.inUse).length).toNat = (inUseBytes s.inUse).length := by
    rw [BitVec.toNat_ofNat]
    omega
  refine ⟨_, inUseBytes s.inUse, step_blockTables hm hj hp, hascending, hmarked, ?_⟩
  rcases alphabetPass_cases s with ⟨hempty, heq⟩ | ⟨hne, heq⟩ <;> rw [heq]
  · have hnil := List.eq_nil_of_length_eq_zero hempty
    exact ⟨hempty.symm, fun k hk => fileOverlay_getElem _ _ k hk, fun _ => rfl, fun h => absurd hnil h⟩
  · refine ⟨hcount, fun k hk => fileOverlay_getElem _ _ k hk, fun h => absurd (congrArg List.length h) hne,
      fun _ => ⟨rfl, ?_⟩⟩
    simp only [BitVec.toNat_add, hcount, BitVec.toNat_ofNat]
    omega

/-! The decode tables (R131, R132). -/

theorem firstIndex_succ (lens : List (BitVec 5)) {n : Nat} (h : 1 ≤ n) :
    firstIndex lens (n + 1) = firstIndex lens n + lengthCount lens n := by
  obtain ⟨m, rfl⟩ : ∃ m, n = m + 1 := ⟨n - 1, by omega⟩
  simp only [firstIndex, Nat.add_sub_cancel, List.range'_1_concat, List.map_append, List.sum_append, List.map_cons,
    List.map_nil, List.sum_cons, List.sum_nil, Nat.add_comm 1 m, Nat.add_zero]

theorem lengthCount_take_eq_rankOf (lens : List (BitVec 5)) (l : BitVec 5) (s : Nat) :
    lengthCount (lens.take s) l.toNat = rankOf lens l s := by
  simp only [lengthCount, rankOf, BitVec.toNat_inj]

/-- The table built from legal lengths within the code space is their canonical table. -/
theorem canonicalTable_built {lens : List (BitVec 5)} {t : HuffTable} (hlens : t.len.toList.take lens.length = lens)
    (hlegal : ∀ l ∈ lens, lengthLegal l = true) (hspace : codeSpace lens ≤ 2 ^ 20) :
    canonicalTable lens (withCodes lens (withCounts lens t)) :=
  ⟨hlens, hlegal, hspace, withCodes_withCounts_idem lens t⟩

theorem tableLens_length {s : State} (h : s.alphaSize.toNat ≤ 258) (t : HuffTable) :
    (tableLens s t).length = s.alphaSize.toNat := by
  rw [tableLens, List.length_take, Vector.length_toList]
  omega

section Canonical

variable {lens : List (BitVec 5)} {t : HuffTable} (ht : canonicalTable lens t)
include ht

/-- `code` starts at 0 (R131). -/
theorem canonicalTable_firstCode_one : t.firstCode[1] = 0#21 :=
  BitVec.eq_of_toNat_eq (canonicalTable_firstCode ht (Nat.le_refl 1) (by decide))

/-- `code` at the start of the next length (R131). -/
theorem canonicalTable_firstCode_succ (hlen : lens.length ≤ 258) {n : Nat} (h1 : 1 ≤ n) (hn : n < 20) :
    (t.firstCode[n + 1]).toNat = 2 * ((t.firstCode[n]).toNat + (t.count[n]).toNat) := by
  obtain ⟨m, rfl⟩ : ∃ m, n = m + 1 := ⟨n - 1, by omega⟩
  rw [canonicalTable_firstCode ht (by omega) (by omega), canonicalTable_firstCode ht h1 (by omega),
    canonicalTable_count ht hlen h1 (by omega), Nat.add_sub_cancel, Nat.add_sub_cancel, firstCodeAfter_succ]

variable (hlen : lens.length ≤ 258)
include hlen

/-- `k` starts at 0 (R131). -/
theorem canonicalTable_firstIdx_one : t.firstIdx[1] = 0#9 :=
  BitVec.eq_of_toNat_eq (canonicalTable_firstIdx ht hlen (Nat.le_refl 1) (by decide))

/-- `k` at the start of the next length (R131). -/
theorem canonicalTable_firstIdx_succ {n : Nat} (h1 : 1 ≤ n) (hn : n < 20) :
    (t.firstIdx[n + 1]).toNat = (t.firstIdx[n]).toNat + (t.count[n]).toNat := by
  rw [canonicalTable_firstIdx ht hlen (by omega) (by omega), canonicalTable_firstIdx ht hlen h1 (by omega),
    canonicalTable_count ht hlen h1 (by omega), firstIndex_succ lens h1]

/-- A symbol stands in `perm` behind those with shorter lengths and those of its length with lower numbers (R131). -/
theorem canonicalTable_perm_symbol {y n : Nat} (hn : n ≤ 20) (hy : lens[y]? = some (BitVec.ofNat 5 n)) :
    t.perm[(t.firstIdx[n]).toNat + lengthCount (lens.take y) n]? = some (BitVec.ofNat 9 y) := by
  have hn5 : (BitVec.ofNat 5 n).toNat = n := by rw [BitVec.toNat_ofNat]; omega
  obtain ⟨h1, _⟩ := canonicalTable_length_bounds ht hy
  rw [hn5] at h1
  have hrank := symbolsOfLength_rankOf hy
  rw [← lengthCount_take_eq_rankOf, hn5] at hrank
  obtain ⟨x, hx, hxy⟩ := canonicalTable_perm_get ht hlen (canonicalOrder_get h1 hn hrank)
  rw [canonicalTable_firstIdx ht hlen h1 (by omega), hx, ← hxy, BitVec.ofNat_toNat, BitVec.setWidth_eq]

end Canonical

/-! What follows a built table (R116). -/

@[simp] theorem advanceBuild_tables (s : State) : (advanceBuild s).tables = s.tables := by
  rcases advanceBuild_cases s with ⟨_, h⟩ | ⟨_, h⟩ <;> rw [h]

theorem advanceBuild_frame (s : State) :
    advanceBuild s = { s with tblIdx := (advanceBuild s).tblIdx, phase := (advanceBuild s).phase } := by
  rcases advanceBuild_cases s with ⟨_, h⟩ | ⟨_, h⟩ <;> rw [h]

theorem advanceBuild_last (s : State) (h : s.tblIdx.toNat + 1 = s.nGroups.toNat) :
    (advanceBuild s).tblIdx = s.tblIdx ∧ (advanceBuild s).phase = .blockTables .symbolInit := by
  rw [advanceBuild, if_pos h]
  exact ⟨rfl, rfl⟩

theorem advanceBuild_more (s : State) (h : s.tblIdx.toNat + 1 ≠ s.nGroups.toNat) :
    (advanceBuild s).tblIdx = s.tblIdx + 1#3 ∧ (advanceBuild s).phase = .blockTables .build := by
  rw [advanceBuild, if_neg h]
  exact ⟨rfl, rfl⟩

/-! The current table. -/

/-- The state with the table `t` written in the place of the current one. -/
def withTable (s : State) (hk : s.tblIdx.toNat < 6) (t : HuffTable) : State :=
  { s with tables := s.tables.set s.tblIdx.toNat t hk }

section Build

variable {s : State} (ha : s.alphaSize.toNat ≤ 258) (hk : s.tblIdx.toNat < 6)

@[simp] theorem withTable_self (t : HuffTable) : (withTable s hk t).tables[s.tblIdx.toNat] = t :=
  Vector.getElem_set_self hk

theorem withTable_other (t : HuffTable) (k : Nat) (h : k < 6) (hne : k ≠ s.tblIdx.toNat) :
    (withTable s hk t).tables[k] = s.tables[k] :=
  Vector.getElem_set_ne hk h (Ne.symm hne)

include ha

theorem buildPass_within (hspace : codeSpace (tableLens s (s.tables[s.tblIdx.toNat]'hk)) ≤ 2 ^ 20) :
    buildPass s = .ok (advanceBuild (withTable s hk
      (withCodes (tableLens s (s.tables[s.tblIdx.toNat]'hk))
        (withCounts (tableLens s (s.tables[s.tblIdx.toNat]'hk)) (s.tables[s.tblIdx.toNat]'hk))))) := by
  obtain ⟨t, ht⟩ := buildPass_total ha hk
  rw [ht]
  obtain ⟨_, _, ⟨hover, _⟩ | ⟨_, ht⟩⟩ := buildPass_ok ht
  · exact absurd hspace (Nat.not_le_of_gt hover)
  · exact congrArg _ ht

theorem buildPass_over (hspace : 2 ^ 20 < codeSpace (tableLens s (s.tables[s.tblIdx.toNat]'hk))) :
    buildPass s = .ok (raise .oversubscribed (withTable s hk
      (withCounts (tableLens s (s.tables[s.tblIdx.toNat]'hk)) (s.tables[s.tblIdx.toNat]'hk)))) := by
  obtain ⟨t, ht⟩ := buildPass_total ha hk
  rw [ht]
  obtain ⟨_, _, ⟨_, ht⟩ | ⟨hwithin, _⟩⟩ := buildPass_ok ht
  · exact congrArg _ ht
  · exact absurd hspace (Nat.not_lt_of_ge hwithin)

end Build

/-- Settles O34: the range check raises its error before a bit is taken; an over-subscribed set leaves the table with its
counts and no codes. -/
theorem illegalLengthsAreRefused : Obligations.IllegalLengthsAreRefused := by
  refine fun s hm hj => ⟨fun hp hpart hcurr => ?_, fun hp ha hk hspace => ?_⟩
  · have hrefused : lengthRefused s = true := by
      have hillegal : ¬lengthLegal s.curr = true := by
        rw [lengthLegal_iff]
        omega
      simp [lengthRefused, hpart, hillegal]
    rw [step_blockTables hm hj hp, tablesPass, lencodePass, if_pos hrefused, raise, hpart]
    rfl
  · have hne : tableLens s (s.tables[s.tblIdx.toNat]'hk) ≠ [] := by
      intro hnil
      rw [hnil] at hspace
      exact absurd hspace (by decide)
    have hsize := tableLens_length ha (s.tables[s.tblIdx.toNat]'hk)
    obtain ⟨hbounds, hmin, hmax⟩ := withCounts_bounds (s.tables[s.tblIdx.toNat]'hk) hne
    refine ⟨_, (step_blockTables hm hj hp).trans (congrArg finish (buildPass_over ha hk hspace)), rfl,
      withTable_other hk _, ?_⟩
    simp only [raise_tables, withTable_self]
    exact ⟨rfl, hbounds, hmin, hmax, fun n h1 h20 => withCounts_count _ (by omega) h1 (by omega)⟩

/-- Settles O33: the table written is the canonical one of its lengths. -/
theorem decodeTableIsCanonical : Obligations.DecodeTableIsCanonical := by
  intro s hm hj hp h1 ha hk hlegal hspace
  have hstep := (step_blockTables hm hj hp).trans (congrArg finish (buildPass_within ha hk hspace))
  have hsize := tableLens_length ha (s.tables[s.tblIdx.toNat]'hk)
  have hlen : (tableLens s (s.tables[s.tblIdx.toNat]'hk)).length ≤ 258 := by omega
  have hne : tableLens s (s.tables[s.tblIdx.toNat]'hk) ≠ [] := List.ne_nil_of_length_pos (by omega)
  have ht := canonicalTable_built (t := s.tables[s.tblIdx.toNat]'hk) (by rw [hsize]; rfl) hlegal hspace
  obtain ⟨hbounds, hmin, hmax⟩ := withCounts_bounds (s.tables[s.tblIdx.toNat]'hk) hne
  refine ⟨_, hstep, ?_⟩
  simp only [advanceBuild_tables, withTable_self]
  exact ⟨advanceBuild_frame (withTable s hk _), withTable_other hk _, rfl, hbounds, hmin, hmax,
    canonicalTable_firstIdx_one ht hlen, canonicalTable_firstCode_one ht,
    fun n h1 hn => canonicalTable_count ht hlen h1 (by omega),
    fun n h1 hn => ⟨canonicalTable_firstIdx_succ ht hlen h1 hn, canonicalTable_firstCode_succ ht hlen h1 hn⟩,
    fun y n hn hy => canonicalTable_perm_symbol ht hlen hn hy,
    advanceBuild_last (withTable s hk _), advanceBuild_more (withTable s hk _)⟩

/-! The start of the symbol decoder (R134, 43_symbols.md R138). -/

theorem symbolInitPass_eq {s : State} (h : s.nInUse.toNat ≤ 256) :
    symbolInitPass s = .ok { s with
      mtfSym := fileOverlay (s.seqToUnseq.toList.take s.nInUse.toNat) s.mtfSym
      unzftab := clearedCounts
      nblock := 0#20, runS := 0#20, runN := 1#20, groupNo := 0#15, groupPos := 0#6
      phase := .blockSymbols .group } :=
  if_neg (Nat.not_lt.mpr h)

/-- Settles O35: the list is overlaid with the in-use bytes, and the counts are the cleared ones. -/
theorem symbolDecoderStarts : Obligations.SymbolDecoderStarts := by
  intro s hm hj hp hn
  refine ⟨_, (step_blockTables hm hj hp).trans (congrArg finish (symbolInitPass_eq hn)), rfl, fun k hk => ?_,
    memGet_clearedCounts⟩
  simp only [fileOverlay_getElem, List.length_take, Vector.length_toList, Nat.min_eq_left hn, List.getElem_take,
    Vector.getElem_toList]
  split <;> rfl

end Sys2Proof.Proofs
end

section
/-! The symbols before they write to the block (43_symbols.md): the selection of a group's table, the run digits, and
the run length that a string of them writes. -/

namespace Sys2Proof.Proofs

open Sys2Proof.Machine Sys2Proof.Safety Sys2Proof.Laws

/-! Group selection (R139). -/

theorem groupPass_inside {s : State} (hpos : s.groupPos ≠ 0#6) :
    groupPass s = .ok { s with groupPos := s.groupPos - 1#6, phase := .blockSymbols .code } :=
  if_neg hpos

theorem groupPass_overrun {s : State} (hpos : s.groupPos = 0#6) (hno : s.nSelectors.toNat ≤ s.groupNo.toNat) :
    groupPass s = .ok (raise .selectorOverrun s) := by
  rw [groupPass, if_pos hpos, if_pos hno]

theorem groupPass_next {s : State} {k : BitVec 3} (hpos : s.groupPos = 0#6)
    (hno : s.groupNo.toNat < s.nSelectors.toNat) (hk : memGet s.selector s.groupNo.toNat = some k) :
    groupPass s = .ok
      { s with curTable := k, groupNo := s.groupNo + 1#15, groupPos := 49#6, phase := .blockSymbols .code } := by
  have hdepth : s.nSelectors.toNat ≤ maxSelectors := Nat.le_of_lt_succ s.nSelectors.isLt
  rw [groupPass, if_pos hpos, if_neg (Nat.not_le_of_gt hno), memRead_ok.mpr ⟨by omega, hk⟩]
  rfl

/-- Settles O36: the step is the group selection, in its three cases. -/
theorem groupSelectsItsTable : Obligations.GroupSelectsItsTable := by
  intro s hm hj hp
  have hstep : step s = finish (groupPass s) := by rw [step_of_job hm hj, readPass, hp]
  rw [hstep]
  exact ⟨fun hpos => congrArg finish (groupPass_inside hpos),
    fun hpos hno k hk => congrArg finish (groupPass_next hpos hno hk),
    fun hpos hno => congrArg finish (groupPass_overrun hpos hno)⟩

/-! The run digits (R142, R143). -/

theorem exec_digit (d : Bool) (s : State) :
    exec (if d then .symRunb else .symRuna) s = .next (runDigit (if d then 2 else 1) s) := by
  cases d <;> rfl

theorem runDigit_over {d : Nat} {s : State}
    (h : blockLimit s < s.nblock.toNat + (s.runS.toNat + s.runN.toNat * d)) : runDigit d s = raise .blockOverflow s :=
  if_pos h

/-- A run that fits the block fits its register, so a digit adds its weight without wrapping. -/
theorem runDigit_within {d : Nat} {s : State} (hsize : s.blockSize100k.toNat ≤ 9)
    (h : s.nblock.toNat + (s.runS.toNat + s.runN.toNat * d) ≤ blockLimit s) :
    ∃ r, runDigit d s = { s with runS := r, runN := s.runN <<< 1, phase := .blockSymbols .group } ∧
      r.toNat = s.runS.toNat + s.runN.toNat * d := by
  refine ⟨_, if_neg (Nat.not_lt_of_ge h), ?_⟩
  have hlimit := blockLimit_le hsize
  have hdepth : maxBlock < 2 ^ 20 := by decide
  rw [BitVec.toNat_ofNat]
  omega

/-- Settles O37: a digit goes on within the limit and overflows past it. -/
theorem runDigitAddsItsWeight : Obligations.RunDigitAddsItsWeight := by
  intro s d hsize
  rw [exec_digit]
  refine ⟨fun hle => ?_, fun hgt => congrArg _ (runDigit_over hgt)⟩
  obtain ⟨r, heq, hr⟩ := runDigit_within hsize hle
  exact ⟨_, congrArg _ heq, rfl, hr⟩

/-! Strings of run digits (R142, R145). -/

theorem shiftLeft_one_toNat {w : Nat} {x : BitVec w} (h : 2 * x.toNat < 2 ^ w) : (x <<< 1).toNat = 2 * x.toNat := by
  rw [BitVec.toNat_shiftLeft, Nat.shiftLeft_eq, Nat.pow_one, Nat.mul_comm, Nat.mod_eq_of_lt h]

/-- A digit of a string, in a run whose weight is at most one more than its length: so it is from the start of a run on,
and it is why the weight fits its register as long as the run fits the block. -/
theorem exec_digit_of_run {s : State} {d : Bool} (hsize : s.blockSize100k.toNat ≤ 9)
    (hrun : s.runN.toNat ≤ s.runS.toNat + 1)
    (h : s.nblock.toNat + (s.runS.toNat + s.runN.toNat * (if d then 2 else 1)) ≤ blockLimit s) :
    ∃ r n, exec (if d then .symRunb else .symRuna) s =
        .next { s with runS := r, runN := n, phase := .blockSymbols .group } ∧
      r.toNat = s.runS.toNat + s.runN.toNat * (if d then 2 else 1) ∧ n.toNat = 2 * s.runN.toNat ∧
      n.toNat ≤ r.toNat + 1 := by
  obtain ⟨r, heq, hr⟩ := runDigit_within hsize h
  have hweight : s.runN.toNat ≤ s.runN.toNat * (if d then 2 else 1) :=
    Nat.le_mul_of_pos_right _ (by split <;> decide)
  have hlimit := blockLimit_le hsize
  have hdepth : maxBlock + 1 < 2 ^ 20 := by decide
  have hn := shiftLeft_one_toNat (x := s.runN) (by omega)
  exact ⟨r, _, (exec_digit d s).trans (congrArg _ heq), hr, hn, by omega⟩

/-- A string of digits adds its value times the weight it starts with, and doubles the weight once per digit. -/
theorem execDigits_eq {ds : List Bool} {s : State} (hsize : s.blockSize100k.toNat ≤ 9)
    (hrun : s.runN.toNat ≤ s.runS.toNat + 1)
    (h : s.nblock.toNat + (s.runS.toNat + s.runN.toNat * digitsValue ds) ≤ blockLimit s) :
    ∃ r n, execDigits ds s = .next
        { s with runS := r, runN := n, phase := if ds = [] then s.phase else .blockSymbols .group } ∧
      r.toNat = s.runS.toNat + s.runN.toNat * digitsValue ds ∧ n.toNat = s.runN.toNat * 2 ^ ds.length := by
  induction ds generalizing s with
  | nil => exact ⟨s.runS, s.runN, rfl, rfl, (Nat.mul_one _).symm⟩
  | cons d ds ih =>
    have hvalue : s.runS.toNat + s.runN.toNat * digitsValue (d :: ds) =
        s.runS.toNat + s.runN.toNat * (if d then 2 else 1) + 2 * s.runN.toNat * digitsValue ds := by
      rw [digitsValue]
      ring
    rw [hvalue] at h ⊢
    obtain ⟨r, n, hexec, hr, hn, hrun'⟩ := exec_digit_of_run (d := d) hsize hrun (by omega)
    rw [← hr, ← hn] at h ⊢
    obtain ⟨r', n', hdigits, hr', hn'⟩ := ih (s := { s with runS := r, runN := n, phase := .blockSymbols .group })
      hsize hrun' h
    refine ⟨r', n', ?_, hr', ?_⟩
    · simp only [execDigits, hexec, hdigits, ite_self, List.cons_ne_nil, if_false]
    · rw [hn', hn, List.length_cons]
      ring

/-- Settles O38: a run starts with length 0 and weight 1. -/
theorem digitStringsWriteTheRunLength : Obligations.DigitStringsWriteTheRunLength := by
  intro s ds hds hsize hr hn hfits
  have hstart : s.runN.toNat ≤ s.runS.toNat + 1 := by simp [hr, hn]
  have hvalue : s.runS.toNat + s.runN.toNat * digitsValue ds = digitsValue ds := by simp [hr, hn]
  obtain ⟨r, n, hdigits, hr', hn'⟩ := execDigits_eq (ds := ds) hsize hstart (by rwa [hvalue])
  rw [if_neg hds] at hdigits
  exact ⟨_, hdigits, rfl, hr'.trans hvalue, by simpa [hn] using hn'⟩

end Sys2Proof.Proofs
end

section
/-! The block that the symbols write (43_symbols.md): the flush of a run, the end of the symbols, the MTF symbol; and
the origin-pointer check of the block's setup. -/

namespace Sys2Proof.Proofs

open Sys2Proof.Machine Sys2Proof.Safety Sys2Proof.Laws

/-! What is appended, and where it is counted (R137, R144). -/

/-- `l`, `z` and `n` are `ll8`, `unzftab` and `nblock` after `k` copies of `b` are written from `s.nblock` on and
counted. -/
structure Appended (b : BitVec 8) (k : Nat) (s : State) (l : Mem 8) (z : Mem 20) (n : BitVec 20) : Prop where
  wf : Mem.wf maxBlock l
  nblock : n.toNat = s.nblock.toNat + k
  entries (a : Nat) : memGet l a =
    if s.nblock.toNat ≤ a ∧ a < s.nblock.toNat + k then some b else memGet s.ll8 a
  counts (a : Nat) : memGet z a =
    if a = b.toNat then (memGet s.unzftab a).map (· + BitVec.ofNat 20 k) else memGet s.unzftab a

/-- Nothing appended changes nothing. -/
theorem Appended.of_zero {b : BitVec 8} {k : Nat} {s : State} (hwf : Mem.wf maxBlock s.ll8) (hk : k = 0) :
    Appended b k s s.ll8 s.unzftab s.nblock where
  wf := hwf
  nblock := by rw [hk, Nat.add_zero]
  entries a := (if_neg (by omega)).symm
  counts a := by simp [hk]

/-- One byte appended is one entry written. -/
theorem Appended.entries_one {b : BitVec 8} {s : State} {l : Mem 8} {z : Mem 20} {n : BitVec 20}
    (h : Appended b 1 s l z n) (a : Nat) :
    memGet l a = if a = s.nblock.toNat then some b else memGet s.ll8 a :=
  (h.entries a).trans (if_congr (by omega) rfl rfl)

/-- What was counted stays counted. -/
theorem Appended.counted {b : BitVec 8} {k : Nat} {s : State} {l : Mem 8} {z : Mem 20} {n : BitVec 20}
    (h : Appended b k s l z n) {v : Nat} (hv : (memGet s.unzftab v).isSome = true) : (memGet z v).isSome = true := by
  rw [h.counts]
  split
  · rwa [Option.isSome_map]
  · exact hv

theorem appendLl8_appended {b : BitVec 8} {k : Nat} {s : State} (hwf : Mem.wf maxBlock s.ll8)
    (hk : s.nblock.toNat + k ≤ maxBlock) (hcount : (memGet s.unzftab b.toNat).isSome = true) :
    ∃ l z n, appendLl8 b k s = .ok { s with ll8 := l, unzftab := z, nblock := n } ∧ Appended b k s l z n := by
  obtain ⟨c, hc⟩ := Option.isSome_iff_exists.mp hcount
  refine ⟨_, _, _, appendLl8_eq hk hc, memFill_wf hwf hk, ?_, memGet_memFill _ _ _ _ hwf.1, fun a => ?_⟩
  · have hdepth : maxBlock < 2 ^ 20 := by decide
    rw [BitVec.toNat_add, BitVec.toNat_ofNat]
    omega
  · rw [memGet_memSet]
    by_cases ha : a = b.toNat
    · rw [if_pos ha, if_pos ha, ha, hc]
      rfl
    · rw [if_neg ha, if_neg ha]

/-- `FlushRun` appends `runS` copies of the front byte, also when there is no run (R144). -/
theorem flushRun_appended {s : State} (hwf : Mem.wf maxBlock s.ll8)
    (hk : s.nblock.toNat + s.runS.toNat ≤ maxBlock) (hcount : (memGet s.unzftab (s.mtfSym[0]).toNat).isSome = true) :
    ∃ l z n, flushRun s = .ok { s with ll8 := l, unzftab := z, nblock := n, runS := 0#20, runN := 1#20 } ∧
      Appended s.mtfSym[0] s.runS.toNat s l z n := by
  unfold flushRun
  by_cases hr : s.runS = 0#20
  · exact ⟨_, _, _, if_pos hr, .of_zero hwf (congrArg BitVec.toNat hr)⟩
  · have hfront : fileRead .mtfSym s.mtfSym 0 = .ok s.mtfSym[0] := rfl
    obtain ⟨l, z, n, happend, happended⟩ := appendLl8_appended hwf hk hcount
    exact ⟨l, z, n, by rw [if_neg hr, hfront]; simp only [happend], happended⟩

theorem endOfSymbols_eq {s u : State} (h : flushRun s = .ok u) :
    endOfSymbols s = .ok { u with phase := .blockSetup } := by
  rw [endOfSymbols, h]

/-- Settles O39: the flush appends the run, and `SYM_EOB` is the flush. -/
theorem runFlushWritesTheFrontByte : Obligations.RunFlushWritesTheFrontByte := by
  intro s hwf hk hcount
  obtain ⟨l, z, n, hflush, happended⟩ := flushRun_appended hwf hk (Option.isSome_iff_exists.mpr hcount)
  have hcounts := happended.counts
  rw [BitVec.ofNat_toNat, BitVec.setWidth_eq] at hcounts
  exact ⟨_, hflush, congrArg finish (endOfSymbols_eq hflush), rfl, happended.nblock, happended.entries, hcounts⟩

/-! The MTF symbol (R146). -/

theorem mtfSymbol_eq {n : Nat} {s u : State} (hflush : flushRun s = .ok u) (hn : n - 1 < 256) :
    mtfSymbol n s = putLl8 u.mtfSym[n - 1] { u with mtfSym := fileMoveToFront u.mtfSym (n - 1) hn } := by
  have hmove : moveToFront .mtfSym u.mtfSym (n - 1) = .ok (u.mtfSym[n - 1], fileMoveToFront u.mtfSym (n - 1) hn) :=
    moveToFront_ok.mpr ⟨hn, rfl, rfl⟩
  rw [mtfSymbol, hflush]
  simp only [hmove]

theorem putLl8_appended {b : BitVec 8} {s : State} (hwf : Mem.wf maxBlock s.ll8) (hsize : s.blockSize100k.toNat ≤ 9)
    (hroom : s.nblock.toNat < blockLimit s) (hcount : (memGet s.unzftab b.toNat).isSome = true) :
    ∃ l z n, putLl8 b s = .ok { s with ll8 := l, unzftab := z, nblock := n, phase := .blockSymbols .group } ∧
      Appended b 1 s l z n := by
  have hlimit := blockLimit_le hsize
  obtain ⟨l, z, n, happend, happended⟩ := appendLl8_appended (k := 1) hwf (by omega) hcount
  exact ⟨l, z, n, by rw [putLl8, if_pos hroom, happend], happended⟩

theorem putLl8_full {b : BitVec 8} {s : State} (h : blockLimit s ≤ s.nblock.toNat) :
    putLl8 b s = .ok (raise .blockOverflow s) :=
  if_neg (Nat.not_lt_of_ge h)

/-- Where the entries of the list are after a move to the front (R137). -/
theorem fileMoveToFront_entries {α : Type} {n : Nat} (f : Vector α n) {j : Nat} (h : j < n) :
    (fileMoveToFront f j h)[0] = f[j] ∧
      ∀ k, 0 < k → (hk : k < n) → (fileMoveToFront f j h)[k] = if k ≤ j then f[k - 1] else f[k] :=
  ⟨fileMoveToFront_getElem f j h 0 _, fun k h0 hk => by
    rw [fileMoveToFront_getElem, if_neg (Nat.ne_of_gt h0)]⟩

/-- Settles O40: the flush, the move, and then the byte appended or the overflow. -/
theorem mtfSymbolWritesItsByte : Obligations.MtfSymbolWritesItsByte := by
  intro s n h2 hn hwf hsize hcounts hfits
  have hlimit := blockLimit_le hsize
  have hpos : n.toNat - 1 < 256 := by omega
  obtain ⟨l, z, k, hflush, hflushed⟩ := flushRun_appended hwf (by omega) (hcounts _ (s.mtfSym[0]).isLt)
  have hsymbol := congrArg finish (mtfSymbol_eq hflush hpos)
  have hmoved := fileMoveToFront_entries s.mtfSym hpos
  have hk := hflushed.nblock
  rcases Nat.lt_or_eq_of_le hfits with hroom | hfull
  · obtain ⟨l', z', k', hput, hwritten⟩ := putLl8_appended (b := s.mtfSym[n.toNat - 1])
      (s := { s with
        ll8 := l, unzftab := z, nblock := k, runS := 0#20, runN := 1#20
        mtfSym := fileMoveToFront s.mtfSym (n.toNat - 1) hpos })
      hflushed.wf hsize (hk.trans_lt hroom) (hflushed.counted (hcounts _ (s.mtfSym[n.toNat - 1]).isLt))
    exact ⟨_, _, hflush, hsymbol.trans (congrArg finish hput), hmoved,
      fun _ => ⟨rfl, hwritten.nblock, hwritten.entries_one, hwritten.counts⟩,
      fun hfull => absurd hfull (Nat.ne_of_lt hroom)⟩
  · exact ⟨_, _, hflush, hsymbol.trans (congrArg finish (putLl8_full (hk.trans hfull).ge)), hmoved,
      fun hroom => absurd hfull (Nat.ne_of_lt hroom), fun _ => rfl⟩

/-! The origin pointer (R150). -/

theorem setupPass_badOrigPtr {s : State} (h : s.nblock.toNat ≤ s.origPtr.toNat) :
    setupPass s = .ok (raise .badOrigPtr s) :=
  if_pos h

/-- Settles O41: the check is the first thing of the setup, and an empty block has no origin below its end. -/
theorem badOriginPointerIsRefused : Obligations.BadOriginPointerIsRefused := by
  intro s hm hj hp
  have hstep : step s = finish (setupPass s) := by rw [step_of_job hm hj, readPass, hp]
  have hrefused (h : s.nblock.toNat ≤ s.origPtr.toNat) : step s = .next (raise .badOrigPtr s) :=
    hstep.trans (congrArg finish (setupPass_badOrigPtr h))
  refine ⟨hrefused, fun hempty => hrefused ?_⟩
  rw [hempty]
  exact Nat.zero_le _

end Sys2Proof.Proofs
end

section
/-! The setup sorts the positions of the block by byte and then by position (44_inverse_bwt.md R153 to R155): the loop
puts each position at its place in that order. -/

namespace Sys2Proof.Proofs

open Sys2Proof.Machine Sys2Proof.Safety Sys2Proof.Laws

/-! The place of a position in the sorted block. -/

/-- Where position `j`, whose byte is `v`, stands among the first `n` positions: after every smaller byte, and after
the `v` before `j`. -/
def sortedPlace (l : Mem 8) (n : Nat) (v : BitVec 8) (j : Nat) : Nat := lowerCount l n v.toNat + occurrences l v j

/-- Byte and then position order any two positions of the block. -/
theorem sortsBefore_total {l : Mem 8} {i j : Nat} {a b : BitVec 8} (ha : memGet l i = some a) (hb : memGet l j = some b)
    (hij : i ≠ j) : sortsBefore l i j ∨ sortsBefore l j i := by
  rcases Nat.lt_trichotomy a.toNat b.toNat with hlt | heq | hgt
  · exact .inl ⟨a, b, ha, hb, .inl hlt⟩
  · have heq := BitVec.eq_of_toNat_eq heq
    rcases Nat.lt_or_gt_of_ne hij with hlt | hgt
    · exact .inl ⟨a, b, ha, hb, .inr ⟨heq, hlt⟩⟩
    · exact .inr ⟨b, a, hb, ha, .inr ⟨heq.symm, hgt⟩⟩
  · exact .inr ⟨b, a, hb, ha, .inl hgt⟩

/-- Places ascend in the order of the positions. -/
theorem sortedPlace_strictMono {l : Mem 8} {n i j : Nat} {a b : BitVec 8} (hi : i < n) (ha : memGet l i = some a)
    (hb : memGet l j = some b) (h : sortsBefore l i j) : sortedPlace l n a i < sortedPlace l n b j := by
  have hnext : occurrences l a (i + 1) = occurrences l a i + 1 := by rw [occurrences_succ, if_pos ha]
  obtain ⟨a', b', ha', hb', horder⟩ := h
  cases ha.symm.trans ha'
  cases hb.symm.trans hb'
  unfold sortedPlace
  rcases horder with hlt | ⟨rfl, hij⟩
  · have hbytes : lowerCount l n (a.toNat + 1) ≤ lowerCount l n b.toNat :=
      Finset.sum_le_sum_of_subset (Finset.range_mono hlt)
    rw [lowerCount_succ, BitVec.ofNat_toNat, BitVec.setWidth_eq] at hbytes
    have hpast := occurrences_mono l a (show i + 1 ≤ n from hi)
    omega
  · have hpast := occurrences_mono l a (show i + 1 ≤ j from hij)
    omega

theorem sortsBefore_of_sortedPlace_lt {l : Mem 8} {n i j : Nat} {a b : BitVec 8} (hj : j < n)
    (ha : memGet l i = some a) (hb : memGet l j = some b) (h : sortedPlace l n a i < sortedPlace l n b j) :
    sortsBefore l i j := by
  rcases eq_or_ne i j with rfl | hij
  · cases ha.symm.trans hb
    exact absurd h (Nat.lt_irrefl _)
  · exact (sortsBefore_total ha hb hij).resolve_right fun hback =>
      Nat.lt_asymm h (sortedPlace_strictMono hj hb ha hback)

/-- Every `v` counted among the first `n` entries stands at a position. -/
theorem exists_position_of_occurrence {l : Mem 8} {v : BitVec 8} {n r : Nat} (h : r < occurrences l v n) :
    ∃ j < n, memGet l j = some v ∧ occurrences l v j = r := by
  induction n with
  | zero => exact absurd h (Nat.not_lt_zero r)
  | succ n ih =>
    by_cases hr : r < occurrences l v n
    · obtain ⟨j, hj, hv⟩ := ih hr
      exact ⟨j, by omega, hv⟩
    · rw [occurrences_succ] at h
      have hn : memGet l n = some v := by
        by_contra hne
        rw [if_neg hne] at h
        omega
      rw [if_pos hn] at h
      exact ⟨n, by omega, hn, by omega⟩

/-- Each place is that of a position. -/
theorem exists_position_of_sortedPlace {l : Mem 8} {n : Nat} (hl : ∀ i < n, (memGet l i).isSome = true) {q : Nat}
    (hq : q < n) : ∃ j < n, ∃ v, memGet l j = some v ∧ sortedPlace l n v j = q := by
  obtain ⟨v, hlow, hhigh⟩ := exists_byte_of_position hl hq
  have hcounted : q - lowerCount l n v.toNat < occurrences l v n := by omega
  obtain ⟨j, hj, hv, hrank⟩ := exists_position_of_occurrence hcounted
  exact ⟨j, hj, v, hv, by unfold sortedPlace; omega⟩

/-- Every count and position of a block fits a 20-bit entry. -/
theorem toNat_ofNat_of_le_maxBlock {x : Nat} (hx : x ≤ maxBlock) : (BitVec.ofNat 20 x).toNat = x :=
  Nat.mod_eq_of_lt (hx.trans_lt (by decide))

/-! The bytes up to a value. -/

theorem lowerCount_position_succ (l : Mem 8) (n : Nat) {v : Nat} (hv : v ≤ 256) :
    lowerCount l (n + 1) v = lowerCount l n v + if (memGet l n).any (fun b => decide (b.toNat < v)) then 1 else 0 := by
  induction v with
  | zero => simp
  | succ v ih =>
    rw [lowerCount_succ, lowerCount_succ, ih (by omega), occurrences_succ]
    cases hb : memGet l n with
    | none => simp
    | some b =>
      have heq : b = BitVec.ofNat 8 v ↔ b.toNat = v := by
        rw [← BitVec.toNat_inj, BitVec.toNat_ofNat, Nat.mod_eq_of_lt (by omega)]
      simp only [Option.any_some, decide_eq_true_eq, Option.some_inj, heq]
      split <;> split <;> split <;> omega

/-- The entries below `n` with a byte at most `v`. -/
theorem lowerCount_succ_eq_length (l : Mem 8) (n : Nat) {v : Nat} (hv : v < 256) :
    lowerCount l n (v + 1) =
      ((List.range n).filter (fun i => (memGet l i).any (fun b => decide (b.toNat ≤ v)))).length := by
  induction n with
  | zero => simp [lowerCount]
  | succ n ih =>
    rw [lowerCount_position_succ l n hv, ih, List.range_succ, List.filter_append, List.length_append]
    simp only [Nat.lt_succ_iff, List.filter_cons, List.filter_nil]
    split <;> rfl

/-! The last of the cumulative counts (R153). -/

theorem memReadAll_getElem? {w : Nat} {name : Store} {depth : Nat} {m : Mem w} {is : List Nat} {vs : List (BitVec w)}
    (h : memReadAll name depth m is = .ok vs) {k i : Nat} (hk : is[k]? = some i) : vs[k]? = memGet m i := by
  induction is generalizing vs k with
  | nil => cases hk
  | cons j is ih =>
    unfold memReadAll at h
    split at h
    · cases h
    · rename_i v hv
      split at h
      · cases h
      · rename_i vs' hvs
        cases h
        cases k with
        | zero => cases hk; exact (memRead_ok.mp hv).2.symm
        | succ k => exact ih hvs hk

theorem runningSums_getElem?_succ {a x d : BitVec 20} {cs : List (BitVec 20)} {k : Nat}
    (hx : (runningSums a cs)[k]? = some x) (hd : cs[k]? = some d) : (runningSums a cs)[k + 1]? = some (x + d) := by
  induction cs generalizing a k with
  | nil => cases hd
  | cons c cs ih =>
    cases k with
    | zero => cases hx; cases hd; cases cs <;> rfl
    | succ k => exact ih hx hd

/-- The recurrence of R153: `cftab[k + 1] = cftab[k] + unzftab[k]`. -/
theorem cumulativeCounts_succ {u c : Mem 20} (h : cumulativeCounts u = .ok c) {k : Nat} (hk : k < countDepth)
    {x d : BitVec 20} (hx : memGet c k = some x) (hd : memGet u k = some d) : memGet c (k + 1) = some (x + d) := by
  unfold cumulativeCounts at h
  split at h
  · cases h
  · rename_i counts hcounts
    cases h
    rw [memGet_memOfList] at hx ⊢
    exact runningSums_getElem?_succ hx ((memReadAll_getElem? hcounts (List.getElem?_range hk)).trans hd)

/-- `cftab` ends with the length of the block. -/
theorem cumulativeCounts_last {s : State} (hs : blockWritten s) {c : Mem 20} (hc : cumulativeCounts s.unzftab = .ok c) :
    memGet c 256 = some s.nblock := by
  obtain ⟨_, hc', hstarts⟩ := cumulativeCounts_eq hs
  cases hc.symm.trans hc'
  obtain ⟨hl, hcount⟩ := hs
  obtain ⟨d, hd, hdcount⟩ := hcount 255#8
  have hall : lowerCount s.ll8 s.nblock.toNat 255 + d.toNat = s.nblock.toNat := by
    rw [hdcount, ← lowerCount_succ, lowerCount_all hl]
  have hsum : BitVec.ofNat 20 (lowerCount s.ll8 s.nblock.toNat 255) + d = s.nblock := by
    calc
      _ = BitVec.ofNat 20 (lowerCount s.ll8 s.nblock.toNat 255 + d.toNat) := by
        rw [BitVec.ofNat_add, BitVec.ofNat_toNat, BitVec.setWidth_eq]
      _ = s.nblock := by rw [hall, BitVec.ofNat_toNat, BitVec.setWidth_eq]
  exact (cumulativeCounts_succ hc (k := 255) (by decide) (hstarts 255#8) hd).trans (congrArg some hsum)

/-! The successor loop (R154). -/

theorem successorLoop_cons_ok {l : Mem 8} {i : Nat} {is : List Nat} {c t : Mem 20} {r : Mem 20 × Mem 20}
    (h : successorLoop l (i :: is) c t = .ok r) :
    ∃ b k, memGet l i = some b ∧ memGet c b.toNat = some k ∧
      successorLoop l is (memSet b.toNat (k + 1#20) c) (memSet k.toNat (BitVec.ofNat 20 i) t) = .ok r := by
  unfold successorLoop at h
  split at h
  · cases h
  · rename_i b hb
    split at h
    · cases h
    · rename_i k hk
      split at h
      · cases h
      · rename_i ht
        split at h
        · cases h
        · rename_i hc
          rw [(memWrite_ok.mp ht).2, (memWrite_ok.mp hc).2] at h
          exact ⟨b, k, (memRead_ok.mp hb).2, (memRead_ok.mp hk).2, h⟩

/-- After the positions below `i`, from a `tt` that was `t₀`: each of them stands at its place, nothing is written past
the block, and the last entry of `cftab` is the length of the block. -/
structure SortInv (l : Mem 8) (n : Nat) (t₀ : Mem 20) (i : Nat) (c t : Mem 20) : Prop extends
    SuccessorInv l n i c t where
  placed : ∀ j < i, ∀ v, memGet l j = some v → memGet t (sortedPlace l n v j) = some (BitVec.ofNat 20 j)
  kept : ∀ a, n ≤ a → memGet t a = memGet t₀ a
  total : memGet c 256 = some (BitVec.ofNat 20 n)

section Loop

variable {l : Mem 8} {n : Nat} (hl : ∀ i < n, (memGet l i).isSome = true) (hn : n ≤ maxBlock)
include hl

theorem sortedPlace_lt {v : BitVec 8} {j : Nat} (hj : j < n) (hv : memGet l j = some v) : sortedPlace l n v j < n := by
  have hend := lowerCount_add_occurrences_le hl v
  have hpast := occurrences_mono l v (show j + 1 ≤ n from hj)
  rw [occurrences_succ, if_pos hv] at hpast
  unfold sortedPlace
  omega

include hn

/-- One turn puts position `i` at its place, which no position before it has. -/
theorem SortInv.turn {t₀ c t : Mem 20} {i : Nat} (hi : i < n) (h : SortInv l n t₀ i c t) :
    ∃ c' t', (∀ is, successorLoop l (i :: is) c t = successorLoop l is c' t') ∧ SortInv l n t₀ (i + 1) c' t' := by
  obtain ⟨c', t', hturn, hinv⟩ := successorLoop_cons hl hn hi h.toSuccessorInv
  obtain ⟨b, k, hb, hk, hwrites⟩ := successorLoop_cons_ok (hturn [])
  cases hwrites
  have hplace : k.toNat = sortedPlace l n b i := by
    cases hk.symm.trans (h.counts b)
    exact toNat_ofNat_of_le_maxBlock ((sortedPlace_lt hl hi hb).le.trans hn)
  rw [hplace] at hturn hinv
  refine ⟨_, _, hturn, hinv, fun j hj v hv => ?_, fun a ha => ?_, ?_⟩
  · rcases Nat.lt_succ_iff_lt_or_eq.mp hj with hlt | rfl
    · have hne : sortedPlace l n v j ≠ sortedPlace l n b i := fun heq => by
        rcases sortsBefore_total hv hb hlt.ne with hbefore | hafter
        · exact (sortedPlace_strictMono (hlt.trans hi) hv hb hbefore).ne heq
        · exact (sortedPlace_strictMono hi hb hv hafter).ne' heq
      rw [memGet_memSet_other hne]
      exact h.placed j hlt v hv
    · cases hb.symm.trans hv
      exact memGet_memSet_same ..
  · have hlt := sortedPlace_lt hl hi hb
    rw [memGet_memSet_other (by omega)]
    exact h.kept a ha
  · have hbyte := b.isLt
    rw [memGet_memSet_other (by omega)]
    exact h.total

theorem SortInv.loop (k : Nat) {i : Nat} (hi : i + k = n) {t₀ c t c' t' : Mem 20} (h : SortInv l n t₀ i c t)
    (hloop : successorLoop l (List.range' i k) c t = .ok (c', t')) : SortInv l n t₀ n c' t' := by
  induction k generalizing i c t with
  | zero => cases hi; cases hloop; exact h
  | succ k ih =>
    obtain ⟨c₁, t₁, hturn, h₁⟩ := h.turn hl hn (by omega)
    rw [List.range'_succ, hturn] at hloop
    exact ih (by omega) h₁ hloop

end Loop

/-- Once every position is placed, each entry of the block is the position whose place it is. -/
theorem SortInv.entry {l : Mem 8} {n : Nat} {t₀ c t : Mem 20} (h : SortInv l n t₀ n c t)
    (hl : ∀ i < n, (memGet l i).isSome = true) (hn : n ≤ maxBlock) {q : Nat} (hq : q < n) :
    ∃ p v, memGet t q = some p ∧ p.toNat < n ∧ memGet l p.toNat = some v ∧ sortedPlace l n v p.toNat = q := by
  obtain ⟨j, hj, v, hv, rfl⟩ := exists_position_of_sortedPlace hl hq
  have hnat := toNat_ofNat_of_le_maxBlock (hj.le.trans hn)
  exact ⟨_, v, h.placed j hj v hv, by rw [hnat]; exact ⟨hj, hv, rfl⟩⟩

/-- The setup past the check of R150 (R153 to R155). -/
theorem setupPass_sorts {s : State} (hs : blockWritten s) (hn : s.nblock.toNat ≤ maxBlock)
    (ho : s.origPtr.toNat < s.nblock.toNat) :
    ∃ c m p, SortInv s.ll8 s.nblock.toNat s.tt s.nblock.toNat c m ∧ memGet m s.origPtr.toNat = some p ∧
      setupPass s = .ok { s with
        cftab := c, tt := m, tPos := p, i2 := 0#20, rleCount := 0#3, rlePrev := 0#8, repLeft := 0#8, rNToGo := 0#10
        rTPos := 0#9, phase := .blockOutput } := by
  obtain ⟨t, ht, _⟩ := setupPass_safe hs hn
  obtain ⟨hbad, _⟩ | ⟨_, c₀, c, m, hc₀, hloop, hout⟩ := setupPass_ok ht
  · exact absurd ho (Nat.not_lt_of_ge hbad)
  obtain ⟨p, hp, rfl⟩ := outputInit_ok hout
  obtain ⟨_, hc, hstarts⟩ := cumulativeCounts_eq hs
  cases hc₀.symm.trans hc
  have hstart : SortInv s.ll8 s.nblock.toNat s.tt 0 c₀ s.tt :=
    { counts := hstarts
      written := fun _ _ hlow hhigh => absurd hlow (Nat.not_le_of_gt hhigh)
      placed := nofun
      kept := fun _ _ => rfl
      total := by rw [cumulativeCounts_last hs hc₀, BitVec.ofNat_toNat, BitVec.setWidth_eq] }
  rw [List.range_eq_range'] at hloop
  exact ⟨c, m, p, hstart.loop hs.1 hn _ (Nat.zero_add _) hloop, hp, ht⟩

/-- Settles O42: the loop puts every position at its place in the order, so the entries of `tt` ascend in it. -/
theorem setupSortsThePositions : Obligations.SetupSortsThePositions := by
  intro s hm hj hp hs hn ho
  obtain ⟨c, m, p, hinv, horigin, hpass⟩ := setupPass_sorts hs hn ho
  have ⟨hl, _⟩ := hs
  have hstep : step s = finish (setupPass s) := by rw [step_of_job hm hj, readPass, hp]
  refine ⟨_, hstep.trans (congrArg finish hpass), rfl, fun q hq => ?_, fun j k p q hjk hk hpj hqk => ?_, hinv.kept,
    horigin, fun v hv => ?_, s.nblock, ?_, rfl⟩
  · obtain ⟨p, _, hp, hlt, _⟩ := hinv.entry hl hn hq
    exact ⟨p, hp, hlt⟩
  · obtain ⟨p', a, hp', _, ha, rfl⟩ := hinv.entry hl hn (hjk.trans hk)
    obtain ⟨q', b, hq', hlt, hb, rfl⟩ := hinv.entry hl hn hk
    cases hpj.symm.trans hp'
    cases hqk.symm.trans hq'
    exact sortsBefore_of_sortedPlace_lt hlt ha hb hjk
  · have hc := hinv.counts (BitVec.ofNat 8 v)
    have hend := lowerCount_add_occurrences_le hl (BitVec.ofNat 8 v)
    rw [BitVec.toNat_ofNat, Nat.mod_eq_of_lt hv, ← lowerCount_succ] at hc hend
    exact ⟨_, hc, (toNat_ofNat_of_le_maxBlock (hend.trans hn)).trans (lowerCount_succ_eq_length _ _ hv)⟩
  · rw [hinv.total, BitVec.ofNat_toNat, BitVec.setWidth_eq]

end Sys2Proof.Proofs
end

section
/-! The output stage (45_output.md): the CRC of the bytes, the walk and its mask, a byte emitted, the expansion of runs,
and the check at the block's end. -/

namespace Sys2Proof.Proofs

open Sys2Proof.Machine Sys2Proof.Safety Sys2Proof.Laws

/-! The CRC (R169 to R171). -/

theorem crcTable_eq_repeat (i : BitVec 8) : crcTable i = Nat.repeat crcShift 8 (i.zeroExtend 32 <<< 24) := rfl

/-- The index of the table entry is the top byte of the accumulator, xored with the byte. -/
theorem crcByte_eq (c : BitVec 32) (b : BitVec 8) :
    crcByte c b = (c <<< 8) ^^^ crcTable ((c >>> 24).truncate 8 ^^^ b) := by
  rw [crcByte, BitVec.truncate_eq_setWidth, BitVec.setWidth_ushiftRight_eq_extractLsb]

/-- Settles O60: the table is the eight turns, the step is the table's, and the check values are computed. -/
theorem crcByteFollowsItsTable : Obligations.CrcByteFollowsItsTable :=
  ⟨crcTable_eq_repeat, crcByte_eq, rfl, fun _ => rfl, by decide +kernel⟩

theorem blockEndPass_match {s : State} (h : crcComputed s.blockCRC = s.storedBlockCRC) :
    blockEndPass s =
      { s with
        combinedCRC := s.combinedCRC.rotateLeft 1 ^^^ crcComputed s.blockCRC, blockCount := s.blockCount + 1
        phase := .blockHeader } := by
  rw [← rotl1_eq]
  exact if_pos h

theorem blockEndPass_mismatch {s : State} (h : crcComputed s.blockCRC ≠ s.storedBlockCRC) :
    blockEndPass s = raise .crcBlock s :=
  if_neg h

/-- Settles O46: the step is the check, which combines on a match and raises on a mismatch. -/
theorem blockEndChecksAndCombinesTheCrc : Obligations.BlockEndChecksAndCombinesTheCrc := by
  intro s hm hj hp
  have hstep : step s = .next (blockEndPass s) := by rw [step_of_job hm hj, readPass, hp]
  exact ⟨fun h => hstep.trans (congrArg _ (blockEndPass_match h)),
    fun h => hstep.trans (congrArg _ (blockEndPass_mismatch h))⟩

/-! The walk and its mask (R162, R163, R166). -/

theorem rnums_bounds : ∀ n ∈ rnums, 50 ≤ n ∧ n ≤ 999 := by decide +kernel

theorem rnumAt_eq {i n : Nat} (h : rnums[i]? = some n) : rnumAt i = .ok (BitVec.ofNat 10 n) := by
  rw [rnumAt, h]

/-- The count was 2 exactly where it is 1 after the step. -/
theorem maskStep_eq (s : State) :
    maskStep s = (if s.rNToGo = 2#10 then 1#8 else 0#8, { s with rNToGo := s.rNToGo - 1#10 }) := by
  have htwo : s.rNToGo - 1#10 = 1#10 ↔ s.rNToGo = 2#10 := sub_eq_iff_eq_add
  simp only [maskStep, htwo]

theorem randMask_counting {s : State} (h : s.rNToGo ≠ 0#10) : randMask s = .ok (maskStep s) :=
  if_neg h

theorem randMask_reload {s : State} {n : Nat} (h : s.rNToGo = 0#10) (hn : rnums[s.rTPos.toNat]? = some n) :
    randMask s = .ok (maskStep { s with rNToGo := BitVec.ofNat 10 n, rTPos := s.rTPos + 1#9 }) := by
  rw [randMask, if_pos h, rnumAt_eq hn]

/-- A random number is at least 50, so the step that loads one gives mask 0. -/
theorem randMask_reload_zero {s : State} {n : Nat} (h : s.rNToGo = 0#10) (hn : rnums[s.rTPos.toNat]? = some n) :
    ∃ k, randMask s = .ok (0#8, { s with rNToGo := k, rTPos := s.rTPos + 1#9 }) ∧ k.toNat = n - 1 := by
  obtain ⟨hlow, hhigh⟩ := rnums_bounds n (List.mem_of_getElem? hn)
  have hne : BitVec.ofNat 10 n ≠ 2#10 := by bv_omega
  refine ⟨BitVec.ofNat 10 n - 1#10, ?_, by bv_omega⟩
  rw [randMask_reload h hn, maskStep_eq]
  simp only [if_neg hne]

theorem walkByte_plain {s : State} {b : BitVec 8} {p : BitVec 20} (ht : s.tPos.toNat < maxBlock)
    (hb : memGet s.ll8 s.tPos.toNat = some b) (hp : memGet s.tt s.tPos.toNat = some p) (hr : s.randomised ≠ 1#1) :
    walkByte s = .ok (b, { s with tPos := p, i2 := s.i2 + 1#20 }) := by
  rw [walkByte, memRead_ok.mpr ⟨ht, hb⟩, memRead_ok.mpr ⟨ht, hp⟩]
  exact if_neg hr

theorem walkByte_randomised {s t : State} {b m : BitVec 8} {p : BitVec 20} (ht : s.tPos.toNat < maxBlock)
    (hb : memGet s.ll8 s.tPos.toNat = some b) (hp : memGet s.tt s.tPos.toNat = some p) (hr : s.randomised = 1#1)
    (hm : randMask { s with tPos := p, i2 := s.i2 + 1#20 } = .ok (m, t)) : walkByte s = .ok (b ^^^ m, t) := by
  rw [walkByte, memRead_ok.mpr ⟨ht, hb⟩, memRead_ok.mpr ⟨ht, hp⟩]
  simp only [if_pos hr, hm]

/-- Settles O43: the table's values, the mask while it counts and where it loads, and the walk step with and without
it. -/
theorem walkStepFollowsTheSuccessor : Obligations.WalkStepFollowsTheSuccessor := by
  refine ⟨⟨rnums_length, by decide +kernel, rnums_bounds, by decide +kernel⟩,
    fun s => ⟨fun hgo => ?_, fun hgo n hn => ?_⟩, fun s b p ht hb hp => ⟨fun hr => ?_, fun hr => ?_⟩⟩
  · rw [randMask_counting hgo, maskStep_eq]
  · obtain ⟨k, hmask, hk⟩ := randMask_reload_zero hgo hn
    exact ⟨_, hmask, rfl, hk, BitVec.toNat_add ..⟩
  · exact walkByte_plain ht hb hp (by rw [hr]; decide)
  · obtain ⟨⟨m, t⟩, hmask⟩ := randMask_total { s with tPos := p, i2 := s.i2 + 1#20 }
    exact ⟨m, t, hmask, walkByte_randomised ht hb hp hr hmask⟩

/-! A byte that answers a READ (R168, 46_host.md R178, R181). -/

theorem answerByte_read {b : BitVec 8} {s : State} (h : s.job = some .read) :
    answerByte b s = { s with answers := s.answers ++ [.byte b], job := none } := by
  rw [answerByte, h]
  rfl

theorem answerByte_readBytes_goesOn {b : BitVec 8} {s : State} {n k : Nat} (h : s.job = some (.readBytes n k))
    (hk : k + 1 < n) :
    answerByte b s =
      { s with answers := s.answers ++ [.byte b], rbBuf := s.rbBuf ++ [b], job := some (.readBytes n (k + 1)) } := by
  rw [answerByte, h]
  exact if_pos hk

theorem answerByte_readBytes_returns {b : BitVec 8} {s : State} {n k : Nat} (h : s.job = some (.readBytes n k))
    (hk : n ≤ k + 1) :
    answerByte b s =
      { s with
        answers := s.answers ++ [.byte b], rbBuf := s.rbBuf ++ [b], job := none
        rbReturns := s.rbReturns ++ [.count n] } := by
  rw [answerByte, h]
  exact if_neg (Nat.not_lt_of_ge hk)

/-- Settles O44: `Emit` answers with the byte in the state where it is summed and counted. -/
theorem emitAnswersTheRead : Obligations.EmitAnswersTheRead := by
  intro s b
  refine ⟨fun hread => ?_, fun n k hread => ⟨fun hk => ?_, fun hk => ?_⟩⟩
  · exact answerByte_read hread
  · exact answerByte_readBytes_goesOn hread hk
  · exact answerByte_readBytes_returns hread hk

/-! The expansion of runs (R167). -/

theorem ne_zero_of_toNat_pos {w : Nat} {x : BitVec w} (h : 0 < x.toNat) : x ≠ 0#w :=
  fun hx => h.ne' (hx ▸ BitVec.toNat_zero)

theorem expandByte_count {b : BitVec 8} {s : State} (h : s.rleCount = 4#3) :
    expandByte b s = { s with repLeft := b, rleCount := 0#3 } :=
  if_pos h

theorem expandByte_repeated {b : BitVec 8} {s : State} (h4 : s.rleCount ≠ 4#3) (h0 : s.rleCount ≠ 0#3)
    (hb : b = s.rlePrev) : expandByte b s = emit b { s with rleCount := s.rleCount + 1#3 } := by
  rw [expandByte, if_neg h4, if_pos ⟨h0, hb⟩]

theorem expandByte_restart {b : BitVec 8} {s : State} (h4 : s.rleCount ≠ 4#3)
    (h : s.rleCount = 0#3 ∨ b ≠ s.rlePrev) : expandByte b s = emit b { s with rleCount := 1#3, rlePrev := b } := by
  have hends : ¬(s.rleCount ≠ 0#3 ∧ b = s.rlePrev) := fun ⟨h0, hb⟩ => h.elim h0 (absurd hb)
  rw [expandByte, if_neg h4, if_neg hends]

theorem outputPass_copy {s : State} (h : s.repLeft ≠ 0#8) :
    outputPass s = .ok (emit s.rlePrev { s with repLeft := s.repLeft - 1#8 }) :=
  if_pos h

theorem outputPass_truncated {s : State} (hr : s.repLeft = 0#8) (hi : s.i2 = s.nblock) (h4 : s.rleCount = 4#3) :
    outputPass s = .ok (raise .rleTruncated s) := by
  rw [outputPass, if_neg (not_not_intro hr), if_pos hi, if_pos h4]

theorem outputPass_ends {s : State} (hr : s.repLeft = 0#8) (hi : s.i2 = s.nblock) (h4 : s.rleCount ≠ 4#3) :
    outputPass s = .ok { s with phase := .blockEnd } := by
  rw [outputPass, if_neg (not_not_intro hr), if_pos hi, if_neg h4]

theorem outputPass_walks {s t : State} {b : BitVec 8} (hr : s.repLeft = 0#8) (hi : s.i2 ≠ s.nblock)
    (hw : walkByte s = .ok (b, t)) : outputPass s = .ok (expandByte b t) := by
  rw [outputPass, if_neg (not_not_intro hr), if_neg hi, hw]

/-- A walk step leaves the run as it was (R166). -/
theorem walkByte_keepsRun {s t : State} {b : BitVec 8} (h : walkByte s = .ok (b, t)) :
    t.rleCount = s.rleCount ∧ t.rlePrev = s.rlePrev := by
  obtain ⟨_, _, _, rfl⟩ := walkByte_form h
  exact ⟨rfl, rfl⟩

/-- Settles O45: the step is one turn of the output loop; a walk byte meets the run as it was before the walk step. -/
theorem outputStepExpandsRuns : Obligations.OutputStepExpandsRuns := by
  intro s hm hj hp
  have hstep : step s = finish (outputPass s) := by rw [step_of_job hm hj, readPass, hp]
  refine ⟨fun hr => ?_, fun hr hi h4 => ?_, fun hr hi h4 => ?_, fun hr hi b t hw => ?_⟩
  · exact hstep.trans (congrArg finish (outputPass_copy (ne_zero_of_toNat_pos hr)))
  · exact hstep.trans (congrArg finish (outputPass_truncated hr hi h4))
  · exact hstep.trans (congrArg finish (outputPass_ends hr hi h4))
  · have hexpand : step s = .next (expandByte b t) := hstep.trans (congrArg finish (outputPass_walks hr hi hw))
    obtain ⟨hcount, hprev⟩ := walkByte_keepsRun hw
    rw [hexpand, ← hcount, ← hprev]
    refine ⟨fun h4 => ?_, fun h4 h0 hb => ?_, fun h4 h => ?_⟩
    · exact congrArg _ (expandByte_count h4)
    · exact congrArg _ (expandByte_repeated h4 (ne_zero_of_toNat_pos h0) hb)
    · exact congrArg _ (expandByte_restart h4 h)

end Sys2Proof.Proofs
end

section
/-! A READ ends (46_host.md R178, R179): every pass of its loop either answers it, or keeps it pending and comes closer
to its end, by the bits and bytes still to come and by the passes that take none (log entry 3). -/

namespace Sys2Proof.Proofs

open Sys2Proof.Machine Sys2Proof.Safety Sys2Proof.Laws

/-! What is left of a READ. -/

/-- The most passes that a READ makes from here before it takes a bit, fetches a byte or is answered, the answering pass
included. -/
def passesLeft (s : State) : Nat :=
  match s.phase with
  | .closed => 0
  | .endOfStream => 1
  | .failed => 1
  | .blockTables .alphabet => 3
  | .blockTables .selectorList => 3
  | .blockTables .build => 12 - s.tblIdx.toNat
  | .blockTables .symbolInit => 4
  | .blockSymbols .group => 3
  | .blockSetup => 6
  | .blockOutput => if s.rleCount = 4#3 then 5 else 4
  | .blockEnd => 3
  | _ => 2

/-- The part of `readBound` that the bits and bytes left give. -/
def bitBudget (s : State) : Nat :=
  32 * (s.bsLive.toNat + 8 * (s.source.getD []).length) + 16 * s.part.length + (s.source.getD []).length

/-- A bound on the passes a READ still makes. -/
def readBudget (s : State) : Nat := bitBudget s + passesLeft s

theorem passesLeft_le (s : State) : passesLeft s ≤ 12 := by
  unfold passesLeft
  split
  case h_6 => exact Nat.sub_le ..
  case h_10 => split <;> decide
  all_goals decide

theorem readBudget_le_readBound (s : State) : readBudget s ≤ readBound s :=
  Nat.add_le_add_left (passesLeft_le s) _

theorem passesLeft_of_build {s : State} (hp : s.phase = .blockTables .build) : 4 < passesLeft s := by
  have := s.tblIdx.isLt
  simp only [passesLeft, hp]
  omega

theorem passesLeft_of_output {s : State} (hp : s.phase = .blockOutput) : 4 ≤ passesLeft s := by
  simp only [passesLeft, hp]
  split <;> decide

theorem passesLeft_pos {s : State} (h : s.phase ≠ .closed) : 1 ≤ passesLeft s := by
  unfold passesLeft
  split
  case h_1 hp => exact absurd hp h
  case h_6 => have := s.tblIdx.isLt; omega
  case h_10 => split <;> decide
  all_goals decide

theorem readBudget_pos {s : State} (h : s.phase ≠ .closed) : 1 ≤ readBudget s :=
  (passesLeft_pos h).trans (Nat.le_add_left ..)

/-- Where an element is read, the only pass that takes no bit raises an error. -/
theorem passesLeft_of_expected {s : State} {e : Expect} (he : expected s = some e) : passesLeft s = 2 := by
  have hp := expected_place he
  obtain ⟨hcommand, hanswer⟩ := expected_inStream he
  unfold passesLeft
  cases e <;> simp_all [elementPlace]

/-! What a pass does to the READ in progress. -/

/-- The READ is answered, by one event (46_host.md R178); a call of READ_BYTES goes on only after a byte (R181). -/
def answersOnce (s t : State) : Prop :=
  ∃ a, t.answers = s.answers ++ [a] ∧
    ((∃ b, a = .byte b) ∨ a = .endOfStream ∨ ∃ c r, a = .error c r) ∧
    (t.job = none ∨ ∃ n j b, s.job = some (.readBytes n j) ∧ a = .byte b ∧ t.job = some (.readBytes n (j + 1)))

/-- The READ is not answered; the refusal mark is set only where randomised blocks are not trusted (R185). -/
def staysPending (s t : State) : Prop :=
  t.job = s.job ∧ t.answers = s.answers ∧ t.cfg = s.cfg ∧
    (t.refusalMark = s.refusalMark ∨ s.cfg.rnumsTrusted = false)

theorem staysPending_refl (s : State) : staysPending s s := ⟨rfl, rfl, rfl, .inl rfl⟩

/-- What a pass does to the READ in progress. -/
inductive ReadProgress (s t : State) : Prop where
  | answers (h : answersOnce s t)
  | goesOn (h : staysPending s t) (hless : readBudget t < readBudget s)

/-! The answers. -/

theorem answerByte_answersOnce (b : BitVec 8) (s : State) : answersOnce s (answerByte b s) := by
  refine ⟨.byte b, ?_⟩
  cases hj : s.job with
  | none =>
    have h : answerByte b s = { answer (.byte b) s with job := none } := by rw [answerByte, hj]
    rw [h]; exact ⟨rfl, .inl ⟨b, rfl⟩, .inl rfl⟩
  | some j =>
    cases j with
    | read => rw [answerByte_read hj]; exact ⟨rfl, .inl ⟨b, rfl⟩, .inl rfl⟩
    | readBytes n k =>
      by_cases hk : k + 1 < n
      · rw [answerByte_readBytes_goesOn hj hk]; exact ⟨rfl, .inl ⟨b, rfl⟩, .inr ⟨n, k, b, rfl, rfl, rfl⟩⟩
      · rw [answerByte_readBytes_returns hj (Nat.le_of_not_lt hk)]; exact ⟨rfl, .inl ⟨b, rfl⟩, .inl rfl⟩

theorem emit_answersOnce (b : BitVec 8) {s u : State} (h : staysPending s u) : answersOnce s (emit b u) := by
  have hanswer := answerByte_answersOnce b { u with blockCRC := crcByte u.blockCRC b, outCount := u.outCount + 1 }
  obtain ⟨hjob, hanswers, _⟩ := h
  unfold answersOnce at hanswer ⊢
  rw [← hanswers, ← hjob]
  exact hanswer

theorem answerEndOfStream_answersOnce (s : State) : answersOnce s (answerEndOfStream s) := by
  obtain ⟨rs, h⟩ := answerEndOfStream_eq s
  rw [h]
  exact ⟨.endOfStream, rfl, .inr (.inl rfl), .inl rfl⟩

theorem answerError_answersOnce (s : State) : answersOnce s (answerError s) := by
  obtain ⟨rs, h⟩ := answerError_eq s
  rw [h]
  exact ⟨.error s.errCode s.errReason, rfl, .inr (.inr ⟨_, _, rfl⟩), .inl rfl⟩

/-! A pass that takes no bit. -/

/-- A pass that neither takes a bit nor fetches a byte leaves fewer such passes. -/
theorem ReadProgress.of_pass {s t : State} (hpend : staysPending s t) (hbits : bitBudget t ≤ bitBudget s)
    (h : passesLeft t < passesLeft s) : ReadProgress s t :=
  .goesOn hpend (Nat.add_lt_add_of_le_of_lt hbits h)

/-- After an error raised, its answer is all that is left. -/
theorem ReadProgress.of_raise (err : StreamError) {s u : State} (hpend : staysPending s u)
    (hbits : bitBudget u = bitBudget s) (h : 1 < passesLeft s) : ReadProgress s (raise err u) := by
  have hdrop : bitBudget (raise err u) ≤ bitBudget u := by
    simp only [bitBudget, raise_bsLive, raise_source, raise_part, List.length_nil]
    omega
  exact .of_pass hpend (hdrop.trans hbits.le) h

/-! A turn towards an element. -/

/-- Only `BH_RAND` sets the refusal mark, where randomised blocks are not trusted (41_framer.md R107). -/
theorem exec_refusalMark {i : Instr} {s t : State} (hi : isElement i = true) (h : exec i s = .next t) :
    t.refusalMark = s.refusalMark ∨ s.cfg.rnumsTrusted = false := by
  cases exec_cases hi h with
  | bhRand r ht =>
    subst ht
    cases htrust : s.cfg.rnumsTrusted with
    | true => exact .inl (by simp [randRefused, htrust])
    | false => exact .inr rfl
  | tbLenStop _ _ ht =>
    rcases advanceLength_cases _ with ⟨_, _, h'⟩ | ⟨_, _, h'⟩ | ⟨_, h'⟩ <;> rw [ht, h'] <;> exact .inl rfl
  | symMtf _ ht => obtain ⟨_, _, _, _, rfl | rfl⟩ := mtfSymbol_form ht <;> exact .inl rfl
  | symEob u hu ht => obtain ⟨_, _, _, rfl⟩ := flushRun_form hu; subst ht; exact .inl rfl
  | symRun _ _ _ _ ht | symRunBad _ _ ht => subst ht; exact .inl rfl
  | _ => rename_i ht; subst ht; exact .inl rfl

/-- An executed element answers no READ. -/
theorem exec_staysPending {i : Instr} {s t : State} (hi : isElement i = true) (h : exec i s = .next t) :
    staysPending s t := by
  obtain ⟨hframe, _⟩ := elementsKeepTheReaderAndThePorts i s t hi h
  obtain ⟨hcfg, _, _, _, _, _, _, _, _, _, _, hjob, hanswers, _⟩ := hframe
  exact ⟨hjob, hanswers, hcfg, exec_refusalMark hi h⟩

theorem rejectElement_staysPending (err : StreamError) (s : State) : staysPending s (rejectElement err s) := by
  rcases rejectElement_cases err s with h | ⟨_, _, h⟩ <;> rw [h] <;> exact staysPending_refl s

/-- The bits of a finished element, with `live` bits left, pay for every pass that may follow without a bit. -/
def elementPaid (s : State) (live : BitVec 5) : Prop :=
  32 * live.toNat + 16 ≤ 32 * s.bsLive.toNat + 16 * s.part.length

theorem elementPaid_takeBits {n : Nat} {s : State} (h1 : 1 ≤ n) (hlive : n ≤ s.bsLive.toNat) :
    elementPaid s (takeBits n s).2.bsLive := by
  unfold elementPaid
  rw [takeBits_bsLive]
  omega

/-- An element finished without a `GetBits` holds some bits already. -/
theorem elementPaid_held {e : Expect} {s : State} (he : expected s = some e) (hd : ∀ n, decode e s.part ≠ .need n) :
    elementPaid s s.bsLive := by
  have hne : s.part ≠ [] := fun hnil => by
    obtain ⟨n, hn⟩ := decode_nil (expected_ne_trPad he)
    exact hd n (hnil ▸ hn)
  have := List.length_pos_iff.2 hne
  unfold elementPaid
  omega

theorem ReadProgress.of_finished {e : Expect} {s t : State} {live : BitVec 5} (he : expected s = some e)
    (hpaid : elementPaid s live) (hpend : staysPending { s with bsLive := live, part := [] } t)
    (hkept : readerKept { s with bsLive := live, part := [] } t) (hpart : t.part = []) : ReadProgress s t := by
  obtain ⟨_, hlive, _, hsource⟩ := hkept
  refine .goesOn hpend ?_
  have hle := passesLeft_le t
  have hbudget : bitBudget t + 16 ≤ bitBudget s := by
    unfold elementPaid at hpaid
    simp only [bitBudget, hlive, hsource, hpart, List.length_nil]
    omega
  unfold readBudget
  rw [passesLeft_of_expected he]
  omega

theorem exec_progress {e : Expect} {i : Instr} {bits rest : List Bool} {s t : State} {live : BitVec 5}
    (he : expected s = some e) (hd : decode e bits = .instr i rest) (hpaid : elementPaid s live)
    (h : exec i { s with bsLive := live, part := [] } = .next t) : ReadProgress s t := by
  have hi := expected_isElement he (decode_instr hd)
  have hs := expected_decodes he
  have hkeeps := exec_keeps (s := { s with bsLive := live, part := [] }) hi hs h
  exact .of_finished he hpaid (exec_staysPending hi h) (exec_readerKept hi h) (hkeeps.part.elim id id)

theorem rejectElement_progress {e : Expect} {err : StreamError} {bits : List Bool} {s : State} {live : BitVec 5}
    (he : expected s = some e) (hd : decode e bits = .illegal err) (hpaid : elementPaid s live) :
    ReadProgress s (rejectElement err { s with bsLive := live, part := [] }) := by
  have hkeeps := rejectElement_keeps (err := err) (s := { s with bsLive := live, part := [] })
    fun hb => show s.phase = .blockHeader from expected_of_blockMagic he (hb ▸ hd)
  exact .of_finished he hpaid (rejectElement_staysPending err _) (rejectElement_readerKept err _)
    (hkeeps.part.elim id id)

/-- A byte fetched weighs less as live bits than in the source. -/
theorem absorbByte_progress {s : State} {b : BitVec 8} {rest : List (BitVec 8)} (hsrc : s.source = some (b :: rest))
    (hroom : s.bsLive.toNat ≤ 23) : ReadProgress s (absorbByte b { s with source := some rest }) := by
  have hlive := absorbByte_bsLive (b := b) (s := { s with source := some rest }) hroom
  have hsource : (absorbByte b { s with source := some rest }).source = some rest := rfl
  have hpart : (absorbByte b { s with source := some rest }).part = s.part := rfl
  refine .goesOn (staysPending_refl s) (Nat.add_lt_add_right (m := bitBudget s) ?_ (passesLeft s))
  simp only [bitBudget, hlive, hsource, hpart, hsrc, Option.getD_some, List.length_cons]
  omega

/-- A bit taken weighs less in the element being read than live. -/
theorem takeBits_progress {n : Nat} {s : State} (h1 : 1 ≤ n) (hlive : n ≤ s.bsLive.toNat) :
    ReadProgress s { (takeBits n s).2 with part := s.part ++ (takeBits n s).1 } := by
  have hleft := takeBits_bsLive n s
  have hsource : (takeBits n s).2.source = s.source := rfl
  refine .goesOn (staysPending_refl s) (Nat.add_lt_add_right (m := bitBudget s) ?_ (passesLeft s))
  simp only [bitBudget, hleft, hsource, List.length_append, takeBits_length]
  omega

theorem elementCase_progress {e : Expect} {s t : State} (he : expected s = some e) (h : ElementCase e s t) :
    ReadProgress s t := by
  cases h with
  | fetch n b rest _ _ h2 h3 hsrc ht =>
    subst ht
    exact absorbByte_progress hsrc (by unfold readMax at h2; omega)
  | eoi n _ _ _ _ hsrc ht =>
    subst ht
    have hbits : bitBudget { s with source := some [] } = bitBudget s := by simp only [bitBudget, hsrc]
    exact .of_raise _ (staysPending_refl s) hbits (by rw [passesLeft_of_expected he]; decide)
  | more n m _ h1 _ h3 _ ht => subst ht; exact takeBits_progress h1 h3
  | run n i rest _ h1 _ h3 hd ht => exact exec_progress he hd (elementPaid_takeBits h1 h3) ht
  | bad n err _ h1 _ h3 hd ht => subst ht; exact rejectElement_progress he hd (elementPaid_takeBits h1 h3)
  | heldRun i rest hd ht => exact exec_progress he hd (elementPaid_held he (by rw [hd]; exact nofun)) ht
  | heldBad err hd ht =>
    subst ht
    exact rejectElement_progress he hd (elementPaid_held he (by rw [hd]; exact nofun))

/-! The passes that read no element. -/

theorem buildPass_progress {s t : State} (hp : s.phase = .blockTables .build) (h : buildPass s = .ok t) :
    ReadProgress s t := by
  have hleft := passesLeft_of_build hp
  obtain ⟨_, hk, ⟨_, rfl⟩ | ⟨_, rfl⟩⟩ := buildPass_ok h
  · exact .of_raise _ (staysPending_refl s) rfl (by omega)
  · rcases advanceBuild_cases _ with ⟨_, ht⟩ | ⟨_, ht⟩ <;> rw [ht]
    · exact .of_pass (staysPending_refl s) le_rfl hleft
    · refine .of_pass (staysPending_refl s) le_rfl ?_
      have hnext : (s.tblIdx + 1#3).toNat = s.tblIdx.toNat + 1 := by bv_omega
      simp only [passesLeft, hp, hnext]
      omega

theorem outputPass_progress {s t : State} (hp : s.phase = .blockOutput) (h : outputPass s = .ok t) :
    ReadProgress s t := by
  have hleft := passesLeft_of_output hp
  rcases outputPass_ok h with ⟨_, rfl⟩ | ⟨_, _, _, rfl⟩ | ⟨_, _, _, rfl⟩ | ⟨_, _, b, u, hw, rfl⟩
  · exact .answers (emit_answersOnce _ (staysPending_refl s))
  · exact .of_raise _ (staysPending_refl s) rfl (by omega)
  · exact .of_pass (staysPending_refl s) le_rfl hleft
  · obtain ⟨p, n, q, rfl⟩ := walkByte_form hw
    rcases expandByte_cases b _ with ⟨hfour, h⟩ | ⟨_, c, v, h⟩ <;> rw [h]
    · refine .of_pass (staysPending_refl s) le_rfl ?_
      have hfour : s.rleCount = 4#3 := hfour
      simp [passesLeft, hp, hfour]
    · exact .answers (emit_answersOnce b (staysPending_refl s))

theorem setupPass_progress {s t : State} (hp : s.phase = .blockSetup) (h : setupPass s = .ok t) : ReadProgress s t := by
  rcases setupPass_ok h with ⟨_, rfl⟩ | ⟨_, _, _, _, _, _, h⟩
  · exact .of_raise _ (staysPending_refl s) rfl (by simp [passesLeft, hp])
  · obtain ⟨_, _, rfl⟩ := outputInit_ok h
    exact .of_pass (staysPending_refl s) le_rfl (by simp [passesLeft, hp])

/-- Say once what a pass of the READ loop does to the READ. -/
theorem readCase_progress {s t : State} (h : ReadCase s t) : ReadProgress s t := by
  have pending := staysPending_refl s
  cases h with
  | element e he h => exact elementCase_progress he h
  | badLength hp _ ht => subst ht; exact .of_raise _ pending rfl (by simp [passesLeft, hp])
  | alphabet hp ht =>
    rcases alphabetPass_cases s with ⟨_, h⟩ | ⟨_, h⟩ <;> rw [ht, h]
    · exact .of_raise _ pending rfl (by simp [passesLeft, hp])
    · exact .of_pass pending le_rfl (by simp [passesLeft, hp])
  | selectorList hp ht =>
    obtain ⟨_, _, _, rfl, _⟩ := selectorListPass_ok ht
    exact .of_pass pending le_rfl (by simp [passesLeft, hp])
  | build hp ht => exact buildPass_progress hp ht
  | symbolInit hp ht =>
    obtain ⟨_, rfl⟩ := symbolInitPass_ok ht
    exact .of_pass pending le_rfl (by simp [passesLeft, hp])
  | group hp ht =>
    rcases groupPass_ok ht with ⟨_, _, rfl⟩ | ⟨_, _, _, _, rfl⟩ | ⟨_, rfl⟩
    · exact .of_raise _ pending rfl (by simp [passesLeft, hp])
    · exact .of_pass pending le_rfl (by simp [passesLeft, hp])
    · exact .of_pass pending le_rfl (by simp [passesLeft, hp])
  | setup hp ht => exact setupPass_progress hp ht
  | output hp ht => exact outputPass_progress hp ht
  | blockEnd hp ht =>
    rcases blockEndPass_cases s with ⟨_, h⟩ | ⟨_, h⟩ <;> rw [ht, h]
    · exact .of_pass pending le_rfl (by simp [passesLeft, hp])
    · exact .of_raise _ pending rfl (by simp [passesLeft, hp])
  | endOfStream _ ht => subst ht; exact .answers (answerEndOfStream_answersOnce s)
  | failed _ ht => subst ht; exact .answers (answerError_answersOnce s)

/-! The run of a READ. -/

/-- A READ closes no session. -/
theorem PhaseStep.not_closed {strict : Bool} {p q : Phase} (h : PhaseStep strict p q) (hp : p ≠ .closed) :
    q ≠ .closed := by
  rintro rfl
  cases h with
  | within h => exact hp ((code_eq_zero p).1 h)
  | edge h => simp [phaseEdges, Phase.code] at h
  | lenient _ _ hq => cases hq
  | fails _ hq => cases hq

/-- Within `m` steps the READ in progress is answered, or meets the refusal mark. -/
def readEndsWithin (m : Nat) (s : State) : Prop :=
  (s.cfg.rnumsTrusted = false ∧ ∃ k, k ≤ m ∧ Host.Core.run core k s = .refused .untrustedRandomised) ∨
    ∃ k t, k ≤ m ∧ Host.Core.run core k s = .next t ∧ answersOnce s t

theorem readEndsWithin_of_step {m : Nat} {s t : State} (hstep : step s = .next t) (hpend : staysPending s t)
    (h : readEndsWithin m t) : readEndsWithin (m + 1) s := by
  obtain ⟨hjob, hanswers, hcfg, _⟩ := hpend
  unfold readEndsWithin answersOnce at h ⊢
  rw [hjob, hanswers, hcfg] at h
  rcases h with ⟨htrust, k, hk, hrun⟩ | ⟨k, u, hk, hrun, ha⟩
  · exact .inl ⟨htrust, k + 1, Nat.succ_le_succ hk, (run_succ hstep k).trans hrun⟩
  · exact .inr ⟨k + 1, u, Nat.succ_le_succ hk, (run_succ hstep k).trans hrun, ha⟩

/-- A READ ends within its budget. -/
theorem readEndsWithin_readBudget (m : Nat) {s : State} (hbudget : readBudget s ≤ m) (hs : noFaultInv s)
    (hmark : s.refusalMark = false ∨ s.cfg.rnumsTrusted = false) (hj : s.job ≠ none) (hopen : s.phase ≠ .closed) :
    readEndsWithin m s := by
  induction m generalizing s with
  | zero => exact absurd (readBudget_pos hopen) (by omega)
  | succ m ih =>
    cases hm : s.refusalMark with
    | true =>
      have htrust : s.cfg.rnumsTrusted = false := hmark.resolve_left (by simp [hm])
      exact .inl ⟨htrust, 1, Nat.le_add_left .., (run_one s).trans (if_pos hm)⟩
    | false =>
      obtain ⟨t, ht, _⟩ := readPass_safe hs hopen
      have hstep : step s = .next t := (step_of_job hm hj).trans ht
      have hcase := readPass_cases ht
      cases readCase_progress hcase with
      | answers h => exact .inr ⟨1, t, Nat.le_add_left .., (run_one s).trans hstep, h⟩
      | goesOn hpend hless =>
        have ⟨hjob, _, hcfg, hmark'⟩ := hpend
        exact readEndsWithin_of_step hstep hpend (ih (by omega) (readPass_noFaultInv hs ht)
          (hmark'.imp (·.trans hm) (hcfg ▸ ·)) (hjob ▸ hj) ((readCase_phaseStep hcase).not_closed hopen))

/-- Settles O59: every pass answers the READ or lowers its budget, which is within the bound. -/
theorem everyReadAnswersOnce : Obligations.EveryReadAnswersOnce := by
  intro s hs hm hj hopen
  exact (readEndsWithin_readBudget _ (readBudget_le_readBound s) hs (.inl hm) hj hopen).imp_right
    fun ⟨k, t, hk, hrun, a, ha⟩ => ⟨k, t, a, hk, hrun, ha⟩

end Sys2Proof.Proofs
end

section
/-! The host's commands (46_host.md): what each does where it is admitted, that it is refused by name where it is not
(R185), the words of the port (30_encoding.md R72, R75), and what READ_BYTES does with the answers of its READs
(R181). -/

namespace Sys2Proof.Proofs

open Sys2Proof.Machine Sys2Proof.Safety Sys2Proof.Laws

/-! A command where it is admitted. -/

theorem exec_cmdOpen {s : State} (hj : s.job = none) (hp : s.phase = .closed) :
    exec .cmdOpen s =
      .next (answer .ack { resetRegisters s with phase := .streamHeader .magic, source := some s.handover }) := by
  simp only [exec, execCmdOpen, hj, hp]

theorem exec_cmdRead {s : State} (hj : s.job = none) (hp : s.phase ≠ .closed) :
    exec .cmdRead s = .next { s with job := some .read } := by
  simp only [exec, execCmdRead, hj]

theorem exec_cmdReadBytes {s : State} (n : Nat) (hj : s.job = none) (hp : s.phase ≠ .closed) :
    exec (.cmdReadBytes n) s =
      if n = 0 then .next (returnReadBytes (.count 0) { s with rbBuf := [] })
      else .next { s with job := some (.readBytes n 0), rbBuf := [] } := by
  simp only [exec, execCmdReadBytes, hj]

theorem exec_cmdClose {s : State} (hj : s.job = none) : exec .cmdClose s = .next (answer .ack (leaveSession s)) := by
  simp only [exec, execCmdClose, hj]

theorem exec_cmdStatus {s : State} (i : BitVec 4) (hj : s.job = none) :
    exec (.cmdStatus i) s = .next (answer (.value (statusRegister s i)) s) := by
  simp only [exec, execCmdStatus, hj]

/-! Where the registers are 0, and above the last register, a status register reads 0 (10_state.md R29 to R33). -/

theorem statusRegister_high {s : State} {i : BitVec 4} (h : 12 ≤ i.toNat) : statusRegister s i = 0#32 := by
  unfold statusRegister
  split
  case h_13 => rfl
  all_goals omega

theorem statusRegister_of_registersZero {s : State} (h : registersZero s) {i : BitVec 4} (hi : i ≠ 0#4) :
    statusRegister s i = 0#32 := by
  obtain ⟨_, _, hin, _, hcombined, hstoredCombined, hcount, hout, hstored, _, horigin, hcrc, _, hused, _, hgroups,
    hselectors, _, _, _, _, _, hblock, _, _, _, _, _, _, _, hcode, hreason⟩ := h
  unfold statusRegister
  split
  case h_1 h0 => exact absurd (BitVec.eq_of_toNat_eq h0) hi
  all_goals simp [errorWord, tablesWord, *]

/-- The status registers of a session just opened: `S_STATUS` shows `STREAM_HEADER` and `OPEN` (10_state.md R31). -/
theorem statusRegister_of_opened {s : State} (h : registersZero s) (hp : s.phase = .streamHeader .magic)
    (i : BitVec 4) : statusRegister s i = if i = 0#4 then 0x81#32 else 0#32 := by
  by_cases hi : i = 0#4
  · subst hi
    obtain ⟨_, _, _, hsize, _, _, _, _, _, hrand, _, _, _, _, _, _, _, _, _, _, _, _, _, _, _, hrle, _, hrep, _⟩ := h
    change statusWord s = 0x81#32
    simp only [statusWord, flagPend, flagOpen, flagRand, flagErr, flagEos, hp, hsize, hrand, hrle, hrep, Phase.code]
    decide
  · rw [if_neg hi, statusRegister_of_registersZero h hi]

theorem registersZero_resetRegisters (s : State) : registersZero (resetRegisters s) := by
  simp [registersZero, resetRegisters]

theorem filesKept_resetRegisters (s : State) : filesKept s (resetRegisters s) :=
  ⟨rfl, rfl, rfl, rfl, rfl, rfl, rfl, rfl, rfl, rfl, rfl⟩

/-- Settles O3: OPEN gives every register its reset value and writes no file or memory, so the status registers are
those of an opened session. -/
theorem openStartsASession : Obligations.OpenStartsASession := by
  intro s hj hp
  have hzero := registersZero_resetRegisters s
  exact ⟨_, exec_cmdOpen hj hp, rfl, hzero, filesKept_resetRegisters s, rfl, rfl,
    statusRegister_of_opened hzero rfl, hj, rfl, rfl, rfl, rfl, rfl⟩

/-- Settles O4: READ and READ_BYTES at an open session, and READ_BYTES by its length. -/
theorem readBeginsInAnOpenSession : Obligations.ReadBeginsInAnOpenSession := by
  intro s hj hp
  refine ⟨exec_cmdRead hj hp, ?_, fun n hn => ?_⟩
  · rw [exec_cmdReadBytes 0 hj hp, if_pos rfl, returnReadBytes, ← hj]
  · rw [exec_cmdReadBytes n hj hp, if_neg hn.ne']

/-- Settles O5: CLOSE is `leaveSession` and its answer. -/
theorem closeOnlyClosesThePhase : Obligations.CloseOnlyClosesThePhase :=
  fun _ hj => exec_cmdClose hj

/-- Settles O6: STATUS answers the register and writes none; above the last register 0 is read. -/
theorem statusAnswersTheRegister : Obligations.StatusAnswersTheRegister :=
  fun _ i hj => ⟨exec_cmdStatus i hj, statusRegister_high⟩

/-! A command where it is not admitted (46_host.md R185). -/

theorem exec_cmdOpen_open {s : State} (hj : s.job = none) (hp : s.phase ≠ .closed) :
    exec .cmdOpen s = .refused .openWhileOpen := by
  simp only [exec, execCmdOpen, hj]

theorem exec_cmdRead_closed {s : State} (hj : s.job = none) (hp : s.phase = .closed) :
    exec .cmdRead s = .refused .readWhileClosed := by
  simp only [exec, execCmdRead, hj, hp]

theorem exec_cmdReadBytes_closed {s : State} (n : Nat) (hj : s.job = none) (hp : s.phase = .closed) :
    exec (.cmdReadBytes n) s = .refused .readWhileClosed := by
  simp only [exec, execCmdReadBytes, hj, hp]

/-- Every command is refused while one is pending, READ_BYTES among them, which has no word (log entry 8). -/
theorem exec_command_pending {i : Instr} {s : State}
    (hi : mayRead .command i = true ∨ ∃ n, i = .cmdReadBytes n) (hj : s.job ≠ none) :
    exec i s = .refused .commandPending := by
  obtain ⟨j, hj⟩ := Option.ne_none_iff_exists'.1 hj
  rcases hi with hi | ⟨n, rfl⟩
  · cases i with
    | cmdOpen => simp only [exec, execCmdOpen, hj]
    | cmdRead => simp only [exec, execCmdRead, hj]
    | cmdClose => simp only [exec, execCmdClose, hj]
    | cmdStatus k => simp only [exec, execCmdStatus, hj]
    | _ => cases hi
  · simp only [exec, execCmdReadBytes, hj]

/-! The words of the host port (30_encoding.md R72, R75). -/

/-- The command words of R72. -/
def isCommandWord (w : BitVec 8) : Prop :=
  w = 0x10#8 ∨ w = 0x20#8 ∨ w = 0x30#8 ∨ (0x40 ≤ w.toNat ∧ w.toNat ≤ 0x4F)

theorem statusRow_iff (w : BitVec 8) : w.extractLsb' 4 4 = 4#4 ↔ 0x40 ≤ w.toNat ∧ w.toNat ≤ 0x4F := by
  have := w.isLt
  rw [BitVec.toNat_eq, BitVec.extractLsb'_toNat, Nat.shiftRight_eq_div_pow, BitVec.toNat_ofNat]
  omega

theorem decode_command_legal {w : BitVec 8} (h : isCommandWord w) :
    ∃ i rest, decode .command (bitsOf 8 w.toNat) = .instr i rest := by
  rw [decode_command, decodeCommand]
  rcases h with rfl | rfl | rfl | hrow
  · exact ⟨_, _, rfl⟩
  · exact ⟨_, _, rfl⟩
  · exact ⟨_, _, rfl⟩
  · rw [if_neg, if_neg, if_neg, if_pos ((statusRow_iff w).2 hrow)]
    · exact ⟨_, _, rfl⟩
    all_goals rintro rfl; exact absurd hrow (by decide)

theorem decode_command_illegal {w : BitVec 8} (h : ¬isCommandWord w) :
    decode .command (bitsOf 8 w.toNat) = .reject (.illegalCommand w) := by
  simp only [isCommandWord, not_or] at h
  obtain ⟨hopen, hread, hclose, hrow⟩ := h
  rw [decode_command, decodeCommand, if_neg hopen, if_neg hread, if_neg hclose,
    if_neg fun h => hrow ((statusRow_iff w).1 h)]

theorem decode_command_iff (w : BitVec 8) :
    (∃ i rest, decode .command (bitsOf 8 w.toNat) = .instr i rest) ↔ isCommandWord w := by
  refine ⟨fun ⟨i, rest, hi⟩ => ?_, decode_command_legal⟩
  by_contra h
  cases hi.symm.trans (decode_command_illegal h)

theorem step_illegalCommand {s : State} {w : BitVec 8} {src : List (BitVec 8)} {rest : List PortEvent}
    (hm : s.refusalMark = false) (hj : s.job = none) (hq : s.port = .command w src :: rest) (h : ¬isCommandWord w) :
    step s = .refused (.illegalCommand w) := by
  rw [step_of_idle hm hj, portPass, hq]
  simp only [commandPass, decode_command_illegal h, rejected]

/-- Settles O8: each command where it is not admitted, the command words, and the step of a marked state. -/
theorem refusedInteractionsHaveNoTransition : Obligations.RefusedInteractionsHaveNoTransition := by
  refine ⟨fun s => ⟨exec_cmdOpen_open, fun hj hp => ?_, fun hj => ?_, fun hm => if_pos hm⟩, decode_command_iff,
    fun s w src rest => step_illegalCommand⟩
  · exact ⟨exec_cmdRead_closed hj hp, fun n => exec_cmdReadBytes_closed n hj hp⟩
  · have pending {i : Instr} (hi : mayRead .command i = true) := exec_command_pending (.inl hi) hj
    exact ⟨pending rfl, pending rfl, pending rfl, fun n => exec_command_pending (.inr ⟨n, rfl⟩) hj,
      fun _ => pending rfl⟩

/-! The answers of the READs of READ_BYTES (46_host.md R181). -/

theorem answerEndOfStream_readBytes {s : State} {n k : Nat} (hj : s.job = some (.readBytes n k)) :
    answerEndOfStream s =
      returnReadBytes (if k = 0 then .endOfStream else .count k) (answer .endOfStream s) := by
  rw [answerEndOfStream, hj]

theorem answerError_readBytes {s : State} {n k : Nat} (hj : s.job = some (.readBytes n k)) :
    answerError s =
      returnReadBytes (.error s.errCode s.errReason) (answer (.error s.errCode s.errReason) s) := by
  rw [answerError, hj]

/-- Settles O48: a byte while the buffer has room and the one that fills it, the end of the stream, an error. -/
theorem readBytesPlacesAnswers : Obligations.ReadBytesPlacesAnswers :=
  fun _ _ _ hj => ⟨fun _ => answerByte_readBytes_goesOn hj, fun _ => answerByte_readBytes_returns hj,
    answerEndOfStream_readBytes hj, answerError_readBytes hj⟩

end Sys2Proof.Proofs
end

section
/-! Errors and the phases they end in (60_exceptions.md): which errors each phase raises (R205), what a READ answers
in a terminal phase (R191), and the idle machine (R203). -/

namespace Sys2Proof.Proofs

open Sys2Proof.Machine Sys2Proof.Safety Sys2Proof.Laws

/-! The errors a phase raises (60_exceptions.md R205). -/

/-- If `t` is `FAILED`, an error the phase `p` can raise is latched. -/
def failsAsListed (p : Phase) (t : State) : Prop :=
  t.phase = .failed → ∃ err ∈ errorsOf p, t.errCode = errorCode err ∧ t.errReason = errorReason err

theorem failsAsListed_raise {p : Phase} {err : StreamError} (h : (errorsOf p).contains err = true) (s : State) :
    failsAsListed p (raise err s) :=
  fun _ => ⟨err, List.contains_iff_mem.mp h, rfl, rfl⟩

theorem failsAsListed_of_ne {p : Phase} {t : State} (h : t.phase ≠ .failed) : failsAsListed p t :=
  fun hf => absurd hf h

/-- The end of the input is an error of every phase that reads. -/
theorem endOfInputError_listed {s : State} {e : Expect} (he : expected s = some e) :
    (errorsOf s.phase).contains (endOfInputError s.phase) = true := by
  have hne := (expected_inStream he).1
  rw [expected_place he]
  cases e with
  | command => exact absurd rfl hne
  | _ => rfl

/-- An element's illegal bits are an error of the phase that reads it. -/
theorem mayReject_listed {e : Expect} {err : StreamError} (h : mayReject e err = true) :
    (errorsOf (elementPlace e).1).contains err = true := by
  rcases mayReject_cases h with ⟨rfl, rfl⟩ | ⟨rfl, rfl⟩ | ⟨_, rfl, rfl⟩ | ⟨_, _, rfl, rfl⟩ <;> rfl

theorem rejectElement_failsAsListed {p : Phase} {err : StreamError} (h : (errorsOf p).contains err = true) (s : State) :
    failsAsListed p (rejectElement err s) := by
  rcases rejectElement_cases err s with h' | ⟨_, _, h'⟩ <;> rw [h']
  · exact failsAsListed_raise h s
  · exact failsAsListed_of_ne nofun

/-- An element raises, in the phase that reads it, an error of that phase, or leads to a phase that is not `FAILED`. -/
theorem exec_failsAsListed {i : Instr} {s t : State} (hi : isElement i = true) (hs : s.phase = phaseOf i)
    (hne : s.phase ≠ .failed) (h : exec i s = .next t) : failsAsListed s.phase t := by
  cases exec_cases hi h with
  | shLevelBad _ ht | tbNgroupsBad _ ht | tbNselBad _ ht | tbSelectorBad _ ht | trCrcBad _ ht =>
    rw [hs, ht]; exact failsAsListed_raise rfl _
  | symRunBad _ hrun ht =>
    rw [hs, ht]; rcases hrun with rfl | rfl <;> exact failsAsListed_raise rfl _
  | symMtf _ ht =>
    obtain ⟨_, _, _, _, rfl | rfl⟩ := mtfSymbol_form ht
    · exact failsAsListed_of_ne nofun
    · rw [hs]; exact failsAsListed_raise rfl _
  | tbSelector _ _ _ ht => subst ht; exact failsAsListed_of_ne (by dsimp only; split <;> exact nofun)
  | tbLenStop _ _ ht =>
    rcases advanceLength_cases _ with ⟨_, _, h'⟩ | ⟨_, _, h'⟩ | ⟨_, h'⟩ <;> rw [ht, h'] <;>
      exact failsAsListed_of_ne nofun
  | symRun _ _ _ _ ht => subst ht; exact failsAsListed_of_ne nofun
  | trPad _ ht | tbLenInc ht | tbLenDec ht => subst ht; exact failsAsListed_of_ne hne
  | _ => rename_i ht; subst ht; exact failsAsListed_of_ne nofun

/-- A turn towards an element fails at the end of the input, by illegal bits, or in the element's execution. -/
theorem elementCase_failsAsListed {e : Expect} {s t : State} (he : expected s = some e) (h : ElementCase e s t) :
    failsAsListed s.phase t := by
  have hne := (decodes_not_terminal (expected_decodes he)).2.2
  have exec_listed {i bits rest live} (hd : decode e bits = .instr i rest)
      (h : exec i { s with bsLive := live, part := [] } = .next t) : failsAsListed s.phase t :=
    exec_failsAsListed (s := { s with bsLive := live, part := [] }) (expected_isElement he (decode_instr hd))
      ((expected_place he).trans (phaseOf_of_mayRead (decode_instr hd)).symm) hne h
  have reject_listed {err bits} (u : State) (hd : decode e bits = .illegal err) :
      failsAsListed s.phase (rejectElement err u) := by
    rw [expected_place he]
    exact rejectElement_failsAsListed (mayReject_listed (decode_illegal hd)) u
  cases h with
  | fetch _ _ _ _ _ _ _ _ ht | more _ _ _ _ _ _ _ ht => subst ht; exact failsAsListed_of_ne hne
  | eoi _ _ _ _ _ _ ht => subst ht; exact failsAsListed_raise (endOfInputError_listed he) _
  | run _ _ _ _ _ _ _ hd ht => exact exec_listed hd ht
  | bad _ _ _ _ _ _ hd ht => subst ht; exact reject_listed _ hd
  | heldRun _ _ hd ht => exact exec_listed hd ht
  | heldBad _ hd ht => subst ht; exact reject_listed _ hd

theorem outputPass_failsAsListed {s t : State} (hs : s.phase = .blockOutput) (h : outputPass s = .ok t) :
    failsAsListed s.phase t := by
  have hne : s.phase ≠ .failed := by rw [hs]; exact nofun
  rcases outputPass_ok h with ⟨_, rfl⟩ | ⟨_, _, _, rfl⟩ | ⟨_, _, _, rfl⟩ | ⟨_, _, b, u, hw, rfl⟩
  · obtain ⟨_, _, _, ht⟩ := emit_eq s.rlePrev { s with repLeft := s.repLeft - 1#8 }
    rw [ht]; exact failsAsListed_of_ne hne
  · rw [hs]; exact failsAsListed_raise rfl _
  · exact failsAsListed_of_ne nofun
  · obtain ⟨_, _, _, rfl⟩ := walkByte_form hw
    rcases expandByte_cases b _ with ⟨_, ht⟩ | ⟨_, _, _, ht⟩ <;> rw [ht]
    · exact failsAsListed_of_ne hne
    · obtain ⟨_, _, _, ht'⟩ := emit_eq b _
      rw [ht']; exact failsAsListed_of_ne hne

/-- Say once which errors a pass of the READ loop raises. -/
theorem readCase_failsAsListed {s t : State} (hne : s.phase ≠ .failed) (h : ReadCase s t) :
    failsAsListed s.phase t := by
  cases h with
  | element e he h => exact elementCase_failsAsListed he h
  | badLength hp _ ht => rw [hp, ht]; exact failsAsListed_raise rfl _
  | alphabet hp ht =>
    rw [hp, ht]
    rcases alphabetPass_cases s with ⟨_, h⟩ | ⟨_, h⟩ <;> rw [h]
    · exact failsAsListed_raise rfl _
    · exact failsAsListed_of_ne nofun
  | selectorList _ ht =>
    obtain ⟨_, _, _, rfl, _⟩ := selectorListPass_ok ht
    exact failsAsListed_of_ne nofun
  | build hp ht =>
    rw [hp]
    obtain ⟨_, _, ⟨_, rfl⟩ | ⟨_, rfl⟩⟩ := buildPass_ok ht
    · exact failsAsListed_raise rfl _
    · rcases advanceBuild_cases _ with ⟨_, h⟩ | ⟨_, h⟩ <;> rw [h] <;> exact failsAsListed_of_ne nofun
  | symbolInit _ ht =>
    obtain ⟨_, rfl⟩ := symbolInitPass_ok ht
    exact failsAsListed_of_ne nofun
  | group hp ht =>
    rw [hp]
    rcases groupPass_ok ht with ⟨_, _, rfl⟩ | ⟨_, _, _, _, rfl⟩ | ⟨_, rfl⟩
    · exact failsAsListed_raise rfl _
    · exact failsAsListed_of_ne nofun
    · exact failsAsListed_of_ne nofun
  | setup hp ht =>
    rw [hp]
    rcases setupPass_ok ht with ⟨_, rfl⟩ | ⟨_, _, _, _, _, _, h⟩
    · exact failsAsListed_raise rfl _
    · obtain ⟨_, _, rfl⟩ := outputInit_ok h
      exact failsAsListed_of_ne nofun
  | output hp ht => exact outputPass_failsAsListed hp ht
  | blockEnd hp ht =>
    rw [hp, ht]
    rcases blockEndPass_cases s with ⟨_, h⟩ | ⟨_, h⟩ <;> rw [h]
    · exact failsAsListed_of_ne nofun
    · exact failsAsListed_raise rfl _
  | endOfStream _ ht =>
    obtain ⟨_, h⟩ := answerEndOfStream_eq s
    rw [ht, h]; exact failsAsListed_of_ne hne
  | failed hp _ => exact absurd hp hne

/-- Settles O49: inside a READ every failure is of the phase's list; between commands no step fails. -/
theorem phaseRaisesOnlyItsErrors : Obligations.PhaseRaisesOnlyItsErrors := by
  intro s t h hne
  cases step_cases h with
  | read _ _ h => exact readCase_failsAsListed hne h
  | opens _ _ _ _ _ _ ht | closes _ _ _ _ _ ht | resets _ _ _ _ ht => subst ht; exact failsAsListed_of_ne nofun
  | _ => rename_i ht; subst ht; exact failsAsListed_of_ne hne

/-! The answers of the terminal phases (60_exceptions.md R191, 46_host.md R178). -/

theorem readPass_failed {s : State} (hp : s.phase = .failed) : readPass s = .next (answerError s) := by
  rw [readPass, hp]

/-- `FAILED` answers a READ with the error latched. -/
theorem step_failed_read {s : State} (hm : s.refusalMark = false) (hj : s.job = some .read) (hp : s.phase = .failed) :
    step s = .next { s with job := none, answers := s.answers ++ [.error s.errCode s.errReason] } := by
  rw [step_of_job hm (by simp [hj]), readPass_failed hp, answerError, hj]
  rfl

/-- Inside READ_BYTES the call then returns that error (46_host.md R181). -/
theorem step_failed_readBytes {s : State} {n k : Nat} (hm : s.refusalMark = false)
    (hj : s.job = some (.readBytes n k)) (hp : s.phase = .failed) :
    step s = .next
      { s with
        job := none, answers := s.answers ++ [.error s.errCode s.errReason]
        rbReturns := s.rbReturns ++ [.error s.errCode s.errReason] } := by
  rw [step_of_job hm (by simp [hj]), readPass_failed hp, answerError_readBytes hj]
  rfl

/-- Settles O47: the two terminal phases, each with a READ and with a READ of READ_BYTES. -/
theorem terminalPhasesAnswerTheSameEvent : Obligations.TerminalPhasesAnswerTheSameEvent :=
  fun _ hm => ⟨fun hj => ⟨step_failed_read hm hj, step_endOfStream_read hm hj⟩,
    fun _ _ hj => ⟨step_failed_readBytes hm hj, step_endOfStream_readBytes hm hj⟩⟩

/-! The idle machine (60_exceptions.md R203). -/

/-- With nothing at the port, the port gives the step nothing to do (log entry 6). -/
theorem portPass_nil {s : State} (hq : s.port = []) : portPass s = .next s := by
  rw [portPass, hq]

/-- Settles O9: between commands the step is a turn of the port, and the port is empty. -/
theorem idleMachineKeepsItsState : Obligations.IdleMachineKeepsItsState :=
  fun _ hm hj hq => (step_of_idle hm hj).trans (portPass_nil hq)

end Sys2Proof.Proofs
end

section
/-! Reset (70_reset_and_hazards.md R206): the machine a hardware reset leaves, and the invariants of a machine just
reset; and the parameters, which no step changes (R219). -/

namespace Sys2Proof.Proofs

open Sys2Proof.Machine Sys2Proof.Safety Sys2Proof.Laws

/-! The parameters. -/

/-- A pass of the READ loop leaves the parameters. -/
theorem ReadEffect.cfg {s t : State} (h : ReadEffect s t) : t.cfg = s.cfg := by
  cases h with
  | reading _ ht | counted _ _ ht => rw [ht]
  | passes h _ => exact h.cfg

/-- Settles O52: a pass of the READ loop leaves the parameters, and so does what the host or a reset does. -/
theorem configurationIsConstant : Obligations.ConfigurationIsConstant := by
  intro s t h
  cases step_cases h with
  | read _ _ h => exact (readCase_effect h).cfg
  | idle _ _ _ ht | opens _ _ _ _ _ _ ht | reads _ _ _ _ _ _ ht | closes _ _ _ _ _ ht | status _ _ _ _ _ _ _ ht
  | readsNone _ _ _ _ _ ht | readsBytes _ _ _ _ _ _ _ ht | resets _ _ _ _ ht => subst ht; rfl

/-! What a reset leaves (R206). -/

theorem registersZero_hardwareReset (s : State) : registersZero (hardwareReset s) := by
  simp [registersZero]

theorem filesZero_hardwareReset (s : State) : filesZero (hardwareReset s) := by
  refine ⟨rfl, rfl, rfl, rfl, fun t ht => ?_⟩
  have hreset : t = huffTableReset := by
    rw [hardwareReset_tables, Vector.toList_replicate] at ht
    exact List.eq_of_mem_replicate ht
  subst hreset
  exact ⟨rfl, rfl, rfl, rfl, rfl, rfl, rfl⟩

theorem memoriesUnwritten_hardwareReset (s : State) : memoriesUnwritten (hardwareReset s) :=
  ⟨rfl, rfl, rfl, rfl, rfl, rfl⟩

/-- `S_STATUS` reads 0 too, of `State.reset` and so of every reset, as it shows nothing that a reset keeps: the code of
`CLOSED` is 0 (10_state.md R15, R31). -/
theorem statusRegister_hardwareReset (s : State) (i : BitVec 4) : statusRegister (hardwareReset s) i = 0#32 := by
  by_cases hi : i = 0#4
  · subst hi
    have hstatus : statusWord State.reset = 0#32 := by decide
    exact hstatus
  · exact statusRegister_of_registersZero (registersZero_hardwareReset s) hi

/-- The state after reset is what a reset makes of itself. -/
theorem hardwareReset_reset : hardwareReset State.reset = State.reset := rfl

/-- A reset at the port is taken between commands (log entry 13). -/
theorem step_reset {s : State} {rest : List PortEvent} (hm : s.refusalMark = false) (hj : s.job = none)
    (hq : s.port = .reset :: rest) : step s = .next (hardwareReset { s with port := rest }) := by
  rw [step_of_idle hm hj, portPass, hq]

/-- Settles O1: `State.reset` and the state after the event are each one that `hardwareReset` leaves. -/
theorem hardwareResetClearsTheMachine : Obligations.HardwareResetClearsTheMachine := by
  constructor
  · rw [← hardwareReset_reset]
    exact ⟨rfl, registersZero_hardwareReset _, filesZero_hardwareReset _, memoriesUnwritten_hardwareReset _,
      rfl, rfl, rfl, statusRegister_hardwareReset _⟩
  · intro s rest hm hj hq
    exact ⟨_, step_reset hm hj hq, rfl, registersZero_hardwareReset _, filesZero_hardwareReset _,
      memoriesUnwritten_hardwareReset _, rfl, rfl, rfl, statusRegister_hardwareReset _, rfl, rfl, rfl⟩

/-! The invariants after reset. -/

/-- Settles O2: nothing is written in the memories, no bits of an element are held (log entries 1 and 4), and what the
others ask of a phase they do not ask of `CLOSED`. -/
theorem resetMeetsTheInvariants : Obligations.ResetMeetsTheInvariants := by
  have hmem : memoriesWf State.reset := reset_memories_wf
  refine ⟨?noFaultInv, hmem, ?betweenCommands, ?errorLatch, ?endVerified, ?readerBound⟩
  case noFaultInv => exact ⟨hmem, Nat.zero_le _, fun hopen => absurd rfl hopen, trivial⟩
  case betweenCommands => exact ⟨fun _ => rfl, fun hpart => absurd rfl hpart⟩
  case errorLatch => exact ⟨nofun, fun _ => .inr rfl⟩
  case endVerified => exact nofun
  case readerBound => exact .inr (.inr (.inl rfl))

end Sys2Proof.Proofs
end
